-- ==== Sys2Proof/Word.lean ====
section
/-! DEFINITION. The words of the Decpo, and the small closed vocabularies that operands and state share
(spec 00 R5, R6; 05 R118; 03 R79). -/

namespace Sys2Proof

/-- A byte. -/
abbrev Byte := BitVec 8
/-- A 32-bit word: a thread register, a scalar, a stamp. -/
abbrev Word := BitVec 32
/-- A 64-bit word: an address register, a pair. -/
abbrev DWord := BitVec 64
/-- A hypervector (12 R267). -/
abbrev HVec := BitVec 8192

/-- A home line: a 128-byte global line (`pa / 128`), a 64-byte chip-scratchpad line (`A / 64`), a 64-byte
core-scratchpad or shared-window line (`core`, `offset / 64`), or a cluster's Granary with its cursors, one home
location (03 R79, 12 R280). -/
inductive LineKey
  | glob (n : Nat)
  | chip (n : Nat)
  | loc (core n : Nat)
  | gran (cluster : Nat)
  | chan (h : Nat)
deriving DecidableEq, Repr

/-- How a peer answers a request (18 R358 to R361). -/
inductive PeerStatus
  | ok | unreachable | denied | expired | busy
deriving DecidableEq, Repr

/-- What a peer asks of this device (18 R358, R360). -/
inductive PeerKind
  | load | store | atomic
deriving DecidableEq, Repr

end Sys2Proof
end

