-- ==== Sys2Proof/Config.lean ====
section
/-! DEFINITION. What an implementation fixes and the values the spec leaves open. Every constant is opaque: no proof
and no evaluation can see a value of one (logs 3, 11, 13). -/

namespace Sys2Proof

/-- Fresh bytes where the spec calls memory unspecified (02 R66, 19 R377), indexed by the state's free counter. -/
opaque Config.freeByte : Nat → Byte
/-- Fresh words where the spec leaves a whole value open, indexed by the state's free counter. -/
opaque Config.freeWord : Nat → BitVec 512
/-- The bits a special function returns within its bound: function number, accurate grade, rounding mode, input
(07 R180: "the particular bits are a property of this part"). -/
opaque Config.special : Nat → Bool → Nat → Word → Word
/-- True for order code DCP-1152C, false for DCP-1152L (00 R1). -/
opaque Config.isC : Bool
/-- On the DCP-1152C, whether the attached devices' HDM decoders map an address of LC1's range (18 R343, R345). -/
opaque Config.hdmMapped : Nat → Bool
/-- The image digest that boot stage 4 extends register 3 with: the configuration record (18 R350). -/
opaque Config.configRecord : BitVec 512
/-- SHAKE256 with 64 bytes of output over a byte string given as a number and its length in bytes: a standard
function, uninterpreted here (18 R349, R350). -/
opaque Config.shake256 : Nat → Nat → BitVec 512
/-- The Ed448 signature by the device identity key over a 64-byte digest (18 R350). -/
opaque Config.identitySign : BitVec 512 → BitVec 512 → BitVec 912
/-- The certificate chain of the identity key for a value of measurement register 0 (18 R350). -/
opaque Config.identityChain : BitVec 512 → List Byte
/-- The versions of the images of a flash bank (18 R350). -/
opaque Config.imageVersions : Nat → List Byte
/-- The flags byte of the event record of a TYPE with a sequence number: 18 R347 states no flag. -/
opaque Config.eventFlags : Nat → Nat → Byte
/-- What an image set carries, by number: its public key, the SHAKE256 digest of its body, its signature and its security counter
(18 R349). -/
opaque Config.imageKey : Nat → BitVec 456
opaque Config.imageDigest : Nat → BitVec 512
opaque Config.imageSig : Nat → BitVec 912
opaque Config.imageCounter : Nat → Nat
/-- The four key digests fused in LC0, whether the revocation fuse of each is blown, and the fused anti-rollback count (18 R349). -/
opaque Config.keyDigest : Nat → BitVec 512
opaque Config.keyRevoked : Nat → Bool
opaque Config.rollbackCount : Nat
/-- PureEd448 verification with an empty context of a signature over a digest by a public key: a standard function, uninterpreted
here (18 R349). -/
opaque Config.ed448Verify : BitVec 456 → BitVec 512 → BitVec 912 → Bool
/-- The DRAM row of a stack in which a first-tier address lies (19 R365: the spec gives no row mapping). -/
opaque Config.rowOf : Nat → Nat
/-- The bank of a row of a stack (19 R367). -/
opaque Config.bankOf : Nat → Nat
/-- Which of the twelve memory and two link chiplets holds a copy engine (17 R324, 19 R372: the spec gives no placement). -/
opaque Config.engineChip : Nat → Nat
/-- The peer port that SUB 0x07 names for a remote access that is never sent, by its address (19 R363: a port from 0 to 7, and the access
has none). -/
opaque Config.unsentPort : Nat → BitVec 3
/-- Flits in the retry buffer of a peer port (18 R359 gives no measure of them), by port and the state's free counter. -/
opaque Config.retryFlits : Nat → Nat → BitVec 12
/-- The port of that chiplet: 8 to 19 for memory, 20 and 21 for links (00 R9). -/
def Config.enginePort (engine : Nat) : Nat := 8 + Config.engineChip engine % 14

end Sys2Proof
end

