-- ==== Sys2Proof/Syntax.lean ====
section
/-! DEFINITION. The instructions: one constructor for each row of spec/opcode_table.json, in its order. A Plough or
Drill row carries the fields of its first word, and of its extension where the row is wide; an event row carries what
its agent chooses. -/

namespace Sys2Proof

/-- The fields of a first word (05 R121): C, G, and the body read in format A (D, A, AM, B, BM, X). The other formats
are views of the same 21 bits (`PW.imm8`, `PW.off21`). -/
structure PW where
  c : Bool
  g : BitVec 3
  d : BitVec 6
  a : BitVec 6
  am : Bool
  b : BitVec 6
  bm : Bool
  x : Bool
deriving DecidableEq, Repr

/-- The fields of an extension word (05 R121, R123): the chain bit of the pair and the 24-bit body. -/
structure PX where
  c : Bool
  body : BitVec 24
deriving DecidableEq, Repr

/-- A command record of the mailbox (18 R347): its TYPE, its sequence number and its body as a number, with whether
its request is answered over I3C. -/
structure MboxCmd where
  typ : Nat
  seq : Nat
  body : BitVec 480
  i3c : Bool
deriving DecidableEq, Repr

/-- A request arriving from a peer (18 R358, R360). -/
structure PeerReq where
  kind : PeerKind
  id : DWord
  dev : Nat
  srcIndex : Nat
  age : Nat
  pa : Nat
  opa : Nat
  bytes : List Byte
deriving DecidableEq, Repr

/-- The instructions and device steps of the Decpo. -/
inductive Instr
  | nop (w : PW)
  | bra (w : PW)
  | call (w : PW)
  | jmpi (w : PW)
  | calli (w : PW)
  | ret (w : PW)
  | exit (w : PW)
  | yield (w : PW)
  | trap (w : PW)
  | eret (w : PW)
  | cinit (w : PW)
  | csign (w : PW)
  | cwait (w : PW)
  | csrr (w : PW)
  | csrw (w : PW)
  | qent (w : PW)
  | iadd (w : PW)
  | isub (w : PW)
  | imul (w : PW)
  | imulh (w : PW)
  | imad (w : PW) (x : PX)
  | imin (w : PW)
  | imax (w : PW)
  | xmov (w : PW) (x : PX)
  | iaddi (w : PW)
  | iaddiWide (w : PW) (x : PX)
  | shli (w : PW)
  | shri (w : PW)
  | sari (w : PW)
  | bitc (w : PW) (x : PX)
  | movi (w : PW)
  | moviWide (w : PW) (x : PX)
  | icmp (w : PW) (x : PX)
  | sel (w : PW) (x : PX)
  | and (w : PW)
  | or (w : PW)
  | xor (w : PW)
  | shl (w : PW)
  | shr (w : PW)
  | sar (w : PW)
  | bfx (w : PW) (x : PX)
  | bfi (w : PW) (x : PX)
  | fadd (w : PW)
  | faddWide (w : PW) (x : PX)
  | fsub (w : PW)
  | fsubWide (w : PW) (x : PX)
  | fmul (w : PW)
  | fmulWide (w : PW) (x : PX)
  | ffma (w : PW) (x : PX)
  | fmin (w : PW)
  | fmax (w : PW)
  | fcmp (w : PW) (x : PX)
  | fsgn (w : PW) (x : PX)
  | hadd (w : PW)
  | haddWide (w : PW) (x : PX)
  | hsub (w : PW)
  | hsubWide (w : PW) (x : PX)
  | hmul (w : PW)
  | hmulWide (w : PW) (x : PX)
  | hfma (w : PW) (x : PX)
  | hmin (w : PW)
  | hmax (w : PW)
  | fcvt (w : PW) (x : PX)
  | icvt (w : PW) (x : PX)
  | rcp (w : PW)
  | rcpWide (w : PW) (x : PX)
  | rsq (w : PW)
  | rsqWide (w : PW) (x : PX)
  | sqrt (w : PW)
  | sqrtWide (w : PW) (x : PX)
  | ex2 (w : PW)
  | ex2Wide (w : PW) (x : PX)
  | lg2 (w : PW)
  | lg2Wide (w : PW) (x : PX)
  | sinp (w : PW)
  | sinpWide (w : PW) (x : PX)
  | cosp (w : PW)
  | cospWide (w : PW) (x : PX)
  | tanh (w : PW)
  | tanhWide (w : PW) (x : PX)
  | vany (w : PW)
  | vall (w : PW)
  | vbal (w : PW)
  | shfl (w : PW)
  | shup (w : PW)
  | shdn (w : PW)
  | shxr (w : PW)
  | scan (w : PW) (x : PX)
  | red (w : PW) (x : PX)
  | matchv (w : PW)
  | elect (w : PW)
  | idp4 (w : PW) (x : PX)
  | idp8 (w : PW) (x : PX)
  | ldp (w : PW)
  | ldpWide (w : PW) (x : PX)
  | stp (w : PW)
  | stpWide (w : PW) (x : PX)
  | lds (w : PW)
  | ldsWide (w : PW) (x : PX)
  | sts (w : PW)
  | stsWide (w : PW) (x : PX)
  | ldc (w : PW)
  | ldcWide (w : PW) (x : PX)
  | stc (w : PW)
  | stcWide (w : PW) (x : PX)
  | ldx (w : PW)
  | ldxWide (w : PW) (x : PX)
  | stx (w : PW)
  | stxWide (w : PW) (x : PX)
  | ld (w : PW)
  | ldWide (w : PW) (x : PX)
  | st (w : PW)
  | stWide (w : PW) (x : PX)
  | pref (w : PW)
  | prefWide (w : PW) (x : PX)
  | discard (w : PW)
  | tagset (w : PW)
  | tagsetWide (w : PW) (x : PX)
  | redm (w : PW) (x : PX)
  | hld (w : PW)
  | hldWide (w : PW) (x : PX)
  | hst (w : PW)
  | hstWide (w : PW) (x : PX)
  | atom (w : PW) (x : PX)
  | atomx (w : PW) (x : PX)
  | cas (w : PW) (x : PX)
  | casx (w : PW) (x : PX)
  | waita (w : PW) (x : PX)
  | waitc (w : PW) (x : PX)
  | waito (w : PW)
  | sbar (w : PW)
  | pbar (w : PW)
  | msync (w : PW)
  | kbinit (w : PW)
  | kbarr (w : PW)
  | kbwait (w : PW)
  | kbinv (w : PW)
  | send (w : PW)
  | recv (w : PW)
  | plane (w : PW) (x : PX)
  | unplane (w : PW) (x : PX)
  | mma (w : PW) (x : PX)
  | nanr (w : PW)
  | hbind (w : PW)
  | hperm (w : PW)
  | hseed (w : PW)
  | hbund (w : PW)
  | hthr (w : PW)
  | hdist (w : PW)
  | hgwr (w : PW)
  | hqry (w : PW) (x : PX)
  | stopt (w : PW)
  | sret (w : PW)
  | dnop (w : PW)
  | dbra (w : PW)
  | dend (w : PW)
  | dloop (w : PW) (x : PX)
  | dnext (w : PW)
  | dwaito (w : PW)
  | aadd (w : PW)
  | aaddi (w : PW)
  | aaddiWide (w : PW) (x : PX)
  | amovi (w : PW)
  | amoviWide (w : PW) (x : PX)
  | ashli (w : PW)
  | amul (w : PW)
  | dld (w : PW)
  | dldWide (w : PW) (x : PX)
  | dldx (w : PW)
  | dldxWide (w : PW) (x : PX)
  | dlds (w : PW)
  | dldsWide (w : PW) (x : PX)
  | dldc (w : PW)
  | dldcWide (w : PW) (x : PX)
  | dgath (w : PW) (x : PX)
  | dpush (w : PW)
  | dqbr (w : PW)
  | dcopy (w : PW)
  | dpref (w : PW)
  | dprefWide (w : PW) (x : PX)
  | park (gid : Nat)
  | stallRecheck (core : Nat)
  | wakeQueueSeat (core : Nat)
  | wakeQueueAging (gid : Nat)
  | streamDeadlock (gid : Nat)
  | groupEnd (gid : Nat)
  | tbaseAdvance
  | stampSweep
  | homeLoad (gid rid part : Nat)
  | homeStore (gid rid part : Nat)
  | homeAtomic (mc : Nat)
  | syncEngineRelease (line : LineKey)
  | l2Fill (line : Nat)
  | l2Evict (line : Nat)
  | discardSliceComplete (id mc : Nat)
  | loadReply (gid rid part : Nat)
  | loadValidation (gid rid : Nat)
  | storeStampReturn (gid rid part : Nat)
  | windrowArrival (stage port : Nat)
  | winnowSplit (stage : Nat)
  | drillLoadValidation (gid rid : Nat)
  | gatherEntryFill (gid rid : Nat)
  | engineOpRetire (gid cls : Nat)
  | engineTake (cluster : Nat)
  | sheafDeadline (cluster sheaf : Nat)
  | sheafOperandsRead (cluster sheaf : Nat)
  | groupEvict (gid : Nat)
  | plotResume (pid : Nat)
  | uncorrectableConsumption (gid rid : Nat)
  | shadowDivergence (gid : Nat)
  | rollback (pid : Nat)
  | networkDeadlockDetect (routers : List Nat)
  | networkDeadlockRecover (routers : List Nat)
  | channelSlotArrive (lid ch : Nat)
  | cheadWrite (h : Nat) (addr : DWord)
  | cctlGo (h : Nat)
  | copyRecordFetch (h : Nat)
  | copyRecordComplete (h : Nat)
  | copyRecordFail (h : Nat)
  | qtailDoorbell (q : Nat) (value : Word)
  | queueEnable (q : Nat) (en : Bool)
  | queueCancel (q : Nat)
  | launchEntryFetch (q : Nat)
  | launchAdmit (q : Nat)
  | plotPlace
  | launchComplete (lid : Nat)
  | contextLoad (ctx : Nat)
  | contextLoadInvg (ctx : Nat)
  | clwinWrite (cluster code : Nat)
  | clwinApply (cluster : Nat)
  | hsenWrite (value : DWord)
  | hskick (stream : Nat)
  | haywardStepBoundary (stream : Nat)
  | tlbShootdownPage (ctx : Nat) (va : DWord)
  | tlbShootdownContext (ctx : Nat)
  | tlbShootdownAll
  | tlbShootdownComplete
  | pageWalk (core ctx : Nat) (va : DWord)
  | mailboxDoorbell (tail : Word) (recs : List MboxCmd)
  | evheadWrite (value : Word)
  | resume (gid : Nat)
  | handler (gid : Nat)
  | kill (gid : Nat)
  | translationReply (ctx : Nat) (va : DWord) (reply : Option (Nat × BitVec 128))
  | victimReply (pids : List Nat)
  | quote (nonce : BitVec 256)
  | fwstage (image : Nat) (ok : Bool)
  | enterS4
  | ckpt
  | checkpointWriteComplete
  | restore (q entry : Nat) (ranges : List (Nat × Nat))
  | restoreComplete
  | deviceReset
  | bootStageComplete (digest : BitVec 512) (ok : Bool)
  | powerStateEntry (level unit : Nat)
  | powerWake
  | hostWrite (port : Nat) (pa : Nat) (bytes : List Byte)
  | hostRead (port : Nat) (pa n : Nat)
  | cmapSetBoth (src dst : Nat)
  | cmapSetHalf (src dst : Nat) (sel : Bool)
  | cmapSetRelay (src dst k : Nat)
  | cmapChangeComplete (src dst : Nat)
  | colourFail (src dst : Nat) (colour : Bool)
  | colourRetry (src dst : Nat) (colour locks : Bool)
  | heaterMargin (src dst : Nat) (colour : Bool)
  | recentreTimeout (src dst : Nat) (colour : Bool)
  | peerQuiesce (port : Nat)
  | peerQuiesced (port : Nat)
  | peerResume (port : Nat)
  | peerTrainingComplete (port dev ecc : Nat)
  | peerEccPropose (port : Nat)
  | eccProposeReceived (port mode : Nat)
  | eccAckReceived (port mode : Nat)
  | eccProposeResend (port : Nat)
  | eccSwitchMarker (port mode : Nat)
  | eccWindowExpire (port : Nat)
  | peerRequestArrive (port : Nat) (req : PeerReq)
  | peerResponseArrive (id : DWord) (status : PeerStatus) (value : BitVec 1024)
  | peerResendTimeout (id : DWord)
  | peerBusyRetry (id : DWord)
  | peerAccessTimeout (id : DWord)
  | completionEntryExpire (id : DWord)
  | gleanerVisit (mc row : Nat)
  | ceSecondExpire (mc : Nat)
  | watchadd (pa : DWord)
  | rowAlert (mc row : Nat)
  | backoffEnd (mc bank : Nat)
  | refreshWindow (mc : Nat)
  | telsnap
  | chipDrain (port : Nat)
  | chipDrainComplete (port : Nat)
  | chipReset (port : Nat)
  | chipSelftestComplete (port : Nat) (pass : Bool)
  | chipReturn (port : Nat)
  | chipletFail (port : Nat)
  | registerWrite (off width : Nat) (value : DWord)
  | l2Flush
  | secondTierAccessTimeout (gid rid : Nat)
  | channelCreditArrive (lid ch : Nat)
  | ringRelockComplete (src dst : Nat) (colour : Bool)
  | peerFlitRetry (port : Nat)
  | fabricLinkRetry (src dst : Nat)
deriving DecidableEq, Repr

end Sys2Proof
end

