-- ==== Sys2Proof/WellFormed.lean ====
section
/-! DEFINITION. Which words are instructions: the part of the illegal-instruction check (05 R138) that depends on the
word alone. `Instr.info` gives, for each word, its pipe class (05 R119), the class of each register field (05 R124 to
R127), and whether its other fields hold values its entry accepts. -/

namespace Sys2Proof

/-- The pipe classes of 05 R119, the single class of the Drill stream, and the device steps, which have none. -/
inductive Pipe
  | br | int | fp | sf | ln | mem | mx | drill | event
deriving DecidableEq, Repr

/-- What a 6-bit field with its mode bit names (05 R124, R126, R127; 08 R187). -/
inductive FC
  /-- unused: field and mode bit zero -/
  | zero
  /-- part of an immediate: any value -/
  | imm
  /-- an immediate in the field alone: its mode bit is zero -/
  | lit
  /-- thread source of n registers (1, 2 or 4) -/
  | src (n : Nat)
  /-- thread destination of n registers; `q` tells whether code 63 may discard -/
  | dst (n : Nat) (q : Bool)
  /-- the pair of a .x4 load: v55 is left to the format fault (02 R63) -/
  | dstX4
  | pred | scal | quad | conv | hyp | bun | ctr
  | areg | avec
  /-- push to q0 to q7 (codes 56 to 63) -/
  | dq
  /-- source qb (code 56), whose mode bit peeks -/
  | qbs
deriving DecidableEq, Repr

/-- The field and its mode bit are allowed for the class. -/
def FC.ok (k : FC) (f : BitVec 6) (m : Bool) : Bool :=
  match k with
  | .zero => f.toNat == 0 && !m
  | .imm => true
  | .lit => !m
  | .src 1 => true
  | .src n => f.toNat + n ≤ 56
  | .dst 1 _ => f.toNat ≤ 56 || f.toNat == 63
  | .dst n q => f.toNat + n ≤ 56 || (q && f.toNat == 63)
  | .dstX4 => f.toNat < 56 || f.toNat == 63
  | .pred => f.toNat < 7 && !m
  | .scal => f.toNat < 32 && !m
  | .quad => f.toNat < 8 && !m
  | .conv => f.toNat < 16 && !m
  | .hyp => f.toNat < 16 && !m
  | .bun => f.toNat < 4 && !m
  | .ctr => f.toNat < 4 && !m
  | .areg => f.toNat < 16 && !m
  | .avec => f.toNat < 16 && f.toNat % 2 == 0 && !m
  | .dq => 56 ≤ f.toNat && !m
  | .qbs => f.toNat == 56

/-- What a word is: pipe class, field classes of D, A, B and vc, and whether the rest of the word is accepted. -/
structure Info where
  pipe : Pipe
  d : FC
  a : FC
  b : FC
  v : FC
  /-- the entry gives X a meaning -/
  x : Bool
  ok : Bool
deriving DecidableEq, Repr

/-- A device step: no word, nothing to check. -/
def Info.event : Info := ⟨.event, .imm, .imm, .imm, .imm, true, true⟩

/-! Views of the fields (05 R121 to R123). -/

/-- IMM8, bits 7:0 of a first word. -/
def PW.imm8 (w : PW) : BitVec 8 := w.b ++ BitVec.ofBool w.bm ++ BitVec.ofBool w.x
/-- The branch offset of format B, bits 20:0. -/
def PW.off21 (w : PW) : BitVec 21 := w.d ++ w.a ++ BitVec.ofBool w.am ++ w.imm8
def PX.vc (x : PX) : BitVec 6 := x.body.extractLsb' 18 6
def PX.cm (x : PX) : Bool := x.body.getLsbD 17
def PX.rnd (x : PX) : Nat := (x.body.extractLsb' 14 3).toNat
def PX.mode (x : PX) : BitVec 14 := x.body.extractLsb' 0 14
/-- Bits hi:lo of MODE as a number. -/
def PX.m (x : PX) (hi lo : Nat) : Nat := (x.mode.toNat >>> lo) % 2 ^ (hi - lo + 1)
def PX.typ (x : PX) : Nat := (x.body.extractLsb' 20 4).toNat
def PX.hint (x : PX) : Nat := (x.body.extractLsb' 18 2).toNat
def PX.offh (x : PX) : BitVec 18 := x.body.extractLsb' 0 18

/-- Size in bytes of a TYPE code (05 R123). -/
def typeSize (t : Nat) : Nat :=
  match t with
  | 0 | 1 | 11 | 13 | 14 => 1
  | 2 | 3 | 9 | 10 => 2
  | 6 | 7 => 8
  | 12 => 16
  | _ => 4

/-- The destination class of a load of TYPE t (08 R187). -/
def ldDst (t : Nat) : FC :=
  match t with
  | 6 | 7 => .dst 2 true
  | 11 => .dstX4
  | 12 => .dst 4 false
  | _ => .dst 1 true

/-- The data source class of a store of TYPE t (08 R187). -/
def stSrc (t : Nat) : FC :=
  match t with
  | 6 | 7 => .src 2
  | 12 => .src 4
  | _ => .src 1

/-- How many registers an operand of WID code n takes (08 R192): 4, 8 or 16 bytes. -/
def widRegs (n : Nat) : Nat := if n == 0 then 1 else if n == 1 then 2 else 4

def rndOk (r : Nat) : Bool := r == 0 || 4 ≤ r

/-- A format A word: destination, sources. -/
def fA (p : Pipe) (d a b : FC) (x : Bool := false) (ok : Bool := true) : Info := ⟨p, d, a, b, .zero, x, ok⟩
/-- A word whose low eight bits are an immediate. -/
def fI (p : Pipe) (d a : FC) (ok : Bool := true) : Info := ⟨p, d, a, .imm, .imm, true, ok⟩
/-- A wide word with layout X3, given its vc class. -/
def fX (p : Pipe) (d a b v : FC) (x ok : Bool) (w : PW) : Info := ⟨p, d, a, b, v, x, ok && !w.c⟩
/-- The X3 extension carries nothing but RND. -/
def onlyRnd (x : PX) : Bool := rndOk x.rnd && x.mode == 0
/-- The thread register source or pair that X selects. -/
def wide2 (x : Bool) : FC := if x then .src 2 else .src 1
def wide2d (x : Bool) : FC := if x then .dst 2 true else .dst 1 true
def localType (t : Nat) : Bool := t ≤ 8 || t == 12
def stType (t : Nat) : Bool := t ≤ 10 || (12 ≤ t && t ≤ 14)
def dldType (t : Nat) : Bool := t ≤ 5 || (8 ≤ t && t ≤ 10) || t == 13 || t == 14
def dlxType (t : Nat) : Bool := t ≤ 5 || t == 8

/-- A load or store word of format M with its TYPE and HINT. -/
def fM (d a : FC) (tok hok : Bool) : Info := ⟨.mem, d, a, .imm, .imm, true, tok && hok⟩
def gHint (h : Nat) : Bool := h ≤ 2

/-- State registers that exist (05 R132). -/
def csrKnown (n : Nat) : Bool := n ≤ 8 || (0x10 ≤ n && n ≤ 0x13) || (0x20 ≤ n && n ≤ 0x22) || (0x30 ≤ n && n ≤ 0x34)
/-- State registers that some mode may write (05 R132). -/
def csrWritable (n : Nat) : Bool := (0x10 ≤ n && n ≤ 0x13) || (0x30 ≤ n && n ≤ 0x34)

/-- The immediate shifts: bit 7 reserved, an amount of 32 or more only with W64 (06 R158). -/
def shiftImm (w : PW) : Info :=
  let i := w.imm8.toNat
  let w64 := i / 64 % 2 == 1
  fI .int (wide2d w64) (wide2 w64) (i < 128 && (w64 || i % 64 < 32))

/-- ICMP and FCMP share COND, COMB and NEG (06 R161, 07 R174). -/
def cmpInfo (p : Pipe) (w : PW) (x : PX) (maxCond : Nat) (src : FC) (xok : Bool) : Info :=
  fX p .pred src src (if x.m 5 4 == 0 then .zero else .pred) xok
    (x.rnd == 0 && !x.cm && x.m 3 0 ≤ maxCond && x.m 13 7 == 0) w

def fcvtOk (w : PW) (x : PX) : Info :=
  let s := x.m 3 0; let t := x.m 7 4; let sel := x.m 9 8
  let base := rndOk x.rnd && x.m 13 10 == 0
  let k (a b : FC) (xo : Bool) (so : Bool) : Info := fX .fp (.dst 1 true) a b .zero xo (base && so) w
  if s == 8 && t == 8 then k (.src 1) .zero false (sel == 0)
  else if s == 8 && (t == 9 || t == 10) then k (.src 1) (.src 1) false (sel == 0)
  else if s == 8 && (t == 13 || t == 14) then k (.src 2) (.src 2) true (sel == 0)
  else if t == 8 && (s == 9 || s == 10) then k (.src 1) .zero false (sel < 2)
  else if t == 8 && (s == 13 || s == 14) then k (.src 1) .zero false true
  else if (s == 9 && t == 10) || (s == 10 && t == 9) then k (.src 1) .zero false (sel == 0)
  else k .zero .zero false false

def icvtOk (w : PW) (x : PX) : Info :=
  let s := x.m 3 0; let t := x.m 7 4
  let isInt (n : Nat) : Bool := 4 ≤ n && n ≤ 7
  let pairS := s == 6 || s == 7; let pairD := t == 6 || t == 7
  fX .fp (wide2d pairD) (wide2 pairS) .zero .zero false
    (rndOk x.rnd && x.m 13 8 == 0 && ((isInt s && t == 8) || (s == 8 && isInt t))) w

/-- XMOV's pairs of kinds (06 R163). -/
def xmovInfo (w : PW) (x : PX) : Info :=
  let sk := x.m 3 0; let dk := x.m 7 4
  let src : FC := match sk with | 0 => .src 1 | 1 => .scal | 2 => .pred | 5 => .ctr | _ => .conv
  let dst : FC := match dk with | 0 => .dst 1 true | 1 => .scal | _ => .pred
  let legal := match sk with
    | 0 | 1 => dk ≤ 2
    | 2 => dk == 0 || dk == 2
    | 3 | 4 | 5 => dk ≤ 1
    | _ => false
  fX .int dst src .zero .zero false (legal && x.rnd == 0 && !x.cm && x.m 13 8 == 0) w

/-- OPA and WID rows of 08 R192; X only with `.fadd`. -/
def opaOk (opa wid : Nat) (x : Bool) : Bool :=
  wid < 3 && opa ≤ 11 && (wid != 2 || opa == 8) && (opa != 11 || wid == 0) && (!x || opa == 11)

def atomInfo (w : PW) (x : PX) (addr : FC) : Info :=
  let n := widRegs (x.m 5 4)
  fX .mem (.dst n true) addr (.src n) .zero true
    (x.rnd == 0 && !x.cm && x.m 13 6 == 0 && opaOk (x.m 3 0) (x.m 5 4) w.x) w

def casInfo (w : PW) (x : PX) (addr : FC) : Info :=
  let n := widRegs (x.m 5 4)
  fX .mem (.dst n true) addr (.src n) (.src n) false (x.rnd == 0 && x.m 13 6 == 0 && x.m 3 0 == 0 && x.m 5 4 < 3) w

/-- The TYPEs that PLANE and UNPLANE accept (11 R251, R252). -/
def planeType (t : Nat) : Bool := (8 ≤ t && t ≤ 11) || t == 13 || t == 14

def sfWide (w : PW) (x : PX) : Info :=
  fX .sf (.dst 1 true) (.src 1) .zero .zero true (onlyRnd x && !x.cm && (w.x || x.rnd == 0)) w

/-- A Drill word: C must be 0 and G must be 7 (10 R217). -/
def fD (w : PW) (d a b : FC) (x ok : Bool) : Info := ⟨.drill, d, a, b, .imm, x, ok && !w.c && w.g == 7⟩
/-- A wide Drill word. -/
def fDX (w : PW) (x : PX) (d a b : FC) (xo ok : Bool) : Info := fD w d a b xo (ok && !x.c)

/-- The classes of every word's fields. -/
def Instr.info (i : Instr) : Info :=
  match i with
  | .nop _ => fA .br .zero .zero .zero
  | .bra _ | .call _ => ⟨.br, .imm, .imm, .imm, .zero, true, true⟩
  | .jmpi _ | .ret _ => fA .br .zero (.src 2) .zero
  | .calli _ => fA .br (.dst 2 true) (.src 2) .zero
  | .exit _ | .yield _ | .eret _ => fA .br .zero .zero .zero
  | .trap _ => fI .br .zero .zero
  | .cinit _ => fA .br .conv (.src 1) .zero
  | .csign w | .cwait w => fI .br .conv .zero (w.imm8 == 0)
  | .csrr w => fI .br (.dst 1 true) .zero (csrKnown w.imm8.toNat)
  | .csrw w => fI .br .zero (.src 1) (csrWritable w.imm8.toNat)
  | .qent _ => fI .br (.dst 1 true) (.src 1)
  | .iadd w | .isub w | .imul w => fA .int (wide2d w.x) (wide2 w.x) (wide2 w.x) true
  | .imulh _ | .imin _ | .imax _ => fA .int (.dst 1 true) (.src 1) (.src 1) true
  | .imad w x =>
    let f := x.m 2 0
    fX .int (wide2d (f ≥ 4)) (.src 1) (.src 1) (wide2 (f ≥ 4)) false
      (x.rnd == 0 && x.m 13 3 == 0 && (f == 0 || f == 1 || f == 2 || f == 4 || f == 5)) w
  | .xmov w x => xmovInfo w x
  | .iaddi _ => fI .int (.dst 1 true) (.src 1)
  | .iaddiWide w _ => fI .int (.dst 1 true) (.src 1) (!w.c)
  | .shli w | .shri w | .sari w => shiftImm w
  | .bitc w x =>
    let w64 := x.m 2 2 == 1
    fX .int (wide2d (w64 && x.m 1 0 == 3)) (wide2 w64) .zero .zero false (x.rnd == 0 && !x.cm && x.m 13 3 == 0) w
  | .movi _ => fI .int (.dst 1 true) .zero
  | .moviWide w _ => fI .int (.dst 1 true) .zero (!w.c)
  | .icmp w x => cmpInfo .int w x 9 (wide2 w.x) true
  | .sel w x => fX .int (wide2d w.x) (wide2 w.x) (wide2 w.x) .pred true (x.rnd == 0 && !x.cm && x.m 13 1 == 0) w
  | .and _ | .or _ | .xor _ => fA .int (.dst 1 true) (.src 1) (.src 1)
  | .shl w | .shr w | .sar w => fA .int (wide2d w.x) (wide2 w.x) (.src 1) true
  | .bfx w x =>
    fX .int (.dst 1 true) (.src 1) .zero .zero false (x.rnd == 0 && !x.cm && x.m 13 12 == 0 &&
      1 ≤ x.m 10 5 && x.m 10 5 ≤ 32 && x.m 4 0 + x.m 10 5 ≤ 32) w
  | .bfi w x =>
    fX .int (.dst 1 true) (.src 1) (.src 1) .zero false (x.rnd == 0 && !x.cm && x.m 13 11 == 0 &&
      1 ≤ x.m 10 5 && x.m 10 5 ≤ 32 && x.m 4 0 + x.m 10 5 ≤ 32) w
  | .fadd _ | .fsub _ | .fmul _ => fA .fp (.dst 1 true) (.src 1) (.src 1)
  | .faddWide w x | .fsubWide w x | .fmulWide w x =>
    fX .fp (.dst 1 true) (.src 1) (.src 1) .zero false (onlyRnd x && !x.cm) w
  | .ffma w x => fX .fp (.dst 1 true) (.src 1) (.src 1) (.src 1) false (rndOk x.rnd && x.m 13 2 == 0) w
  | .fmin _ | .fmax _ => fA .fp (.dst 1 true) (.src 1) (.src 1) true
  | .fcmp w x => cmpInfo .fp w x 7 (.src 1) false
  | .fsgn w x =>
    fX .fp (.dst 1 true) (.src 1) (if x.m 1 0 == 1 || x.m 1 0 == 2 then .zero else .src 1) .zero true
      (x.rnd == 0 && !x.cm && x.m 13 2 == 0) w
  | .hadd _ | .hsub _ | .hmul _ | .hmin _ | .hmax _ => fA .fp (.dst 1 true) (.src 1) (.src 1) true
  | .haddWide w x | .hsubWide w x | .hmulWide w x =>
    fX .fp (.dst 1 true) (.src 1) (.src 1) .zero true (onlyRnd x && !x.cm) w
  | .hfma w x => fX .fp (.dst 1 true) (.src 1) (.src 1) (.src 1) true (rndOk x.rnd && x.m 13 2 == 0) w
  | .fcvt w x => let k := fcvtOk w x; { k with ok := k.ok && !x.cm }
  | .icvt w x => let k := icvtOk w x; { k with ok := k.ok && !x.cm }
  | .rcp _ | .rsq _ | .sqrt _ | .ex2 _ | .lg2 _ | .sinp _ | .cosp _ | .tanh _ => fA .sf (.dst 1 true) (.src 1) .zero true
  | .rcpWide w x | .rsqWide w x | .sqrtWide w x | .ex2Wide w x | .lg2Wide w x | .sinpWide w x | .cospWide w x
  | .tanhWide w x => sfWide w x
  | .vany _ | .vall _ => fA .ln .pred .pred .zero
  | .vbal _ => fA .ln (.dst 1 true) .pred .zero
  | .shfl w | .shup w | .shdn w | .shxr w => fA .ln (wide2d w.x) (wide2 w.x) (.src 1) true
  | .scan w x => fX .ln (.dst 1 true) (.src 1) .zero .zero false (!x.cm && x.m 3 0 ≤ 10 && x.m 13 5 == 0 &&
      (if x.m 3 0 == 8 then rndOk x.rnd else x.rnd == 0)) w
  | .red w x => fX .ln (.dst 1 true) (.src 1) .zero .zero false (!x.cm && x.m 3 0 ≤ 10 && x.m 13 4 == 0 &&
      (if x.m 3 0 == 8 then rndOk x.rnd else x.rnd == 0)) w
  | .matchv w => fA .ln (.dst 1 true) (wide2 w.x) .zero true
  | .elect _ => fA .ln .pred .zero .zero
  | .idp4 w x | .idp8 w x =>
    fX .int (.dst 1 true) (.src 1) (.src 1) (.src 1) true (x.rnd == 0 && x.m 13 2 == 0) w
  | .ldp _ | .lds _ | .ldc _ | .ldx _ => fM (.dst 1 true) (.src 1) true true
  | .stp _ | .sts _ | .stc _ | .stx _ => fM (.src 1) (.src 1) true true
  | .ldpWide w x | .ldsWide w x | .ldcWide w x | .ldxWide w x =>
    fM (ldDst x.typ) (.src 1) (localType x.typ) (x.hint == 0 && !w.c)
  | .stpWide w x | .stsWide w x | .stcWide w x | .stxWide w x =>
    fM (stSrc x.typ) (.src 1) (localType x.typ) (x.hint == 0 && !w.c)
  | .ld _ => fM (.dst 1 true) (.src 2) true true
  | .st _ => fM (.src 1) (.src 2) true true
  | .ldWide w x => fM (ldDst x.typ) (.src 2) (x.typ ≤ 14) (gHint x.hint && !w.c)
  | .stWide w x => fM (stSrc x.typ) (.src 2) (stType x.typ) (gHint x.hint && !w.c)
  | .pref _ => fM .zero (.src 2) true true
  | .prefWide w x => fM .zero (.src 2) (x.typ == 4) (x.hint ≤ 1 && !w.c)
  | .discard w => fM .zero (.src 1) (w.imm8 == 0) true
  | .tagset _ => fM (.src 1) (.src 2) true true
  | .tagsetWide w x => fM (.src 1) (.src 2) (x.typ == 4) (x.hint == 0 && !w.c)
  | .redm w x =>
    fX .mem .zero (if x.m 6 6 == 1 then .src 1 else .src 2) (.src (widRegs (x.m 5 4))) .zero true
      (x.rnd == 0 && !x.cm && x.m 13 7 == 0 && x.m 3 0 != 8 && opaOk (x.m 3 0) (x.m 5 4) w.x) w
  | .hld _ | .hst _ => fM .hyp (.src 2) true true
  | .hldWide w x | .hstWide w x => fM .hyp (.src 2) (x.typ == 4) (gHint x.hint && !w.c)
  | .atom w x => atomInfo w x (.src 2)
  | .atomx w x => atomInfo w x (.src 1)
  | .cas w x => casInfo w x (.src 2)
  | .casx w x => casInfo w x (.src 1)
  | .waita w x =>
    let two := x.m 4 4 == 1
    let c := x.m 3 0
    fX .mem (wide2d two) (if x.m 5 5 == 1 then .src 1 else .src 2) (wide2 two) .pred false
      (x.rnd == 0 && !x.cm && x.m 13 6 == 0 && (c ≤ 1 || (6 ≤ c && c ≤ 9))) w
  | .waitc w x => fX .mem (.dst 2 true) (.src 2) (.src 2) .zero false (x.rnd == 0 && !x.cm && x.mode == 0) w
  | .waito _ => fI .mem .ctr .zero
  | .sbar _ => fI .mem .zero .zero
  | .pbar _ => fA .mem .zero .zero .zero
  | .msync _ => fA .mem .zero (.src 1) .zero
  | .kbinit _ => fA .mem .zero (.src 1) (.src 1)
  | .kbarr _ => fA .mem (.dst 1 true) (.src 1) (.src 1) true
  | .kbwait _ => fA .mem (.dst 1 true) (.src 1) (.src 1)
  | .kbinv _ => fA .mem .zero (.src 1) .zero
  | .send _ => fA .mem .zero (.src 1) .lit
  | .recv _ => fA .mem (.dst 1 true) .zero .lit
  | .plane w x => fX .mx .quad .quad .zero .zero false
      (x.rnd == 0 && !x.cm && !x.c && x.m 13 12 == 0 && planeType (x.m 11 8)) w
  | .unplane w x =>
    let t := x.m 11 8
    fX .mx .quad .quad .zero .zero true (rndOk x.rnd && !x.cm && !x.c && x.m 13 12 == 0 && planeType t &&
      (t != 11 || x.rnd == 0) && (!w.x || t == 13 || t == 14)) w
  | .mma w x =>
    let bg := x.m 9 9 == 1
    fX .mx .quad .quad .quad (if bg then .scal else .zero) true
      (x.rnd == 0 && !x.cm && !x.c && x.m 13 11 == 0 && (!bg || x.vc.toNat % 2 == 0) && (x.m 10 10 == 0 || w.x)) w
  | .nanr _ => fA .mx (.dst 1 true) (.src 1) .zero true
  | .hbind _ => fA .mx .hyp .hyp .hyp
  | .hperm _ => fA .mx .hyp .hyp (.src 1) true
  | .hseed _ => fA .mx .hyp (.src 2) .zero
  | .hbund w => fA .mx .bun .hyp .lit true (w.b.toNat < 4)
  | .hthr _ => fA .mx .hyp .bun .zero true
  | .hdist _ => fA .mx .scal .hyp .hyp
  | .hgwr w => fA .mx .zero (if w.x then .zero else .hyp) (.src 1) true
  | .hqry w x => fX .mx .scal .hyp (.src 1) .scal true (x.rnd == 0 && !x.cm && x.mode == 0 && w.d != x.vc) w
  | .stopt _ => fA .mx .pred (.src 1) (.src 1)
  | .sret _ => fA .mx .zero (.src 1) (.src 1)
  | .dnop w | .dend w => fD w .zero .zero .zero false true
  | .dbra w => fD w .imm .imm .imm true true
  | .dloop w x => fDX w x .ctr (if w.x then .areg else .zero) .zero true (!w.x || x.body == 0)
  | .dnext w =>
    let i := w.imm8.toNat
    fD w .ctr .areg .imm true (i < 32 && (i / 16 == 1 || (w.a == 0 && i == 0)))
  | .dwaito w => fD w .ctr .zero .imm true true
  | .aadd w => fD w .areg .areg .areg true true
  | .aaddi w => fD w .areg .areg .imm true true
  | .aaddiWide w x => fDX w x .areg .areg .imm true true
  | .amovi w => fD w .areg .zero .imm true true
  | .amoviWide w x => fDX w x .areg .zero .imm true true
  | .ashli w => fD w .areg .areg .imm true (w.imm8.toNat < 192)
  | .amul w => fD w .areg .areg .areg false true
  | .dld w | .dldx w | .dlds w | .dldc w => fD w .dq .avec .imm true true
  | .dldWide w x => fDX w x .dq .avec .imm true (dldType x.typ && gHint x.hint)
  | .dldxWide w x | .dldsWide w x | .dldcWide w x => fDX w x .dq .avec .imm true (dlxType x.typ && x.hint == 0)
  | .dgath w x => fDX w x .dq .areg .qbs true (dldType x.typ && gHint x.hint)
  | .dpush w => fD w .dq .avec .zero true true
  | .dqbr w => fD w .areg .qbs .lit true (w.b.toNat < 32)
  | .dcopy w => fD w .zero .areg .areg true true
  | .dpref w => fD w .zero .avec .imm true true
  | .dprefWide w x => fDX w x .zero .avec .imm true (x.typ == 4 && x.hint ≤ 1)
  | .park _ | .stallRecheck _ | .wakeQueueSeat _ | .wakeQueueAging _ | .streamDeadlock _ | .groupEnd _
  | .tbaseAdvance | .stampSweep | .homeLoad _ _ _ | .homeStore _ _ _ | .homeAtomic _ | .syncEngineRelease _
  | .l2Fill _ | .l2Evict _ | .discardSliceComplete _ _ | .loadReply _ _ _ | .loadValidation _ _
  | .storeStampReturn _ _ _ | .windrowArrival _ _ | .winnowSplit _ | .drillLoadValidation _ _
  | .gatherEntryFill _ _ | .engineOpRetire _ _ | .engineTake _ | .sheafDeadline _ _ | .sheafOperandsRead _ _
  | .groupEvict _ | .plotResume _ | .uncorrectableConsumption _ _ | .shadowDivergence _ | .rollback _
  | .networkDeadlockDetect _ | .networkDeadlockRecover _ | .channelSlotArrive _ _ | .cheadWrite _ _
  | .cctlGo _ | .copyRecordFetch _ | .copyRecordComplete _ | .copyRecordFail _ | .qtailDoorbell _ _
  | .queueEnable _ _ | .queueCancel _ | .launchEntryFetch _ | .launchAdmit _ | .plotPlace | .launchComplete _
  | .contextLoad _ | .contextLoadInvg _ | .clwinWrite _ _ | .clwinApply _ | .hsenWrite _ | .hskick _
  | .haywardStepBoundary _ | .tlbShootdownPage _ _ | .tlbShootdownContext _ | .tlbShootdownAll
  | .tlbShootdownComplete | .pageWalk _ _ _ | .mailboxDoorbell _ _ | .evheadWrite _ | .resume _ | .handler _
  | .kill _ | .translationReply _ _ _ | .victimReply _ | .quote _ | .fwstage _ _ | .enterS4 | .ckpt
  | .checkpointWriteComplete | .restore _ _ _ | .restoreComplete | .deviceReset | .bootStageComplete _ _
  | .powerStateEntry _ _ | .powerWake | .hostWrite _ _ _ | .hostRead _ _ _ | .cmapSetBoth _ _
  | .cmapSetHalf _ _ _ | .cmapSetRelay _ _ _ | .cmapChangeComplete _ _ | .colourFail _ _ _
  | .colourRetry _ _ _ _ | .heaterMargin _ _ _ | .recentreTimeout _ _ _ | .peerQuiesce _ | .peerQuiesced _
  | .peerResume _ | .peerTrainingComplete _ _ _ | .peerEccPropose _ | .eccProposeReceived _ _
  | .eccAckReceived _ _ | .eccProposeResend _ | .eccSwitchMarker _ _ | .eccWindowExpire _
  | .peerRequestArrive _ _ | .peerResponseArrive _ _ _ | .peerResendTimeout _ | .peerBusyRetry _
  | .peerAccessTimeout _ | .completionEntryExpire _ | .gleanerVisit _ _ | .ceSecondExpire _ | .watchadd _
  | .rowAlert _ _ | .backoffEnd _ _ | .refreshWindow _ | .telsnap | .chipDrain _ | .chipDrainComplete _
  | .chipReset _ | .chipSelftestComplete _ _ | .chipReturn _ | .chipletFail _ | .registerWrite _ _ _
  | .l2Flush | .secondTierAccessTimeout _ _ | .channelCreditArrive _ _ | .ringRelockComplete _ _ _
  | .peerFlitRetry _ | .fabricLinkRetry _ _ => .event

/-- The first word of an instruction, if it has words. -/
def Info.wordOk (k : Info) (w : PW) (vc : BitVec 6) (cm : Bool) : Bool :=
  k.ok && k.d.ok w.d false && k.a.ok w.a w.am && k.b.ok w.b w.bm && k.v.ok vc cm && (k.x || !w.x)

/-- The first word and the extension of an instruction that has words. -/
def Instr.words (i : Instr) : Option (PW × Option PX) :=
  match i with
  | .nop w | .bra w | .call w | .jmpi w | .calli w | .ret w | .exit w | .yield w | .trap w | .eret w | .cinit w
  | .csign w | .cwait w | .csrr w | .csrw w | .qent w | .iadd w | .isub w | .imul w | .imulh w | .imin w
  | .imax w | .iaddi w | .shli w | .shri w | .sari w | .movi w | .and w | .or w | .xor w | .shl w | .shr w
  | .sar w | .fadd w | .fsub w | .fmul w | .fmin w | .fmax w | .hadd w | .hsub w | .hmul w | .hmin w | .hmax w
  | .rcp w | .rsq w | .sqrt w | .ex2 w | .lg2 w | .sinp w | .cosp w | .tanh w | .vany w | .vall w | .vbal w
  | .shfl w | .shup w | .shdn w | .shxr w | .matchv w | .elect w | .ldp w | .stp w | .lds w | .sts w | .ldc w
  | .stc w | .ldx w | .stx w | .ld w | .st w | .pref w | .discard w | .tagset w | .hld w | .hst w | .waito w
  | .sbar w | .pbar w | .msync w | .kbinit w | .kbarr w | .kbwait w | .kbinv w | .send w | .recv w | .nanr w
  | .hbind w | .hperm w | .hseed w | .hbund w | .hthr w | .hdist w | .hgwr w | .stopt w | .sret w | .dnop w
  | .dbra w | .dend w | .dnext w | .dwaito w | .aadd w | .aaddi w | .amovi w | .ashli w | .amul w | .dld w
  | .dldx w | .dlds w | .dldc w | .dpush w | .dqbr w | .dcopy w | .dpref w => some (w, none)
  | .imad w x | .xmov w x | .iaddiWide w x | .bitc w x | .moviWide w x | .icmp w x | .sel w x | .bfx w x
  | .bfi w x | .faddWide w x | .fsubWide w x | .fmulWide w x | .ffma w x | .fcmp w x | .fsgn w x
  | .haddWide w x | .hsubWide w x | .hmulWide w x | .hfma w x | .fcvt w x | .icvt w x | .rcpWide w x
  | .rsqWide w x | .sqrtWide w x | .ex2Wide w x | .lg2Wide w x | .sinpWide w x | .cospWide w x | .tanhWide w x
  | .scan w x | .red w x | .idp4 w x | .idp8 w x | .ldpWide w x | .stpWide w x | .ldsWide w x | .stsWide w x
  | .ldcWide w x | .stcWide w x | .ldxWide w x | .stxWide w x | .ldWide w x | .stWide w x | .prefWide w x
  | .tagsetWide w x | .redm w x | .hldWide w x | .hstWide w x | .atom w x | .atomx w x | .cas w x | .casx w x
  | .waita w x | .waitc w x | .plane w x | .unplane w x | .mma w x | .hqry w x | .dloop w x | .aaddiWide w x
  | .amoviWide w x | .dldWide w x | .dldxWide w x | .dldsWide w x | .dldcWide w x | .dgath w x | .dprefWide w x => some (w, some x)
  | .park _ | .stallRecheck _ | .wakeQueueSeat _ | .wakeQueueAging _ | .streamDeadlock _ | .groupEnd _
  | .tbaseAdvance | .stampSweep | .homeLoad _ _ _ | .homeStore _ _ _ | .homeAtomic _ | .syncEngineRelease _
  | .l2Fill _ | .l2Evict _ | .discardSliceComplete _ _ | .loadReply _ _ _ | .loadValidation _ _
  | .storeStampReturn _ _ _ | .windrowArrival _ _ | .winnowSplit _ | .drillLoadValidation _ _
  | .gatherEntryFill _ _ | .engineOpRetire _ _ | .engineTake _ | .sheafDeadline _ _ | .sheafOperandsRead _ _
  | .groupEvict _ | .plotResume _ | .uncorrectableConsumption _ _ | .shadowDivergence _ | .rollback _
  | .networkDeadlockDetect _ | .networkDeadlockRecover _ | .channelSlotArrive _ _ | .cheadWrite _ _ | .cctlGo _
  | .copyRecordFetch _ | .copyRecordComplete _ | .copyRecordFail _ | .qtailDoorbell _ _ | .queueEnable _ _
  | .queueCancel _ | .launchEntryFetch _ | .launchAdmit _ | .plotPlace | .launchComplete _ | .contextLoad _
  | .contextLoadInvg _ | .clwinWrite _ _ | .clwinApply _ | .hsenWrite _ | .hskick _ | .haywardStepBoundary _
  | .tlbShootdownPage _ _ | .tlbShootdownContext _ | .tlbShootdownAll | .tlbShootdownComplete | .pageWalk _ _ _
  | .mailboxDoorbell _ _ | .evheadWrite _ | .resume _ | .handler _ | .kill _ | .translationReply _ _ _
  | .victimReply _ | .quote _ | .fwstage _ _ | .enterS4 | .ckpt | .checkpointWriteComplete | .restore _ _ _
  | .restoreComplete | .deviceReset | .bootStageComplete _ _ | .powerStateEntry _ _ | .powerWake
  | .hostWrite _ _ _ | .hostRead _ _ _ | .cmapSetBoth _ _ | .cmapSetHalf _ _ _ | .cmapSetRelay _ _ _
  | .cmapChangeComplete _ _ | .colourFail _ _ _ | .colourRetry _ _ _ _ | .heaterMargin _ _ _
  | .recentreTimeout _ _ _ | .peerQuiesce _ | .peerQuiesced _ | .peerResume _ | .peerTrainingComplete _ _ _
  | .peerEccPropose _ | .eccProposeReceived _ _ | .eccAckReceived _ _ | .eccProposeResend _
  | .eccSwitchMarker _ _ | .eccWindowExpire _ | .peerRequestArrive _ _ | .peerResponseArrive _ _ _
  | .peerResendTimeout _ | .peerBusyRetry _ | .peerAccessTimeout _ | .completionEntryExpire _
  | .gleanerVisit _ _ | .ceSecondExpire _ | .watchadd _ | .rowAlert _ _ | .backoffEnd _ _ | .refreshWindow _
  | .telsnap | .chipDrain _ | .chipDrainComplete _ | .chipReset _ | .chipSelftestComplete _ _ | .chipReturn _
  | .chipletFail _ | .registerWrite _ _ _ | .l2Flush | .secondTierAccessTimeout _ _ | .channelCreditArrive _ _
  | .ringRelockComplete _ _ _ | .peerFlitRetry _ | .fabricLinkRetry _ _ => none

/-- The illegal-instruction check of 05 R138 as far as the word alone decides it: what an instruction the encoder may
encode, and the machine may run, satisfies. Device steps have no word and pass. -/
def Instr.wf (i : Instr) : Bool :=
  match i.words with
  | none => true
  | some (w, none) => i.info.wordOk w 0 false
  | some (w, some x) => i.info.wordOk w x.vc x.cm

/-- The instruction belongs to the Drill stream. -/
def Instr.isDrill (i : Instr) : Bool := i.info.pipe == .drill

/-- The chain bit of the word, or of the pair (05 R123). -/
def Instr.chainBit (i : Instr) : Bool :=
  match i.words with
  | none => false
  | some (w, none) => w.c
  | some (_, some x) => x.c

/-- The guard field (05 R121). -/
def Instr.guard (i : Instr) : BitVec 3 :=
  match i.words with
  | none => 7
  | some (w, _) => w.g

/-- How many words the instruction takes. -/
def Instr.width (i : Instr) : Nat :=
  match i.words with
  | none => 0
  | some (_, none) => 1
  | some (_, some _) => 2

end Sys2Proof
end

