-- ==== Sys2Proof/Decode.lean ====
section
/-! DEFINITION. Decoding of the two streams by the opcode maps (05 R139, R140), total on every pair of words and
rejecting by name, and the encoder written from the same maps and formats (05 R121 to R123). -/

namespace Sys2Proof

/-- Why a word is not decoded. Each is an illegal-instruction case of 05 R138. -/
inductive Reject
  /-- the stream's map leaves the opcode unassigned -/
  | unassigned
  /-- an extension word where no first word takes it (05 R123) -/
  | strayExtension
  /-- an always-wide opcode without its extension in the same packet (05 R123) -/
  | missingExtension
deriving DecidableEq, Repr

/-- One cell of an opcode map: unassigned, one word, always wide, or optionally wide. -/
inductive Cell
  | none
  | word (f : PW → Instr)
  | wide (f : PW → PX → Instr)
  | both (f : PW → Instr) (g : PW → PX → Instr)

/-- The Plough map of 05 R139: rows OP 6:3, columns OP 2:0. -/
def ploughMap : List (List Cell) := [
    [.word .nop, .word .bra, .word .call, .word .jmpi, .word .calli, .word .ret, .word .exit, .word .yield],
    [.word .trap, .word .eret, .word .cinit, .word .csign, .word .cwait, .word .csrr, .word .csrw, .word .qent],
    [.word .iadd, .word .isub, .word .imul, .word .imulh, .wide .imad, .word .imin, .word .imax, .wide .xmov],
    [.both .iaddi .iaddiWide, .word .shli, .word .shri, .word .sari, .wide .bitc, .both .movi .moviWide, .wide .icmp, .wide .sel],
    [.word .and, .word .or, .word .xor, .word .shl, .word .shr, .word .sar, .wide .bfx, .wide .bfi],
    [.both .fadd .faddWide, .both .fsub .fsubWide, .both .fmul .fmulWide, .wide .ffma, .word .fmin, .word .fmax, .wide .fcmp, .wide .fsgn],
    [.both .hadd .haddWide, .both .hsub .hsubWide, .both .hmul .hmulWide, .wide .hfma, .word .hmin, .word .hmax, .wide .fcvt, .wide .icvt],
    [.both .rcp .rcpWide, .both .rsq .rsqWide, .both .sqrt .sqrtWide, .both .ex2 .ex2Wide, .both .lg2 .lg2Wide, .both .sinp .sinpWide, .both .cosp .cospWide, .both .tanh .tanhWide],
    [.word .vany, .word .vall, .word .vbal, .word .shfl, .word .shup, .word .shdn, .word .shxr, .wide .scan],
    [.wide .red, .word .matchv, .word .elect, .wide .idp4, .wide .idp8, .none, .none, .none],
    [.both .ldp .ldpWide, .both .stp .stpWide, .both .lds .ldsWide, .both .sts .stsWide, .both .ldc .ldcWide, .both .stc .stcWide, .both .ldx .ldxWide, .both .stx .stxWide],
    [.both .ld .ldWide, .both .st .stWide, .both .pref .prefWide, .word .discard, .both .tagset .tagsetWide, .wide .redm, .both .hld .hldWide, .both .hst .hstWide],
    [.wide .atom, .wide .atomx, .wide .cas, .wide .casx, .wide .waita, .wide .waitc, .word .waito, .word .sbar],
    [.word .pbar, .word .msync, .word .kbinit, .word .kbarr, .word .kbwait, .word .kbinv, .word .send, .word .recv],
    [.wide .plane, .wide .unplane, .wide .mma, .word .nanr, .word .hbind, .word .hperm, .word .hseed, .word .hbund],
    [.word .hthr, .word .hdist, .word .hgwr, .wide .hqry, .word .stopt, .word .sret, .none, .none]]

/-- The Drill map of 05 R140, laid out as the Plough map. -/
def drillMap : List (List Cell) := [
    [.word .dnop, .word .dbra, .word .dend, .wide .dloop, .word .dnext, .word .dwaito, .none, .none],
    [.word .aadd, .both .aaddi .aaddiWide, .both .amovi .amoviWide, .word .ashli, .word .amul, .none, .none, .none],
    [.both .dld .dldWide, .both .dldx .dldxWide, .both .dlds .dldsWide, .both .dldc .dldcWide, .wide .dgath, .word .dpush, .word .dqbr, .word .dcopy],
    [.both .dpref .dprefWide, .none, .none, .none, .none, .none, .none, .none],
    [.none, .none, .none, .none, .none, .none, .none, .none],
    [.none, .none, .none, .none, .none, .none, .none, .none],
    [.none, .none, .none, .none, .none, .none, .none, .none],
    [.none, .none, .none, .none, .none, .none, .none, .none],
    [.none, .none, .none, .none, .none, .none, .none, .none],
    [.none, .none, .none, .none, .none, .none, .none, .none],
    [.none, .none, .none, .none, .none, .none, .none, .none],
    [.none, .none, .none, .none, .none, .none, .none, .none],
    [.none, .none, .none, .none, .none, .none, .none, .none],
    [.none, .none, .none, .none, .none, .none, .none, .none],
    [.none, .none, .none, .none, .none, .none, .none, .none],
    [.none, .none, .none, .none, .none, .none, .none, .none]]

/-- The cell of an opcode. -/
def mapCell (m : List (List Cell)) (op : Nat) : Cell := (m.getD (op / 8) []).getD (op % 8) .none

/-- The opcode, bits 30:24. -/
def opOf (w : Word) : Nat := (w.extractLsb' 24 7).toNat
/-- The fields of a first word. -/
def PW.ofWord (w : Word) : PW :=
  ⟨w.getLsbD 31, w.extractLsb' 21 3, w.extractLsb' 15 6, w.extractLsb' 9 6, w.getLsbD 8, w.extractLsb' 2 6,
    w.getLsbD 1, w.getLsbD 0⟩
/-- The fields of an extension word. -/
def PX.ofWord (w : Word) : PX := ⟨w.getLsbD 31, w.extractLsb' 0 24⟩
/-- The word is an extension word (OP 0x7F). -/
def isExt (w : Word) : Bool := opOf w == 0x7F

/-- Decodes the word `w`, followed in its packet by `next` (none after slot 2), by the map of its stream. The number is
how many words the instruction takes. -/
def decodeIn (m : List (List Cell)) (w : Word) (next : Option Word) : Except Reject (Instr × Nat) :=
  if isExt w then .error .strayExtension
  else
    match mapCell m (opOf w), next.filter isExt with
    | .none, _ => .error .unassigned
    | .word f, _ => .ok (f (PW.ofWord w), 1)
    | .wide f, some e => .ok (f (PW.ofWord w) (PX.ofWord e), 2)
    | .wide _, none => .error .missingExtension
    | .both f _, none => .ok (f (PW.ofWord w), 1)
    | .both _ g, some e => .ok (g (PW.ofWord w) (PX.ofWord e), 2)

/-- Decoding of the Plough stream. -/
def decodePlough (w : Word) (next : Option Word) : Except Reject (Instr × Nat) := decodeIn ploughMap w next
/-- Decoding of the Drill stream. -/
def decodeDrill (w : Word) (next : Option Word) : Except Reject (Instr × Nat) := decodeIn drillMap w next

/-- A word read as standing in the Drill stream: C = 0, G = 7 and a Drill opcode (10 R217), well-formed there or with every
field zero. Outside a program nothing says which stream a word belongs to (log 14). -/
def drillShaped (w : Word) (next : Option Word) : Bool :=
  !w.getLsbD 31 && w.extractLsb' 21 3 == 7 &&
    (match decodeDrill w next with
     | .ok (i, _) => i.wf || w.extractLsb' 0 21 == 0
     | .error _ => false)

/-- The instruction at the first word `w` and the word `next` after it, by whichever map reads it. -/
def decodeAny (w : Word) (next : Option Word) : Option Instr :=
  if drillShaped w next then ((decodeDrill w next).toOption).map (·.1) else ((decodePlough w next).toOption).map (·.1)

/-- The host's reading of a row's word: the first word in bits 31:0, the second in bits 63:32. The numbering by words
and the byte order in memory agree, both little-endian (00 R6). -/
def decodeTableWord (nbits w : Nat) : Option Instr :=
  decodeAny (BitVec.ofNat 32 (w % 2 ^ nbits)) (some (BitVec.ofNat 32 (w % 2 ^ nbits / 2 ^ 32)))

/-- The opcode of an instruction's first word; device steps have none (0x7F stands for it). -/
def Instr.op (i : Instr) : BitVec 7 :=
  match i with
  | .nop _ => 0x00
  | .bra _ => 0x01
  | .call _ => 0x02
  | .jmpi _ => 0x03
  | .calli _ => 0x04
  | .ret _ => 0x05
  | .exit _ => 0x06
  | .yield _ => 0x07
  | .trap _ => 0x08
  | .eret _ => 0x09
  | .cinit _ => 0x0A
  | .csign _ => 0x0B
  | .cwait _ => 0x0C
  | .csrr _ => 0x0D
  | .csrw _ => 0x0E
  | .qent _ => 0x0F
  | .iadd _ => 0x10
  | .isub _ => 0x11
  | .imul _ => 0x12
  | .imulh _ => 0x13
  | .imad _ _ => 0x14
  | .imin _ => 0x15
  | .imax _ => 0x16
  | .xmov _ _ => 0x17
  | .iaddi _ => 0x18
  | .iaddiWide _ _ => 0x18
  | .shli _ => 0x19
  | .shri _ => 0x1A
  | .sari _ => 0x1B
  | .bitc _ _ => 0x1C
  | .movi _ => 0x1D
  | .moviWide _ _ => 0x1D
  | .icmp _ _ => 0x1E
  | .sel _ _ => 0x1F
  | .and _ => 0x20
  | .or _ => 0x21
  | .xor _ => 0x22
  | .shl _ => 0x23
  | .shr _ => 0x24
  | .sar _ => 0x25
  | .bfx _ _ => 0x26
  | .bfi _ _ => 0x27
  | .fadd _ => 0x28
  | .faddWide _ _ => 0x28
  | .fsub _ => 0x29
  | .fsubWide _ _ => 0x29
  | .fmul _ => 0x2A
  | .fmulWide _ _ => 0x2A
  | .ffma _ _ => 0x2B
  | .fmin _ => 0x2C
  | .fmax _ => 0x2D
  | .fcmp _ _ => 0x2E
  | .fsgn _ _ => 0x2F
  | .hadd _ => 0x30
  | .haddWide _ _ => 0x30
  | .hsub _ => 0x31
  | .hsubWide _ _ => 0x31
  | .hmul _ => 0x32
  | .hmulWide _ _ => 0x32
  | .hfma _ _ => 0x33
  | .hmin _ => 0x34
  | .hmax _ => 0x35
  | .fcvt _ _ => 0x36
  | .icvt _ _ => 0x37
  | .rcp _ => 0x38
  | .rcpWide _ _ => 0x38
  | .rsq _ => 0x39
  | .rsqWide _ _ => 0x39
  | .sqrt _ => 0x3A
  | .sqrtWide _ _ => 0x3A
  | .ex2 _ => 0x3B
  | .ex2Wide _ _ => 0x3B
  | .lg2 _ => 0x3C
  | .lg2Wide _ _ => 0x3C
  | .sinp _ => 0x3D
  | .sinpWide _ _ => 0x3D
  | .cosp _ => 0x3E
  | .cospWide _ _ => 0x3E
  | .tanh _ => 0x3F
  | .tanhWide _ _ => 0x3F
  | .vany _ => 0x40
  | .vall _ => 0x41
  | .vbal _ => 0x42
  | .shfl _ => 0x43
  | .shup _ => 0x44
  | .shdn _ => 0x45
  | .shxr _ => 0x46
  | .scan _ _ => 0x47
  | .red _ _ => 0x48
  | .matchv _ => 0x49
  | .elect _ => 0x4A
  | .idp4 _ _ => 0x4B
  | .idp8 _ _ => 0x4C
  | .ldp _ => 0x50
  | .ldpWide _ _ => 0x50
  | .stp _ => 0x51
  | .stpWide _ _ => 0x51
  | .lds _ => 0x52
  | .ldsWide _ _ => 0x52
  | .sts _ => 0x53
  | .stsWide _ _ => 0x53
  | .ldc _ => 0x54
  | .ldcWide _ _ => 0x54
  | .stc _ => 0x55
  | .stcWide _ _ => 0x55
  | .ldx _ => 0x56
  | .ldxWide _ _ => 0x56
  | .stx _ => 0x57
  | .stxWide _ _ => 0x57
  | .ld _ => 0x58
  | .ldWide _ _ => 0x58
  | .st _ => 0x59
  | .stWide _ _ => 0x59
  | .pref _ => 0x5A
  | .prefWide _ _ => 0x5A
  | .discard _ => 0x5B
  | .tagset _ => 0x5C
  | .tagsetWide _ _ => 0x5C
  | .redm _ _ => 0x5D
  | .hld _ => 0x5E
  | .hldWide _ _ => 0x5E
  | .hst _ => 0x5F
  | .hstWide _ _ => 0x5F
  | .atom _ _ => 0x60
  | .atomx _ _ => 0x61
  | .cas _ _ => 0x62
  | .casx _ _ => 0x63
  | .waita _ _ => 0x64
  | .waitc _ _ => 0x65
  | .waito _ => 0x66
  | .sbar _ => 0x67
  | .pbar _ => 0x68
  | .msync _ => 0x69
  | .kbinit _ => 0x6A
  | .kbarr _ => 0x6B
  | .kbwait _ => 0x6C
  | .kbinv _ => 0x6D
  | .send _ => 0x6E
  | .recv _ => 0x6F
  | .plane _ _ => 0x70
  | .unplane _ _ => 0x71
  | .mma _ _ => 0x72
  | .nanr _ => 0x73
  | .hbind _ => 0x74
  | .hperm _ => 0x75
  | .hseed _ => 0x76
  | .hbund _ => 0x77
  | .hthr _ => 0x78
  | .hdist _ => 0x79
  | .hgwr _ => 0x7A
  | .hqry _ _ => 0x7B
  | .stopt _ => 0x7C
  | .sret _ => 0x7D
  | .dnop _ => 0x00
  | .dbra _ => 0x01
  | .dend _ => 0x02
  | .dloop _ _ => 0x03
  | .dnext _ => 0x04
  | .dwaito _ => 0x05
  | .aadd _ => 0x08
  | .aaddi _ => 0x09
  | .aaddiWide _ _ => 0x09
  | .amovi _ => 0x0A
  | .amoviWide _ _ => 0x0A
  | .ashli _ => 0x0B
  | .amul _ => 0x0C
  | .dld _ => 0x10
  | .dldWide _ _ => 0x10
  | .dldx _ => 0x11
  | .dldxWide _ _ => 0x11
  | .dlds _ => 0x12
  | .dldsWide _ _ => 0x12
  | .dldc _ => 0x13
  | .dldcWide _ _ => 0x13
  | .dgath _ _ => 0x14
  | .dpush _ => 0x15
  | .dqbr _ => 0x16
  | .dcopy _ => 0x17
  | .dpref _ => 0x18
  | .dprefWide _ _ => 0x18
  | .park _ | .stallRecheck _ | .wakeQueueSeat _ | .wakeQueueAging _ | .streamDeadlock _ | .groupEnd _
  | .tbaseAdvance | .stampSweep | .homeLoad _ _ _ | .homeStore _ _ _ | .homeAtomic _ | .syncEngineRelease _
  | .l2Fill _ | .l2Evict _ | .discardSliceComplete _ _ | .loadReply _ _ _ | .loadValidation _ _
  | .storeStampReturn _ _ _ | .windrowArrival _ _ | .winnowSplit _ | .drillLoadValidation _ _
  | .gatherEntryFill _ _ | .engineOpRetire _ _ | .engineTake _ | .sheafDeadline _ _ | .sheafOperandsRead _ _
  | .groupEvict _ | .plotResume _ | .uncorrectableConsumption _ _ | .shadowDivergence _ | .rollback _
  | .networkDeadlockDetect _ | .networkDeadlockRecover _ | .channelSlotArrive _ _ | .cheadWrite _ _ | .cctlGo _
  | .copyRecordFetch _ | .copyRecordComplete _ | .copyRecordFail _ | .qtailDoorbell _ _ | .queueEnable _ _
  | .queueCancel _ | .launchEntryFetch _ | .launchAdmit _ | .plotPlace | .launchComplete _ | .contextLoad _
  | .contextLoadInvg _ | .clwinWrite _ _ | .clwinApply _ | .hsenWrite _ | .hskick _ | .haywardStepBoundary _
  | .tlbShootdownPage _ _ | .tlbShootdownContext _ | .tlbShootdownAll | .tlbShootdownComplete | .pageWalk _ _ _
  | .mailboxDoorbell _ _ | .evheadWrite _ | .resume _ | .handler _ | .kill _ | .translationReply _ _ _
  | .victimReply _ | .quote _ | .fwstage _ _ | .enterS4 | .ckpt | .checkpointWriteComplete | .restore _ _ _
  | .restoreComplete | .deviceReset | .bootStageComplete _ _ | .powerStateEntry _ _ | .powerWake
  | .hostWrite _ _ _ | .hostRead _ _ _ | .cmapSetBoth _ _ | .cmapSetHalf _ _ _ | .cmapSetRelay _ _ _
  | .cmapChangeComplete _ _ | .colourFail _ _ _ | .colourRetry _ _ _ _ | .heaterMargin _ _ _
  | .recentreTimeout _ _ _ | .peerQuiesce _ | .peerQuiesced _ | .peerResume _ | .peerTrainingComplete _ _ _
  | .peerEccPropose _ | .eccProposeReceived _ _ | .eccAckReceived _ _ | .eccProposeResend _
  | .eccSwitchMarker _ _ | .eccWindowExpire _ | .peerRequestArrive _ _ | .peerResponseArrive _ _ _
  | .peerResendTimeout _ | .peerBusyRetry _ | .peerAccessTimeout _ | .completionEntryExpire _
  | .gleanerVisit _ _ | .ceSecondExpire _ | .watchadd _ | .rowAlert _ _ | .backoffEnd _ _ | .refreshWindow _
  | .telsnap | .chipDrain _ | .chipDrainComplete _ | .chipReset _ | .chipSelftestComplete _ _ | .chipReturn _
  | .chipletFail _ | .registerWrite _ _ _ | .l2Flush | .secondTierAccessTimeout _ _ | .channelCreditArrive _ _
  | .ringRelockComplete _ _ _ | .peerFlitRetry _ | .fabricLinkRetry _ _ => 0x7F

/-- A first word from its fields (05 R121). -/
def PW.toWord (w : PW) (op : BitVec 7) : Word :=
  BitVec.ofBool w.c ++ op ++ w.g ++ w.d ++ w.a ++ BitVec.ofBool w.am ++ w.b ++ BitVec.ofBool w.bm ++ BitVec.ofBool w.x
/-- An extension word from its fields (05 R123). -/
def PX.toWord (x : PX) : Word := BitVec.ofBool x.c ++ (0x7F : BitVec 7) ++ x.body

/-- The words of an instruction; a device step has none. -/
def encode (i : Instr) : List Word :=
  match i.words with
  | none => []
  | some (w, none) => [w.toWord i.op]
  | some (w, some x) => [w.toWord i.op, x.toWord]

/-- Decodes a list of words as one stream's instruction, the first word being in slot 0. -/
def decodeWords (drill : Bool) (ws : List Word) : Option Instr :=
  match ws with
  | [] => none
  | w :: rest => ((if drill then decodeDrill else decodePlough) w rest.head?).toOption.map (·.1)

end Sys2Proof
end

