-- ==== Sys2Proof/Machine/State.lean ====
section
/-! DEFINITION. The state of a Decpo module: plain data, everything the spec gives the machine (INVENTORY.md lists each
piece with its rule), the reasons a step can stop, and the machine right after reset. -/

namespace Sys2Proof.Machine
open Sys2Proof

/-- Memory by byte address in canonical form: addresses strictly rising, no byte 0 listed. An unlisted address reads as
0 (18 R348; log 6). -/
structure Memory where
  cells : List Host.Cell
deriving DecidableEq, Repr

/-- A position: packet index and word slot (01, "Issue within a group"; 05 R118). -/
structure Pos where
  pc : DWord
  slot : Nat
deriving DecidableEq, Repr

/-- A fault mark: the fault that the first reader raises (08 R185). -/
structure FMark where
  code : Nat
  info : Nat
  ea : DWord
deriving DecidableEq, Repr

/-- A thread register with its full bit, producer tag (0 for none) and fault mark (05 R128, 08 R185). -/
structure Reg where
  val : Word
  full : Bool
  tag : Nat
  mark : Option FMark
deriving DecidableEq, Repr

/-- What a trap writes besides the position (17 R329, R330). `lane` sets LV and LANE. -/
structure Trap where
  code : Nat
  info : Nat := 0
  faddr : DWord := 0
  lane : Option Nat := none
  wr : Bool := false
  fetch : Bool := false
  defer : Bool := false
  done : Word := 0
  /-- a page-table sector found uncorrectable, to be listed (17 R328) -/
  poison : Option Nat := none
deriving DecidableEq, Repr

/-- A memory space (02 R44). -/
inductive Space
  | slice | scratch | cluster | chip | glob | chan
deriving DecidableEq, Repr

/-- A translated access target: space, the byte's home address (physical address, chip address, or byte of the
device's core scratchpads), and for global memory the page's attributes and peer index. -/
structure Target where
  space : Space
  addr : Nat
  /-- leaf entry of the page; 0 outside global memory (17 R321) -/
  leaf : BitVec 128 := 0
  /-- TAG of the access when the page enables tag checks (02 R56) -/
  tag : Option Nat := none
deriving DecidableEq, Repr

/-- Where a WAITA or WAITC waits, and what its reply writes (09 R203, R206). -/
structure AddrWait where
  tgt : Target
  ea : DWord
  /-- false for WAITA, true for WAITC -/
  counter : Bool
  two : Bool
  cond : Nat
  cmp : DWord
  d : BitVec 6
  pd : BitVec 6
  /-- the word's slot -/
  slot : Nat
  /-- a write has woken it, and its load is still to be made at the home (09 R205, R206) -/
  woken : Bool
  /-- the chiplet through which its request was relayed (14 R288) -/
  via : Option Nat
deriving DecidableEq, Repr

/-- What holds a thread at a word that has begun (09 R201; 11 R247). -/
inductive Wait
  | addr (w : AddrWait)
  | pbar
  | sbar (entry gen : Nat)
  | msync
  | kb (off gen : Nat) (d : BitVec 6)
  | matrix (c : Nat)
  /-- a wait that a trap interrupted and that is over, or was evicted: its word executes again when the handler returns -/
  | again
deriving DecidableEq, Repr

/-- A queue entry: values, filled, stamp, fault marks by lane, and for qb the lanes that have written it. -/
structure QEnt where
  vals : List Word
  filled : Bool
  stamp : Word
  marks : List (Nat × FMark)
  written : Word
deriving DecidableEq, Repr

/-- A copy-error notice (09 R204). -/
structure Notice where
  gid : Nat
  counter : Nat
  record : DWord
  status : Nat
deriving DecidableEq, Repr

/-- The sources of a word at which a thread waits, as they stood before its chain, for its execution again (05 R120; 09 R201): the
registers that other words of the chain have written, the predicates, and the queue entries that the word has read. -/
structure WSrc where
  v : List (Nat × Reg)
  p : BitVec 7
  q : List (Nat × QEnt)
deriving DecidableEq, Repr

/-- A thread (01 R11 to R15, 05 R130). -/
structure Thread where
  live : Bool
  pos : Pos
  v : List Reg
  p : BitVec 7
  pts : Word
  skip : Nat
  slice : Memory
  /-- head of each seed queue, as an absolute entry number (01 R32) -/
  qh : List Nat
  /-- entries of qb written (15 R290) -/
  qbw : Nat
  /-- the store-class word that holds the thread, 0 for none (08 R184) -/
  hold : Nat
  wait : Option Wait
  /-- the position at which a waiting thread leaves its wait -/
  wnext : Pos
  /-- pts at arrival at a barrier (03 R94) -/
  arr : Word
  /-- an EXIT held back by a store-class word of its chain (05 R120, 08 R184) -/
  exiting : Bool
  ret : Pos
  /-- the sources of the word at which the thread waits (09 R201) -/
  src : WSrc
  /-- after an eviction: the chain whose wait re-executes alone, where the thread goes then, and what the word reads (09 R201) -/
  redo : Option (Pos × Pos × WSrc)
  /-- the wait that a trap of the group has taken the thread from: where it leaves it and its word's sources (17 R331, R333) -/
  susp : Option (Wait × Pos × WSrc)
  /-- queue entries, by queue, that a trap of a store-class chain has given back to the thread: it reads them again before those at
  its heads (05 R120, 08 R185) -/
  kept : List (Nat × QEnt)
  /-- the queue entries that the thread has popped with the store-class chain that holds it, and since (08 R185) -/
  undo : List (Nat × QEnt)
  /-- the chain at which the thread's access is not repeated, since an earlier execution has performed it (08 R185) -/
  replayAt : Option Pos
  /-- the WAITC that a copy-error notice has woken: its position, and the notice with which it traps (09 R204) -/
  told : Option (Pos × Notice)
deriving DecidableEq, Repr

/-- A queue of at most 8 entries; `base` is the absolute number of the oldest entry held (01 R32). -/
structure Queue where
  base : Nat
  ents : List QEnt
deriving DecidableEq, Repr

/-- A convergence register (06 R152), with the position of the first signature and, for a matrix round, its word. -/
structure Conv where
  decl : Word
  sign : Word
  matrix : Bool
  pos : Pos
  word : Option Instr
deriving DecidableEq, Repr

/-- A bundle-counter register (12 R274): counter j is the two's-complement byte whose bit i is bit j of plane i. -/
structure Bundle where
  wide : Bool
  planes : List HVec
deriving DecidableEq, Repr

/-- A loop level of the Drill stream (10 R222). -/
structure Loop where
  trip : Word
  count : Word
  start : DWord
deriving DecidableEq, Repr

/-- An open record of MSYNC (09 R210). -/
structure MRec where
  mask : Word
  arrived : Word
deriving DecidableEq, Repr

/-- A hypervector register: value, the HLD in flight (0 for none) and its fault mark (12 R269, R271). -/
structure HReg where
  val : HVec
  load : Nat
  mark : Option FMark
deriving DecidableEq, Repr

/-- How a group came into handler mode, or what escalated (17 R331, R332, R335). -/
inductive TrapKind
  | plough | drill | deadlock
deriving DecidableEq, Repr

/-- The Drill stream's own state (10 R242; 03 R79). -/
structure DrillSt where
  pos : Pos
  dts : Word
  ended : Bool
  halted : Bool
  a : List DWord
  loops : List Loop
deriving DecidableEq, Repr

/-- The trap state of a group (17 R329 to R334). -/
structure TrapSt where
  epc : Word
  cause : Word
  faddr : DWord
  done : Word
  handler : Bool
  hset : Word
  kind : TrapKind
  /-- a Drill trap waiting to be taken (10 R218, 17 R332) -/
  pending : Option (Trap × Pos)
deriving DecidableEq, Repr

/-- The architectural state of a group that a save record and a shadow copy hold (01 R39, R41; 05 R130). -/
structure GArch where
  threads : List Thread
  s : List Word
  drill : DrillSt
  q : List Queue
  qb : Queue
  conv : List Conv
  h : List HReg
  k : List Bundle
  nan : List Word
  msync : List MRec
  sbar : List (Nat × Nat)
  part : Word
  fpmode : Word
  tieh : Word
  trap : TrapSt
deriving DecidableEq, Repr

/-- What a reply needs on its way back: its place in the order in which the homes send replies, and the chiplet through which its request
was relayed (02 R70, 14 R288). -/
structure Back where
  seq : Nat
  via : Option Nat
deriving DecidableEq, Repr

/-- How far one home access of a load has come (03 R86). -/
inductive LSt
  | unsent
  | sent (data : List Byte) (wts rts : Word) (mark : Option FMark) (back : Back)
  | arrived (data : List Byte) (wts rts : Word) (mark : Option FMark)
  | done (data : List Byte) (ts : Word) (mark : Option FMark)
deriving DecidableEq, Repr

/-- One home access of a load: target and length (03 R77). -/
structure LPart where
  tgt : Target
  len : Nat
  st : LSt
deriving DecidableEq, Repr

/-- What a load's value is for. -/
inductive LDest
  | reg (d : BitVec 6)
  /-- qb, through the record of the word that holds its chain (08 R185) -/
  | qb (hold : Nat)
  | queue (q : Nat) (entry : Nat)
  | hyp (n : Nat)
deriving DecidableEq, Repr

/-- A load in flight, of one lane (or of a whole HLD, whose `lanes` are its active threads). -/
structure LoadRec where
  id : Nat
  lane : Nat
  lanes : Word
  dst : LDest
  typ : Nat
  hint : Nat
  ctx : Nat
  ea : DWord
  parts : List LPart
  /-- the stamp it was sent with (03 R80) -/
  base : Word
  /-- the gather it belongs to, 0 for none (10 R226) -/
  op : Nat
  /-- its destination registers as before it issued (08 R185) -/
  old : List (Nat × Reg)
deriving DecidableEq, Repr

/-- How far one access of a store-class word has come (08 R184, R185). -/
inductive SSt
  | unsent
  | performed (ts : Word) (old : List Byte) (back : Back)
  | faulted (tag : Nat) (back : Back)
  | done (ts : Word) (old : List Byte)
  | failed (tag : Nat)
deriving DecidableEq, Repr

/-- One home access of a store-class word, of one lane. -/
structure SPart where
  lane : Nat
  tgt : Target
  ea : DWord
  data : List Byte
  st : SSt
deriving DecidableEq, Repr

/-- What a store-class word does at the home. -/
inductive SKind
  | store | tagset | hst
  /-- a fetch-and-op or CAS, whose lanes answer through the windrow stages -/
  | atomic (d : BitVec 6) (regs : Nat)
  /-- a load into qb, whose lanes' values land through loads of their own (08 R185) -/
  | qload
deriving DecidableEq, Repr

/-- Writes of a store-class chain's other words, held back (08 R184): thread registers (index 56 is a push to qb),
predicates, scalars, hypervector and bundle registers, declarations and signatures of convergence registers, writes of
state registers, and FPMODE flags; and the words whose whole effect waits, with their slots. -/
structure Held where
  v : List (Nat × Nat × Reg)
  p : List (Nat × Nat × Bool)
  s : List (Nat × Word)
  h : List (Nat × HReg)
  k : List (Nat × Bundle)
  conv : List (Nat × Option Word × Word)
  csr : List (Nat × Word)
  flags : Word
  late : List (Nat × Instr)
deriving DecidableEq, Repr

/-- A store-class word, or a load into qb, in flight (08 R184, R185): position of its chain, slot, active lanes, accesses, the
group as before the chain (for the trap of 08 R185), the words of the chain with their slots, and the chain's held writes. -/
structure HoldRec where
  id : Nat
  pos : Pos
  slot : Nat
  set : Word
  lanes : Word
  kind : SKind
  ctx : Nat
  hint : Nat
  parts : List SPart
  snap : GArch
  words : List (Nat × Instr)
  held : Held
  /-- pts the word was issued with: the latest of its active lanes for HST -/
  base : Word
  /-- lanes that the word left out because an earlier execution had performed them (08 R185) -/
  skipped : Word
deriving DecidableEq, Repr

/-- Classes of engine operations (03 R90). -/
inductive Cls
  | omx | ogt | ocp | ord
deriving DecidableEq, Repr

/-- An engine operation that has issued and not retired (03 R89, R90). -/
structure EngOp where
  id : Nat
  cls : Cls
  stamp : Word
  done : Bool
  /-- lanes, slices or entries still to answer -/
  left : Nat
  /-- the deferred faults of its lanes (08 R194, 09 R202) -/
  faults : List Trap
  nans : List (Nat × Nat)
  /-- leaf and EA of its accesses in the windrow stages, for a shootdown (17 R326) -/
  pages : List (BitVec 128 × DWord)
deriving DecidableEq, Repr

/-- Where a group stands (01 R18 to R22): in a slot, in the Fallow table, evicted, or ended in a rollback-eligible
interval of its plot, whose rollback would bring it back (01 R42; log 19). -/
inductive Place
  | slot (n : Nat)
  | waiting
  | woken (cycle : Nat) (aged : Bool)
  | saved
  | gone
deriving DecidableEq, Repr

/-- A group that waits for the driver (17 R335): the trap, the route asked for, and the trapped position. -/
structure Esc where
  trap : Trap
  pos : Pos
  kind : TrapKind
  double : Bool
  atEnd : Bool
  slot : Nat
  set : Word
deriving DecidableEq, Repr

/-- A group. -/
structure Group where
  gid : Nat
  pid : Nat
  lid : Nat
  idx : Nat
  core : Nat
  ctx : Nat
  prio : Nat
  width : Nat
  place : Place
  seated : Nat
  lastSel : Nat
  dlastSel : Nat
  placed : Nat
  /-- the group issues only from this cycle (01 R21) -/
  readyAt : Nat
  stalled : Bool
  stopping : Bool
  arch : GArch
  shadow : Option GArch
  loads : List LoadRec
  dloads : List LoadRec
  holds : List HoldRec
  ops : List EngOp
  /-- latest completion stamp of the retired operations, by class (03 R90) -/
  retired : List Word
  deferred : List (Cls × Trap)
  /-- the deferred faults that stood at the plot barrier, and those of operations issued before it: pending again after a rollback (01
  R43) -/
  owed : List (Cls × Trap)
  /-- the group has come back from an eviction and issues once the loads it had outstanding have performed (01 R39) -/
  resumed : Bool
  esc : Option Esc
  /-- position of the last EXIT (01 R13) -/
  lastExit : Pos
  /-- an FP-class word issued in the group's last turn, so that its shadow unit may find a divergence (17 R340) -/
  fp : Bool
  /-- the first identifier of the current rollback interval: operations below it were issued before the plot barrier (01 R41) -/
  barrier : Nat
deriving DecidableEq, Repr

/-- Where a plot stands. -/
inductive PlotSt
  | unplaced | resident | saved | ended | killed
deriving DecidableEq, Repr

/-- A plot (01 R26). -/
structure Plot where
  pid : Nat
  lid : Nat
  index : Nat
  st : PlotSt
  core : Nat
  /-- byte of the core's scratchpad at which the allocation begins -/
  base : Nat
  size : Nat
  rbcnt : Nat
  eligible : Bool
  /-- logged lines: offset in the core's scratchpad and old bytes (01 R41) -/
  log : List (Nat × List Byte)
  logging : Bool
  /-- slots taken by RECV since the barrier, by channel (09 R216) -/
  recvLog : List (Nat × List Byte × Word)
  represent : List (Nat × List Byte × Word)
  /-- scratchpad contents while saved; from key 2^20 up the cluster memory of the plots evicted with it (01 R40) -/
  image : Memory
  savePa : Nat
  saveLen : Nat
  /-- save-pool space of its shadow records, with length 0 where none could be reserved (17 R339) -/
  shadowPa : Nat
  shadowLen : Nat
  shadowOk : Bool
  rolling : Bool
  /-- the cluster-memory allocation that it shares, 0 for none (01 R27, R40) -/
  alloc : Nat
deriving DecidableEq, Repr

/-- A slot on its way: its producer group and the chiplet from which it was sent, the 128 bytes and the stamp (02 R73). -/
structure Flight where
  gid : Nat
  port : Nat
  data : List Byte
  ts : Word
deriving DecidableEq, Repr

/-- A dataflow channel of a launch (02 R73, 09 R214). `credits` holds the read stamp of each free slot's line, in the order
in which the slots came free; `returning` those on their way back. -/
structure Chan where
  producers : Nat
  consumer : Nat
  slots : Nat
  credits : List Word
  /-- sent and not yet arrived -/
  flight : List Flight
  pending : List (List Byte × Word)
  returning : List Word
deriving DecidableEq, Repr

/-- A cluster-memory allocation of a launch (01 R27, 02 R51), with an identifier that tells one made later in the same cluster from it. -/
structure CAlloc where
  cluster : Nat
  offset : Nat
  id : Nat
deriving DecidableEq, Repr

/-- State of a set barrier (09 R209). -/
structure SetBar where
  entry : Nat
  gens : Nat
  arrived : List Nat
  pts : Word
deriving DecidableEq, Repr

/-- Status of a launch. -/
inductive LaunchSt
  | fetched | admitted | done
deriving DecidableEq, Repr

/-- A queue entry held by the front end and its launch (16 R305, R306). -/
structure Launch where
  lid : Nat
  queue : Nat
  entry : Nat
  ctx : Nat
  st : LaunchSt
  status : Nat
  prio : Nat
  /-- the 256 bytes of the entry, little-endian as one number -/
  image : BitVec 2048
  stamp : Word
  sets : List (List (Nat × Nat))
  chans : List Chan
  bdesc : List Word
  callocs : List CAlloc
  bars : List SetBar
  order : Nat
  reserved : List (Nat × Nat)
  maxStamp : Word
  failing : Nat
deriving DecidableEq, Repr

/-- The loaded copy of a context-table entry (16 R301) and its channel bindings. -/
structure Ctx where
  id : Nat
  valid : Bool
  pmax : Nat
  bw : Nat
  ptroot : Nat
  csbase : Nat
  cssize : Nat
  chpage : Nat
  chans : List Nat
  traph : DWord
  savebase : Nat
  savesize : Nat
  domains : BitVec 256
deriving DecidableEq, Repr

/-- Stamps and keeping of a home line (03 R79, 02 R59, R66). `held` lists the word stamps while the synchronisation
engine holds the line. -/
structure LineSt where
  key : LineKey
  wts : Word
  rts : Word
  held : List (Word × Word)
  /-- the sectors that the slice holds, and those of them that are dirty (02 R59) -/
  present : BitVec 4
  dirty : BitVec 4
  tctx : Nat
  tid : Nat
  /-- allocated as one of the slice's first victims, and not used without a hint since (02 R60) -/
  first : Bool
deriving DecidableEq, Repr

/-- An L1 copy (03 R79, 02 R56). -/
structure L1Copy where
  core : Nat
  line : Nat
  wts : Word
  rts : Word
  data : List Byte
  tags : List Nat
  /-- the sectors that were uncorrectable when the copy was made (17 R337) -/
  bad : BitVec 4
deriving DecidableEq, Repr

/-- Who holds a translation (17 R324). -/
inductive Holder
  | core (n : Nat) | cluster (n : Nat) | engine (n : Nat)
deriving DecidableEq, Repr

/-- A cached leaf translation (17 R324). -/
structure TlbEnt where
  holder : Holder
  ctx : Nat
  page : Nat
  leaf : BitVec 128
deriving DecidableEq, Repr

/-- Who is woken by a write (09 R205). -/
inductive Waiter
  | thread (gid lane : Nat)
  | queue (q : Nat)
deriving DecidableEq, Repr

/-- An armed wait: an entry of the monitor table of memory chiplet `mc`, or a place in a coarse bucket (09 R205). -/
structure Monitor where
  mc : Nat
  chip : Bool
  word : Nat
  bucket : Bool
  owner : Nat
  who : Waiter
deriving DecidableEq, Repr

/-- A range of the scoreboard (03 R91): local bytes of a core that an engine operation reads or writes. -/
structure SbRange where
  core : Nat
  lo : Nat
  len : Nat
  write : Bool
  owner : Nat
deriving DecidableEq, Repr

/-- What a request of an atomic answers to: lanes of a core's word or operation in lane order with their composites, at
one EA, or a wait-buffer entry of a stage (08 R196, R198). -/
inductive RTag
  | core (gid rid : Nat) (ea : DWord) (lanes : List (Nat × BitVec 128))
  | entry (stage id : Nat)
deriving DecidableEq, Repr

/-- A request on its way to a synchronisation engine (08 R197). -/
structure AReq where
  stage : Nat
  port : Nat
  chip : Bool
  addr : Nat
  mc : Nat
  opa : Nat
  wid : Nat
  tag : Option Nat
  o : BitVec 128
  count : Nat
  swap : BitVec 128
  ra : Bool
  m : Nat
  pts : Word
  src : RTag
  ea : DWord
  /-- context and page of the first member, for the line's tensor tag (02 R66) -/
  ctx : Nat
  leaf : BitVec 128
  /-- the cycle in which it reached its stage's port (08 R199) -/
  cycle : Nat
  /-- the chiplet through which it was relayed (14 R288) -/
  via : Option Nat
deriving DecidableEq, Repr

/-- A reply on its way back: old value, first member's stamp, or the tag found at a mismatch. -/
structure AReply where
  src : RTag
  opa : Nat
  wid : Nat
  count : Nat
  x : BitVec 128
  b : Word
  bad : Option Nat
  /-- the address that the request named, and the memory chiplet that homes it -/
  addr : Nat
  mc : Nat
  /-- it names chip scratchpad -/
  chip : Bool
  back : Back
deriving DecidableEq, Repr

/-- A wait-buffer entry (08 R198). -/
structure WbEnt where
  id : Nat
  first : RTag
  second : RTag
  oFirst : BitVec 128
  cFirst : Nat
  mFirst : Nat
  /-- the chiplets through which the two requests were relayed, where the stage stands behind the fabric (14 R288) -/
  vias : Option Nat × Option Nat
deriving DecidableEq, Repr

/-- A windrow stage: requests arriving, the forwarding queue, and the wait buffer (08 R195, R198). -/
structure Stage where
  id : Nat
  arriving : List AReq
  outq : List AReq
  wb : List WbEnt
deriving DecidableEq, Repr

/-- A DISCARD in flight (08 R190). -/
structure Disc where
  id : Nat
  gid : Nat
  ctx : Nat
  tid : Nat
  pts : Word
  left : List Nat
deriving DecidableEq, Repr

/-- Memory and its homes. -/
structure MemSt where
  glob : Memory
  chip : Memory
  scratch : Memory
  /-- allocation tags by sector (02 R56) -/
  tags : Memory
  lines : List LineSt
  /-- the stamp of the local home lines that are not listed (03 R79, R85) -/
  rest : Word
  mst : List Word
  l1 : List L1Copy
  tlb : List TlbEnt
  /-- ECC class of the sectors that are not clean (17 R337): by physical address, by core-scratchpad address from 2^60 up and by
  chip-scratchpad address from 2^61 up -/
  ecc : List (Nat × Nat)
  poison : List Nat
  monitors : List Monitor
  notices : List Notice
  sboard : List SbRange
  stages : List Stage
  replies : List AReply
  discs : List Disc
deriving DecidableEq, Repr

/-- An entry of a Granary (12 R279). -/
structure GEnt where
  index : Nat
  ctx : Nat
  dom : Nat
  bits : HVec
deriving DecidableEq, Repr

/-- An accepted matrix instruction (11 R248): group, convergence register, word and its position, signing lanes, quads
read at acceptance, the target of a global B (with its EA), the rounding mode, and the LIMIT of its priority and the cycle
at its arrival. -/
structure MItem where
  id : Nat
  gid : Nat
  core : Nat
  ctx : Nat
  prio : Nat
  c : Nat
  word : Instr
  lanes : Word
  qd : List Word
  qa : List Word
  qb : List Word
  btgt : Target
  bea : DWord
  rm : Nat
  pos : Pos
  limit : Nat
  cycle : Nat
  /-- its sharing domain, as at acceptance (11 R259, 16 R302) -/
  dom : Nat
deriving DecidableEq, Repr

/-- States of a sheaf (11 R262). -/
inductive ShState
  | free | opened | closed | reading
deriving DecidableEq, Repr

/-- A sheaf (11 R261). -/
structure Sheaf where
  st : ShState
  members : List MItem
  opened : Nat
  closed : Nat
  engine : Nat
deriving DecidableEq, Repr

/-- A cluster's engines, Sheaf buffer, dispatch queue and Granary. -/
structure Cluster where
  id : Nat
  sheaves : List Sheaf
  arrivals : List MItem
  dispatch : List MItem
  gran : List GEnt
  gtie : List (Nat × Nat)
  /-- a window change held pending (16 R300) -/
  winPending : Option Nat
deriving DecidableEq, Repr

/-- Who started a copy chain (10 R232, R233). -/
structure Init where
  host : Bool
  gid : Nat
  lid : Nat
  pid : Nat
  ctx : Nat
  op : Nat
deriving DecidableEq, Repr

/-- A record in progress (10 R237). -/
structure CopyRec where
  id : Nat
  addr : Nat
  image : BitVec 1024
  status : Nat
  /-- the faulting address, where FVA is to be written (10 R237, R238) -/
  fva : Option DWord
  epoch : Option Nat
  /-- the translations that the host has given to its accesses (17 R327) -/
  leaves : List TlbEnt
  /-- its access to a draining link chiplet's memory has waited for 50 ms (19 R372) -/
  late : Bool
deriving DecidableEq, Repr

/-- A hardware copy channel (10 R231). -/
structure HwChan where
  h : Nat
  st : Nat
  next : Nat
  heads : List (Nat × Init)
  refused : Bool
  /-- halted by a drain before its record `next` (19 R372) -/
  held : Bool
  last : DWord
  init : Init
  stamp : Word
  record : Option CopyRec
  /-- stores to CHEAD that wait for room, with their stamps (10 R233, 03 R92) -/
  waiting : List (Nat × Init × Word)
deriving DecidableEq, Repr

/-- A Hayward stream's own state (16 R317). -/
structure Stream where
  id : Nat
  /-- what the stream has to do, in order: the boundary of a finished launch, with its entry and batch, or a kick that waits for a page's
  place to be written -/
  boundary : List (Option (Nat × List Word))
  /-- the batch of the next step, whose entry waits for room in the ring -/
  owed : Option (List Nat)
deriving DecidableEq, Repr

/-- An event record (18 R347): TYPE, the flags byte, the sequence number that it takes as it is posted, and the body. -/
structure Event where
  typ : Nat
  body : BitVec 480
  flags : Byte
  seq : Nat
deriving DecidableEq, Repr

/-- A request posted to the host that a command must answer. -/
inductive Pending
  | esc (gid : Nat)
  | trans (holder : Holder) (ctx : Nat) (page : Nat)
  /-- an answer that no leaf serves: the access that asked raises this code and level (17 R327) -/
  | transBad (holder : Holder) (ctx page code level : Nat)
  | victims (lid index : Nat)
deriving DecidableEq, Repr

/-- A shootdown in progress (17 R325, R326): the context and the address it names, the first identifier of the requests that
came after it, the host's walks whose results are discarded, and the threads that waited on a dropped page. -/
structure Shoot where
  ctx : Option Nat
  va : Option Nat
  gate : Nat
  walks : List Pending
  waits : List (Nat × Nat)
deriving DecidableEq, Repr

/-- The mailbox (18 R346, R347). -/
structure Mailbox where
  waiting : List Event
  ring : List (Nat × Event)
  /-- records sent over I3C -/
  i3c : List Event
  pending : List Pending
  /-- the commands taken and not yet carried out: sequence number, and whether the reply returns over I3C -/
  cmds : List (Nat × Bool)
  lost : Nat
  lostNew : Nat
  seq : Nat
deriving DecidableEq, Repr

/-- Boot and security state (18 R348 to R350). -/
structure Boot where
  meas : List (BitVec 512)
  staged : Option Nat
  bank : Nat
  fromS4 : Bool
  /-- ports of memory chiplets that had failed at the last reset (19 R373) -/
  broken : List Nat
  /-- power state in force for each unit, empty when awake (18 R351) -/
  asleep : List (Nat × Nat)
  /-- log2 of the size of the BAR2 window (18 R342) -/
  bar2 : Nat
deriving DecidableEq, Repr

/-- A remote access that this device has issued (18 R358, R360): the DEVID that it carries, the port through which it goes, 255 for one that
is never sent, whether it has been transmitted, the cycle of its first transmission, and the age with which it was last transmitted. -/
structure Remote where
  id : DWord
  index : Nat
  dev : Nat
  port : Nat
  sent : Bool
  first : Nat
  age : Nat
  kind : PeerKind
  pa : Nat
  gid : Nat
  rid : Nat
  part : Nat
  resends : Nat
  busy : Bool
deriving DecidableEq, Repr

/-- One end of an ECC mode change (18 R362): the mode it proposes, whether it decodes every flit in both modes, the last switch
markers sent and received, and the mode in which it transmits. -/
structure EccEnd where
  port : Nat
  proposed : Option Nat
  window : Bool
  sentSM : Option Nat
  recvSM : Option Nat
  tx : Nat
deriving DecidableEq, Repr

/-- Messages of an ECC mode change (18 R362). -/
inductive EccMsg
  | propose (n : Nat) | ack (n : Nat) | marker (n : Nat)
deriving DecidableEq, Repr

/-- A response that this device has sent to a peer (18 R360, R361). -/
structure PeerReply where
  port : Nat
  id : DWord
  status : PeerStatus
  bytes : List Byte
deriving DecidableEq, Repr

/-- How a host read completes (18 R342, R344). -/
inductive HostCpl
  | data (bs : List Byte) | poisoned | unsupported
deriving DecidableEq, Repr

/-- The peer ports (18 R358 to R362), and the last read completion of each host port (R344). -/
structure Peers where
  remotes : List Remote
  /-- completion table: identifiers with results, and the cycle in which each write performed (18 R360) -/
  table : List (DWord × List Byte × Nat)
  /-- responses sent, retained for their peers -/
  replies : List PeerReply
  ends : List EccEnd
  /-- messages of mode changes sent, with their ports -/
  sent : List (Nat × EccMsg)
  /-- the next sequence number of each port that is not 0 (18 R360) -/
  seqs : List (Nat × Nat)
  /-- stamps of the host ports (20, 21) and of the peer ports (256 + port); an agent not listed stands at TBASE (03 R96) -/
  stamps : List (Nat × Word)
  hostReads : List (Nat × HostCpl)
deriving DecidableEq, Repr

/-- A row of a watch set with its run of clean visits (19 R365). -/
structure Watch where
  mc : Nat
  row : Nat
  clean : Nat
deriving DecidableEq, Repr

/-- Reliability state (19 R363 to R374). -/
structure Ras where
  watch : List Watch
  /-- rows that the host added: chiplet, row, visits left (19 R366) -/
  added : List (Nat × Nat × Nat)
  /-- activation counters that are not 0, by chiplet and row (19 R367) -/
  acts : List ((Nat × Nat) × Nat)
  /-- rows whose counter has reached RHTH, with their alerts still to be taken -/
  raised : List (Nat × Nat)
  /-- alerts of each chiplet in the refresh window -/
  alerts : List (Nat × Nat)
  /-- banks in back-off: chiplet, bank -/
  backoff : List (Nat × Nat)
  /-- corrected sectors of each chiplet in the second -/
  ce : List (Nat × Nat)
  /-- the CETH that holds in the running second, where it is not that of reset -/
  ceth : List (Nat × Nat)
  /-- live telemetry counters by register offset (19 R368) -/
  counters : List (Nat × DWord)
  /-- routers with a probe out (02 R74) -/
  probes : List (List Nat)
  /-- heaters in their margin, and those of them whose ring is being re-centred: pair and colour, true for B (18 R356) -/
  margins : List (Nat × Nat × Bool)
  recentring : List (Nat × Nat × Bool)
  /-- pairs that the device itself set to HALF or RELAY (19 R374) -/
  auto : List (Nat × Nat)
  /-- lanes of pairs that are moving to a new carrier (02 R71, 18 R354) -/
  moving : List (Nat × Nat × Nat)
  /-- ports of the chiplets whose colours are gated (19 R371) -/
  gates : List Nat
deriving DecidableEq, Repr

/-- What a checkpoint holds beside the bytes of the two memory spaces, which stand in the retained region (19 R375 to R377). -/
structure Ckpt where
  /-- QHEAD of the queues, and AHEAD of the Hayward streams -/
  qheads : List (Nat × DWord)
  aheads : List Nat
  launches : List Launch
  plots : List Plot
  groups : List Group
  /-- granules of 2 MiB written since -/
  dirty : List Nat
  /-- launches of the image that have finished since: queue, entry, status -/
  ended : List (Nat × Nat × Nat)
  /-- the command to reply to: sequence number, over I3C -/
  replyTo : Nat × Bool
  /-- the restore in progress: queue, entry, and the ranges listed, each with its length in bytes -/
  restore : Option (Nat × Nat × List (Nat × Nat))
deriving DecidableEq, Repr

/-- A device step that is due: one that the device takes of itself, or one that a mailbox command asks for (log 2). -/
inductive DevStep
  | tbaseAdvance
  | resume (gid : Nat)
  | handler (gid : Nat)
  | kill (gid : Nat)
  | translationReply (ctx : Nat) (va : DWord) (reply : Option (Nat × BitVec 128))
  | victimReply (pids : List Nat)
  | quote (nonce : BitVec 256)
  | fwstage (image : Nat) (ok : Bool)
  | enterS4
  | ckpt
  | restore (q entry : Nat) (ranges : List (Nat × Nat))
  | park (gid : Nat)
  | stallRecheck (core : Nat)
  | wakeQueueSeat (core : Nat)
  | wakeQueueAging (gid : Nat)
  | streamDeadlock (gid : Nat)
  | groupEnd (gid : Nat)
  | homeLoad (gid rid part : Nat)
  | homeStore (gid rid part : Nat)
  | homeAtomic (mc : Nat)
  | discardSliceComplete (id mc : Nat)
  | loadReply (gid rid part : Nat)
  | loadValidation (gid rid : Nat)
  | storeStampReturn (gid rid part : Nat)
  | windrowArrival (stage port : Nat)
  | winnowSplit (stage : Nat)
  | drillLoadValidation (gid rid : Nat)
  | gatherEntryFill (gid rid : Nat)
  | engineOpRetire (gid cls : Nat)
  | engineTake (cluster : Nat)
  | sheafDeadline (cluster sheaf : Nat)
  | sheafOperandsRead (cluster sheaf : Nat)
  | groupEvict (gid : Nat)
  | plotPlace
  | plotResume (pid : Nat)
  | uncorrectableConsumption (gid rid : Nat)
  | rollback (pid : Nat)
  | channelSlotArrive (lid ch : Nat)
  | channelCreditArrive (lid ch : Nat)
  | copyRecordFetch (h : Nat)
  | copyRecordComplete (h : Nat)
  | copyRecordFail (h : Nat)
  | launchEntryFetch (q : Nat)
  | launchAdmit (q : Nat)
  | launchComplete (lid : Nat)
  | clwinApply (cluster : Nat)
  | haywardStepBoundary (stream : Nat)
  | tlbShootdownComplete
  | checkpointWriteComplete
  | restoreComplete
  | cmapChangeComplete (src dst : Nat)
  | chipDrainComplete (port : Nat)
  | peerUnreachable (id : DWord)
  | rowAlert (mc row : Nat)
deriving DecidableEq, Repr

/-- A turn of the model's schedule: a core's Plough issue, a core's Drill issue, or the device's own steps, with those that the turn
may still take (log 2). -/
inductive Turn
  | plough (core : Nat) | drill (core : Nat) | events (due : List DevStep)
deriving DecidableEq, Repr

/-- The model's schedule (log 2): the device steps that come first, and the turns still to take in this cycle. -/
structure Sched where
  agenda : List DevStep
  turn : List Turn
  cycle : Nat
  /-- the cycle at which TBASE last advanced (03 R83) -/
  ticked : Nat
  /-- index of the next free value (log 3) -/
  free : Nat
  /-- next identifier of requests, groups, plots and launches (log 4) -/
  nextId : Nat
deriving DecidableEq, Repr

/-- The word now issuing (log 5; 01 R14, 05 R120). -/
structure Issue where
  active : Bool
  drill : Bool
  set : Word
  pos : Pos
  chainPos : Pos
  /-- the group as before the chain, once a word of the chain has executed -/
  pre : Option GArch
  /-- the store-class word of the chain that is in flight, 0 for none (08 R184) -/
  holdId : Nat
  /-- the words of the chain that have executed -/
  chain : List Instr
  /-- the word trapped -/
  trapped : Bool
  /-- the word was not ready -/
  blocked : Bool
  /-- the identifiers below it are of operations issued before the chain -/
  firstId : Nat
  /-- the chain has a store-class word or a load, so that words that act beyond registers wait for it (05 R120, 08 R184) -/
  defers : Bool
  /-- those words, with their slots -/
  late : List (Nat × Instr)
  /-- every word of the chain, with its slot -/
  words : List (Nat × Instr)
  /-- the trap was found at the home of an access, not at issue (09 R212) -/
  home : Bool
deriving DecidableEq, Repr

/-- The launch front end's own state (16 R306 to R309), with the Hayward engine's stamp (03 R96). -/
structure FrontEnd where
  stamp : Word
  hay : Word
  lastQueue : Nat
  order : Nat
  stopAdmit : Bool
  shoot : Option Shoot
deriving DecidableEq, Repr

/-- The state of the module. -/
structure State where
  sched : Sched
  issue : Issue
  cur : Group
  groups : List Group
  plots : List Plot
  launches : List Launch
  ctxs : List Ctx
  tbase : Word
  mem : MemSt
  clusters : List Cluster
  chans : List HwChan
  streams : List Stream
  regs : List (Nat × DWord)
  fe : FrontEnd
  mbox : Mailbox
  boot : Boot
  peers : Peers
  ras : Ras
  ckpt : Ckpt
deriving DecidableEq, Repr

/-- Why a step stops with a fault. -/
inductive Fault
  /-- Raised by a device step that is asked for in a state in which it cannot happen. Safe: the hardware never takes
  that step there. -/
  | eventNotEnabled
  /-- Raised when a Plough or Drill word is executed although no group is issuing it. Safe: a word executes only in an
  issue turn (01 R14). -/
  | noIssue
deriving DecidableEq, Repr

/-- Why a step is refused. -/
inductive Refusal
  /-- The instruction has no meaning in this model yet; raised by Dispatch. Safe: nothing is proved of it. -/
  | notModelled (mnemonic : String)
deriving DecidableEq, Repr

/-! The values after reset and at group start. -/

def Pos.zero : Pos := ⟨0, 0⟩
def Memory.empty : Memory := ⟨[]⟩
/-- A register at group start: 0, full (05 R130). -/
def Reg.start : Reg := ⟨0, true, 0, none⟩
def WSrc.none : WSrc := ⟨[], 0, []⟩
/-- A thread that does not exist, and the values of a thread at group start (05 R130). -/
def Thread.start : Thread :=
  { live := false, pos := Pos.zero, v := List.replicate 56 Reg.start, p := 0, pts := 0, skip := 0,
    slice := Memory.empty, qh := List.replicate 8 0, qbw := 0, hold := 0, wait := none, wnext := Pos.zero,
    arr := 0, exiting := false, ret := Pos.zero, src := WSrc.none, redo := none, susp := none, kept := [],
    undo := [], replayAt := none, told := none }
def Queue.empty : Queue := ⟨0, []⟩
def Conv.clear : Conv := ⟨0, 0, false, Pos.zero, none⟩
/-- Width 4, every counter 0 (12 R274). -/
def Bundle.zero : Bundle := ⟨false, List.replicate 8 0⟩
def HReg.zero : HReg := ⟨0, 0, none⟩
def DrillSt.start : DrillSt :=
  ⟨Pos.zero, 0, false, false, List.replicate 16 0, List.replicate 4 ⟨0, 0, 0⟩⟩
def TrapSt.start : TrapSt := ⟨0, 0, 0, 0, false, 0, .plough, none⟩
/-- Group start (05 R130, 04 R102, 01 R37). -/
def GArch.start : GArch :=
  { threads := List.replicate 32 Thread.start, s := List.replicate 32 0, drill := DrillSt.start,
    q := List.replicate 8 Queue.empty, qb := Queue.empty, conv := List.replicate 16 Conv.clear,
    h := List.replicate 16 HReg.zero, k := List.replicate 4 Bundle.zero, nan := List.replicate 32 0, msync := [],
    sbar := [], part := 5, fpmode := 0, tieh := 0, trap := TrapSt.start }
/-- The group that stands in `State.cur` while no word issues. -/
def Group.idle : Group :=
  { gid := 0, pid := 0, lid := 0, idx := 0, core := 0, ctx := 0, prio := 0, width := 0, place := .saved, seated := 0,
    lastSel := 0, dlastSel := 0, placed := 0, readyAt := 0, stalled := false, stopping := false, arch := GArch.start,
    shadow := none, loads := [], dloads := [], holds := [], ops := [], retired := List.replicate 4 0, deferred := [],
    owed := [], resumed := false, esc := none, lastExit := Pos.zero, fp := false, barrier := 0 }
def Issue.idle : Issue := ⟨false, false, 0, Pos.zero, Pos.zero, none, 0, [], false, false, 0, false, [], [], false⟩
def MemSt.reset : MemSt :=
  { glob := Memory.empty, chip := Memory.empty, scratch := Memory.empty, tags := Memory.empty, lines := [], rest := 0,
    mst := List.replicate 12 0, l1 := [], tlb := [], ecc := [], poison := [], monitors := [], notices := [],
    sboard := [], stages := [], replies := [], discs := [] }
def Boot.reset : Boot := ⟨List.replicate 4 0, none, 0, false, [], [], 44⟩
def Ckpt.none : Ckpt := ⟨[], [], [], [], [], [], [], (0, false), Option.none⟩

/-- The module right after reset (18 R348): the security processor runs from ROM in stage 1, nothing is resident, every
register holds its reset value, memory and stamps are 0. -/
def State.reset : State :=
  { sched := ⟨[], [], 0, 0, 0, 1⟩, issue := Issue.idle, cur := Group.idle, groups := [], plots := [], launches := [],
    ctxs := [], tbase := 0, mem := MemSt.reset, clusters := [], chans := [], streams := [],
    regs := [], fe := ⟨0, 0, 0, 0, false, none⟩, mbox := ⟨[], [], [], [], [], 0, 0, 0⟩,
    boot := Boot.reset, peers := ⟨[], [], [], [], [], [], [], []⟩,
    ras := ⟨[], [], [], [], [], [], [], [], [], [], [], [], [], [], []⟩, ckpt := Ckpt.none }

end Sys2Proof.Machine
end

