-- ==== Sys2Proof/Machine/Bits.lean ====
section
/-! DEFINITION. Bit fields, byte order (00 R6), ticks (03 R78) and small list helpers. -/

namespace Sys2Proof.Machine
open Sys2Proof

/-- a ≤ b in ticks (03 R78). -/
def tle (a b : Word) : Bool := (b - a).toNat < 2 ^ 31
/-- The later of two ticks (03 R78). -/
def tmax (a b : Word) : Word := if tle a b then b else a
/-- The latest of a list of ticks, starting from `a`. -/
def tmaxL (a : Word) (l : List Word) : Word := l.foldl tmax a
/-- A stamp as used by a home whose TBASE is `tb`: a stale one counts as TBASE − 2^30 (03 R85). -/
def unstale (tb s : Word) : Word :=
  let d := (tb - s).toNat
  if 2 ^ 30 + 1 ≤ d && d ≤ 2 ^ 32 - 2 ^ 30 - 1 then tb - BitVec.ofNat 32 (2 ^ 30) else s

/-- Bits hi:lo of a number. -/
def bits (x hi lo : Nat) : Nat := (x >>> lo) % 2 ^ (hi - lo + 1)
/-- Bit i of a number. -/
def bit (x i : Nat) : Bool := x.testBit i
/-- A number of n bits read as two's complement. -/
def toSigned (n x : Nat) : Int := if x % 2 ^ n < 2 ^ (n - 1) then (x % 2 ^ n : Int) else (x % 2 ^ n : Int) - 2 ^ n
/-- An integer as a 32-bit word, modulo 2^32. -/
def wordOfInt (i : Int) : Word := BitVec.ofInt 32 i
/-- Clamps to lo..hi. -/
def clampInt (i lo hi : Int) : Int := if i < lo then lo else if hi < i then hi else i
def bword (b : Bool) : Word := if b then 1 else 0
def bnat (b : Bool) : Nat := if b then 1 else 0

/-- Number of one bits below bit n. -/
def popcountN : Nat → Nat → Nat
  | 0, _ => 0
  | n + 1, x => bnat (x.testBit n) + popcountN n x
/-- Number of one bits of a 2^k-bit number, by halves. -/
def popcount2 : Nat → Nat → Nat
  | 0, x => x % 2
  | k + 1, x => if x == 0 then 0 else popcount2 k (x % 2 ^ 2 ^ k) + popcount2 k (x / 2 ^ 2 ^ k)
/-- Leading zeros of an n-bit number. -/
def clzN (n x : Nat) : Nat := if x % 2 ^ n == 0 then n else n - 1 - (x % 2 ^ n).log2
/-- Trailing zeros of an n-bit number; n for zero. -/
def ctzN : Nat → Nat → Nat
  | 0, _ => 0
  | n + 1, x => if x % 2 == 1 then 0 else 1 + ctzN n (x / 2)
/-- Bit i to bit n − 1 − i. -/
def brevN : Nat → Nat → Nat
  | 0, _ => 0
  | n + 1, x => (x % 2) * 2 ^ n + brevN n (x / 2)

/-- The n low bytes of a number, least significant first (00 R6). -/
def bytesOf : Nat → Nat → List Byte
  | 0, _ => []
  | n + 1, x => BitVec.ofNat 8 x :: bytesOf n (x / 256)
/-- The number whose bytes are given, least significant first. -/
def ofBytes : List Byte → Nat
  | [] => 0
  | b :: bs => b.toNat + 256 * ofBytes bs
/-- The number whose digits to base 2^w are given, least significant first. -/
def ofDigitsW (w : Nat) : List Nat → Nat
  | [] => 0
  | d :: ds => d % 2 ^ w + 2 ^ w * ofDigitsW w ds

/-- Keyed lists: the value at a key. -/
def alGet {κ β : Type} [BEq κ] (l : List (κ × β)) (k : κ) : Option β := (l.find? (fun e => e.1 == k)).map (·.2)
/-- Keyed lists: replaces the value at a key, or adds it. -/
def alSet {κ β : Type} [BEq κ] (l : List (κ × β)) (k : κ) (x : β) : List (κ × β) :=
  if l.any (fun e => e.1 == k) then l.map (fun e => if e.1 == k then (k, x) else e) else l ++ [(k, x)]
/-- Keyed lists: removes a key. -/
def alDel {κ β : Type} [BEq κ] (l : List (κ × β)) (k : κ) : List (κ × β) := l.filter (fun e => e.1 != k)

/-- Inserts in front of the first element that ranks after it: a stable insertion by a Boolean order. -/
def insertBy {α : Type} (lt : α → α → Bool) (x : α) : List α → List α
  | [] => [x]
  | y :: ys => if lt x y then x :: y :: ys else y :: insertBy lt x ys
/-- Stable insertion sort. -/
def sortBy {α : Type} (lt : α → α → Bool) (l : List α) : List α := l.foldl (fun acc x => insertBy lt x acc) []

/-- Lanes 0 to 31. -/
def allLanes : List Nat := List.range 32
/-- The lanes of a mask, ascending. -/
def lanesOf (m : Word) : List Nat := allLanes.filter (fun i => m.getLsbD i)
/-- The mask of the lanes that satisfy a test. -/
def maskOf (f : Nat → Bool) : Word := BitVec.ofNat 32 (allLanes.foldl (fun acc i => acc + (if f i then 2 ^ i else 0)) 0)
/-- The mask of a list of lanes. -/
def maskOfList (l : List Nat) : Word := maskOf (fun i => l.contains i)
/-- The lowest lane of a mask. -/
def lowest (m : Word) : Nat := ((lanesOf m).head?).getD 0
/-- The mask of one lane. -/
def laneBit (i : Nat) : Word := BitVec.ofNat 32 (2 ^ i)

/-! Memory by bytes. -/

/-- Writing one byte of a canonical list (log 6). -/
def insertCell : List Host.Cell → Nat → Byte → List Host.Cell
  | [], a, b => if b = 0 then [] else [(a, b)]
  | (k, v) :: rest, a, b =>
    if a < k then (if b = 0 then (k, v) :: rest else (a, b) :: (k, v) :: rest)
    else if a = k then (if b = 0 then rest else (a, b) :: rest)
    else (k, v) :: insertCell rest a b

/-- What an unlisted address reads as (18 R348; log 6). -/
def Memory.unlisted : Byte := 0
/-- Reading one byte. -/
def Memory.read (m : Memory) (a : Nat) : Byte :=
  match m.cells.find? (fun c => c.1 == a) with
  | some c => c.2
  | none => Memory.unlisted
/-- Writing one byte. -/
def Memory.write (m : Memory) (a : Nat) (b : Byte) : Memory := ⟨insertCell m.cells a b⟩
/-- Reading n bytes from an address upwards. -/
def Memory.readN (m : Memory) (a : Nat) : Nat → List Byte
  | 0 => []
  | n + 1 => m.read a :: Memory.readN m (a + 1) n
/-- Writing bytes from an address upwards. -/
def Memory.writeN (m : Memory) (a : Nat) : List Byte → Memory
  | [] => m
  | b :: bs => Memory.writeN (m.write a b) (a + 1) bs
/-- Bytes lo to lo + n − 1 become 0. -/
def Memory.clear (m : Memory) (lo n : Nat) : Memory := ⟨m.cells.filter (fun c => c.1 < lo || lo + n ≤ c.1)⟩
/-- Bytes lo to lo + n − 1, moved to start at 0. -/
def Memory.extract (m : Memory) (lo n : Nat) : Memory :=
  ⟨(m.cells.filter (fun c => lo ≤ c.1 && c.1 < lo + n)).map (fun c => (c.1 - lo, c.2))⟩
/-- Writes every listed byte of an image at an offset, after clearing n bytes there. -/
def Memory.place (m : Memory) (lo n : Nat) (image : Memory) : Memory :=
  image.cells.foldl (fun acc c => if c.1 < n then acc.write (lo + c.1) c.2 else acc) (m.clear lo n)
/-- A little-endian number of n bytes. -/
def Memory.num (m : Memory) (a n : Nat) : Nat := ofBytes (m.readN a n)

/-- Sorted strictly by address, from a lower bound, with no byte 0. -/
def cellsWf : Nat → List Host.Cell → Bool
  | _, [] => true
  | lo, (k, v) :: rest => decide (lo ≤ k) && decide (v ≠ 0) && cellsWf (k + 1) rest
/-- The canonical form of memory. -/
def Memory.wf (m : Memory) : Bool := cellsWf 0 m.cells

end Sys2Proof.Machine
end

