-- ==== Sys2Proof/Machine/Ops.lean ====
section
/-! DEFINITION. Named operations over the state: device registers, groups and threads, the address maps, the homes with
their stamps, monitors and wakes, and taking an exception with the return from one. -/

namespace Sys2Proof.Machine
open Sys2Proof

/-! Outcomes of a word's checks. -/

/-- A translation that host-assisted walk mode has to ask the host for: holder, context and 64 KiB page (17 R327). -/
structure Miss where
  holder : Holder
  ctx : Nat
  page : Nat
deriving DecidableEq, Repr

/-- What a word's execution comes to: an effect, a trap, or not being ready (01 R14), perhaps for want of a translation. -/
inductive Res (α : Type)
  | ok (x : α)
  | trap (t : Trap)
  | wait (miss : Option Miss)

def Res.bind {α β : Type} (r : Res α) (f : α → Res β) : Res β :=
  match r with
  | .ok x => f x
  | .trap t => .trap t
  | .wait m => .wait m

/-- A trap with a cause code and nothing else. -/
def Trap.of (code : Nat) : Trap := { code := code }
/-- The illegal-instruction trap (05 R138). -/
def Trap.illegal : Trap := Trap.of 0x01
/-- The operand fault (17 R330). -/
def Trap.operand : Trap := Trap.of 0x08
/-- A fault of an access by a lane: code, EA and whether it was a write (17 R329). -/
def Trap.access (code : Nat) (lane : Nat) (ea : DWord) (wr : Bool) (info : Nat := 0) : Trap :=
  { code := code, info := info, faddr := ea, lane := some lane, wr := wr }

/-- Collects the results of a function over a list; the first trap or wait in list order stands. -/
def Res.mapM {α β : Type} (f : α → Res β) : List α → Res (List β)
  | [] => .ok []
  | x :: xs => (f x).bind fun y => (Res.mapM f xs).bind fun ys => .ok (y :: ys)

/-! Device registers (00 R8, 16 R299). -/

/-- The reset value of the register at a BAR0 offset, where it is not 0. -/
def regReset (off : Nat) : DWord :=
  if 0x100 ≤ off && off < 0x140 then 0x100
  else if off == 0x218 then 8
  else if off == 0x310 then 0x606
  else if off == 0x480 then 0x081018
  else if off == 0x488 then 0x0000_0400_0040_1000
  else if 0x10000 ≤ off && off < 0x14000 && off % 32 == 8 then 4
  else if 0x20000 ≤ off && off < 0x20790 && off % 4 == 0 then
    (if (off - 0x20000) / 4 / 22 == (off - 0x20000) / 4 % 22 then 0 else 0x30000)
  else if 0x21000 ≤ off && off < 0x22E40 && off % 16 == 8 then 0x3232
  else if 0x30000 ≤ off && off < 0x30200 && off % 64 == 0 then 0x500
  else 0

/-- The value in a register. -/
def State.reg (s : State) (off : Nat) : DWord := (alGet s.regs off).getD (regReset off)
def State.regN (s : State) (off : Nat) : Nat := (s.reg off).toNat
/-- Sets a register. -/
def State.setReg (s : State) (off : Nat) (v : DWord) : State := { s with regs := alSet s.regs off v }
/-- Sets bits hi:lo of a register. -/
def State.setField (s : State) (off hi lo v : Nat) : State :=
  let old := s.regN off
  s.setReg off (BitVec.ofNat 64 (old - bits old hi lo * 2 ^ lo + (v % 2 ^ (hi - lo + 1)) * 2 ^ lo))
/-- Bits hi:lo of a register. -/
def State.field (s : State) (off hi lo : Nat) : Nat := bits (s.regN off) hi lo
/-- A bit of FSPLIT (16 R314). -/
def State.fsplit (s : State) (i : Nat) : Bool := bit (s.regN 0) i
/-- Adds to a live telemetry counter (19 R368). -/
def State.count (s : State) (off n : Nat) : State :=
  { s with ras := { s.ras with counters := alSet s.ras.counters off ((alGet s.ras.counters off).getD 0 + BitVec.ofNat 64 n) } }
/-- The telemetry block of a chiplet's port. -/
def telBlock (port : Nat) : Nat := 0x40000 + 0x400 * port
/-- The register block of a launch queue. -/
def qBlock (q : Nat) : Nat := 0x10000 + 32 * q
/-- State of a chiplet: 0 SERVING, 1 DRAINING, 2 DRAINED, 3 RESETTING, 4 FAILED (19 R370). -/
def State.chipState (s : State) (port : Nat) : Nat := s.field (0x400 + 4 * port) 6 4

/-- A write of a device register: with DEVSTAT.SECFAIL = 1 only the mailbox answers, and the write has no effect (18 R348). -/
def State.regAnswers (s : State) (o : Host.Outcome State Fault Refusal) : Host.Outcome State Fault Refusal := if bit (s.regN 0x200) 1 then .next s else o
/-- The port of the link chiplet that holds the front end, Hayward and the mailbox (19 R372). -/
def State.fePort (s : State) : Nat := if 2 ≤ s.chipState 20 then 21 else 20

/-- What a telemetry offset counts now: the value that TELSNAP latches (19 R368, R369). -/
def State.live (s : State) (off : Nat) : DWord := (alGet s.ras.counters off).getD (regReset off)
/-- Sets a live counter or gauge. -/
def State.setLive (s : State) (off : Nat) (v : Nat) : State :=
  { s with ras := { s.ras with counters := alSet s.ras.counters off (BitVec.ofNat 64 v) } }
/-- The units that sleep wake (18 R351); the wake from S4 is a step of its own. -/
def State.awake (s : State) : State := { s with boot := { s.boot with asleep := s.boot.asleep.filter (fun u => u.1 == 4) } }
/-- Units whose power state's entry condition ends leave it (18 R351); S4 ends by its own wake. -/
def State.rouse (s : State) (unit : Nat × Nat → Bool) : State :=
  { s with boot := { s.boot with asleep := s.boot.asleep.filter (fun u => u.1 == 4 || !unit u) } }
/-- The device is in S4 (18 R352). -/
def State.inS4 (s : State) : Bool := s.boot.asleep.any (fun u => u.1 == 4)

/-! The colour map (02 R71; 18 R353 to R355). -/

/-- CMAP of an ordered pair of ports, and its telemetry block. -/
def cmapOff (a b : Nat) : Nat := 0x20000 + 4 * (22 * a + b)
def pairTel (a b : Nat) : Nat := 0x21000 + 16 * (22 * a + b)
def State.cmapMode (s : State) (a b : Nat) : Nat := s.field (cmapOff a b) 1 0
def State.cmapK (s : State) (a b : Nat) : Nat := s.field (cmapOff a b) 8 4
/-- A colour of a pair is healthy: AOK, or BOK for B. -/
def State.colourOk (s : State) (a b : Nat) (colour : Bool) : Bool := bit (s.regN (cmapOff a b)) (if colour then 17 else 16)
/-- A change of the pair is in progress: PEND. -/
def State.cmapPend (s : State) (a b : Nat) : Bool := bit (s.regN (cmapOff a b)) 18
/-- Both colours of a pair carry its lanes. -/
def State.bothOk (s : State) (a b : Nat) : Bool := s.cmapMode a b == 0 && s.colourOk a b false && s.colourOk a b true
/-- The pair has a carrier under its mode (02 R71, 18 R355). -/
def State.carrierOk (s : State) (a b : Nat) : Bool :=
  match s.cmapMode a b with
  | 0 => s.bothOk a b
  | 1 => s.colourOk a b (bit (s.regN (cmapOff a b)) 2)
  | _ => s.bothOk a (s.cmapK a b) && s.bothOk (s.cmapK a b) b
/-- The colours of a chiplet are gated: from the end of its drain until it returns (19 R371). -/
def State.gated (s : State) (p : Nat) : Bool := s.ras.gates.contains p
/-- No gated chiplet lies on the way of a pair's messages (19 R371). -/
def State.ungated (s : State) (a b : Nat) : Bool := !s.gated a && !s.gated b && !(s.cmapMode a b == 2 && s.gated (s.cmapK a b))
/-- A lane of a pair has its carrier: while both colours are meant to be lit, lanes 0 to 3 need A and lanes 4 to 7 need B (02 R71); with
FSPLIT.LINK set a lost colour holds every lane (18 R355). -/
def State.laneOk (s : State) (a b lane : Nat) : Bool :=
  if s.cmapMode a b == 0 && !s.fsplit 5 then s.colourOk a b (4 ≤ lane) else s.carrierOk a b
/-- New messages of a lane of a pair are not held: the lane has a carrier and is not moving to another (02 R71, 18 R354, R355). -/
def State.laneOpen (s : State) (a b lane : Nat) : Bool :=
  a == b || (s.ungated a b && !s.ras.moving.contains (a, b, lane) && s.laneOk a b lane)
/-- Every lane of a pair is open. -/
def State.pairOpen (s : State) (a b : Nat) : Bool :=
  a == b || (s.ungated a b && s.ras.moving.all (fun m => m.1 != a || m.2.1 != b) && s.carrierOk a b)

/-- A fresh identifier. -/
def State.fresh (s : State) : Nat × State :=
  (s.sched.nextId, { s with sched := { s.sched with nextId := s.sched.nextId + 1 } })
/-- n fresh free bytes (log 3). -/
def State.freeBytes (s : State) (n : Nat) : List Byte × State :=
  ((List.range n).map (fun i => Config.freeByte (s.sched.free + i)), { s with sched := { s.sched with free := s.sched.free + n } })

/-! Groups, threads, plots, launches. -/

def Group.thread (g : Group) (i : Nat) : Thread := g.arch.threads.getD i Thread.start
def Group.setThread (g : Group) (i : Nat) (t : Thread) : Group :=
  { g with arch := { g.arch with threads := g.arch.threads.set i t } }
def Group.updThread (g : Group) (i : Nat) (f : Thread → Thread) : Group := g.setThread i (f (g.thread i))
/-- Applies a function to every lane's thread. -/
def Group.mapThreads (g : Group) (f : Nat → Thread → Thread) : Group :=
  { g with arch := { g.arch with threads := g.arch.threads.mapIdx f } }
/-- Lanes whose thread is live (06 R153). -/
def Group.liveMask (g : Group) : Word := maskOf (fun i => (g.thread i).live)
/-- Lanes below the group width. -/
def Group.widthMask (g : Group) : Word := maskOf (fun i => i < g.width)

/-- The group of an identifier: the one now issuing, or one of the list. -/
def State.group (s : State) (gid : Nat) : Option Group :=
  if s.issue.active && s.cur.gid == gid then some s.cur else s.groups.find? (fun g => g.gid == gid)
/-- Updates a group. -/
def State.updGroup (s : State) (gid : Nat) (f : Group → Group) : State :=
  if s.issue.active && s.cur.gid == gid then { s with cur := f s.cur }
  else { s with groups := s.groups.map (fun g => if g.gid == gid then f g else g) }
/-- Every group of the device, the issuing one included. -/
def State.allGroups (s : State) : List Group := if s.issue.active then s.cur :: s.groups else s.groups
/-- Updates every group. -/
def State.mapGroups (s : State) (f : Group → Group) : State :=
  { s with cur := if s.issue.active then f s.cur else s.cur, groups := s.groups.map f }

def Plot.none : Plot :=
  { pid := 0, lid := 0, index := 0, st := .ended, core := 0, base := 0, size := 0, rbcnt := 0, eligible := false, log := [],
    logging := false, recvLog := [], represent := [], image := Memory.empty, savePa := 0, saveLen := 0, shadowPa := 0, shadowLen := 0, shadowOk := false,
    rolling := false, alloc := 0 }
def State.plot (s : State) (pid : Nat) : Plot := (s.plots.find? (fun p => p.pid == pid)).getD Plot.none
def State.updPlot (s : State) (pid : Nat) (f : Plot → Plot) : State :=
  { s with plots := s.plots.map (fun p => if p.pid == pid then f p else p) }

def Launch.none : Launch :=
  { lid := 0, queue := 0, entry := 0, ctx := 0, st := .done, status := 0, prio := 0, image := 0, stamp := 0, sets := [],
    chans := [], bdesc := [], callocs := [], bars := [], order := 0, reserved := [], maxStamp := 0, failing := 0 }
def State.launch (s : State) (lid : Nat) : Launch := (s.launches.find? (fun l => l.lid == lid)).getD Launch.none
def State.updLaunch (s : State) (lid : Nat) (f : Launch → Launch) : State :=
  { s with launches := s.launches.map (fun l => if l.lid == lid then f l else l) }

/-- Bytes lo to lo + n − 1 of a queue entry, little-endian (16 R305). -/
def Launch.at (l : Launch) (lo n : Nat) : Nat := (l.image.toNat >>> (8 * lo)) % 2 ^ (8 * n)
def Launch.plotCount (l : Launch) : Nat := bits (l.at 4 4) 23 0 + 1
def Launch.groupCount (l : Launch) : Nat := bits (l.at 8 4) 4 0 + 1
def Launch.width (l : Launch) : Nat := bits (l.at 8 4) 12 8 + 1
/-- Lane-slice size in bytes. -/
def Launch.slice (l : Launch) : Nat := 16 * bits (l.at 8 4) 22 13
/-- Plot scratchpad in bytes. -/
def Launch.scratch (l : Launch) : Nat := 1024 * bits (l.at 12 4) 10 0
/-- Cluster-memory need C in bytes. -/
def Launch.cneed (l : Launch) : Nat := 512 * bits (l.at 12 4) 24 11
def Launch.pentry (l : Launch) : DWord := BitVec.ofNat 64 (l.at 16 8)
def Launch.dentry (l : Launch) : DWord := BitVec.ofNat 64 (l.at 24 8)
def Launch.ctrl (l : Launch) : Nat := l.at 0 4
def Launch.coop (l : Launch) : Bool := bit l.ctrl 5
def Launch.step (l : Launch) : Bool := bit l.ctrl 6
def Launch.hstream (l : Launch) : Nat := bits l.ctrl 19 14
def Launch.ndep (l : Launch) : Nat := bits l.ctrl 13 12
def Launch.caddr (l : Launch) : Nat := l.at 64 8
/-- The plots of a set-table entry hold the index (01 R28). -/
def Launch.inSet (l : Launch) (e idx : Nat) : Bool := (l.sets.getD e []).any (fun r => r.1 ≤ idx && idx ≤ r.2)
/-- The plot indices of a set-table entry. -/
def Launch.setPlots (l : Launch) (e : Nat) : List Nat :=
  (l.sets.getD e []).flatMap (fun r => (List.range (r.2 + 1 - r.1)).map (· + r.1))

def Ctx.none (x : Nat) : Ctx := ⟨x, false, 0, 0, 0, 0, 0, 0, [], 0, 0, 0, 0⟩
/-- The loaded copy of a context (16 R301). -/
def State.ctx (s : State) (x : Nat) : Ctx := (s.ctxs.find? (fun c => c.id == x)).getD (Ctx.none x)

def Cluster.start (n : Nat) : Cluster := ⟨n, List.replicate 8 ⟨.free, [], 0, 0, 0⟩, [], [], [], [], none⟩
/-- A cluster, by chiplet × 16 + cluster. -/
def State.cluster (s : State) (n : Nat) : Cluster := (s.clusters.find? (fun c => c.id == n)).getD (Cluster.start n)
def State.updCluster (s : State) (n : Nat) (f : Cluster → Cluster) : State :=
  if s.clusters.any (fun c => c.id == n) then { s with clusters := s.clusters.map (fun c => if c.id == n then f c else c) }
  else { s with clusters := f (Cluster.start n) :: s.clusters }

def Init.none : Init := ⟨false, 0, 0, 0, 0, 0⟩
def HwChan.idle (h : Nat) : HwChan := ⟨h, 0, 0, [], false, false, 0, Init.none, 0, none, []⟩
/-- A hardware copy channel. -/
def State.chan (s : State) (h : Nat) : HwChan := (s.chans.find? (fun c => c.h == h)).getD { HwChan.idle h with stamp := s.tbase }
def State.updChan (s : State) (h : Nat) (f : HwChan → HwChan) : State :=
  if s.chans.any (fun c => c.h == h) then { s with chans := s.chans.map (fun c => if c.h == h then f c else c) }
  else { s with chans := f { HwChan.idle h with stamp := s.tbase } :: s.chans }
/-- CSTAT of a channel (10 R231). -/
def HwChan.cstat (c : HwChan) : Nat := c.st + 4 * c.heads.length + 32 * bnat c.refused

/-- The cluster of a core. -/
def clusterOf (core : Nat) : Nat := core / 8
/-- The compute chiplet of a core, which is also its port. -/
def chipletOf (core : Nat) : Nat := core / 128

/-! The device physical address map and the homes (02 R53, R69; 18 R345). -/

/-- What a device physical address names. -/
inductive PaKind
  | first | second (lc : Nat) | peer (i : Nat) | hole
deriving DecidableEq, Repr

def paKind (pa : Nat) : PaKind :=
  if pa < 0x12000000000 then .first
  else if 0x40000000000 ≤ pa && pa < 0x50000000000 then (if Config.isC then .hole else .second 0)
  else if 0x60000000000 ≤ pa && pa < 0x80000000000 then
    (if Config.isC then (if Config.hdmMapped pa then .second 1 else .hole)
     else if pa < 0x70000000000 then .second 1 else .hole)
  else if 1 ≤ pa >>> 50 && pa >>> 50 < 64 then .peer (pa >>> 50)
  else .hole
/-- First or second tier, populated. -/
def populated (pa : Nat) : Bool :=
  match paKind pa with
  | .first => true
  | .second _ => true
  | _ => false
def isPeer (pa : Nat) : Bool :=
  match paKind pa with
  | .peer _ => true
  | _ => false
/-- The memory chiplet that homes a physical address (02 R69). -/
def homeMc (pa : Nat) : Nat :=
  let g := pa >>> 8
  (g ^^^ (g >>> 11) ^^^ (g >>> 22)) % 12
/-- The pseudo-channel of a first-tier address (02 R69). -/
def pseudoChannel (pa : Nat) : Nat :=
  let g := pa >>> 8
  (g ^^^ (g >>> 11) ^^^ (g >>> 22)) / 12 % 64
/-- The address-hash lane (02 R69), of a physical or a chip-scratchpad address. -/
def hashLane (a : Nat) : Nat := ((a >>> 7) ^^^ (a >>> 10)) % 8
/-- The memory chiplet that homes a chip-scratchpad address (02 R53). -/
def chipMc (a : Nat) : Nat := (a >>> 8) % 12
/-- The memory chiplet of a target in global memory or chip scratchpad. -/
def Target.mc (t : Target) : Nat := if t.space == .chip then chipMc t.addr else homeMc t.addr
/-- Bytes of a home line of a space (02 R44). -/
def lineBytes (sp : Space) : Nat := if sp == .glob then 128 else 64
/-- The home line of a target. Scratchpad bytes are addressed as core × 2^20 + offset. -/
def Target.key (t : Target) : LineKey :=
  match t.space with
  | .glob => .glob (t.addr / 128)
  | .chip => .chip (t.addr / 64)
  | .chan => .chan (t.addr / 32)
  | _ => .loc (t.addr / 2 ^ 20) (t.addr % 2 ^ 20 / 64)

/-! Leaf entries (17 R321). -/

def leafBits (e : BitVec 128) (hi lo : Nat) : Nat := bits e.toNat hi lo
def leafSize (e : BitVec 128) : Nat := match leafBits e 3 2 with | 0 => 2 ^ 16 | 1 => 2 ^ 21 | _ => 2 ^ 30
def leafR (e : BitVec 128) : Bool := e.getLsbD 4
def leafW (e : BitVec 128) : Bool := e.getLsbD 5
def leafX (e : BitVec 128) : Bool := e.getLsbD 6
def leafU (e : BitVec 128) : Bool := e.getLsbD 7
def leafCp (e : BitVec 128) : Nat := leafBits e 9 8
def leafLc (e : BitVec 128) : Nat := leafBits e 11 10
def leafFmt (e : BitVec 128) : Nat := leafBits e 15 12
def leafTce (e : BitVec 128) : Bool := e.getLsbD 16
def leafDom (e : BitVec 128) : Nat := leafBits e 31 24
def leafTid (e : BitVec 128) : Nat := leafBits e 43 32
def leafGeom (e : BitVec 128) : Nat := leafBits e 63 48
def leafPa (e : BitVec 128) : Nat := leafBits e 127 64
/-- LEASE of a page (02 R61). -/
def leaseOf (e : BitVec 128) : Word := match leafLc e with | 0 => 10 | 1 => 160 | _ => 0x100000
/-- The stronger of the page's policy and the hint (02 R60): 0 none, 1 .na, 2 .bp. -/
def effHint (e : BitVec 128) (hint : Nat) : Nat := max (leafCp e) hint

/-! ECC and failed chiplets (17 R337, 19 R373). -/

/-- The link chiplet that holds a second-tier address is in one of the states (19 R372, R373). -/
def State.tierIn (s : State) (pa : Nat) (states : List Nat) : Bool :=
  match paKind pa with
  | .second lc => states.contains (s.chipState (20 + lc))
  | _ => false
/-- Accesses to the second-tier range of a draining, drained or resetting link chiplet wait (19 R372). -/
def State.tierWaits (s : State) (t : Target) : Bool := t.space == .glob && s.tierIn t.addr [1, 2, 3]
/-- The home of a target has failed: every access to it completes as consumption of uncorrectable data (19 R373). -/
def State.homeDead (s : State) (t : Target) : Bool :=
  match t.space with
  | .glob => !(match paKind t.addr with | .peer _ => true | _ => false) && (s.chipState (8 + homeMc t.addr) == 4 || s.tierIn t.addr [4])
  | .chip => s.chipState (8 + chipMc t.addr) == 4
  | _ => false
/-- The class of the worst sector of n bytes at a global address, class 4 where the home has failed. -/
def State.eccClass (s : State) (pa n : Nat) : Nat :=
  if s.chipState (8 + homeMc pa) == 4 || s.tierIn pa [4] then 4
  else (List.range (n / 32 + 2)).foldl (fun acc i =>
    let sec := (pa / 32 + i) * 32
    if sec < pa + n then max acc ((alGet s.mem.ecc sec).getD 0) else acc) 0
/-- Where the ECC classes of a space's sectors stand in the list of them. -/
def Space.eccBase (sp : Space) : Nat := match sp with | .glob => 0 | .chip => 2 ^ 61 | _ => 2 ^ 60
/-- A sector of n bytes of a scratchpad holds uncorrectable data (11 R265, 17 R337). -/
def State.badSectors (s : State) (t : Target) (n : Nat) : Bool :=
  !s.mem.ecc.isEmpty && (List.range (n / 32 + 2)).any (fun i =>
    let sec := (t.addr / 32 + i) * 32
    sec < t.addr + n && 3 ≤ (alGet s.mem.ecc (t.space.eccBase + sec)).getD 0)
/-- Whether a read of the target consumes uncorrectable data (17 R338, 19 R373). -/
def State.bad (s : State) (t : Target) (n : Nat) : Bool :=
  match t.space with
  | .glob => !isPeer t.addr && 3 ≤ s.eccClass t.addr n
  | .chip => s.chipState (8 + chipMc t.addr) == 4 || s.badSectors t n
  | .scratch => s.badSectors t n
  | .cluster => s.badSectors t n
  | _ => false

/-! Stamps of the homes (03 R79 to R85). -/


/-- M of a slice. -/
def State.m (s : State) (mc : Nat) : Word := unstale s.tbase (s.mem.mst.getD mc 0)
/-- The stamps of a line: those kept; for a global line that is in no slice, M (03 R79); for a local line never accessed, the 0 of
device reset as the sweeps have kept it from going stale (R85). -/
def State.line (s : State) (k : LineKey) : LineSt :=
  match s.mem.lines.find? (fun l => l.key == k) with
  | some l => { l with wts := unstale s.tbase l.wts, rts := unstale s.tbase l.rts,
                       held := l.held.map (fun w => (unstale s.tbase w.1, unstale s.tbase w.2)) }
  | none =>
    match k with
    | .glob n => let m := s.m (homeMc (n * 128)); ⟨k, m, m, [], 0, 0, 0, 0, false⟩
    | _ => let z := unstale s.tbase s.mem.rest; ⟨k, z, z, [], 0, 0, 0, 0, false⟩
def State.hasLine (s : State) (k : LineKey) : Bool := s.mem.lines.any (fun l => l.key == k)
def State.setLine (s : State) (l : LineSt) : State :=
  let ls := if s.hasLine l.key then s.mem.lines.map (fun x => if x.key == l.key then l else x) else l :: s.mem.lines
  { s with mem := { s.mem with lines := ls } }
/-- RHTH of RASCFG (19 R364). -/
def State.rhth (s : State) : Nat := max 512 (s.field 0x488 15 0)
/-- An access to DRAM activates its row (19 R367): fills, write-backs of dirty lines and accesses that allocate nothing. The activation that
brings the row's counter to RHTH raises an alert, which clears the counter. -/
def State.activate (s : State) (pa : Nat) : State :=
  match paKind pa with
  | .first =>
    let k := (homeMc pa, Config.rowOf pa)
    let n := (alGet s.ras.acts k).getD 0 + 1
    { s with ras :=
        if n < s.rhth then { s.ras with acts := alSet s.ras.acts k n }
        else { s.ras with acts := alDel s.ras.acts k, raised := if s.ras.raised.contains k then s.ras.raised else s.ras.raised ++ [k] } }
  | _ => s
/-- A line leaves its L2 slice: M rises to its rts (03 R79), and what is dirty is written back. -/
def State.dropLine (s : State) (n : Nat) : State :=
  let l := s.line (.glob n)
  let mc := homeMc (n * 128)
  let r := l.held.foldl (fun acc w => tmax acc w.2) l.rts
  let s := if l.dirty != 0 then s.activate (n * 128) else s
  { s with mem := { s.mem with lines := s.mem.lines.filter (fun x => x.key != .glob n),
                               mst := s.mem.mst.set mc (tmax (s.m mc) r) } }

/-- The word stamps touched by n bytes at byte `off` of a line: indices of its 4-byte words. -/
def wordsTouched (off n i : Nat) : Bool := off / 4 ≤ i && i ≤ (off + n - 1) / 4
/-- The stamps that an access to n bytes at offset `off` meets (03 R79). -/
def LineSt.stamps (l : LineSt) (off n : Nat) : Word × Word :=
  if l.held.isEmpty then (l.wts, l.rts)
  else
    let ws := (l.held.mapIdx (fun i w => (i, w))).filter (fun p => wordsTouched off n p.1)
    match ws with
    | [] => (l.wts, l.rts)
    | (_, w) :: rest => rest.foldl (fun acc p => (tmax acc.1 p.2.1, tmax acc.2 p.2.2)) w
/-- Raises rts of what an access touches. -/
def LineSt.raise (l : LineSt) (off n : Nat) (r : Word) : LineSt :=
  if l.held.isEmpty then { l with rts := tmax l.rts r }
  else { l with held := l.held.mapIdx (fun i w => if wordsTouched off n i then (w.1, tmax w.2 r) else w) }
/-- Sets both stamps of what a write touches. -/
def LineSt.stamp (l : LineSt) (off n : Nat) (ts : Word) : LineSt :=
  if l.held.isEmpty then { l with wts := ts, rts := ts }
  else { l with held := l.held.mapIdx (fun i w => if wordsTouched off n i then (ts, ts) else w) }
/-- The engine releases the line: its stamps become the latest of its words' (03 R79). -/
def LineSt.release (l : LineSt) : LineSt :=
  match l.held with
  | [] => l
  | w :: rest =>
    let m := rest.foldl (fun acc x => (tmax acc.1 x.1, tmax acc.2 x.2)) w
    { l with wts := m.1, rts := m.2, held := [] }
/-- The engine takes the line: every word takes the line's stamps (03 R79). -/
def LineSt.take (l : LineSt) (words : Nat) : LineSt :=
  if l.held.isEmpty then { l with held := List.replicate words (l.wts, l.rts) } else l
/-- The sectors of a line that n bytes at byte `off` touch. -/
def sectors (off n : Nat) : BitVec 4 := BitVec.ofNat 4 (((List.range 4).filter (fun i => off < 32 * (i + 1) && 32 * i < off + n)).foldl (fun m i => m + 2 ^ i) 0)
/-- The sectors of a line that n bytes at byte `off` cover whole. -/
def wholeSectors (off n : Nat) : BitVec 4 := BitVec.ofNat 4 (((List.range 4).filter (fun i => off ≤ 32 * i && 32 * (i + 1) ≤ off + n)).foldl (fun m i => m + 2 ^ i) 0)

def Target.off (t : Target) : Nat := t.addr % lineBytes t.space

/-- The bytes of a target (one home access); a copy channel's CHEAD and CCTL read 0 (10 R231). -/
def State.peek (s : State) (t : Target) (n : Nat) : List Byte :=
  match t.space with
  | .glob => s.mem.glob.readN t.addr n
  | .chip => s.mem.chip.readN t.addr n
  | .chan =>
    let c := s.chan (t.addr / 32)
    bytesOf n (if t.addr % 32 == 8 then c.cstat else if t.addr % 32 == 16 then c.last.toNat else 0)
  | _ => s.mem.scratch.readN t.addr n

/-- The allocation tag of the sector of a global address (02 R56). -/
def State.sectorTag (s : State) (pa : Nat) : Nat := (s.mem.tags.read (pa / 32)).toNat
/-- The tag of the first touched sector that differs from the access's TAG (02 R56). -/
def State.tagMismatch (s : State) (t : Target) (n : Nat) : Option Nat :=
  match t.tag with
  | none => none
  | some tg =>
    ((List.range (n / 32 + 2)).filterMap (fun i =>
      let sec := t.addr / 32 + i
      if sec * 32 < t.addr + n && (s.mem.tags.read sec).toNat != tg then some (s.mem.tags.read sec).toNat else none)).head?

/-- A row joins its stack's watch set, or its clean run starts again (19 R365); a full set loses the row with the longest clean
run, the one that entered earliest of these. -/
def watchJoin (ws : List Watch) (mc row : Nat) : List Watch :=
  if ws.any (fun w => w.mc == mc && w.row == row) then ws.map (fun (w : Watch) => if w.mc == mc && w.row == row then { w with clean := 0 } else w)
  else
    let mine := ws.filter (fun w => w.mc == mc)
    let ws := if mine.length < 4096 then ws
      else
        let m := mine.foldl (fun m w => max m w.clean) 0
        match mine.find? (fun w => w.clean == m) with
        | some w => ws.erase w
        | none => ws
    ws ++ [⟨mc, row, 0⟩]
/-- A sector of class 1, 3 or 4 was read: its row is watched, unless the host keeps the policy (19 R365, R366). -/
def State.watchRow (s : State) (pa : Nat) : State :=
  if s.fsplit 6 then s else { s with ras := { s.ras with watch := watchJoin s.ras.watch (homeMc pa) (Config.rowOf pa) } }
/-- A corrected sector of a stack in this second (19 R364). -/
def State.countCe (s : State) (mc : Nat) : State :=
  { s with ras := { s.ras with ce := alSet s.ras.ce mc ((alGet s.ras.ce mc).getD 0 + 1) } }
/-- A sector of class 1 is corrected in place (17 R337). -/
def State.correct (s : State) (sec : Nat) : State := { s with mem := { s.mem with ecc := s.mem.ecc.filter (fun e => e != (sec, 1)) } }
/-- A read of one sector in a class of 17 R337 is counted (19 R364, R368): corrected, misdirected, uncorrectable. -/
def State.countSector (s : State) (sec : Nat) : State :=
  let mc := homeMc sec
  let c := (alGet s.mem.ecc sec).getD 0
  let s := if c == 1 then s.correct sec else s
  match paKind sec, c with
  | .first, 1 => ((s.count (telBlock (8 + mc) + 0x08) 1).countCe mc).watchRow sec
  | .first, 3 => (s.count (telBlock (8 + mc) + 0x18) 1).watchRow sec
  | .first, 4 => (s.count (telBlock (8 + mc) + 0x10) 1).watchRow sec
  | .second lc, 1 => s.count (telBlock (20 + lc) + 0x28) 1
  | .second lc, 3 => s.count (telBlock (20 + lc) + 0x30) 1
  | .second lc, 4 => s.count (telBlock (20 + lc) + 0x30) 1
  | _, _ => s
/-- A bank starts no request: in back-off, or with an alert of one of its rows raised (19 R367). -/
def State.bankShut (s : State) (mc bank : Nat) : Bool :=
  s.ras.backoff.contains (mc, bank) || s.ras.raised.any (fun r => r.1 == mc && Config.bankOf r.2 == bank)
/-- The home of a target can serve it: its line is in its slice, or no back-off of its bank and no held lane keeps it from
memory (18 R355; 19 R367). -/
def State.dramOpen (s : State) (t : Target) : Bool :=
  t.space != .glob || s.hasLine t.key ||
  (match paKind t.addr with
   | .first => (s.ras.backoff.isEmpty && s.ras.raised.isEmpty) || !s.bankShut (homeMc t.addr) (Config.bankOf (Config.rowOf t.addr))
   | .second lc => s.laneOpen (8 + homeMc t.addr) (20 + lc) (hashLane t.addr) && s.laneOpen (20 + lc) (8 + homeMc t.addr) (hashLane t.addr)
   | _ => true)
/-- A request of a port reaches the home of a target and can be served there (02 R71). -/
def State.reachFrom (s : State) (port : Nat) (t : Target) : Bool :=
  match t.space with
  | .chip => s.laneOpen port (8 + chipMc t.addr) (hashLane t.addr)
  | .glob => !populated t.addr || (s.laneOpen port (8 + homeMc t.addr) (hashLane t.addr) && s.dramOpen t)
  | _ => true
/-- A request of a core reaches it. -/
def State.reachable (s : State) (core : Nat) (t : Target) : Bool := s.reachFrom (core / 128) t
/-- The chiplet through which a message of port a to port b is relayed now (02 R71). -/
def State.viaOf (s : State) (a b : Nat) : Option Nat := if s.cmapMode a b == 2 then some (s.cmapK a b) else none
/-- A reply of port a to port b can return on a lane: through the chiplet that its request crossed (14 R288), else on their own pair. -/
def State.returnOpen (s : State) (via : Option Nat) (lane a b : Nat) : Bool :=
  a == b || (match via with | some k => s.laneOpen a k lane && s.laneOpen k b lane | none => s.laneOpen a b lane)
/-- The port of the memory chiplet that homes a target, where an access of another chiplet crosses the fabric. -/
def Target.port (t : Target) : Option Nat :=
  match t.space with
  | .chip => some (8 + chipMc t.addr)
  | .glob => if populated t.addr then some (8 + homeMc t.addr) else none
  | _ => none
/-- The chiplet through which a request of a port to the home of a target is relayed now. -/
def State.viaTo (s : State) (port : Nat) (t : Target) : Option Nat := t.port.bind (s.viaOf port)
/-- A reply of the home of a target, whose request crossed `via`, reaches a port. -/
def State.answersVia (s : State) (port : Nat) (t : Target) (via : Option Nat) : Bool :=
  match t.port with
  | some h => s.returnOpen via (hashLane t.addr) h port
  | none => true
/-- A reply of the home of a target reaches a port, as requests go now. -/
def State.answersTo (s : State) (port : Nat) (t : Target) : Bool := s.answersVia port t (s.viaTo port t)
/-- A reply of the home of a target reaches a core. -/
def State.answerable (s : State) (core : Nat) (t : Target) : Bool := s.answersTo (core / 128) t
/-- An access of a port and its answer are not held (02 R71, 18 R354, R355; 19 R372). -/
def State.portServes (s : State) (port : Nat) (t : Target) : Bool := s.reachFrom port t && s.answersTo port t && !s.tierWaits t
/-- Every line of n bytes at a physical address can be reached from a port and can answer it. -/
def State.spanServes (s : State) (port pa n : Nat) : Bool :=
  (List.range (n / 128 + 2)).all (fun i => let a := max pa ((pa / 128 + i) * 128); pa + n ≤ a || s.portServes port { space := .glob, addr := a })
/-- A read of n bytes at a home is counted, sector by sector. -/
def State.countRead (s : State) (t : Target) (n : Nat) : State :=
  if t.space != .glob || s.mem.ecc.isEmpty then s
  else ((List.range (n / 32 + 2)).filter (fun i => (t.addr / 32 + i) * 32 < t.addr + n)).foldl (fun s i => s.countSector ((t.addr / 32 + i) * 32)) s

/-- The port of the link chiplet that holds a target's memory. -/
def Target.link (t : Target) : Option Nat :=
  match t.space, paKind t.addr with
  | .glob, .second lc => some (20 + lc)
  | _, _ => none
/-- An access wakes the chiplets that it reaches from S2 (18 R351; log 91). -/
def State.powerUp (s : State) (t : Target) : State := s.rouse (fun u => u.1 == 2 && (t.port == some u.2 || t.link == some u.2))

/-- A read at the home under the third branch of 03 R80 at stamp `pts`: bytes, wts met, rts after it, stamp. -/
def State.homeRead (s : State) (t : Target) (n : Nat) (pts : Word) : State × List Byte × Word × Word × Word :=
  let s := (s.powerUp t).countRead t n
  let l := s.line t.key
  let st := l.stamps t.off n
  let p := unstale s.tbase pts
  let ts := tmax p st.1
  let l' := l.raise t.off n ts
  (s.setLine l', s.peek t n, st.1, (l'.stamps t.off n).2, ts)
/-- The value-free form of `homeRead`: state and stamp. -/
def State.readStamp (s : State) (t : Target) (n : Nat) (pts : Word) : State × Word :=
  let r := s.homeRead t n pts
  (r.1, r.2.2.2.2)

/-! Monitors (09 R205). -/

def bucketOf (a : Nat) : Nat := ((a >>> 3) ^^^ (a >>> 9) ^^^ (a >>> 15)) % 64
/-- The memory chiplet has an entry for the word, or a free entry (09 R205). -/
def State.monitorFree (s : State) (mc : Nat) (chip : Bool) (word : Nat) : Bool :=
  let es := s.mem.monitors.filter (fun m => m.mc == mc && !m.bucket)
  es.any (fun m => m.chip == chip && m.word == word) ||
    ((es.map (fun m => (m.chip, m.word))).eraseDups).length < 4096
/-- Arms a monitor for the 8-byte word of an address (09 R205). -/
def State.arm (s : State) (t : Target) (ctx : Nat) (who : Waiter) : State :=
  let mc := t.mc
  let chip := t.space == .chip
  let word := t.addr / 8
  let own := ((s.mem.monitors.find? (fun m => m.mc == mc && m.chip == chip && m.word == word && !m.bucket)).map (·.owner)).getD ctx
  let bucket := !s.monitorFree mc chip word
  let s := if bucket then s.count (telBlock (8 + mc) + 0x58) 1 else s
  { s with mem := { s.mem with monitors := s.mem.monitors ++ [⟨mc, chip, word, bucket, own, who⟩] } }
/-- A write of n bytes wakes the monitor. -/
def Monitor.hit (m : Monitor) (mc : Nat) (chip : Bool) (a n : Nat) : Bool :=
  m.mc == mc &&
    (if m.bucket then (List.range (n / 8 + 2)).any (fun i => (a / 8 + i) * 8 < a + n && bucketOf ((a / 8 + i) * 8) == bucketOf (m.word * 8))
     else m.chip == chip && a / 8 ≤ m.word && m.word ≤ (a + n - 1) / 8)

/-- Conditions 0 to 9 on 32- or 64-bit values (06 R161). -/
def condHolds (c w : Nat) (a b : DWord) : Bool :=
  let x := a.toNat % 2 ^ w; let y := b.toNat % 2 ^ w
  let sx := toSigned w x; let sy := toSigned w y
  match c with
  | 0 => x == y
  | 1 => x != y
  | 2 => decide (sx < sy)
  | 3 => decide (sx ≤ sy)
  | 4 => decide (sy < sx)
  | 5 => decide (sy ≤ sx)
  | 6 => decide (x < y)
  | 7 => decide (x ≤ y)
  | 8 => decide (y < x)
  | _ => decide (y ≤ x)

/-! Thread destinations (05 R124, R128) and the back queue (01 R32). -/

/-- Writes a value to a thread register: full, no producer, no mark (05 R128). -/
def Thread.setV (t : Thread) (n : Nat) (x : Word) : Thread := { t with v := t.v.set n ⟨x, true, 0, none⟩ }
def Thread.getV (t : Thread) (n : Nat) : Reg := t.v.getD n Reg.start
def Thread.setP (t : Thread) (n : Nat) (b : Bool) : Thread :=
  { t with p := if b then t.p ||| BitVec.ofNat 7 (2 ^ n) else t.p &&& ~~~ (BitVec.ofNat 7 (2 ^ n)) }
def Thread.getP (t : Thread) (n : Nat) : Bool := t.p.getLsbD n

def QEnt.blank : QEnt := ⟨List.replicate 32 0, false, 0, [], 0⟩
/-- A lane writes its place of its next qb entry (01 R32, 15 R290); the entry carries the latest pts (03 R88). -/
def Group.pushQb (g : Group) (lane : Nat) (x : Word) : Group :=
  let t := g.thread lane
  let i := t.qbw - g.arch.qb.base
  let ents := g.arch.qb.ents ++ List.replicate (i + 1 - g.arch.qb.ents.length) QEnt.blank
  let e := ents.getD i QEnt.blank
  let st := if e.written == 0 then t.pts else tmax e.stamp t.pts
  let e' := { e with vals := e.vals.set lane x, stamp := st, written := e.written ||| laneBit lane }
  { g with arch := { g.arch with qb := { g.arch.qb with ents := ents.set i e' },
                                 threads := g.arch.threads.set lane { t with qbw := t.qbw + 1 } } }
/-- Writes a thread destination: register, qb or discard (05 R124). -/
def Group.dst (g : Group) (d : BitVec 6) (lane : Nat) (x : Word) : Group :=
  if d.toNat < 56 then g.updThread lane (fun t => t.setV d.toNat x)
  else if d.toNat == 56 then g.pushQb lane x
  else g
/-- Writes consecutive registers from a field; code 63 discards (05 R127, 08 R187). -/
def Group.dstN (g : Group) (d : BitVec 6) (lane : Nat) (xs : List Word) : Group :=
  match xs with
  | [x] => g.dst d lane x
  | _ => if d.toNat == 63 then g
         else g.updThread lane (fun t => (xs.mapIdx (fun i x => (i, x))).foldl (fun t p => t.setV (d.toNat + p.1) p.2) t)
/-- The words of a value of n registers, little-endian. -/
def wordsOf (n x : Nat) : List Word := (List.range n).map (fun i => BitVec.ofNat 32 (x >>> (32 * i)))

/-- Drops the queue entries that every live lane has passed (01 R32). -/
def dropPassed (heads : List Nat) : Nat → Queue → Queue
  | 0, q => q
  | n + 1, q =>
    match q.ents with
    | [] => q
    | _ :: rest => if heads.all (fun h => q.base < h) then dropPassed heads n ⟨q.base + 1, rest⟩ else q
/-- Frees the seed-queue entries that every live thread has read (01 R32). -/
def Group.freeQueues (g : Group) : Group :=
  if g.arch.q.all (fun q => q.ents.isEmpty) then g
  else
    let live := (List.range 32).filter (fun i => (g.thread i).live)
    { g with arch := { g.arch with q := g.arch.q.mapIdx (fun n q => dropPassed (live.map (fun i => (g.thread i).qh.getD n 0)) 8 q) } }
/-- A thread advances past an entry of a seed queue that it read as `old`: one given back to it, or the one at its head (05 R125). Two
words of a chain read one entry. -/
def Thread.pop (t old : Thread) (q : Nat) : Thread :=
  let of (u : Thread) : Nat := (u.kept.filter (fun e => e.1 == q)).length
  if of old == 0 then { t with qh := t.qh.set q (old.qh.getD q 0 + 1) }
  else if of t == of old then { t with kept := t.kept.eraseP (fun e => e.1 == q) }
  else t

/-- A thread leaves its wait; an EXIT of the same chain has held back until now (05 R120). -/
def Thread.leave (t : Thread) : Thread := { t with wait := none, pos := t.wnext }
/-- What a thread waits for, also while a handler runs (17 R331). -/
def Thread.waits (t : Thread) (p : Wait → Bool) : Bool := t.wait.any p || t.susp.any (fun w => p w.1)
/-- A thread leaves a wait; one that a trap has taken from it goes past it when the handler returns (17 R333). -/
def Thread.leaveOf (t : Thread) (p : Wait → Bool) : Thread :=
  let t := if t.wait.any p then t.leave else t
  match t.susp with
  | some w => if p w.1 then { t with susp := none, ret := w.2.1 } else t
  | none => t
/-- A thread that waits for something stands at its word again, before it. -/
def Thread.unwait (t : Thread) (p : Wait → Bool) : Thread :=
  { t with wait := if t.wait.any p then none else t.wait, susp := if t.susp.any (fun w => p w.1) then none else t.susp }
/-- Holds a thread at the chain of a word: it will leave to where it had moved (09 R201). -/
def Thread.hold_ (t : Thread) (w : Wait) (chain : Pos) : Thread :=
  { t with wait := some w, wnext := if t.wait.isSome then t.wnext else t.pos, pos := chain, arr := t.pts, src := WSrc.none }
/-- A wait whose word executes again from its start: the other words of its chain do not act twice, and it reads what it had read (05
R120; 09 R201). `chain` is the chain's position. -/
def Thread.again (t : Thread) (chain nxt : Pos) (src : WSrc) : Thread := { t with redo := some (chain, nxt, src) }
/-- The thread as the word sees it that executes again at a chain: its sources as they stood before the chain (05 R120). -/
def Thread.redoView (t : Thread) (chain : Pos) : Thread :=
  match t.redo with
  | some (c, _, src) => if c == chain then { t with v := src.v.foldl (fun v r => v.set r.1 r.2) t.v, p := src.p, kept := src.q ++ t.kept } else t
  | none => t
/-- The wait that a trap has taken a thread from is over: its word executes again when the handler returns (17 R333). -/
def Thread.suspAgain (t : Thread) : Thread := { t with susp := t.susp.map (fun w => (Wait.again, w.2)) }
/-- Moves a thread: one that waits goes there when it leaves its wait. -/
def Thread.goto (t : Thread) (p : Pos) : Thread := if t.wait.isSome then { t with wnext := p } else { t with pos := p }
/-- Where a thread stands or will stand. -/
def Thread.target (t : Thread) : Pos := if t.wait.isSome then t.wnext else t.pos

/-! The mailbox (18 R346, R347). -/

/-- An event that is not yet posted. -/
def Event.of (typ : Nat) (body : BitVec 480) : Event := ⟨typ, body, 0, 0⟩
/-- An event record with its sequence number, and the flags that the device gives it (18 R347). -/
def Event.numbered (e : Event) (n : Nat) : Event := { e with flags := Config.eventFlags e.typ (n % 2 ^ 16), seq := n % 2 ^ 16 }
/-- Moves waiting events into the ring while there is room, TYPE 0x06 losses first (19 R363). -/
def postWaiting : Nat → State → State
  | 0, s => s
  | n + 1, s =>
    match s.mbox.waiting with
    | [] => s
    | e :: rest =>
      let tail := s.regN 0x318
      let used := (tail + 2 ^ 32 - s.regN 0x31C) % 2 ^ 32
      if bit (s.regN 0x310) 31 && used < 2 ^ (s.field 0x310 4 0) then
        postWaiting n ({ s with mbox := { s.mbox with waiting := rest, ring := s.mbox.ring ++ [(tail, e.numbered s.mbox.seq)], seq := s.mbox.seq + 1 } }.setReg
          0x318 (BitVec.ofNat 64 ((tail + 1) % 2 ^ 32)))
      else s
def State.pump (s : State) : State := postWaiting s.mbox.waiting.length s
/-- Posts an event that waits for room (escalations, requests, replies); the I3C target interface carries the same record, at once
(18 R346; log 21). -/
def State.post (s : State) (typ : Nat) (body : BitVec 480) : State :=
  let e := Event.of typ body
  ({ s with mbox := { s.mbox with waiting := s.mbox.waiting ++ [e], i3c := s.mbox.i3c ++ [e.numbered s.mbox.i3c.length] } }).pump
/-- The body of a TYPE 0x06 event (19 R363). TIME is the cycle count in microseconds at 2.0 GHz (log 1). -/
def rasBody (cycle sub port port2 aux addr n : Nat) : BitVec 480 :=
  BitVec.ofNat 480 (ofDigitsW 8 [sub, port, port2, aux] + (cycle / 2000) % 2 ^ 64 * 2 ^ 32 + addr % 2 ^ 64 * 2 ^ 96 + n % 2 ^ 64 * 2 ^ 160)
/-- A TYPE 0x06 event is lost (18 R347, 19 R368). -/
def State.loseEvent (s : State) : State :=
  ({ s with mbox := { s.mbox with lost := s.mbox.lost + 1, lostNew := s.mbox.lostNew + 1 } }).count (telBlock s.fePort + 0x20) 1
/-- Posts a TYPE 0x06 event, or counts it lost when the ring is full, also by the record of earlier losses that goes first (18 R347,
19 R363). -/
def State.ras6 (s : State) (sub port port2 aux addr n : Nat) : State :=
  let used := (s.regN 0x318 + 2 ^ 32 - s.regN 0x31C) % 2 ^ 32
  if bit (s.regN 0x310) 31 && used + s.mbox.waiting.length < 2 ^ (s.field 0x310 4 0) then
    let lostTwo := s.mbox.lostNew != 0 && used + s.mbox.waiting.length + 1 == 2 ^ (s.field 0x310 4 0)
    let s := if s.mbox.lostNew == 0 then s
      else { s with mbox := { s.mbox with lostNew := 0 } }.post 0x06 (rasBody s.sched.cycle 0x0C 0 0xFF 0 0 s.mbox.lostNew)
    if lostTwo then s.loseEvent else s.post 0x06 (rasBody s.sched.cycle sub port port2 aux addr n)
  else s.loseEvent

/-! Where the pieces of an access begin (08 R183). -/

/-- The pieces of one lane's access with the address at which each begins. -/
def pieceEas (ea : DWord) : List (Target × Nat) → List (Target × DWord)
  | [] => []
  | (t, n) :: rest => (t, ea) :: pieceEas (ea + BitVec.ofNat 64 n) rest
def LoadRec.pieces (r : LoadRec) : List (Target × DWord) := pieceEas r.ea (r.parts.map (fun p => (p.tgt, p.len)))
/-- The address at which a piece of a store-class word begins: the lane's EA past the lane's earlier pieces. -/
def HoldRec.pieceEa (h : HoldRec) (i : Nat) (p : SPart) : DWord :=
  p.ea + BitVec.ofNat 64 (((h.parts.take i).filter (fun q => q.lane == p.lane)).foldl (fun n q => n + q.data.length) 0)
def HoldRec.pieces (h : HoldRec) : List (SPart × DWord) := h.parts.mapIdx (fun i p => (p, h.pieceEa i p))

/-! Taking a trap and returning from it (17 R329 to R335). -/

/-- A position as a 64-bit position value (06, "Branches, calls and jumps"). -/
def posVal (p : Pos) : DWord := (p.pc <<< 2) ||| BitVec.ofNat 64 p.slot
/-- A packet index: 52 bits (05 R118). -/
def pc52 (x : DWord) : DWord := x &&& 0xFFFFFFFFFFFFF
/-- The position after a word of n words (05 R118). -/
def Pos.after (p : Pos) (n : Nat) : Pos := if p.slot + n < 3 then ⟨p.pc, p.slot + n⟩ else ⟨pc52 (p.pc + 1), 0⟩
/-- Positions in order: PC first (01, "Issue within a group"). -/
def Pos.lt (p q : Pos) : Bool := p.pc.toNat < q.pc.toNat || (p.pc == q.pc && p.slot < q.slot)
/-- EPC of a position: slot and signed offset from the stream's entry PC (17 R329). -/
def epcOf (entry : DWord) (p : Pos) : Word := ((p.pc - entry).setWidth 32 <<< 2) ||| BitVec.ofNat 32 p.slot
/-- The position that EPC names. -/
def epcPos (entry : DWord) (epc : Word) : Pos := ⟨pc52 (entry + ((epc.sshiftRight 2).signExtend 64)), epc.toNat % 4⟩

/-- CAUSE of a trap (17 R329). -/
def causeOf (t : Trap) (slot : Nat) (drill : Bool) : Word :=
  BitVec.ofNat 32 (t.code % 256 + slot % 4 * 2 ^ 8 + (t.lane.getD 0) % 32 * 2 ^ 10 + bnat t.lane.isSome * 2 ^ 15 + bnat drill * 2 ^ 16 +
    bnat t.defer * 2 ^ 17 + bnat t.fetch * 2 ^ 18 + bnat t.wr * 2 ^ 19 + t.info % 256 * 2 ^ 24)
/-- Route D: always to the driver (17 R330). -/
def routeDriver (code : Nat) : Bool := code == 0x18 || code == 0x19 || code == 0x1A || code == 0x20 || code == 0x3F

def Group.trap (g : Group) : TrapSt := g.arch.trap
def Group.updTrap (g : Group) (f : TrapSt → TrapSt) : Group := { g with arch := { g.arch with trap := f g.arch.trap } }

/-- The body of an escalation record (17 R335; the order of its items is log 15). -/
def escBody (g : Group) (l : Launch) (p : Plot) (pos : Pos) : BitVec 480 :=
  BitVec.ofNat 480 (ofDigitsW 32 [g.ctx, l.queue, l.entry, p.index, g.idx, g.core, g.trap.cause.toNat,
    g.trap.faddr.toNat % 2 ^ 32, g.trap.faddr.toNat / 2 ^ 32, g.trap.done.toNat, (posVal pos).toNat % 2 ^ 32, (posVal pos).toNat / 2 ^ 32])

/-- The group enters handler mode: every thread of the handler set moves to slot 0 of packet TRAPH (17 R331). Its return position after
a Drill trap or a stream-deadlock trap is its own. One that waits is taken from its wait, in which it stands again when the handler
returns; what it had recorded at a barrier stays. -/
def Group.enterHandler (g : Group) (traph : DWord) : Group :=
  (g.updTrap (fun t => { t with handler := true })).mapThreads (fun i th =>
    if g.trap.hset.getLsbD i then
      { th with pos := ⟨traph, 0⟩, wait := none, ret := if g.trap.kind == .plough then th.ret else th.pos,
                susp := th.wait.map (fun w => (w, th.wnext, th.src)) }
    else th)
/-- A thread returns from handler mode to a position (17 R333): a wait of the handler's code is left, the wait that the trap took it
from goes on, and a chain that was to execute again counts only where the thread returns to it. -/
def Thread.returnTo (t : Thread) (p : Pos) : Thread :=
  let t := { t with pos := p, redo := t.redo.filter (fun r => r.1 == p) }
  match t.susp with
  | some (.again, nxt, src) => { t.again p nxt src with wait := none, susp := none }
  | some (w, nxt, src) => { t with wait := some w, wnext := nxt, src := src, susp := none }
  | none => { t with wait := none }

/-- Lists a sector that a walk found uncorrectable, if there is room (17 R328). -/
def State.listPoison (s : State) (t : Trap) : State :=
  match t.poison with
  | none => s
  | some a =>
    if s.mem.poison.contains a then s
    else if s.mem.poison.length < 64 then { s with mem := { s.mem with poison := s.mem.poison ++ [a] } }
    else s.setField 0x80 7 7 1

/-- Routes a trap of a group whose trap state has been written (17 R330, R331): to the handler, or to the driver with an
escalation record. -/
def State.routeTrap (s : State) (gid : Nat) (t : Trap) (pos : Pos) (kind : TrapKind) (double atEnd : Bool) (slot : Nat)
    (set : Word) : State :=
  match s.group gid with
  | none => s
  | some g =>
    let traph := (s.ctx g.ctx).traph
    if !routeDriver t.code && !double && !atEnd && traph != 0 && !s.fsplit 2 && set != 0 then s.updGroup gid (fun g => g.enterHandler traph)
    else
      let s := s.updGroup gid (fun g => { g with esc := some ⟨t, pos, kind, double, atEnd, slot, set⟩ })
      let s := { s with mbox := { s.mbox with pending := s.mbox.pending ++ [.esc gid] } }
      match s.group gid with
      | none => s
      | some g => s.post 0x01 (escBody g (s.launch g.lid) (s.plot g.pid) pos)

/-- Taking a trap in the Plough stream at the chain position `pos`, slot `slot`, for the issuing set `set` (17 R331,
R332): EPC, CAUSE, FADDR and DONE are written, each thread of the set records its return position, and the trap is
routed. A trap in handler mode is a double trap: EPC, the handler set and the return positions keep the first trap's. -/
def State.takeTrap (s : State) (gid : Nat) (t : Trap) (pos : Pos) (slot : Nat) (set : Word) : State :=
  match s.group gid with
  | none => s
  | some g =>
    let s := s.listPoison t
    if g.trap.handler then
      let t2 : Trap := { t with code := 0x3F, info := t.code }
      let s := s.updGroup gid (fun g => (g.updTrap (fun x =>
        { x with cause := causeOf t2 slot false, faddr := t.faddr, done := t.done })).mapThreads (fun i th =>
          if set.getLsbD i then { th with replayAt := none } else th))
      s.routeTrap gid t2 pos .plough true false slot set
    else
      let entry := (s.launch g.lid).pentry
      let s := s.updGroup gid (fun g => (g.updTrap (fun x =>
        { x with epc := epcOf entry pos, cause := causeOf t slot false, faddr := t.faddr, done := t.done, hset := set,
                 kind := .plough })).mapThreads (fun i th => if set.getLsbD i then { th with ret := pos, replayAt := none } else th))
      s.routeTrap gid t pos .plough false false slot set

/-- Taking a trap whose handler set is every live thread, each returning to its own position: the stream-deadlock trap
(01 R34) and a Drill trap (10 R218, 17 R331). -/
def State.takeGroupTrap (s : State) (gid : Nat) (t : Trap) (pos : Pos) (drill : Bool) : State :=
  match s.group gid with
  | none => s
  | some g =>
    let s := s.listPoison t
    let l := s.launch g.lid
    let entry := if drill then l.dentry else l.pentry
    let live := g.liveMask
    let kind := if drill then TrapKind.drill else TrapKind.deadlock
    let s := s.updGroup gid (fun g => (g.updTrap (fun x =>
      { x with epc := epcOf entry pos, cause := causeOf t pos.slot drill, faddr := t.faddr, done := t.done, hset := live,
               kind := kind, pending := none })).mapThreads (fun i th => if live.getLsbD i then { th with ret := th.pos } else th))
    s.routeTrap gid t pos kind false false pos.slot live

/-- The end of handler mode and the resumption at EPC, or at the return positions (17 R333, 08 R185): the store-class
word at EPC replays for the lanes whose DONE bit is 0, and DONE is cleared. Of a group that has not entered handler mode, the threads
that a Drill trap or a stream-deadlock trap names stand where they are (17 R335). -/
def Group.eret (g : Group) (pentry dentry : DWord) : Group :=
  let tr := g.trap
  let p := epcPos pentry tr.epc
  let same := (lanesOf tr.hset).all (fun i => (g.thread i).ret == p)
  let back (i : Nat) (th : Thread) : Thread :=
    match tr.kind with
    | .plough => { (if tr.handler then th.returnTo p else { th with pos := p }) with replayAt := if same && tr.done.getLsbD i then some p else none }
    | _ => if tr.handler then th.returnTo th.ret else th
  let g := g.mapThreads (fun i th => if tr.hset.getLsbD i then back i th else th)
  let g := match tr.kind with
    | .drill => { g with arch := { g.arch with drill := { g.arch.drill with pos := epcPos dentry tr.epc, halted := false } } }
    | _ => g
  g.updTrap (fun x => { x with handler := false, hset := 0, done := 0 })

/-- The tensor tag that a write through a page leaves (02 R66). -/
def LineSt.retag (l : LineSt) (leaf : BitVec 128) (ctx : Nat) : LineSt :=
  if leafTid leaf != 0 && leafW leaf then { l with tctx := ctx, tid := leafTid leaf } else l

/-! Keeping of global lines (02 R59, R60, R66). -/

/-- A global line is brought into its slice with the tensor tag of the access (02 R66, 03 R79), and its sectors `fill` of those that n
bytes touch are read from memory where the slice does not hold them (02 R59). A miss with .na makes it one of the slice's first victims, and
an access without a hint makes it an ordinary line (02 R60). -/
def State.allocLine (s : State) (t : Target) (ctx n : Nat) (fill : BitVec 4) (hint : Nat := 0) : State :=
  if t.space != .glob then s
  else
    let has := s.hasLine t.key
    let k := effHint t.leaf hint
    let l := if has then s.line t.key else (s.line t.key).retag t.leaf ctx
    let first := if has then l.first && k != 0 else k == 1
    let touched := sectors t.off n
    let s := if fill &&& touched &&& ~~~l.present != 0 then s.activate t.addr else s
    if has && touched &&& ~~~l.present == 0 && first == l.first then s
    else s.setLine { l with present := l.present ||| touched, first := first }
/-- A line that an access did not allocate leaves again (02 R60). -/
def State.unalloc (s : State) (was : Bool) (t : Target) (hint : Nat) : State :=
  if t.space == .glob && !was && effHint t.leaf hint == 2 then s.dropLine (t.addr / 128) else s
/-- One read under the third branch of 03 R80 for a context: data, wts, rts, and the stamp. -/
def State.readThird (s : State) (t : Target) (n : Nat) (pts : Word) (ctx hint : Nat) : State × List Byte × Word × Word × Word :=
  let was := s.hasLine t.key
  let r := (s.allocLine t ctx n 15 hint).homeRead t n pts
  (r.1.unalloc was t hint, r.2)

/-- A tag mismatch at a memory chiplet is counted (19 R368). -/
def State.countTag (s : State) (t : Target) : State := if t.space == .glob then s.count (telBlock (8 + homeMc t.addr) + 0x20) 1 else s
/-- A wait's load meets a tag mismatch after its wake: the fault marks vd, pd is false, and the thread leaves (08 R185, 09 R206). Where vd is
qb, the word traps for the threads that still stand in it. -/
def State.waitClash (s : State) (gid lane : Nat) (w : AddrWait) (v : Nat) (ts : Word) : State :=
  let m : FMark := ⟨0x1F, v, w.ea⟩
  if w.d.toNat == 56 then
    match s.group gid with
    | none => s
    | some g =>
      let pos := (g.thread lane).pos
      let set := maskOf (fun l => match (g.thread l).wait with | some (.addr _) => (g.thread l).pos == pos | _ => false)
      (s.updGroup gid (fun g => g.mapThreads (fun l t =>
        if set.getLsbD l then { t.again pos t.wnext t.src with wait := none, pts := if l == lane then ts else t.pts } else t))).takeTrap gid
          { code := 0x1F, info := v, faddr := w.ea, lane := some lane } pos w.slot set
  else
    s.updGroup gid (fun g => g.updThread lane (fun t =>
      let k := if w.two then 2 else 1
      let t := if w.d.toNat < 56 then { t with v := (List.range k).foldl (fun l j => l.modify (w.d.toNat + j) (fun r => { r with full := true, tag := 0, mark := some m })) t.v } else t
      ({ (if w.counter then t else t.setP w.pd.toNat false) with pts := ts }).leave))
/-- A thread that waits at an address has been woken: its load is to be made again at the home (09 R203, R206). One that a trap has taken
from its wait executes its word again when the handler returns (17 R333). -/
def Thread.woke (t : Thread) : Thread :=
  let t := match t.wait with
    | some (.addr w) => { t with wait := some (.addr { w with woken := true }) }
    | _ => t
  if t.susp.any (fun x => match x.1 with | .addr _ => true | _ => false) then t.suspAgain else t
/-- The reload of a woken WAITA or WAITC (09 R203, R206): WAITA leaves with the value and the condition; WAITC leaves
when the target is reached and arms its monitor again otherwise. -/
def State.waitReload (s : State) (gid lane : Nat) : State :=
  match s.group gid with
  | none => s
  | some g =>
    match (g.thread lane).wait with
    | some (.addr w) =>
      let n := if w.two then 8 else 4
      let r := s.readThird w.tgt n (g.thread lane).pts g.ctx 0
      let clash := s.tagMismatch w.tgt n
      let s := r.1
      let x := BitVec.ofNat 64 (ofBytes r.2.1)
      let ts := r.2.2.2.2
      if clash.isSome then (s.countTag w.tgt).waitClash gid lane w (clash.getD 0) ts
      else if w.counter then
        if w.cmp.toNat ≤ x.toNat then
          s.updGroup gid (fun g => (g.dstN w.d lane (wordsOf 2 x.toNat)).updThread lane (fun t => { t with pts := ts }.leave))
        else (s.arm w.tgt g.ctx (.thread gid lane)).updGroup gid (fun g => g.updThread lane (fun t =>
          { t with pts := ts, wait := some (.addr { w with woken := false }) }))
      else
        let c := condHolds w.cond (8 * n) x w.cmp
        s.updGroup gid (fun g => (g.dstN w.d lane (wordsOf (n / 4) x.toNat)).updThread lane
          (fun t => ({ t with pts := ts }.setP w.pd.toNat c).leave))
    | _ => s

/-- A write of n bytes at a home wakes the waiters of its words and buckets (09 R205); their loads are steps of their own. -/
def State.wake (s : State) (t : Target) (n : Nat) : State :=
  if t.space == .glob || t.space == .chip then
    let mc := t.mc
    let chip := t.space == .chip
    let hits := s.mem.monitors.filter (fun m => m.hit mc chip t.addr n)
    let s := if hits.isEmpty then s else s.awake
    let s := { s with mem := { s.mem with monitors := s.mem.monitors.filter (fun m => !m.hit mc chip t.addr n) } }
    hits.foldl (fun s m => match m.who with | .thread gid lane => s.updGroup gid (fun g => g.updThread lane Thread.woke) | .queue _ => s) s
  else s

/-! Writes at the homes. -/

/-- The rollback log (01 R41, 17 R339): the first write to a scratchpad line of a logging plot keeps its old bytes; a full
log ends eligibility. -/
def State.logLine (s : State) (a : Nat) : State :=
  let core := a / 2 ^ 20
  let lineOff := a % 2 ^ 20 / 64 * 64
  match s.plots.find? (fun p => p.st == .resident && p.core == core && p.logging && p.base ≤ lineOff && lineOff < p.base + p.size) with
  | none => s
  | some p =>
    if p.log.any (fun e => e.1 == lineOff) then s
    else
      let used := (s.plots.filter (fun q => q.st == .resident && q.core == core)).foldl (fun n q => n + q.log.length) 0
      if 1024 ≤ used then s.updPlot p.pid (fun q => { q with eligible := false, logging := false })
      else
        let old := s.mem.scratch.readN (core * 2 ^ 20 + lineOff) 64
        s.updPlot p.pid (fun q => { q with log := q.log ++ [(lineOff, old)] })

/-- A granule's dirty bit after a checkpoint (19 R376). -/
def State.markDirty (s : State) (pa : Nat) : State :=
  if 2 ≤ s.field 0x4A0 1 0 && pa < 0x12000000000 && !s.ckpt.dirty.contains (pa / 2 ^ 21) then
    { s with ckpt := { s.ckpt with dirty := (pa / 2 ^ 21) :: s.ckpt.dirty } }
  else s

/-- A write that covers whole sectors re-encodes them: their ECC class becomes clean and they leave the poison list
(17 R328, R337). -/
def State.reencode (s : State) (pa n : Nat) : State :=
  let covered (sec : Nat) : Bool := pa ≤ sec && sec + 32 ≤ pa + n
  { s with mem := { s.mem with ecc := s.mem.ecc.filter (fun e => !covered e.1), poison := s.mem.poison.filter (fun a => !covered a) } }

/-- Puts bytes at a home without stamps or wakes. -/
def State.poke (s : State) (t : Target) (bs : List Byte) : State :=
  match t.space with
  | .glob => ({ s with mem := { s.mem with glob := s.mem.glob.writeN t.addr bs } }.reencode t.addr bs.length).markDirty t.addr
  | .chip => { s with mem := { s.mem with chip := s.mem.chip.writeN t.addr bs } }.reencode (t.space.eccBase + t.addr) bs.length
  | .chan => s
  | _ =>
    let s := s.logLine t.addr
    { s with mem := { s.mem with scratch := s.mem.scratch.writeN t.addr bs } }.reencode (t.space.eccBase + t.addr) bs.length

/-- A write of `bs` at the home of a target under 03 R81, with stamp `pts` at the least, for context `ctx`: the stamps
move, the bytes change, waiters wake. `count` stamps are taken (08 R198: n members). Answers the first stamp. -/
def State.homeWrite (s : State) (t : Target) (bs : List Byte) (pts : Word) (ctx : Nat) (n : Nat := bs.length)
    (count : Nat := 1) : State × Word :=
  let s := s.powerUp t
  let l := s.line t.key
  let b := tmax (unstale s.tbase pts) ((l.stamps t.off n).2 + 1)
  let l' := ((l.stamp t.off n (b + BitVec.ofNat 32 (count - 1))).retag t.leaf ctx)
  let s := s.setLine (if t.space == .glob then { l' with dirty := l'.dirty ||| sectors t.off n, present := l'.present ||| sectors t.off n } else l')
  let s := if bs.isEmpty then s else s.poke t bs
  (s.wake t n, b)

/-- The L1 copies of a core lose a line (02 R58). -/
def State.dropL1 (s : State) (core line : Nat) : State :=
  { s with mem := { s.mem with l1 := s.mem.l1.filter (fun c => !(c.core == core && c.line == line)) } }

/-- A write of bytes at the home of a target for a context, with the line's keeping (02 R59, R60, R66). -/
def State.putHome (s : State) (t : Target) (bs : List Byte) (pts : Word) (ctx hint : Nat) : State × Word :=
  let was := s.hasLine t.key
  let fill := if !was && effHint t.leaf hint == 2 then 0 else ~~~wholeSectors t.off bs.length
  let q := (s.allocLine t ctx bs.length fill hint).homeWrite t bs pts ctx
  (q.1.unalloc was t hint, q.2)

/-- An atomic of n bytes at its home, in the synchronisation engine, which takes the line (03 R79, R81): `f` gives the new value. Answers
the old value and the first of its `m` stamps. -/
def State.atomicAt (s : State) (t : Target) (n : Nat) (f : Nat → Nat) (pts : Word) (ctx m : Nat) : State × Nat × Word :=
  let was := s.hasLine t.key
  let s := (s.allocLine t ctx n 15).countRead t n
  let s := s.setLine ((s.line t.key).take (lineBytes t.space / 4))
  let x := ofBytes (s.peek t n)
  let q := s.homeWrite t (bytesOf n (f x)) pts ctx n m
  (q.1.unalloc was t 0, x, q.2)

end Sys2Proof.Machine
end

