-- ==== Sys2Proof/Machine/Trans.lean ====
section
/-! DEFINITION. Address translation and the checks of an access before it is sent: page-table entries and walks
(17 R321, R322, R327), the checks of 02 R67 in their order, and the targets of the five spaces (02 R44 to R55, 08 R182,
R183; 10 R232). -/

namespace Sys2Proof.Machine
open Sys2Proof

/-- What a translation comes to. -/
inductive WalkRes
  | leaf (e : BitVec 128)
  | fault (code level : Nat) (poison : Option Nat)
  | miss
  /-- an entry cannot be read now (02 R71; 18 R355; 19 R372) -/
  | held

/-- Reserved bits, codes and alignment of a table entry (17 R321, R322). -/
def tableDefect (e : BitVec 128) (l : Nat) : Bool :=
  l == 3 || leafBits e 63 2 != 0 || leafPa e % 2 ^ 16 != 0 || !populated (leafPa e) || !populated (leafPa e + 0xFFFF)
/-- Reserved bits, codes, alignment, frame and level of a leaf entry (17 R321, R322). -/
def leafDefect (e : BitVec 128) (l : Nat) : Bool :=
  leafBits e 3 2 == 3 || leafCp e == 3 || leafLc e == 3 || 6 ≤ leafFmt e || leafBits e 23 17 != 0 || leafBits e 47 44 != 0 ||
  leafPa e % leafSize e != 0 || paKind (leafPa e) == .hole || paKind (leafPa e + leafSize e - 1) == .hole ||
  !((l == 2 && leafBits e 3 2 == 2) || (l == 3 && leafBits e 3 2 ≤ 1))
/-- The index of a virtual address at a level (17 R322). -/
def walkIdx (va l : Nat) : Nat := (va >>> (52 - 12 * l)) % (if l == 0 then 16 else 4096)

/-- The walk of a virtual address from a table, for a requester at a port (17 R322, R328): each entry is read whole at its home. -/
def State.walkFrom (s : State) (port va : Nat) : Nat → Nat → Nat → WalkRes
  | 0, l, _ => .fault 0x19 l none
  | n + 1, l, t =>
    let a := t + 16 * walkIdx va l
    let sec := a / 32 * 32
    if s.mem.poison.contains sec then .fault 0x1A l none
    else if !s.portServes port { space := .glob, addr := a } then .held
    else if 3 ≤ s.eccClass a 16 then .fault 0x1A l (some sec)
    else
      let e := BitVec.ofNat 128 (s.mem.glob.num a 16)
      if !e.getLsbD 0 then .fault 0x18 l none
      else if e.getLsbD 1 then (if leafDefect e l then .fault 0x19 l none else .leaf e)
      else if tableDefect e l then .fault 0x19 l none
      else s.walkFrom port va n (l + 1) (leafPa e)
/-- The sectors' entries that the walk reads, in order (17 R322). -/
def State.walkReads (s : State) (va : Nat) : Nat → Nat → Nat → List Nat
  | 0, _, _ => []
  | n + 1, l, t =>
    let a := t + 16 * walkIdx va l
    if s.mem.poison.contains (a / 32 * 32) then []
    else
      let e := BitVec.ofNat 128 (s.mem.glob.num a 16)
      a :: (if 3 ≤ s.eccClass a 16 || !e.getLsbD 0 || e.getLsbD 1 || tableDefect e l then [] else s.walkReads va n (l + 1) (leafPa e))
/-- The reads of a walk that is made: their sectors are classified, counted and corrected in place (17 R337). -/
def State.countWalk (s : State) (x va : Nat) : State :=
  if s.fsplit 1 then s else (s.walkReads va 4 0 (s.ctx x).ptroot).foldl (fun s a => s.countRead { space := .glob, addr := a } 16) s
/-- The walk of context `x` for a requester at a port (17 R322). -/
def State.walk (s : State) (port x va : Nat) : WalkRes := s.walkFrom port va 4 0 (s.ctx x).ptroot

/-- A cached translation covers the address (17 R324). -/
def TlbEnt.covers (e : TlbEnt) (hs : List Holder) (x va : Nat) : Bool :=
  hs.contains e.holder && e.ctx == x && va / leafSize e.leaf * leafSize e.leaf == e.page
/-- The holders of a core's translations. -/
def holdersOf (core : Nat) : List Holder := [.core core, .cluster (clusterOf core)]
/-- The port from which a holder of translations sends its requests; engine 64 stands for the front end. -/
def State.holderPort (s : State) (h : Holder) : Nat :=
  match h with
  | .core n => chipletOf n
  | .cluster n => n / 16
  | .engine n => if n < 64 then Config.enginePort n else s.fePort
/-- An access that finds no cached translation walks: the walk's reads are counted (17 R337). -/
def State.countMiss (s : State) (hs : List Holder) (x va : Nat) : State :=
  if s.mem.ecc.isEmpty || s.mem.tlb.any (fun e => e.covers hs x va) then s else s.countWalk x va
/-- The pending request has an answer that faults for the page. -/
def Pending.badFor (p : Pending) (hs : List Holder) (x page : Nat) : Option (Nat × Nat) :=
  match p with
  | .transBad h c g code level => if hs.contains h && c == x && g == page then some (code, level) else none
  | _ => none
/-- Translates: a cached leaf, else a walk, else (host-assisted mode) a request to the host (17 R324, R327). A walk made
here leaves nothing in the TLBs; PAGE_WALK fills them (log 16). -/
def State.translate (s : State) (hs : List Holder) (x va : Nat) : WalkRes :=
  match s.mem.tlb.find? (fun e => e.covers hs x va) with
  | some e => .leaf e.leaf
  | none =>
    if s.fsplit 1 then
      match (s.mbox.pending.filterMap (fun p => p.badFor hs x (va / 2 ^ 16))).head? with
      | some (code, level) => .fault code level none
      | none => .miss
    else s.walk (s.holderPort (hs.headD (.engine 64))) x va

/-- Leaf translations that a holder has room for (17 R324). -/
def Holder.room (h : Holder) : Nat := match h with | .core _ => 64 | .cluster _ => 2048 | .engine _ => 16
/-- A holder takes a leaf translation; the oldest one that finds no room any more leaves. -/
def State.tlbInsert (s : State) (h : Holder) (x va : Nat) (e : BitVec 128) : State :=
  let page := va / leafSize e * leafSize e
  let others := s.mem.tlb.filter (fun t => t.holder != h)
  let mine := s.mem.tlb.filter (fun t => t.holder == h && !(t.ctx == x && t.page == page))
  { s with mem := { s.mem with tlb := ((⟨h, x, page, e⟩ : TlbEnt) :: mine).take h.room ++ others } }

/-- Posts the request of a missing translation, once (17 R327). -/
def State.askHost (s : State) (m : Option Miss) : State :=
  match m with
  | none => s
  | some m =>
    if s.mbox.pending.contains (Pending.trans m.holder m.ctx m.page) then s
    else ({ s with mbox := { s.mbox with pending := s.mbox.pending ++ [Pending.trans m.holder m.ctx m.page] } }).post 0x03
      (BitVec.ofNat 480 (m.ctx % 2 ^ 32 + m.page * 2 ^ 48))
/-- A fault of a host's answer to the holders has been raised: the answer is used up. It is that of the access's page, or of the page
after it that the access crosses into (17 R327). -/
def State.useAnswer (s : State) (hs : List Holder) (x : Nat) (t : Trap) : State :=
  if s.fsplit 1 && (t.code == 0x18 || t.code == 0x19) then
    let page := t.faddr.toNat % 2 ^ 56 / 2 ^ 16
    let at_ (g : Nat) : Bool := s.mbox.pending.any (fun p => (p.badFor hs x g).isSome)
    let g := if at_ page then page else (page + 1) % 2 ^ 40
    { s with mbox := { s.mbox with pending := s.mbox.pending.filter (fun p => (p.badFor hs x g).isNone) } }
  else s

/-- What an access needs of its page (02 R61 to R65; 08 R188): permissions, the formats it accepts, the alignment each
format asks for, and the TYPE with which it may reach the copy-channel page. -/
structure Need where
  r : Bool
  w : Bool
  x : Bool := false
  fmt : Nat → Bool := fun _ => true
  align : Nat → Nat := fun _ => 1
  chanTyp : Nat := 99
  /-- TAG comparison applies -/
  tagged : Bool := true

/-- The address lies in the context's copy-channel page (10 R232). -/
def Ctx.inChan (c : Ctx) (va : Nat) : Bool := c.chpage ≤ va && va < c.chpage + 8192
/-- The leaves of the pages of n bytes at `va`, ascending. -/
def State.leaves (s : State) (hs : List Holder) (x : Nat) (va n : Nat) : List (Nat × WalkRes) :=
  let last := (va + n - 1) % 2 ^ 56
  if va / 2 ^ 16 == last / 2 ^ 16 then [(va, s.translate hs x va)]
  else [(va, s.translate hs x va), (last, s.translate hs x last)]

/-- The physical address of a virtual address under a leaf. -/
def leafTranslate (e : BitVec 128) (va : Nat) : Nat := leafPa e + va % leafSize e

/-- Cuts n bytes at address `a` at home lines of `lb` bytes, ascending: (offset in the access, length). -/
def cutLines (lb a : Nat) : Nat → Nat → Nat → List (Nat × Nat)
  | 0, _, _ => []
  | fuel + 1, off, n =>
    if n == 0 then []
    else
      let room := lb - (a + off) % lb
      let k := min room n
      (off, k) :: cutLines lb a fuel (off + k) (n - k)

/-- The check of one access to global memory, in the order of 02 R67 (08 R183), and its home accesses (03 R77). -/
def State.checkGlobal (s : State) (hs : List Holder) (x : Nat) (handler : Bool) (lane : Nat) (ea : DWord) (n : Nat)
    (need : Need) : Res (List (Target × Nat)) :=
  let a := ea.toNat
  let va := a % 2 ^ 56
  let fault (code : Nat) : Res (List (Target × Nat)) := .trap (Trap.access code lane ea need.w)
  if 2 ^ 60 ≤ a then fault 0x10
  else
    let c := s.ctx x
    let inCh := c.inChan
    if inCh va || inCh ((va + n - 1) % 2 ^ 56) then
      let k := (va - c.chpage) / 32
      let b := c.chans.getD k 0
      let off := va % 32
      let ok := inCh va && ((need.chanTyp == 6 && (off == 0 || off == 16)) || (need.chanTyp == 4 && (off == 8 || off == 12)))
      if !bit b 15 || !ok then .trap { Trap.access 0x0C lane ea need.w (k % 256) with faddr := 0 }
      else .ok [({ space := .chan, addr := (b % 4096) * 32 + off }, n)]
    else
      let ls := s.leaves hs x va n
      match ls.find? (fun p => match p.2 with | .leaf _ => false | _ => true) with
      | some (_, .fault code level poison) => .trap { Trap.access code lane ea need.w level with poison := poison }
      | some (v, .miss) => .wait (some ⟨hs.getLast?.getD (.cluster 0), x, v / 2 ^ 16⟩)
      | some (_, .held) => .wait none
      | _ =>
        let es := ls.filterMap (fun p => match p.2 with | .leaf e => some (p.1, e) | _ => none)
        let all (f : BitVec 128 → Bool) : Bool := es.all (fun p => f p.2)
        if !all (fun e => (!need.r || leafR e) && (!need.w || leafW e) && (!need.x || leafX e) && (handler || leafU e)) then fault 0x1B
        else if need.w && !all (fun e => leafLc e != 2) then fault 0x1C
        else if !all (fun e => need.fmt (leafFmt e)) then fault 0x1D
        else if !all (fun e => a % need.align (leafFmt e) == 0) then fault 0x1E
        else
          let leafAt (v : Nat) : BitVec 128 :=
            match es.find? (fun p => p.1 / 2 ^ 16 == v / 2 ^ 16) with
            | some p => p.2
            | none => 0
          .ok ((cutLines 128 va 16 0 n).map (fun p =>
            let v := (va + p.1) % 2 ^ 56
            let e := leafAt v
            ({ space := .glob, addr := leafTranslate e v, leaf := e,
               tag := if need.tagged && leafTce e then some (a / 2 ^ 56) else none }, p.2)))

/-! The other spaces. -/

/-- The window of each core of a cluster, in bytes (02 R48, 16 R299). -/
def State.window (s : State) (cl : Nat) : Nat :=
  let w := s.field (0x40 + 8 * (cl / 16)) (4 * (cl % 16) + 3) (4 * (cl % 16))
  if w == 0 then 0 else 2 ^ (15 + w)
/-- The scratchpad byte (core × 2^20 + offset) of a cluster-memory offset of a launch in a cluster (02 R51). -/
def State.clusterByte (s : State) (l : Launch) (cl o : Nat) : Nat :=
  let b := ((l.callocs.find? (fun c => c.cluster == cl)).map (·.offset)).getD 0
  (cl * 8 + (o >>> 6) % 8) * 2 ^ 20 + (2 ^ 20 - s.window cl) + b + ((o >>> 9) <<< 6) + o % 64

/-- The bounds of a local space for a group: size in bytes and fault code (02 R46, R49, R51, R53). -/
def State.spaceBound (s : State) (g : Group) (sp : Space) : Nat × Nat :=
  match sp with
  | .slice => ((s.launch g.lid).slice, 0x11)
  | .scratch => ((s.plot g.pid).size, 0x12)
  | .cluster => (if (s.launch g.lid).callocs.any (fun c => c.cluster == clusterOf g.core) then (s.launch g.lid).cneed else 0, 0x13)
  | _ => ((s.ctx g.ctx).cssize * 2 ^ 16, 0x14)
/-- The home byte of an offset of a local space. -/
def State.localByte (s : State) (g : Group) (sp : Space) (o : Nat) : Nat :=
  match sp with
  | .slice => o
  | .scratch => g.core * 2 ^ 20 + (s.plot g.pid).base + o
  | .cluster => s.clusterByte (s.launch g.lid) (clusterOf g.core) o
  | _ => (s.ctx g.ctx).csbase + o

/-- The check of an access to a space other than global memory, at a signed offset, and its home accesses. -/
def State.checkLocal (s : State) (g : Group) (sp : Space) (lane : Nat) (o : Int) (n align : Nat) (wr : Bool) :
    Res (List (Target × Nat)) :=
  let b := s.spaceBound g sp
  let ea : DWord := BitVec.ofInt 64 o
  if o < 0 || (b.1 : Int) < o + n then .trap (Trap.access b.2 lane ea wr)
  else
    let a := o.toNat
    if a % align != 0 then .trap (Trap.access 0x1E lane ea wr)
    else if sp == .slice then .ok [({ space := sp, addr := a }, n)]
    else .ok ((cutLines 64 a 16 0 n).map (fun p => ({ space := sp, addr := s.localByte g sp (a + p.1) }, p.2)))

/-- The formats and alignments of a load of TYPE t (02 R63, 08 R188). -/
def loadNeed (t : Nat) : Need :=
  { r := true, w := false, chanTyp := t,
    fmt := fun f =>
      if t ≤ 7 || t == 12 then true
      else if t == 11 then f == 1
      else f == 0 || (f != 1 && t == 8),
    align := fun f => if t == 12 then 16 else if t == 8 && (f == 2 || f == 3) then 1 else if t == 8 && (f == 4 || f == 5) then 2 else 1 }
/-- The formats and alignments of a store of TYPE t (02 R64, 08 R188). -/
def storeNeed (t : Nat) : Need :=
  { r := false, w := true, chanTyp := t, fmt := fun f => f == 0 || t ≤ 7 || t == 12, align := fun _ => if t == 12 then 16 else 1 }

/-- Bytes that a load of TYPE t reads from a page of a format (02 R63). -/
def loadBytes (t : Nat) (fmt : Nat) : Nat :=
  if t == 8 && (fmt == 2 || fmt == 3) then 1
  else if t == 8 && (fmt == 4 || fmt == 5) then 2
  else typeSize t

end Sys2Proof.Machine
end

