-- ==== Sys2Proof/Machine/Operands.lean ====
section
/-! DEFINITION. Operands of words: fields, guards, sources and destinations (05 R124 to R131), readiness (01 R14), the
word-level checks in their order, and the frame in which every Plough word executes (05 R120). -/

namespace Sys2Proof.Machine
open Sys2Proof

/-- A register field of a word: class, code, mode bit, and whether the word reads it. -/
structure Fld where
  k : FC
  f : BitVec 6
  m : Bool
  rd : Bool
deriving DecidableEq, Repr

/-- HST reads the register its D field names (12 R270). -/
def Instr.readsD (i : Instr) : Bool :=
  match i with
  | .hst _ | .hstWide _ _ => true
  | _ => false
/-- The fields of a word. -/
def Instr.fields (i : Instr) : List Fld :=
  match i.words with
  | none => []
  | some (w, x) =>
    [⟨i.info.d, w.d, false, Instr.readsD i⟩, ⟨i.info.a, w.a, w.am, true⟩, ⟨i.info.b, w.b, w.bm, true⟩] ++
      (match x with
       | some x => [⟨i.info.v, x.vc, x.cm, true⟩]
       | none => [])
/-- The thread registers of a source field: how many, 0 for other classes. -/
def FC.srcRegs (k : FC) : Nat := match k with | .src n => n | _ => 0
/-- The thread registers of a destination field. -/
def FC.dstRegs (k : FC) : Nat := match k with | .dst n _ => n | .dstX4 => 2 | _ => 0
/-- The field pops or peeks a seed queue (05 R124). -/
def Fld.queue (x : Fld) : Option Nat := if FC.srcRegs x.k == 1 && 56 ≤ x.f.toNat then some (x.f.toNat - 56) else none

/-! Reading the group as it stood before the chain (05 R120). -/

def GArch.thread (a : GArch) (lane : Nat) : Thread := a.threads.getD lane Thread.start
/-- The entry at a lane's head (01 R32): the first of those that a trap has given back to it, or the one at its head. -/
def GArch.head (a : GArch) (q lane : Nat) : Option QEnt :=
  match alGet (a.thread lane).kept q with
  | some e => some e
  | none =>
    let i := (a.thread lane).qh.getD q 0
    let qu := a.q.getD q Queue.empty
    if i < qu.base then none else qu.ents[i - qu.base]?
/-- A 32-bit thread source (05 R124). -/
def GArch.src (a : GArch) (f : BitVec 6) (lane : Nat) : Word :=
  if f.toNat < 56 then ((a.thread lane).getV f.toNat).val
  else ((a.head (f.toNat - 56) lane).getD QEnt.blank).vals.getD lane 0
/-- A thread source of n registers as a number, little-endian (05 R127, 08 R187). -/
def GArch.srcN (a : GArch) (n : Nat) (f : BitVec 6) (lane : Nat) : Nat :=
  if n == 1 then (a.src f lane).toNat
  else ofDigitsW 32 ((List.range n).map (fun j => ((a.thread lane).getV (f.toNat + j)).val.toNat))
/-- A pair source (05 R127). -/
def GArch.src64 (a : GArch) (f : BitVec 6) (lane : Nat) : DWord := BitVec.ofNat 64 (a.srcN 2 f lane)
/-- A pair when `x`, else a single register zero-extended. -/
def GArch.srcX (a : GArch) (x : Bool) (f : BitVec 6) (lane : Nat) : DWord :=
  if x then a.src64 f lane else (a.src f lane).setWidth 64
def GArch.pred (a : GArch) (f : BitVec 6) (lane : Nat) : Bool := (a.thread lane).getP f.toNat
def GArch.scalar (a : GArch) (n : Nat) : Word := a.s.getD n 0
/-- Lanes of the issuing set whose guard is true (01 R14, 05 R145). -/
def GArch.active (a : GArch) (set : Word) (g : BitVec 3) : List Nat :=
  (lanesOf set).filter (fun l => g == 7 || (a.thread l).getP g.toNat)

/-- The group as a chain's words read it: a thread whose wait executes again alone reads what stood before its chain (05 R120). -/
def GArch.view (a : GArch) (chain : Pos) : GArch := { a with threads := a.threads.map (fun t => t.redoView chain) }
/-- The group before the chain. -/
def State.snap (s : State) : GArch := (s.issue.pre.getD s.cur.arch).view s.issue.chainPos

/-! The state of a field for a lane (05 R129, 08 R185, 12 R269). -/

/-- The trap that a fault mark records, for the lane that reads it. -/
def FMark.trap (m : FMark) (lane : Nat) : Trap := { code := m.code, info := m.info, faddr := m.ea, lane := some lane }
/-- Registers first to first + n − 1 of a thread. -/
def Thread.regs (t : Thread) (first n : Nat) : List (Nat × Reg) := (List.range n).map (fun j => (first + j, t.getV (first + j)))
/-- The lane is held by the field: an empty register read with mode 0, an unfilled queue head, a full qb, or a
hypervector register whose load is in flight. -/
def Fld.holds (x : Fld) (a : GArch) (lane : Nat) : Bool :=
  match x.k with
  | .src n =>
    if x.f.toNat < 56 then !x.m && ((a.thread lane).regs x.f.toNat n).any (fun r => !r.2.full)
    else match a.head (x.f.toNat - 56) lane with
      | none => true
      | some e => !e.filled
  | .dst 1 _ => x.f.toNat == 56 && 8 ≤ (a.thread lane).qbw - a.qb.base
  | .hyp => (a.h.getD x.f.toNat HReg.zero).load != 0
  | _ => false
/-- The trap that reading the field raises: an empty source with mode 1, or a fault mark. -/
def Fld.trap (x : Fld) (a : GArch) (lane : Nat) : Option Trap :=
  match x.k with
  | .src n =>
    if x.f.toNat < 56 then
      let rs := (a.thread lane).regs x.f.toNat n
      match rs.find? (fun r => !r.2.full) with
      | some r => some { code := 0x02, info := r.1 }
      | none => (rs.filterMap (fun r => r.2.mark.map (fun m => m.trap lane))).head?
    else
      match a.head (x.f.toNat - 56) lane with
      | none => none
      | some e => (alGet e.marks lane).map (fun m => m.trap lane)
  | .hyp => if x.rd then (a.h.getD x.f.toNat HReg.zero).mark.map (fun m => { code := m.code, info := m.info, faddr := m.ea }) else none
  | _ => none
/-- The first trap that the sources of a word raise: lowest lane first, fields in order D, A, B, vc. -/
def srcTrap (a : GArch) (i : Instr) (lanes : List Nat) : Option Trap :=
  (lanes.flatMap (fun l => (Instr.fields i).filterMap (fun x => x.trap a l))).head?
/-- The trap of a marked tie register that HTHR reads (12 R271, R277). -/
def tieTrap (a : GArch) (i : Instr) (lanes : List Nat) : Option Trap :=
  match i, lanes with
  | .hthr _, _ :: _ => (a.h.getD (a.tieh.toNat % 16) HReg.zero).mark.map (fun m => { code := m.code, info := m.info, faddr := m.ea })
  | _, _ => none

/-! Destinations of a word, for the chain rule of 05 R119 and the holds of 08 R184. -/

/-- Destination registers as (class, index): 0 thread, 1 predicate, 2 scalar, 3 convergence, 4 hypervector, 5 bundle. -/
def Instr.dests (i : Instr) : List (Nat × Nat) :=
  match i.words with
  | none => []
  | some (w, x) =>
    let d := w.d.toNat
    let own : List (Nat × Nat) :=
      match i.info.d with
      | .dst n _ => if d == 63 then [] else (List.range n).map (fun j => (0, d + j))
      | .dstX4 => if d == 63 then [] else [(0, d), (0, d + 1)]
      | .pred => [(1, d)]
      | .scal => [(2, d)]
      | .conv => [(3, d)]
      | .hyp => if Instr.readsD i then [] else [(4, d)]
      | .bun => [(5, d)]
      | _ => []
    own ++ (match i, x with
      | .call _, _ => [(0, 54), (0, 55)]
      | .waita _ _, some x => [(1, x.vc.toNat)]
      | .hqry _ _, some x => [(2, x.vc.toNat)]
      | _, _ => [])
/-- Thread registers and predicates that a word reads or writes. -/
def Instr.touches (i : Instr) : List (Nat × Nat) :=
  Instr.dests i ++ (Instr.fields i).flatMap (fun x =>
    if FC.srcRegs x.k != 0 && x.f.toNat < 56 then (List.range (FC.srcRegs x.k)).map (fun j => (0, x.f.toNat + j))
    else if x.k == .pred then [(1, x.f.toNat)] else []) ++
  (if i.guard.toNat < 7 then [(1, i.guard.toNat)] else [])

/-- The word breaks a rule of 05 R119 against the words of its chain before it. -/
def chainClash (prev : List Instr) (i : Instr) : Bool :=
  (i.chainBit && i.info.pipe == .br) || prev.any (fun p => p.info.pipe == i.info.pipe || p.info.pipe == .br || (Instr.dests p).any (fun d => (Instr.dests i).contains d))

/-- The illegal-instruction cases of 05 R138 that depend on where the word stands: the stream, the chain bit in slot 2,
the chain rules, a pair that passes the packet's end, and matrix words in chains (11 R246). -/
def Instr.isMatrix (i : Instr) : Bool :=
  match i with
  | .mma _ _ | .plane _ _ | .unplane _ _ => true
  | _ => false
/-- A write of a state register but GTIE (05 R134): the new group state, none where the register's own rules refuse the
value (01 R38, 04 R103, 12 R276). -/
def Group.csrWrite (g : Group) (n : Nat) (v : Word) : Option Group :=
  let a := g.arch
  match n with
  | 0x10 =>
    if v.toNat < 8 && 1 ≤ v.toNat && v.toNat ≤ 5 then some { g with arch := { a with part := v } } else none
  | 0x11 =>
    if v &&& 0xFFFF_E0FC != 0 then none
    else some { g with arch := { a with fpmode := (a.fpmode &&& 0x1F00 &&& ~~~v) ||| (v &&& 3) } }
  | 0x12 => if v.toNat < 16 then some { g with arch := { a with tieh := v } } else none
  | 0x30 => some (g.updTrap (fun t => { t with epc := v }))
  | 0x31 => some (g.updTrap (fun t => { t with cause := v &&& 0xFF0F_FFFF }))
  | 0x32 => some (g.updTrap (fun t => { t with faddr := (t.faddr >>> 32 <<< 32) ||| v.setWidth 64 }))
  | 0x33 => some (g.updTrap (fun t => { t with faddr := (t.faddr.setWidth 32).setWidth 64 ||| (v.setWidth 64 <<< 32) }))
  | 0x34 => some (g.updTrap (fun t => { t with done := v }))
  | _ => none

/-- A CSRW whose value its register refuses (05 R134): the lowest active lane's, where it can be read. -/
def State.refuses (s : State) (w : PW) : Bool :=
  match s.snap.active s.issue.set (Instr.csrw w).guard with
  | [] => false
  | l :: _ =>
    let x : Fld := ⟨.src 1, w.a, w.am, true⟩
    let v := s.snap.src w.a l
    !x.holds s.snap l && (x.trap s.snap l).isNone &&
      (if w.imm8.toNat == 0x13 then v >>> 10 != 0 else (s.cur.csrWrite w.imm8.toNat v).isNone)
def State.illegalHere (s : State) (i : Instr) : Bool :=
  !i.wf || i.isDrill != s.issue.drill || i.words.isNone || 3 < s.issue.pos.slot + i.width ||
  (i.chainBit && s.issue.pos.slot + i.width == 3) || chainClash s.issue.chain i ||
  (Instr.isMatrix i && !s.issue.chain.isEmpty) || s.issue.chain.any Instr.isMatrix ||
  (match i with
   | .csrw w => (0x30 ≤ w.imm8.toNat && !s.cur.trap.handler) || s.refuses w
   | _ => false)

/-! Readiness (01 R14). -/

/-- Words whose accesses DONE records, and which a replay executes for the other lanes alone (08 R184, R185; 09 R212). -/
def Instr.storeClass (i : Instr) : Bool :=
  match i with
  | .sts _ | .stsWide _ _ | .stc _ | .stcWide _ _ | .stx _ | .stxWide _ _ | .st _ | .stWide _ _ | .tagset _ | .tagsetWide _ _
  | .atom _ _ | .atomx _ _ | .cas _ _ | .casx _ _ | .kbinit _ | .kbarr _ | .kbinv _ => true
  | _ => false
/-- A store-class word in flight of an identifier. -/
def Group.holdRec (g : Group) (id : Nat) : Option HoldRec := g.holds.find? (fun h => h.id == id)
/-- Words that a thread under a store-class hold may issue (08 R184). -/
def Instr.underHold (i : Instr) : Bool :=
  match i with
  | .ldp _ | .ldpWide _ _ | .lds _ | .ldsWide _ _ | .ldc _ | .ldcWide _ _ | .ldx _ | .ldxWide _ _ | .ld _ | .ldWide _ _
  | .pref _ | .prefWide _ _ => true
  | _ => false
/-- A word loads into qb. -/
def Instr.toQb (i : Instr) : Bool := Instr.underHold i && (Instr.dests i).contains (0, 56)
/-- The word returns from the handler. -/
def Instr.isEret (i : Instr) : Bool := match i with | .eret _ => true | _ => false
/-- Registers of the group that a word reads or writes, by the classes of `Instr.dests`. -/
def Instr.groupRegs (a : GArch) (i : Instr) : List (Nat × Nat) :=
  (Instr.dests i).filter (fun d => 2 ≤ d.1) ++ (Instr.fields i).flatMap (fun x =>
    let n := x.f.toNat
    match x.k with
    | .scal => [(2, n)]
    | .quad => (List.range 4).map (fun j => (2, 4 * n + j))
    | .conv => [(3, n)]
    | .hyp => [(4, n)]
    | .bun => [(5, n)]
    | _ => []) ++ (match i with
      | .hthr _ => [(4, a.tieh.toNat % 16)]
      | .mma _ x | .plane _ x | .unplane _ x => [(3, x.m 3 0)]
      | _ => [])
/-- Held writes touch a register of the group. -/
def Held.has (h : Held) (r : Nat × Nat) : Bool :=
  (match r.1 with
   | 2 => h.s.any (fun e => e.1 == r.2)
   | 3 => h.conv.any (fun e => e.1 == r.2)
   | 4 => h.h.any (fun e => e.1 == r.2)
   | 5 => h.k.any (fun e => e.1 == r.2)
   | _ => false) || h.late.any (fun w => (Instr.dests w.2).contains r)
/-- A held write of a chain, or a word of it that acts late, targets a register or predicate of a lane. -/
def HoldRec.targets (h : HoldRec) (lane : Nat) (t : Nat × Nat) : Bool :=
  (t.1 == 0 && h.held.v.any (fun e => e.1 == lane && e.2.1 == t.2)) || (t.1 == 1 && h.held.p.any (fun e => e.1 == lane && e.2.1 == t.2)) ||
  (h.set.getLsbD lane && h.held.late.any (fun w => (Instr.dests w.2).contains t))
/-- The word touches no held write of the lane, and the lane's hold lets it issue (08 R184): it is one of those words, alone in its chain.
A load into qb waits for the hold's end (log 18), and so does every word after an ERET that is held back. -/
def Group.holdLets (g : Group) (chain : List Instr) (i : Instr) (lane id : Nat) : Bool :=
  g.holds.all (fun h => !(Instr.touches i).any (h.targets lane)) &&
  (id == 0 ||
    (Instr.underHold i && !i.chainBit && chain.isEmpty && !Instr.toQb i &&
      (match g.holdRec id with
       | none => true
       | some h => h.kind != .qload && !h.held.late.any (fun w => Instr.isEret w.2))))
/-- No access of a store-class word can meet a tag mismatch, and no word of its chain acts late: each thread's hold ends with its own
stamps (08 R184). Where one can, every thread waits for the trap that would send it back to the chain (08 R185; log 18). -/
def HoldRec.sure (h : HoldRec) : Bool :=
  (match h.kind with | .store => true | .tagset => true | .atomic d _ => d.toNat != 56 | _ => false) &&
  h.held.late.isEmpty && h.parts.all (fun p => p.tgt.tag.isNone && !(p.tgt.space == .glob && isPeer p.tgt.addr))
/-- A part of a store-class word has answered. -/
def SSt.answered (x : SSt) : Bool := match x with | .done _ _ => true | .failed _ => true | _ => false
/-- The word holds a lane: until the lane's own stamps have returned, or until all have. -/
def HoldRec.binds (h : HoldRec) (lane : Nat) : Bool :=
  h.set.getLsbD lane && (!h.sure || h.parts.any (fun p => p.lane == lane && !p.st.answered))
/-- Ends the holds of the threads whose accesses have returned (08 R184). -/
def Group.freeLanes (g : Group) (h : HoldRec) : Group :=
  g.mapThreads (fun l t => if t.hold == h.id && !h.binds l then { t with hold := 0, undo := [] } else t)
/-- Held writes of other threads' chains let the word issue: none is of a register of the group that it touches, and none of a state
register (05 R134; 12 R269). -/
def Group.othersLet (g : Group) (a : GArch) (i : Instr) (id : Nat) : Bool :=
  g.holds.all (fun h => h.id == id || (h.held.csr.isEmpty && !h.held.late.any (fun w => match w.2 with | .csrw _ => true | _ => false) &&
    (Instr.groupRegs a i).all (fun r => !h.held.has r)))

/-- The thread has a load in flight, issued before an identifier, that has not performed (03 R86). -/
def Group.loading (g : Group) (first lane : Nat) : Bool := g.loads.any (fun r => r.id < first && (r.lane == lane || r.lanes.getLsbD lane))
/-- The thread is part of an HLD in flight that was issued before an identifier (12 R271). -/
def Group.inHld (g : Group) (first lane : Nat) : Bool :=
  g.loads.any (fun r => r.id < first && (match r.dst with | .hyp _ => r.lanes.getLsbD lane | _ => false))
/-- The outstanding counter of a class, 0 to 3 (03 R90). -/
def clsOf (n : Nat) : Cls := match n with | 0 => .omx | 1 => .ogt | 2 => .ocp | _ => .ord
def Cls.num (c : Cls) : Nat := match c with | .omx => 0 | .ogt => 1 | .ocp => 2 | .ord => 3
def Group.counter (g : Group) (c : Cls) : Nat := (g.ops.filter (fun o => o.cls == c)).length
/-- The same without the operations of an identifier on. -/
def Group.counterBefore (g : Group) (first : Nat) (c : Cls) : Nat := (g.ops.filter (fun o => o.cls == c && o.id < first)).length

/-- The words that HLD holds back (12 R271). -/
def Instr.waitsForHld (i : Instr) : Bool :=
  match i with
  | .stp _ | .stpWide _ _ => false
  | .sts _ | .stsWide _ _ | .stc _ | .stcWide _ _ | .stx _ | .stxWide _ _ | .st _ | .stWide _ _ | .tagset _ | .tagsetWide _ _
  | .atom _ _ | .atomx _ _ | .cas _ _ | .casx _ _ | .hld _ | .hldWide _ _ | .hst _ | .hstWide _ _ | .hgwr _ | .hqry _ _
  | .waita _ _ | .waitc _ _ | .waito _ | .sbar _ | .pbar _ | .msync _ | .kbinit _ | .kbarr _ | .kbwait _ | .kbinv _
  | .send _ | .recv _ => true
  | _ => false
/-- The words that this model performs in the issuing step, so that every older load of the thread has to have performed
(03 R76; log 17). -/
def Instr.waitsForLoads (i : Instr) : Bool :=
  match i with
  | .hld _ | .hldWide _ _ | .hst _ | .hstWide _ _ | .hgwr _ | .hqry _ _ | .waita _ _ | .waitc _ _ | .sbar _ | .pbar _
  | .msync _ | .kbinit _ | .kbarr _ | .kbwait _ | .kbinv _ | .send _ | .recv _ | .stopt _ | .sret _ => true
  | .csrr w | .csrw w => w.imm8.toNat == 0x13
  | _ => false

/-- What a channel word finds (09 R214): a fault, a free or pending slot, or nothing yet. -/
def State.sendState (s : State) (g : Group) (ch : Nat) : Res Unit :=
  let l := s.launch g.lid
  match l.chans[ch]? with
  | none => .trap { code := 0x0B, info := ch }
  | some c =>
    let p := s.plot g.pid
    if !l.inSet c.producers p.index then .trap { code := 0x0B, info := ch }
    else if s.plots.any (fun q => q.lid == g.lid && q.index == c.consumer && (q.st == .ended || q.st == .killed)) then
      .trap { code := 0x0B, info := ch }
    else if c.credits.isEmpty then .wait none
    else .ok ()
/-- RECV's counterpart: slots presented again after a rollback come first (09 R216). -/
def State.recvState (s : State) (g : Group) (ch : Nat) : Res Unit :=
  let l := s.launch g.lid
  match l.chans[ch]? with
  | none => .trap { code := 0x0B, info := ch }
  | some c =>
    let p := s.plot g.pid
    if p.index != c.consumer then .trap { code := 0x0B, info := ch }
    else if p.represent.any (fun r => r.1 == ch) || !c.pending.isEmpty then .ok ()
    else if c.flight.isEmpty && (l.setPlots c.producers).all (fun i =>
        s.plots.any (fun q => q.lid == g.lid && q.index == i && (q.st == .ended || q.st == .killed))) then
      .trap { code := 0x0B, info := ch }
    else .wait none
def Res.isWait {α : Type} (r : Res α) : Bool := match r with | .wait _ => true | _ => false

/-- Conditions of a word beyond its fields. -/
def State.wordReady (s : State) (i : Instr) (lane : Nat) : Bool :=
  let g := s.cur
  let full (c : Cls) : Bool := 255 ≤ g.counter c
  (!(Instr.waitsForHld i) || !g.inHld s.issue.firstId lane) && (!(Instr.waitsForLoads i) || !g.loading s.issue.firstId lane) &&
  (match i with
   | .cwait w => !(g.arch.conv.getD w.d.toNat Conv.clear).sign.getLsbD lane
   | .csrr w | .csrw w => w.imm8.toNat != 0x11 || g.holds.all (fun h => h.held.flags == 0)
   | .hthr _ => (s.snap.h.getD (s.snap.tieh.toNat % 16) HReg.zero).load == 0
   | .waito w => g.counter (clsOf w.d.toNat) ≤ w.imm8.toNat
   | .redm _ _ => !full .ord
   | .discard _ => !full .ocp
   | .send w => !(s.sendState g w.b.toNat).isWait
   | .recv w => !(s.recvState g w.b.toNat).isWait
   | _ => true)

/-- An active lane is ready for the word (01 R14). -/
def State.laneReady (s : State) (a : GArch) (i : Instr) (lane : Nat) : Bool :=
  let t := a.thread lane
  t.wait.isNone && s.cur.holdLets s.issue.chain i lane t.hold && s.cur.othersLet a i t.hold &&
  (Instr.fields i).all (fun x => !x.holds a lane) && s.wordReady i lane

/-! The frame of a Plough word. -/

/-- The queue effects of a word on a thread: pts joins the stamp of every entry read (03 R88), and the thread advances past the entry of a
queue that some field pops (05 R125). A word that executes again alone has advanced before (09 R201). -/
def Thread.readQueues (t : Thread) (a : GArch) (i : Instr) (lane : Nat) (redo : Bool) : Thread :=
  (Instr.fields i).foldl (fun t x =>
    match x.queue with
    | none => t
    | some q =>
      let t := { t with pts := tmax t.pts ((a.head q lane).getD QEnt.blank).stamp }
      if x.m || redo then t else t.pop (a.thread lane) q) t

/-- A word at which a thread may stand when its group is evicted, and which then executes again (09 R201). -/
def Instr.isWait (i : Instr) : Bool :=
  match i with
  | .waita _ _ | .waitc _ _ | .kbwait _ => true
  | _ => false
/-- Where the thread goes after a chain whose wait alone executes again (09 R201). -/
def Thread.redoAt (t : Thread) (chain : Pos) : Option Pos := t.redo.bind (fun r => if r.1 == chain then some r.2.1 else none)
/-- The queue entries that a word reads for a lane, by queue. -/
def GArch.heads (a : GArch) (i : Instr) (lane : Nat) : List (Nat × QEnt) :=
  (Instr.fields i).filterMap (fun x => x.queue.bind (fun q => (a.head q lane).map (fun e => (q, e))))
/-- The queues that a word pops. -/
def Instr.pops (i : Instr) : List Nat := ((Instr.fields i).filterMap (fun x => if x.m then none else x.queue)).eraseDups
/-- The word's guard is true in the lane. -/
def GArch.guarded (a : GArch) (i : Instr) (lane : Nat) : Bool := (a.active (laneBit lane) i.guard).contains lane
/-- The queues that a word alone of its chain's words pops for a lane. -/
def GArch.ownPops (a : GArch) (words : List (Nat × Instr)) (i : Instr) (lane : Nat) : List Nat :=
  (Instr.pops i).filter (fun q => !words.any (fun w => w.2 != i && a.guarded w.2 lane && (Instr.pops w.2).contains q))
/-- The queue entries that a waiting thread's word has read are kept for its execution again (09 R201). -/
def State.keepHeads (s : State) (a : GArch) (i : Instr) (lanes : List Nat) : State :=
  { s with cur := lanes.foldl (fun g l => g.updThread l (fun t => if t.wait.isSome then { t with src := { t.src with q := a.heads i l } } else t)) s.cur }
/-- The lanes of the issuing set whose accesses at the chain an earlier execution has performed (08 R185). -/
def GArch.replayed (a : GArch) (set : Word) (chain : Pos) : Word := maskOf (fun l => set.getLsbD l && (a.thread l).replayAt == some chain)
/-- Lanes for which a word acts: those of the issuing set whose guard is true, less those whose access an earlier execution performed (08
R185) and those of which only the wait of the chain executes again. -/
def State.lanes (s : State) (i : Instr) : List Nat :=
  let a := s.snap
  (a.active s.issue.set i.guard).filter (fun l =>
    (!Instr.storeClass i || (a.thread l).replayAt != some s.issue.chainPos) &&
    (Instr.isWait i || ((a.thread l).redoAt s.issue.chainPos).isNone))
/-- Every thread of the issuing set moves past the word; active threads read their queues (01 R14, 05 R118). -/
def State.enterWord (s : State) (a : GArch) (i : Instr) (lanes : List Nat) : State :=
  let nxt := s.issue.pos.after i.width
  let g := s.cur.mapThreads (fun l t =>
    if s.issue.set.getLsbD l then
      ((if lanes.contains l then t.readQueues a i l (t.redoAt s.issue.chainPos).isSome else t).goto ((t.redoAt s.issue.chainPos).getD nxt))
    else t)
  { s with cur := g }

/-- The base from which the FETCH_RANGE limits are measured (17 R329). -/
def State.rangeBase (s : State) : DWord :=
  if s.cur.trap.handler then (s.ctx s.cur.ctx).traph
  else if s.issue.drill then (s.launch s.cur.lid).dentry else (s.launch s.cur.lid).pentry
/-- A packet index within the limits of 17 R329. -/
def inRange (base pc : DWord) : Bool :=
  let d := ((pc - base).setWidth 52).toInt
  decide (-(2 ^ 29) ≤ d) && decide (d ≤ 2 ^ 29 - 1)
/-- No live thread of the issuing set, but for some, goes past the limits (17 R329). -/
def State.rangeOk (s : State) (but : List Nat) : Bool :=
  (lanesOf s.issue.set).all (fun l => but.contains l || !(s.cur.thread l).live || inRange s.rangeBase (s.cur.thread l).target.pc)
/-- The threads of the issuing set that a word does not move past itself, though it may act late: those that exit or return from the handler
(06 R149, R151). -/
def Instr.leavers (i : Instr) (set : Word) (lanes : List Nat) : List Nat :=
  match i with
  | .exit _ => lanes
  | .eret _ => if lanes.isEmpty then [] else lanesOf set
  | _ => []

/-- A word that traps: the group takes the trap at the position of its chain, with the word's slot (05 R120); DONE keeps the lanes that an
earlier execution of the chain's store-class word has performed (08 R185). A Drill word halts the Drill stream; its trap waits while the
group is in handler mode (10 R218, 17 R332). -/
def State.trapWord (s : State) (t : Trap) : State :=
  let s := { s with issue := { s.issue with trapped := true } }
  let s := s.useAnswer (holdersOf s.cur.core) s.cur.ctx t
  if s.issue.drill then
    let s := { s with cur := { s.cur with arch := { s.cur.arch with drill := { s.cur.arch.drill with halted := true } } } }
    if s.cur.trap.handler then { s with cur := s.cur.updTrap (fun x => { x with pending := some (t, s.issue.pos) }) }
    else s.takeGroupTrap s.cur.gid t s.issue.pos true
  else s.takeTrap s.cur.gid { t with done := t.done ||| s.cur.arch.replayed s.issue.set s.issue.chainPos } s.issue.chainPos s.issue.pos.slot s.issue.set

/-- The effect of a word has put its group into handler mode or before the driver. -/
def State.tookTrap (t s : State) : Bool := t.cur.esc.isSome || (t.cur.trap.handler && !s.cur.trap.handler)
/-- What a word comes to, before its outcome is turned into a state: the checks of 05 R138, readiness, the traps of its
sources, its own effect, and the limits of 17 R329. -/
def State.wordRes (s : State) (i : Instr) (body : GArch → List Nat → State → Res State) : Res State :=
  let a := s.snap
  let lanes := s.lanes i
  if s.illegalHere i then .trap Trap.illegal
  else if lanes.any (fun l => !s.laneReady a i l) then .wait none
  else
    match (srcTrap a i lanes).orElse (fun _ => tieTrap a i lanes) with
    | some t => .trap t
    | none =>
      let e := s.enterWord a i lanes
      (body a lanes e).bind (fun s' =>
        -- the moves of a trap that the effect took are the device's own, which are not checked (17 R329)
        if (if s'.tookTrap s then e else s').rangeOk (Instr.leavers i s.issue.set lanes) then .ok s' else .trap (Trap.of 0x20))

/-- A word that acts late: it is kept for the end of its chain, or for the end of the chain's accesses (05 R120, 08 R184). -/
def State.later (s : State) (i : Instr) (now : Res State) : Res State :=
  if s.issue.defers then .ok { s with issue := { s.issue with late := s.issue.late ++ [(s.issue.pos.slot, i)] } } else now
/-- The state after a word's outcome. -/
def State.finishWord (s : State) (i : Instr) (r : Res State) : State :=
  match r with
  | .ok s' => { s' with issue := { s'.issue with chain := s.issue.chain ++ [i] } }
  | .trap t => s.trapWord t
  | .wait m => ({ s with issue := { s.issue with blocked := true } }).askHost m

/-- Executes a Plough word for the issuing set (01 R14, 05 R120). -/
def runWord (i : Instr) (s : State) (body : GArch → List Nat → State → Res State) : Host.Outcome State Fault Refusal :=
  if s.issue.active && !s.issue.drill then .next (s.finishWord i (s.wordRes i body)) else .fault .noIssue

/-! Shapes of effect. -/

/-- Every active lane writes a value of n words to a thread destination. -/
def State.writeLanes (s : State) (d : BitVec 6) (lanes : List Nat) (f : Nat → List Word) : State :=
  { s with cur := lanes.foldl (fun g l => g.dstN d l (f l)) s.cur }
/-- Every active lane writes one word. -/
def State.writeLanes1 (s : State) (d : BitVec 6) (lanes : List Nat) (f : Nat → Word) : State :=
  { s with cur := lanes.foldl (fun g l => g.dst d l (f l)) s.cur }
/-- Every active lane writes a word, or a pair when `x`. -/
def State.writeLanesX (s : State) (x : Bool) (d : BitVec 6) (lanes : List Nat) (f : Nat → DWord) : State :=
  if x then s.writeLanes d lanes (fun l => wordsOf 2 (f l).toNat) else s.writeLanes1 d lanes (fun l => (f l).setWidth 32)
/-- Every active lane writes a predicate. -/
def State.writePreds (s : State) (d : BitVec 6) (lanes : List Nat) (f : Nat → Bool) : State :=
  { s with cur := lanes.foldl (fun g l => g.updThread l (fun t => t.setP d.toNat (f l))) s.cur }
/-- Writes a scalar (05 R131). -/
def State.writeScalar (s : State) (n : Nat) (x : Word) : State :=
  { s with cur := { s.cur with arch := { s.cur.arch with s := s.cur.arch.s.set n x } } }
/-- Changes the threads of the active lanes. -/
def State.updLanes (s : State) (lanes : List Nat) (f : Nat → Thread → Thread) : State :=
  { s with cur := lanes.foldl (fun g l => g.updThread l (f l)) s.cur }
/-- The lowest active lane (05 R131). -/
def lowestOf (lanes : List Nat) : Nat := lanes.headD 0
/-- The latest pts of the active lanes (03 R89). -/
def Group.latestPts (g : Group) (lanes : List Nat) : Word :=
  match lanes with
  | [] => 0
  | l :: ls => ls.foldl (fun acc k => tmax acc (g.thread k).pts) (g.thread l).pts

/-- A lane-by-lane word with no check of its own: the shape of the arithmetic families. -/
def runLanes (i : Instr) (s : State) (f : GArch → List Nat → State → State) : Host.Outcome State Fault Refusal :=
  runWord i s (fun a lanes s => .ok (f a lanes s))

end Sys2Proof.Machine
end

