-- ==== Sys2Proof/Machine/Num.lean ====
section
/-! DEFINITION. Number formats and rounding (04 R98 to R104, R107 to R113): values are exact dyadic numbers, rounded
once. -/

namespace Sys2Proof.Machine
open Sys2Proof

/-- A floating-point format (04 R98): exponent and fraction widths, bias. -/
structure Fmt where
  eb : Nat
  fb : Nat
  bias : Nat
  /-- the top exponent field holds infinities and NaNs; false for E4M3 -/
  ieee : Bool
deriving DecidableEq, Repr

def Fmt.f32 : Fmt := ⟨8, 23, 127, true⟩
def Fmt.f16 : Fmt := ⟨5, 10, 15, true⟩
def Fmt.bf16 : Fmt := ⟨8, 7, 127, true⟩
def Fmt.e4m3 : Fmt := ⟨4, 3, 7, false⟩
def Fmt.e5m2 : Fmt := ⟨5, 2, 15, true⟩
/-- The format of a TYPE code (05 R123). -/
def Fmt.ofType (t : Nat) : Fmt :=
  match t with
  | 9 => .f16
  | 10 => .bf16
  | 13 => .e4m3
  | 14 => .e5m2
  | _ => .f32
def Fmt.width (f : Fmt) : Nat := 1 + f.eb + f.fb
def Fmt.signBit (f : Fmt) : Nat := 2 ^ (f.eb + f.fb)
/-- Least exponent of a normal value. -/
def Fmt.emin (f : Fmt) : Int := 1 - (f.bias : Int)
/-- Positive infinity's bits. -/
def Fmt.inf (f : Fmt) : Nat := (2 ^ f.eb - 1) * 2 ^ f.fb
/-- Largest finite magnitude's bits. -/
def Fmt.maxFin (f : Fmt) : Nat := if f.ieee then f.inf - 1 else f.inf + 2 ^ f.fb - 2
/-- The default NaN (04 R99). -/
def Fmt.nan (f : Fmt) : Nat := if f.ieee then f.inf + 2 ^ (f.fb - 1) else f.inf + 2 ^ f.fb - 1
def Fmt.signed (f : Fmt) (s : Bool) (x : Nat) : Nat := if s then f.signBit + x else x

/-- A value: NaN with its sign and kind, infinity, or (−1)^s × m × 2^e. -/
inductive FVal
  | nan (s signalling : Bool)
  | inf (s : Bool)
  | fin (s : Bool) (m : Nat) (e : Int)
deriving DecidableEq, Repr

/-- The value of an encoding (04 R98, R99). FP8 NaNs have no signalling kind. -/
def Fmt.unpack (f : Fmt) (x : Nat) : FVal :=
  let s := x.testBit (f.eb + f.fb)
  let ex := bits x (f.eb + f.fb - 1) f.fb
  let fr := x % 2 ^ f.fb
  if f.ieee && ex == 2 ^ f.eb - 1 then
    (if fr == 0 then .inf s else .nan s (f.width != 8 && !(fr.testBit (f.fb - 1))))
  else if !f.ieee && ex == 2 ^ f.eb - 1 && fr == 2 ^ f.fb - 1 then .nan s false
  else if ex == 0 then .fin s fr (f.emin - f.fb)
  else .fin s (2 ^ f.fb + fr) ((ex : Int) - f.bias - f.fb)

/-! Flags of FPMODE (04 R102). -/
def fNV : Nat := 0x100
def fDZ : Nat := 0x200
def fOF : Nat := 0x400
def fUF : Nat := 0x800
def fNX : Nat := 0x1000

/-- A result: encoding and flags. -/
structure FRes where
  val : Nat
  flags : Nat
deriving DecidableEq, Repr

/-- Whether a magnitude is rounded up in mode `md` (0 RNE, 1 RTZ, 2 RUP, 3 RDN), given its sign, the kept low bit, the
comparison of the remainder with one half (0 none, 1 below, 2 half, 3 above). -/
def roundsUp (md : Nat) (s odd : Bool) (r : Nat) : Bool :=
  match md with
  | 0 => r == 3 || (r == 2 && odd)
  | 1 => false
  | 2 => r != 0 && !s
  | _ => r != 0 && s

/-- The remainder class of m at a shift of k bits, with a sticky bit below. -/
def remClass (m k : Nat) (sticky : Bool) : Nat :=
  if k == 0 then (if sticky then 1 else 0)
  else
    let r := m % 2 ^ k
    if r == 0 then (if sticky then 1 else 0)
    else if r < 2 ^ (k - 1) then 1
    else if r == 2 ^ (k - 1) then (if sticky then 3 else 2)
    else 3

/-- m × 2^e (just above when `sticky`) rounded to a multiple of 2^q: the multiple, and whether it is inexact. -/
def roundTo (md : Nat) (s : Bool) (m : Nat) (e q : Int) (sticky : Bool) : Nat × Bool :=
  if q ≤ e then
    let k := m * 2 ^ (e - q).toNat
    (if roundsUp md s (k % 2 == 1) (if sticky then 1 else 0) then k + 1 else k, sticky)
  else
    let d := (q - e).toNat
    let r := remClass m d sticky
    let k := m / 2 ^ d
    (if roundsUp md s (k % 2 == 1) r then k + 1 else k, r != 0)

/-- floor(log2(m × 2^e)) for m > 0. -/
def expOf (m : Nat) (e : Int) : Int := e + m.log2

/-- The encoding of the multiple k of 2^q, with k ≤ 2^(fb+1), q at least the least subnormal's exponent. -/
def Fmt.pack (f : Fmt) (s : Bool) (k : Nat) (q : Int) : Nat :=
  let k' := if k == 2 ^ (f.fb + 1) then 2 ^ f.fb else k
  let q' := if k == 2 ^ (f.fb + 1) then q + 1 else q
  if k' < 2 ^ f.fb then f.signed s k'
  else f.signed s (((q' + f.fb + f.bias).toNat) * 2 ^ f.fb + (k' - 2 ^ f.fb))

/-- The overflow result (04 R101). -/
def Fmt.overflow (f : Fmt) (md : Nat) (s : Bool) : Nat :=
  let toInf := match md with | 0 => true | 1 => false | 2 => !s | _ => s
  f.signed s (if toInf then f.inf else f.maxFin)

/-- Rounds (−1)^s × m × 2^e once to a format with infinities (04 R101, R102): subnormals kept; UF when the result
rounded with an unbounded exponent is below the least normal and inexact. -/
def Fmt.round (f : Fmt) (md : Nat) (s : Bool) (m : Nat) (e : Int) (sticky : Bool := false) : FRes :=
  if m == 0 then ⟨f.signed s 0, if sticky then fUF + fNX else 0⟩
  else
    let ex := expOf m e
    let q := max ex f.emin - f.fb
    let r := roundTo md s m e q sticky
    let u := roundTo md s m e (ex - f.fb) sticky
    let tiny := r.2 && decide (ex < f.emin) && !(u.1 == 2 ^ (f.fb + 1) && decide (ex + 1 = f.emin))
    let huge := decide (expOf r.1 q > (2 ^ f.eb : Int) - 2 - f.bias) && r.1 != 0
    if huge then ⟨f.overflow md s, fOF + fNX⟩
    else ⟨f.pack s r.1 q, (if r.2 then fNX else 0) + (if tiny then fUF else 0)⟩

/-- Rounds to an FP8 format with the saturation bit of 04 R104. -/
def Fmt.round8 (f : Fmt) (md : Nat) (sat s : Bool) (m : Nat) (e : Int) : FRes :=
  if m == 0 then ⟨f.signed s 0, 0⟩
  else
    let ex := expOf m e
    let q := max ex f.emin - f.fb
    let r := roundTo md s m e q false
    let maxE : Int := if f.ieee then (2 ^ f.eb : Int) - 2 - f.bias else (2 ^ f.eb : Int) - 1 - f.bias
    let big := decide (expOf r.1 q > maxE) || (!f.ieee && decide (expOf r.1 q = maxE) && r.1 == 15)
    if r.1 != 0 && big then
      (if sat then ⟨f.signed s f.maxFin, fNX⟩
       else if f.ieee then ⟨f.overflow md s, fOF + fNX⟩
       else ⟨f.signed s f.nan, fNV⟩)
    else
      let u := roundTo md s m e (ex - f.fb) false
      let tiny := r.2 && decide (ex < f.emin) && !(u.1 == 2 ^ (f.fb + 1) && decide (ex + 1 = f.emin))
      ⟨f.pack s r.1 q, (if r.2 then fNX else 0) + (if tiny then fUF else 0)⟩

def FVal.isNan (v : FVal) : Bool := match v with | .nan _ _ => true | _ => false
def FVal.isSig (v : FVal) : Bool := match v with | .nan _ g => g | _ => false
def FVal.neg (v : FVal) : FVal :=
  match v with
  | .nan s g => .nan (!s) g
  | .inf s => .inf (!s)
  | .fin s m e => .fin (!s) m e

/-- The NaN result of an arithmetic operation (04 R99). -/
def Fmt.nanRes (f : Fmt) (nv : Bool) : FRes := ⟨f.nan, if nv then fNV else 0⟩

/-- A signed dyadic number as an integer multiple of 2^q, q ≤ e. -/
def scaled (s : Bool) (m : Nat) (e q : Int) : Int :=
  let k : Int := (m * 2 ^ (e - q).toNat : Nat)
  if s then -k else k

/-- Rounds an exact integer multiple of 2^q; an exact zero takes the given sign. -/
def Fmt.roundInt (f : Fmt) (md : Nat) (x : Int) (q : Int) (zs : Bool) : FRes :=
  if x == 0 then ⟨f.signed zs 0, 0⟩ else f.round md (decide (x < 0)) x.natAbs q

/-- Exact sum of two values, rounded once (04 R101 for zero sums; 07 R171 for the invalid case). -/
def Fmt.addV (f : Fmt) (md : Nat) (a b : FVal) : FRes :=
  match a, b with
  | .nan _ g, y => f.nanRes (g || y.isSig)
  | x, .nan _ g => f.nanRes (g || x.isSig)
  | .inf s, .inf t => if s == t then ⟨f.signed s f.inf, 0⟩ else f.nanRes true
  | .inf s, .fin _ _ _ => ⟨f.signed s f.inf, 0⟩
  | .fin _ _ _, .inf s => ⟨f.signed s f.inf, 0⟩
  | .fin s m e, .fin t n h =>
    let q := min e h
    f.roundInt md (scaled s m e q + scaled t n h q) q (if m == 0 && n == 0 && s == t then s else md == 3)

def Fmt.add (f : Fmt) (md : Nat) (a b : Nat) : FRes := f.addV md (f.unpack a) (f.unpack b)
def Fmt.sub (f : Fmt) (md : Nat) (a b : Nat) : FRes := f.addV md (f.unpack a) (f.unpack b).neg

/-- The exact product, none for 0 × ∞; NaNs are left to the caller. -/
def mulV (a b : FVal) : Option FVal :=
  match a, b with
  | .fin s m e, .fin t n h => some (.fin (s != t) (m * n) (e + h))
  | .inf s, .inf t => some (.inf (s != t))
  | .inf s, .fin t n _ => if n == 0 then none else some (.inf (s != t))
  | .fin s m _, .inf t => if m == 0 then none else some (.inf (s != t))
  | _, _ => none

/-- Product, rounded once (07 R171). -/
def Fmt.mul (f : Fmt) (md : Nat) (a b : Nat) : FRes :=
  let x := f.unpack a; let y := f.unpack b
  if x.isNan || y.isNan then f.nanRes (x.isSig || y.isSig)
  else
    match mulV x y with
    | none => f.nanRes true
    | some (.fin s m e) => f.round md s m e
    | some (.inf s) => ⟨f.signed s f.inf, 0⟩
    | some (.nan _ _) => f.nanRes false

/-- Fused multiply-add with negations of product and addend (07 R172). -/
def Fmt.fma (f : Fmt) (md : Nat) (np nc : Bool) (a b c : Nat) : FRes :=
  let x := f.unpack a; let y := f.unpack b
  let z := if nc then (f.unpack c).neg else f.unpack c
  if x.isNan || y.isNan then f.nanRes (x.isSig || y.isSig || z.isSig)
  else
    match mulV x y with
    | none => f.nanRes true
    | some p =>
      if z.isNan then f.nanRes z.isSig
      else f.addV md (if np then p.neg else p) z

/-- a < b, a = b for values that are not NaN: the sign of a − b as an integer. -/
def FVal.cmp (a b : FVal) : Int :=
  match a, b with
  | .inf s, .inf t => if s == t then 0 else if s then -1 else 1
  | .inf s, _ => if s then -1 else 1
  | _, .inf s => if s then 1 else -1
  | .fin s m e, .fin t n h => let q := min e h; scaled s m e q - scaled t n h q
  | _, _ => 0

/-- FMIN and FMAX (07 R173): −0 counts as less than +0; X selects the NaN rule. -/
def Fmt.minmax (f : Fmt) (isMax x : Bool) (a b : Nat) : FRes :=
  let u := f.unpack a; let v := f.unpack b
  let nv := if u.isSig || v.isSig then fNV else 0
  if u.isNan && v.isNan then ⟨f.nan, nv⟩
  else if u.isNan then ⟨if x then f.nan else b, nv⟩
  else if v.isNan then ⟨if x then f.nan else a, nv⟩
  else
    let c := u.cmp v
    let sa := a.testBit (f.eb + f.fb)
    let less := decide (c < 0) || (c == 0 && sa)
    ⟨if less != isMax then a else b, 0⟩

/-- FCMP's conditions (07 R174): truth and NV. -/
def fcmpCond (cond : Nat) (a b : Nat) : Bool × Bool :=
  let u := Fmt.f32.unpack a; let v := Fmt.f32.unpack b
  let un := u.isNan || v.isNan
  let sg := u.isSig || v.isSig
  let c := u.cmp v
  match cond with
  | 0 => (!un && c == 0, sg)
  | 1 => (un || c != 0, sg)
  | 2 => (!un && decide (c < 0), un)
  | 3 => (!un && decide (c ≤ 0), un)
  | 4 => (!un && decide (0 < c), un)
  | 5 => (!un && decide (0 ≤ c), un)
  | 6 => (un, sg)
  | _ => (!un, sg)

/-- A conversion between formats, rounding once (04 R99, R104; 07 R177). -/
def convert (src dst : Fmt) (md : Nat) (sat : Bool) (x : Nat) : FRes :=
  match src.unpack x with
  | .nan s g => ⟨dst.signed s dst.nan, if g then fNV else 0⟩
  | .inf s =>
    if dst.width == 8 then
      (if sat then ⟨dst.signed s dst.maxFin, fNX⟩
       else if dst.ieee then ⟨dst.signed s dst.inf, 0⟩ else ⟨dst.signed s dst.nan, fNV⟩)
    else ⟨dst.signed s dst.inf, 0⟩
  | .fin s m e => if dst.width == 8 then dst.round8 md sat s m e else dst.round md s m e

/-- Rounding to an integral value (07 R177): the sign is kept and NX is not set. -/
def roundIntegral (md : Nat) (x : Nat) : FRes :=
  match Fmt.f32.unpack x with
  | .nan _ g => ⟨Fmt.f32.nan, if g then fNV else 0⟩
  | .inf _ => ⟨x, 0⟩
  | .fin s m e => let r := roundTo md s m e 0 false; ⟨(Fmt.f32.round 1 s r.1 0).val, 0⟩

/-- An integer to FP32 (07 R178). -/
def intToF32 (md : Nat) (i : Int) : FRes := Fmt.f32.roundInt md i 0 false

/-- FP32 to an integer of n bits (07 R178): the result as an n-bit pattern. -/
def f32ToInt (md n : Nat) (sg : Bool) (x : Nat) : FRes :=
  let lo : Int := if sg then -(2 ^ (n - 1) : Int) else 0
  let hi : Int := if sg then 2 ^ (n - 1) - 1 else 2 ^ n - 1
  let enc (i : Int) : Nat := (i % (2 ^ n : Int)).toNat
  match Fmt.f32.unpack x with
  | .nan _ _ => ⟨0, fNV⟩
  | .inf s => ⟨enc (if s then lo else hi), fNV⟩
  | .fin s m e =>
    let r := roundTo md s m e 0 false
    let i : Int := if s then -(r.1 : Int) else r.1
    if i < lo then ⟨enc lo, fNV⟩
    else if hi < i then ⟨enc hi, fNV⟩
    else ⟨enc i, if r.2 then fNX else 0⟩

/-! Block-scaled codes (04 R107 to R110). -/

/-- The magnitudes of the code types, in units of one half (04 R108). -/
def codeMags (t : Nat) : List Nat :=
  match t with
  | 1 => [0, 1, 2, 3, 4, 6, 8, 12]
  | 2 => [0, 2, 4, 8, 16, 32, 64, 128]
  | _ => [0, 2, 4, 6, 8, 12, 16, 32]
/-- A code's sign and magnitude in halves (04 R108). Type 0 is two's complement. -/
def codeVal (t c : Nat) : Bool × Nat :=
  if t == 0 then (if c < 8 then (false, 2 * c) else (true, 2 * (16 - c)))
  else (8 ≤ c, (codeMags t).getD (c % 8) 0)
/-- The plane shift and the planes needed (04 R108). -/
def planeShift (t : Nat) : Int := if t == 1 then -1 else 0
def planesNeeded (t : Nat) : Nat := match t with | 0 => 4 | 1 => 5 | 2 => 8 | _ => 6
/-- The plane integer of a code (04 R108). -/
def planeInt (t c : Nat) : Int :=
  let v := codeVal t c
  let k : Int := if t == 1 then v.2 else v.2 / 2
  if v.1 then -k else k

/-- The element j of block b of a 128-byte X4 line as an exact value (04 R107); none in a NaN block. -/
def x4Elem (line : List Byte) (b k : Nat) : Option FVal :=
  let i := 48 * b + k
  let byte := (line.getD (i / 2) 0).toNat
  let c := if i % 2 == 0 then byte % 16 else byte / 16
  let sc := (line.getD (120 + b) 0).toNat
  if sc == 0x3F then none
  else
    let t := sc / 64
    let v := codeVal t c
    some (.fin v.1 v.2 ((sc % 64 : Int) - 32 + toSigned 8 (line.getD 125 0).toNat - 1))
/-- The line's reserved bytes are zero (04 R109). -/
def x4LineOk (line : List Byte) : Bool := line.getD 126 0 == 0 && line.getD 127 0 == 0
/-- An element as a .x4 load returns it (02 R63): round to nearest even, signed infinities, the default NaN. -/
def x4ToF32 (v : Option FVal) : Nat :=
  match v with
  | some (.fin s m e) => (Fmt.f32.round 0 s m e).val
  | _ => 0x7FC00000

/-- |x| ≤ max_t × 2^e for an exact magnitude m × 2^h (04 R110). -/
def fitsMax (t : Nat) (m : Nat) (h e : Int) : Bool :=
  let mx := match t with | 0 => 14 | 1 => 12 | 2 => 128 | _ => 32
  let q := min h (e - 1)
  decide (m * 2 ^ (h - q).toNat ≤ mx * 2 ^ (e - 1 - q).toNat)
/-- The code of a value at block exponent e (04 R110): nearest, ties to the code whose bit 0 is 0, zero signs kept where a
code can. Distances are compared in units of a quarter of 2^e. -/
def x4Code (t : Nat) (s : Bool) (m : Nat) (h e : Int) : Nat :=
  let mags := if t == 0 then (if s then [0, 2, 4, 6, 8, 10, 12, 14, 16] else [0, 2, 4, 6, 8, 10, 12, 14]) else codeMags t
  let q := min h (e - 1)
  let x := m * 2 ^ (h - q).toNat
  let u := 2 ^ (e - 1 - q).toNat
  let dist (k : Nat) : Nat := let y := k * u; if x < y then y - x else x - y
  let best := (mags.mapIdx (fun i k => (i, k))).foldl (fun acc p =>
    let d := dist p.2
    if d < acc.2 || (d == acc.2 && p.1 % 2 == 0) then (p.1, d) else acc) (0, dist 0)
  let i := best.1
  if t == 0 then (if s then (16 - i) % 16 else i) else (if s then 8 + i else i)
/-- Encodes 48 values (none for a non-finite one) into a scale byte and 48 codes (04 R110). -/
def x4Encode (t : Nat) (lexp : Int) (vs : List (Option FVal)) : Nat × List Nat :=
  let finite := vs.all (fun v => match v with | some (.fin _ _ _) => true | _ => false)
  if !finite then (0x3F, vs.map (fun _ => 0))
  else
    let ok (ex : Nat) : Bool := vs.all (fun v => match v with
      | some (.fin _ m h) => fitsMax t m h ((ex : Int) - 32 + lexp) | _ => true)
    let ex := ((List.range 63).find? ok).getD 62
    let e := (ex : Int) - 32 + lexp
    (64 * t + ex, vs.map (fun v => match v with | some (.fin s m h) => x4Code t s m h e | _ => 0))

/-! Block floating point (04 R113). -/

/-- A block of 48 values as plane integers and exponent, with its NaN marks; `np` tells whether there is a NaN plane. A NaN
block has exponent −256. -/
def toBfp (p : Nat) (np : Bool) (vs : List FVal) : List Int × Int × List Bool :=
  let bad := vs.map (fun v => match v with | .fin _ _ _ => false | _ => true)
  if !np && bad.any id then (vs.map (fun _ => 0), -256, vs.map (fun _ => false))
  else
    let n := vs.foldl (fun (acc : Option Int) v => match v with
      | .fin _ m e => if m == 0 then acc else some (match acc with | none => expOf m e | some x => max x (expOf m e))
      | _ => acc) none
    match n with
    | none => (vs.map (fun _ => 0), 0, bad)
    | some n =>
      let ints (ex : Int) : List Int := vs.map (fun v => match v with
        | .fin s m e => let r := (roundTo 0 s m e ex false).1; if s then -(r : Int) else r
        | _ => 0)
      let fits (l : List Int) : Bool := l.all (fun i => decide (-(2 ^ (p - 1) : Int) ≤ i) && decide (i ≤ 2 ^ (p - 1) - 1))
      let e1 := n - p + 2
      if fits (ints e1) then (ints e1, e1, bad) else (ints (e1 + 1), e1 + 1, bad)

end Sys2Proof.Machine
end

