-- ==== Sys2Proof/Machine/Special.lean ====
section
/-! DEFINITION. The special functions (04 R105, R106; 07 R179, R180). The correctly rounded ones are computed exactly. Of
the others the spec fixes only a bound: the bits are the free function `Config.special`, brought within the bound (log 13). -/

namespace Sys2Proof.Machine
open Sys2Proof

/-- Fraction bits of the fixed-point reference. -/
def fxP : Nat := 256
def fxOne : Nat := 2 ^ fxP

/-- Integer square root by bits: the greatest r with r² ≤ n, for n < 4^k. -/
def isqrt : Nat → Nat → Nat → Nat
  | 0, _, r => r
  | k + 1, n, r => let t := r + 2 ^ k; isqrt k n (if t * t ≤ n then t else r)

/-- Σ z^(2i+1) / (2i+1), alternating for atan: `k` terms, `p` the present power, `z2` the squared argument. -/
def oddSeries (alt : Bool) (z2 : Nat) : Nat → Nat → Nat → Int → Bool → Int
  | 0, _, _, acc, _ => acc
  | k + 1, p, d, acc, neg =>
    oddSeries alt z2 k (p * z2 / fxOne) (d + 2) (if neg then acc - (p / d : Nat) else acc + (p / d : Nat)) (alt && !neg)
/-- atanh of a fixed-point number up to 1/3. -/
def fxAtanh (z : Nat) : Nat := (oddSeries false (z * z / fxOne) 85 z 1 0 false).toNat
def fxAtanInv (n : Nat) : Int := let z := fxOne / n; oddSeries true (z * z / fxOne) 60 z 1 0 false
def fxLn2 : Nat := 2 * fxAtanh (fxOne / 3)
def fxPi : Nat := (16 * fxAtanInv 5 - 4 * fxAtanInv 239).toNat

/-- Σ y^i / i! from the term `t` of index i. -/
def expSeries (y : Nat) : Nat → Nat → Nat → Nat → Nat
  | 0, _, _, acc => acc
  | k + 1, i, t, acc => let t' := t * y / fxOne / (i + 1); expSeries y k (i + 1) t' (acc + t')
/-- 2^f for a fixed-point f in [0, 1]. -/
def fxExp2 (f : Nat) : Nat := expSeries (f * fxLn2 / fxOne) 64 0 fxOne fxOne
/-- Alternating series of sine and cosine. -/
def trigSeries (y2 : Nat) : Nat → Nat → Nat → Int → Bool → Int
  | 0, _, _, acc, _ => acc
  | k + 1, i, t, acc, neg =>
    let t' := t * y2 / fxOne / ((i + 1) * (i + 2))
    trigSeries y2 k (i + 2) t' (if neg then acc - (t' : Nat) else acc + (t' : Nat)) (!neg)
def fxSin (y : Nat) : Nat := (trigSeries (y * y / fxOne) 40 1 y y true).toNat
def fxCos (y : Nat) : Nat := (trigSeries (y * y / fxOne) 40 0 fxOne fxOne true).toNat

/-- m × 2^e modulo 2, as a fixed-point number (04 R105: the reduction is exact). -/
def mod2 (m : Nat) (e : Int) : Nat :=
  if 1 ≤ e then 0 else (m * 2 ^ ((fxP : Int) + e).toNat) % (2 * fxOne)

/-- log2 of m × 2^e, in fixed point. -/
def fxLog2 (m : Nat) (e : Int) : Int :=
  let k := m.log2
  let t := m * fxOne / 2 ^ k
  let ln := 2 * fxAtanh ((t - fxOne) * fxOne / (t + fxOne))
  (e + k) * (fxOne : Int) + (ln * fxOne / fxLn2 : Nat)

/-- The reference value of function `fn` (1 RSQ, 3 EX2, 4 LG2, 5 SINP, 6 COSP, 7 TANH, 0 RCP, 2 SQRT) at a finite nonzero
argument: sign, integer, exponent, correct to a relative error below 2^-80. -/
def sfRef (fn : Nat) (s : Bool) (m : Nat) (e : Int) : Bool × Nat × Int :=
  match fn with
  | 0 => let k := m.log2 + 90; (s, 2 ^ k / m, -e - k)
  | 1 =>
    let m' := if e % 2 == 0 then m else 2 * m
    let e' := if e % 2 == 0 then e else e - 1
    (false, isqrt 160 (2 ^ 312 / m') 0, -156 - e' / 2)
  | 2 =>
    let m' := if e % 2 == 0 then m else 2 * m
    let e' := if e % 2 == 0 then e else e - 1
    (false, isqrt 120 (m' * 2 ^ 200) 0, e' / 2 - 100)
  | 3 =>
    if expOf m e ≥ 10 then (if s then (false, 1, -1024) else (false, 1, 1024))
    else
      let f := m * 2 ^ ((fxP : Int) + e).toNat
      let n := f / fxOne; let r := f % fxOne
      if s then (if r == 0 then (false, fxOne, -(n : Int) - fxP) else (false, fxExp2 (fxOne - r), -(n : Int) - 1 - fxP))
      else (false, fxExp2 r, (n : Int) - fxP)
  | 4 => let l := fxLog2 m e; (decide (l < 0), l.natAbs, -(fxP : Int))
  | 5 =>
    let r := mod2 m e
    let up := decide (fxOne ≤ r)
    let r := r % fxOne
    let r := if fxOne < 2 * r then fxOne - r else r
    (s != up, fxSin (r * fxPi / fxOne), -(fxP : Int))
  | 6 =>
    let r := mod2 m e
    let r := if fxOne < r then 2 * fxOne - r else r
    if fxOne < 2 * r then (true, fxCos ((fxOne - r) * fxPi / fxOne), -(fxP : Int))
    else (false, fxCos (r * fxPi / fxOne), -(fxP : Int))
  | _ =>
    if expOf m e ≥ 6 then (s, fxOne, -(fxP : Int))
    else
      let y := 2 * (m * 2 ^ ((fxP : Int) + e).toNat) * fxOne / fxLn2
      let n := y / fxOne; let r := y % fxOne
      let t := fxExp2 (fxOne - r) / 2 ^ (n + 1)
      (s, (fxOne - t) * fxOne / (fxOne + t), -(fxP : Int))

/-- The order of FP32 values other than NaN as integers, and the bits of one; both zeros are 0. -/
def f32Key (x : Nat) : Int := if x.testBit 31 then -((x % 2 ^ 31 : Nat) : Int) else (x % 2 ^ 31 : Nat)
def f32OfKey (k : Int) : Nat := if k < 0 then 2 ^ 31 + k.natAbs else k.toNat

/-- The bound of a function's grade at an input, as bm × 2^be (04 R105). The ulp of an accurate grade is that of the correctly rounded
result under RNE, whatever the word's mode: R105 does not say which mode's result measures it (log 13). -/
def sfBound (fn : Nat) (acc : Bool) (rs : Bool) (rm : Nat) (re : Int) (xm : Nat) (xe : Int) : Nat × Int :=
  if acc then
    let ulps := if fn == 7 then 2 else 1
    match Fmt.f32.unpack (Fmt.f32.round 0 rs rm re true).val with
    | .fin _ k h => (ulps, if k == 0 then -149 else max (expOf k h) (-126) - 23)
    | _ => (ulps, 104)
  else
    match fn with
    | 0 | 1 | 2 => (rm, re - 12)
    | 3 => (rm, re - 16)
    | 4 => if -1 ≤ expOf xm xe && expOf xm xe < 1 then (1, -16) else (rm, re - 16)
    | 7 => (1, -12)
    | _ => (1, -15)

/-- The exact result where it is dyadic (07 R179): RSQ of an even power of two, EX2 of an integer, LG2 of a power of two,
SINP and COSP of half integers. The accurate grade returns it (DEDUCED from the rule's examples, log 13), and the fast grade returns it
for EX2 (04 R106) and for COSP from 2^23 on, where 04 R105 says that it is ±1. -/
def sfExact (fn : Nat) (s : Bool) (m : Nat) (e : Int) : Option FVal :=
  let pow2 := m == 2 ^ m.log2
  let ex := expOf m e
  let isInt (h : Int) : Bool := decide (0 ≤ h) || decide (m % 2 ^ (-h).toNat = 0)
  let r := mod2 m e
  match fn with
  | 1 => if pow2 && ex % 2 == 0 then some (.fin false 1 (-ex / 2)) else none
  | 3 =>
    if isInt e && ex < 10 then
      let n : Int := if 0 ≤ e then (m * 2 ^ e.toNat : Nat) else (m / 2 ^ (-e).toNat : Nat)
      some (.fin false 1 (if s then -n else n))
    else none
  | 4 => if pow2 then some (.fin (decide (ex < 0)) ex.natAbs 0) else none
  | 5 =>
    if r == 0 || r == fxOne then some (.fin s 0 0)
    else if 2 * r == fxOne then some (.fin s 1 0)
    else if 2 * r == 3 * fxOne then some (.fin (!s) 1 0) else none
  | 6 =>
    if r == 0 then some (.fin false 1 0) else if r == fxOne then some (.fin true 1 0)
    else if 2 * r == fxOne || 2 * r == 3 * fxOne then some (.fin false 0 0) else none
  | _ => none

/-- The least and the greatest FP32 value, by their keys, that lie within the bound of a function's grade of its exact result (04 R105):
what the reference's own error leaves in doubt (2^-70 of it and 2^-240) is left out. A fast RCP or EX2 whose exact result is normal does
not go below 2^-126; a fast EX2 or LG2 of a positive argument does not cross its exact cases (04 R106, 07 R180). -/
def sfLimits (fn : Nat) (acc s : Bool) (m : Nat) (e : Int) : Int × Int :=
  let r := sfRef fn s m e
  let b := sfBound fn acc r.1 r.2.1 r.2.2 m e
  let q := min r.2.2 (min b.2 (-400)) - 80
  let mid := scaled r.1 r.2.1 r.2.2 q
  let w : Int := (b.1 * 2 ^ (b.2 - q).toNat : Nat) - ((r.2.1 * 2 ^ (r.2.2 - 70 - q).toNat + 2 ^ (-240 - q).toNat : Nat) : Int)
  let near (md : Nat) (x : Int) : Int := f32Key (Fmt.f32.round md (decide (x < 0)) x.natAbs q).val
  let lo := near 2 (mid - w)
  let hi := near 3 (mid + w)
  if acc then (lo, hi)
  else if fn == 0 && !s then (max lo 0x800000, hi)
  else if fn == 3 then
    let lo := max lo 0x800000
    if s then (lo, hi)
    else
      let n := if expOf m e < 0 then 0 else if 0 ≤ e then m * 2 ^ e.toNat else m / 2 ^ (-e).toNat
      (max lo ((n + 127) * 2 ^ 23 : Nat), min hi ((n + 128) * 2 ^ 23 : Nat))
  else if fn == 4 then (if 0 ≤ expOf m e then (max lo 0, hi) else (lo, min hi 0))
  else (lo, hi)
/-- A key brought between two limits. -/
def clampKey (lo hi k : Int) : Int := max lo (min hi k)
/-- The free candidate for a function's bits, brought within its bound (log 13). -/
def sfFree (fn : Nat) (acc : Bool) (md x : Nat) (s : Bool) (m : Nat) (e : Int) : Int :=
  let l := sfLimits fn acc s m e
  clampKey l.1 l.2 (f32Key (Config.special fn acc md (BitVec.ofNat 32 x)).toNat)

/-- A fast RCP or RSQ never increases with a positive argument (07 R180): their keys are taken negated. -/
def sfFalls (fn : Nat) : Bool := fn ≤ 1
/-- The value that the walk below gives a positive normal argument where nothing else limits it. -/
def sfNode (fn x : Nat) : Int :=
  match Fmt.f32.unpack x with
  | .fin _ m e => let k := sfFree fn false 0 x false m e; if sfFalls fn then -k else k
  | _ => 0
/-- The fast grades of RCP, RSQ, SQRT, EX2 and LG2 are monotone over positive arguments (07 R180): from the middle of an open interval
(a, b) of arguments, whose ends have the values va and vb, the walk goes to the half in which x lies, and no value leaves the interval of
the values around it. Every monotone choice of bits within the bounds comes about in this way (log 13). -/
def sfWalk (fn x : Nat) : Nat → Nat → Nat → Int → Int → Int
  | 0, _, _, va, _ => va
  | k + 1, a, b, va, vb =>
    let c := (a + b) / 2
    let v := max va (min vb (sfNode fn c))
    if x == c then v else if x < c then sfWalk fn x k a c va v else sfWalk fn x k c b v vb
/-- The bits of a fast grade at a positive normal argument. -/
def sfMonotone (fn x : Nat) : Nat :=
  let k := sfWalk fn x 32 (2 ^ 23 - 1) (2 ^ 31 - 2 ^ 23) (-(2 ^ 32)) (2 ^ 32)
  f32OfKey (if sfFalls fn then -k else k)
/-- The returned bits of a function that is not correctly rounded, at a finite nonzero argument. In the fast grade and under RNE and RTZ
the odd functions and COSP take them at |x| (07 R180). -/
def sfBits (fn : Nat) (acc : Bool) (md : Nat) (x : Nat) (s : Bool) (m : Nat) (e : Int) : Nat :=
  let md := if acc then md else 0
  let odd := fn == 0 || fn == 5 || fn == 7
  if md ≤ 1 && (odd || fn == 6) then
    let y := x % 2 ^ 31
    let v := if !acc && fn == 0 then sfMonotone fn y else f32OfKey (sfFree fn acc md y false m e)
    if odd && s then v ^^^ 2 ^ 31 else v
  else if !acc && 1 ≤ fn && fn ≤ 4 && !s then sfMonotone fn x
  else f32OfKey (sfFree fn acc md x s m e)

/-- The special values of 04 R106 at zeros and infinities. -/
def sfSpecial (fn : Nat) (s inf : Bool) : FRes :=
  let f := Fmt.f32
  let nan := f.nanRes true
  if inf then
    match fn with
    | 0 => ⟨f.signed s 0, 0⟩
    | 1 => if s then nan else ⟨0, 0⟩
    | 2 | 4 => if s then nan else ⟨f.inf, 0⟩
    | 3 => ⟨if s then 0 else f.inf, 0⟩
    | 7 => ⟨f.signed s 0x3F800000, 0⟩
    | _ => nan
  else
    match fn with
    | 0 | 1 => ⟨f.signed s f.inf, fDZ⟩
    | 4 => ⟨f.signed true f.inf, fDZ⟩
    | 3 | 6 => ⟨0x3F800000, 0⟩
    | _ => ⟨f.signed s 0, 0⟩

/-- A special function (07 R179) on FP32 bits. The spec states no value for a fast EX2 whose exact result is above the largest finite
number: the model returns +∞ without a flag; one below 2^-126 is flushed (log 13). -/
def specialFn (fn : Nat) (acc : Bool) (md : Nat) (x : Nat) : FRes :=
  match Fmt.f32.unpack x with
  | .nan _ g => Fmt.f32.nanRes g
  | .inf s => sfSpecial fn s true
  | .fin s m e =>
    if m == 0 || (!acc && m < 2 ^ 23) then sfSpecial fn s false
    else if s && (fn == 1 || fn == 2 || fn == 4) then Fmt.f32.nanRes true
    else
      let r := sfRef fn s m e
      if acc && fn == 0 then
        let k := m.log2 + 90
        Fmt.f32.round md s r.2.1 r.2.2 (2 ^ k % m != 0)
      else if acc && fn == 2 then
        let m' := if e % 2 == 0 then m else 2 * m
        Fmt.f32.round md false r.2.1 r.2.2 (r.2.1 * r.2.1 != m' * 2 ^ 200)
      else
        match sfExact fn s m e with
        | some (.fin _ 0 _) =>
          if fn == 4 || fn == 6 then ⟨0, 0⟩ else ⟨Fmt.f32.signed s 0, 0⟩
        | exact =>
          if fn == 3 && !s && 7 ≤ expOf m e then (if acc then ⟨Fmt.f32.overflow md false, fOF + fNX⟩ else ⟨Fmt.f32.inf, 0⟩)
          else
            let v := match exact with
              | some (.fin t k h) =>
                if (acc || fn == 3 || (fn == 6 && 23 ≤ expOf m e)) && -149 ≤ h && h ≤ 127 then (Fmt.f32.round 1 t k h).val else sfBits fn acc md x s m e
              | _ => sfBits fn acc md x s m e
            if !acc then
              (if ((fn == 0 || fn == 3) && expOf r.2.1 r.2.2 < -126) || v % 2 ^ 31 < 2 ^ 23 then ⟨Fmt.f32.signed (v.testBit 31) 0, 0⟩ else ⟨v, 0⟩)
            else
              let same := match exact with
                | some y => (Fmt.f32.unpack v).cmp y == 0
                | none => false
              ⟨v, if same then 0 else fNX + (if v % 2 ^ 31 < 2 ^ 23 then fUF else 0) +
                (if Fmt.f32.inf ≤ v % 2 ^ 31 then fOF else 0)⟩

end Sys2Proof.Machine
end

