-- ==== Sys2Proof/Machine/Flags.lean ====
section
/-! DEFINITION. Status and mode of a group: FPMODE's rounding and flags (04 R101 to R103, 07 R170), PART's tiles (01 R37),
and the state registers' values (05 R132; 01 R24; 03 R82). -/

namespace Sys2Proof.Machine
open Sys2Proof

/-- The rounding mode of a rounding field (04 R101): 0 RNE, 1 RTZ, 2 RUP, 3 RDN. -/
def GArch.rmode (a : GArch) (rnd : Nat) : Nat := if rnd == 0 then a.fpmode.toNat % 4 else rnd % 4
/-- Sets FPMODE flags (04 R102). -/
def State.addFlags (s : State) (f : Nat) : State :=
  { s with cur := { s.cur with arch := { s.cur.arch with fpmode := s.cur.arch.fpmode ||| BitVec.ofNat 32 f } } }
/-- The union of the flags that the active lanes raise. -/
def flagsOf (lanes : List Nat) (f : Nat → Nat) : Nat := lanes.foldl (fun acc l => acc ||| f l) 0

/-- A floating-point word that writes one register per lane and raises flags (07 R169). -/
def runFp (i : Instr) (s : State) (d : BitVec 6) (f : GArch → Nat → FRes) : Host.Outcome State Fault Refusal :=
  runLanes i s (fun a lanes s =>
    (s.writeLanes1 d lanes (fun l => BitVec.ofNat 32 (f a l).val)).addFlags (flagsOf lanes (fun l => (f a l).flags)))

/-- The tile size of PART (01 R37). -/
def GArch.tile (a : GArch) : Nat := 2 ^ (a.part.toNat % 8)
/-- The first lane of a lane's tile. -/
def GArch.tileBase (a : GArch) (lane : Nat) : Nat := lane / a.tile * a.tile
/-- The participants of a lane's tile (06 R164). -/
def GArch.tileLanes (a : GArch) (lanes : List Nat) (lane : Nat) : List Nat :=
  lanes.filter (fun j => a.tileBase j == a.tileBase lane)

/-- The values of the state registers but GTIE (05 R132). -/
def State.csrValue (s : State) (a : GArch) (n lane : Nat) : Word :=
  let g := s.cur
  let l := s.launch g.lid
  let p := s.plot g.pid
  match n with
  | 0x00 => BitVec.ofNat 32 lane
  | 0x01 => BitVec.ofNat 32 (g.idx + (g.width - 1) * 256)
  | 0x02 => BitVec.ofNat 32 (l.groupCount - 1)
  | 0x03 => BitVec.ofNat 32 p.index
  | 0x04 => BitVec.ofNat 32 (l.plotCount - 1)
  | 0x05 => BitVec.ofNat 32 g.core
  | 0x06 => BitVec.ofNat 32 g.ctx
  | 0x07 => BitVec.ofNat 32 g.prio
  | 0x08 => BitVec.ofNat 32 p.rbcnt
  | 0x10 => a.part
  | 0x11 => a.fpmode
  | 0x12 => a.tieh
  | 0x20 => (a.thread lane).pts
  | 0x21 => s.tbase
  | 0x22 => 0x0014_A00A
  | 0x30 => a.trap.epc
  | 0x31 => a.trap.cause
  | 0x32 => a.trap.faddr.setWidth 32
  | 0x33 => (a.trap.faddr >>> 32).setWidth 32
  | 0x34 => a.trap.done
  | _ => 0

end Sys2Proof.Machine
end

