-- ==== Sys2Proof/Machine/Issue.lean ====
section
/-! DEFINITION. Issue turns: fetching and decoding a chain (05 R118, R119), the ready set and the skip rule (01 R14,
R15), the choice of a group (01 R18, R33), and what a chain with a store-class word holds back (08 R184). -/

namespace Sys2Proof.Machine
open Sys2Proof

/-! Fetch. -/

/-- A fault of an instruction fetch (17 R330): FETCH is set and FADDR holds the byte address. -/
def fetchTrap (code level : Nat) (a : DWord) (poison : Option Nat) : Trap :=
  { code := code, info := level, faddr := a, fetch := true, poison := poison }
/-- Fetches the word at a position (05 R118).  A fetch from a sector with uncorrectable data or of a failed home
reads the stored bytes: 17 R338 names loads, atomics and engine reads only (DESIGN CHOICE, log 28). -/
def State.fetchWord (s : State) (g : Group) (p : Pos) : Res Word :=
  let a := 12 * p.pc.toNat + 4 * p.slot
  let ea : DWord := BitVec.ofNat 64 a
  if 2 ^ 56 ≤ a then .trap (fetchTrap 0x10 0 ea none)
  else
    match s.translate (holdersOf g.core) g.ctx a with
    | .fault code level poison => .trap (fetchTrap code level ea poison)
    | .miss => .wait (some ⟨.cluster (clusterOf g.core), g.ctx, a / 2 ^ 16⟩)
    | .held => .wait none
    | .leaf e =>
      if !leafX e || !(g.trap.handler || leafU e) then .trap (fetchTrap 0x1B 0 ea none)
      else if !s.portServes (chipletOf g.core) { space := .glob, addr := leafTranslate e a } then .wait none
      else .ok (BitVec.ofNat 32 (s.mem.glob.num (leafTranslate e a) 4))

/-- The opcode's cell may take an extension (05 R123). -/
def mayExtend (drill : Bool) (w : Word) : Bool :=
  match mapCell (if drill then drillMap else ploughMap) (opOf w) with
  | .wide _ => true
  | .both _ _ => true
  | _ => false
/-- The instruction at a position, by its stream's map: a rejected word raises the illegal-instruction trap. -/
def State.fetchInstr (s : State) (g : Group) (drill : Bool) (p : Pos) : Res Instr :=
  (s.fetchWord g p).bind fun w =>
    let next : Res (Option Word) :=
      if mayExtend drill w && p.slot < 2 then (s.fetchWord g { p with slot := p.slot + 1 }).bind (fun x => .ok (some x)) else .ok none
    next.bind fun nx =>
      match (if drill then decodeDrill w nx else decodePlough w nx) with
      | .ok (i, _) => .ok i
      | .error _ => .trap Trap.illegal

/-- The chain at a position: its words by slot, ending with the first that has C = 0 or does not decode (05 R119). -/
def State.fetchChain (s : State) (g : Group) : Nat → Pos → List (Nat × Res Instr)
  | 0, _ => []
  | n + 1, p =>
    let r := s.fetchInstr g false p
    match r with
    | .ok i => (p.slot, r) :: (if i.chainBit && p.slot + i.width < 3 then s.fetchChain g n { p with slot := p.slot + i.width } else [])
    | _ => [(p.slot, r)]

/-! Readiness. -/

/-- The state in which the words of a chain of group `g` at position `p` are judged and executed. -/
def State.issueState (s : State) (g : Group) (drill : Bool) (set : Word) (p : Pos) : State :=
  { s with cur := g.freeQueues, groups := s.groups.filter (fun x => x.gid != g.gid),
           issue := { Issue.idle with active := true, drill := drill, set := set, pos := p, chainPos := p, firstId := s.sched.nextId } }
/-- The thread's EXIT is behind it, held back by its chain (05 R120); not while a handler runs or the chain's wait executes again. -/
def Thread.leaving (t : Thread) : Bool := t.exiting && t.redo.isNone && t.susp.isNone
/-- A thread may issue at all: live, not waiting, with the loads of before an eviction behind it (R39), in the handler set while in handler mode, inside a packet while its
group stops (01 R39), and not held ahead (03 R84). -/
def State.threadMay (s : State) (g : Group) (lane : Nat) : Bool :=
  let t := g.thread lane
  t.live && t.wait.isNone && !t.leaving && !(g.resumed && !g.loads.isEmpty) && (!g.trap.handler || g.trap.hset.getLsbD lane) && (!g.stopping || t.pos.slot != 0) &&
  (tle t.pts (s.tbase + 0x2000_0000))
/-- The lane is ready for every word of a chain (01 R14); a word that traps on its form is ready (05 R138). -/
def chainReady (s : State) (lane : Nat) : List Instr → List (Nat × Res Instr) → Bool
  | _, [] => true
  | prev, (slot, r) :: rest =>
    match r with
    | .trap _ => true
    | .wait _ => false
    | .ok i =>
      let s' := { s with issue := { s.issue with pos := { s.issue.pos with slot := slot }, chain := prev } }
      if s'.illegalHere i then true
      else
        let a := s'.snap
        s'.cur.holdLets prev i lane (a.thread lane).hold && (!(s'.lanes i).contains lane || s'.laneReady a i lane) && chainReady s lane (prev ++ [i]) rest
/-- The ready threads of a group (01 R14). -/
def State.readyLanes (s : State) (g : Group) : List Nat :=
  allLanes.filter (fun l => s.threadMay g l &&
    (let p := (g.thread l).pos
     let s' := s.issueState g false (laneBit l) p
     chainReady s' l [] (s'.fetchChain g 3 p)))

/-- The least position of a list of lanes. -/
def leastPos (g : Group) (l : List Nat) : Pos :=
  match l with
  | [] => Pos.zero
  | x :: xs => xs.foldl (fun p y => if (g.thread y).pos.lt p then (g.thread y).pos else p) (g.thread x).pos
/-- The position to issue (01 R15). -/
def choosePos (g : Group) (ready : List Nat) : Pos :=
  let m := ready.foldl (fun acc l => max acc (g.thread l).skip) 0
  if 16 ≤ m then leastPos g (ready.filter (fun l => (g.thread l).skip == m)) else leastPos g ready
/-- The skip counts after a turn (01 R15). -/
def Group.skips (g : Group) (ready issued : List Nat) : Group :=
  g.mapThreads (fun l t => if issued.contains l then { t with skip := 0 }
    else if ready.contains l then { t with skip := min (t.skip + 1) 63 } else t)

/-! Executing a chain (05 R120). -/

/-- What a chain comes to: done, or a word the model refuses. -/
inductive ChainRes
  | ok (s : State)
  | stop (r : Host.Outcome State Fault Refusal)

/-- Executes the words of a chain in slot order from `s`; `s0` is the state before the chain. A trapping word traps the
whole chain from there, and a word that is not ready leaves everything as it was. A trap that a barrier-object word finds at its objects
stands only where no later word of the chain traps as it issues (05 R120, 09 R212). -/
def runChain (ex : Instr → State → Host.Outcome State Fault Refusal) (s0 : State) : State → List (Nat × Res Instr) → ChainRes
  | s, [] => .ok s
  | s, (slot, r) :: rest =>
    let place (b : State) : State :=
      { b with issue := { b.issue with active := true, drill := s0.issue.drill, pos := { b.issue.pos with slot := slot }, chain := s.issue.chain } }
    match r with
    | .trap t => .ok ((place s0).trapWord t)
    | .wait m => .ok { (s0.askHost m) with issue := { s0.issue with blocked := true } }
    | .ok i =>
      match ex i (place s) with
      | .next s' =>
        if s'.issue.trapped then
          let trap : ChainRes := match ex i (place s0) with | .next s'' => .ok s'' | o => .stop o
          if !s'.issue.home then trap
          else
            match runChain ex s0 { s with issue := { s.issue with chain := s.issue.chain ++ [i] } } rest with
            | .ok r => if r.issue.trapped || r.issue.blocked then .ok r else trap
            | o => o
        else if s'.issue.blocked then
          .ok { s0 with mbox := s'.mbox, issue := { s0.issue with blocked := true } }
        else runChain ex s0 s' rest
      | o => .stop o

/-- The differences between two lists, by index. -/
def diffIdx {α : Type} [DecidableEq α] (old new : List α) : List (Nat × α) :=
  ((new.mapIdx (fun i x => (i, x))).filter (fun p => old[p.1]? != some p.2))

/-- Words whose effect goes beyond registers and positions, so that it waits for the accesses of a chain (05 R120, 08 R184). -/
def Instr.isLate (i : Instr) : Bool :=
  match i with
  | .hgwr _ | .hqry _ _ | .stopt _ | .sret _ | .eret _ | .yield _ => true
  | .nanr w => w.x
  | .csrr w => w.imm8.toNat == 0x13
  | .csrw w => w.imm8.toNat == 0x13 || 0x30 ≤ w.imm8.toNat
  | _ => false
/-- A read of the Granary's cursor (12 R282). -/
def Instr.readsGtie (i : Instr) : Bool := match i with | .csrr w => w.imm8.toNat == 0x13 | _ => false
/-- The order in which the words of a chain act late: one that reads the cursor before one that moves it (05 R120). -/
def lateOrder (ws : List (Nat × Instr)) : List (Nat × Instr) := ws.filter (fun w => Instr.readsGtie w.2) ++ ws.filter (fun w => !Instr.readsGtie w.2)
/-- The words of a chain that act with its accesses: store-class words and loads. -/
def Instr.starts (i : Instr) : Bool :=
  Instr.storeClass i || (match i with
    | .hst _ | .hstWide _ _ | .hld _ | .hldWide _ _ => true
    | .pref _ | .prefWide _ _ => false
    | i => Instr.underHold i)
/-- The group after a word of its chain has acted late: what it did to the machine and to registers stays, and every thread stands where
it stood, but for an ERET. -/
def Group.afterLate (g g' : Group) (i : Instr) : Group :=
  let g' := { g' with holds := g.holds, loads := g.loads }
  if Instr.isEret i then g'
  else g'.mapThreads (fun l t => let o := g.thread l
    { t with pos := o.pos, wnext := o.wnext, qh := o.qh, kept := o.kept, wait := o.wait, hold := o.hold })
/-- A word of a chain acts late, with the operands of before the chain; one that consumes uncorrectable data stops its plot (17 R338). -/
def State.runLate (ex : Instr → State → Host.Outcome State Fault Refusal) (gid : Nat) (set : Word) (chain : Pos) (snap : GArch) (s : State)
    (w : Nat × Instr) : State :=
  match s.group gid with
  | none => s
  | some g =>
    let s1 := s.issueState { g with holds := [], loads := [] } false set chain
    match ex w.2 { s1 with issue := { s1.issue with pos := { chain with slot := w.1 }, pre := some { snap with trap := g.arch.trap } } } with
    | .next t =>
      if t.issue.blocked || (t.issue.trapped && !(s.plot g.pid != t.plot g.pid || s.launch g.lid != t.launch g.lid)) then s
      else { t with cur := Group.idle, issue := Issue.idle, groups := g.afterLate t.cur w.2 :: t.groups }
    | _ => s
/-- What the other words of a store-class chain wrote, from the group before and after it (08 R184): the writes go to
the hold record and the group keeps its old values. Registers that the store-class word itself emptied stay. -/
def Group.holdBack (g : Group) (pre : GArch) (id : Nat) (late : List (Nat × Instr)) : Group :=
  let post := g.arch
  let lanes := allLanes
  let vs := lanes.flatMap (fun l =>
    ((diffIdx (pre.thread l).v (post.thread l).v).filter (fun r => r.2.full)).map (fun r => (l, r.1, r.2)) ++
    (if (post.thread l).qbw == (pre.thread l).qbw then []
     else [(l, 56, { Reg.start with val := ((post.qb.ents.getD ((pre.thread l).qbw - pre.qb.base) QEnt.blank).vals).getD l 0 })]))
  let ps := lanes.flatMap (fun l => (List.range 7).filterMap (fun n =>
    if (pre.thread l).getP n != (post.thread l).getP n then some (l, n, (post.thread l).getP n) else none))
  let cleared := pre.fpmode &&& ~~~post.fpmode &&& 0x1F00
  let csr := (if pre.part != post.part then [(0x10, post.part)] else []) ++ (if pre.tieh != post.tieh then [(0x12, post.tieh)] else []) ++
    (if cleared != 0 || pre.fpmode &&& 3 != post.fpmode &&& 3 then [(0x11, cleared ||| (post.fpmode &&& 3))] else [])
  let arch' : GArch :=
    { post with
      threads := post.threads.mapIdx (fun l t =>
        { t with v := t.v.mapIdx (fun n r => if r.full then ((pre.thread l).v.getD n r) else r), p := (pre.thread l).p,
                 qbw := (pre.thread l).qbw }),
      s := pre.s, h := pre.h, k := pre.k, fpmode := pre.fpmode, part := pre.part, tieh := pre.tieh, qb := pre.qb }
  { g with arch := arch',
           holds := g.holds.map (fun r => if r.id == id then
             { r with held := { r.held with v := vs, p := ps, s := diffIdx pre.s post.s, h := diffIdx pre.h post.h,
                                            k := diffIdx pre.k post.k, csr := csr, flags := post.fpmode &&& ~~~pre.fpmode &&& 0x1F00, late := late } }
             else r) }
/-- The queue entries that a thread has popped between two states, by queue (05 R125). -/
def GArch.moved (pre post : GArch) (lane : Nat) : List (Nat × QEnt) :=
  let t := pre.thread lane
  let u := post.thread lane
  (List.range 8).filterMap (fun q =>
    if t.qh.getD q 0 != u.qh.getD q 0 || (t.kept.filter (fun e => e.1 == q)).length != (u.kept.filter (fun e => e.1 == q)).length then
      (pre.head q lane).map (fun e => (q, e))
    else none)
/-- The sources of the word at which a thread now waits, which stood as `old` before the chain (05 R120); a word that has executed again
keeps those that it had. -/
def Thread.sources (t old : Thread) (chain : Pos) : WSrc :=
  match old.redo.filter (fun r => r.1 == chain) with
  | some (_, _, src) => src
  | none => ⟨(t.v.mapIdx (fun n r => (n, r))).filterMap (fun x => if old.getV x.1 != x.2 then some (x.1, old.getV x.1) else none), old.p, t.src.q⟩
/-- What a chain leaves with a thread that it issued for: the sources of a wait (09 R201), the entries that a trap of its store-class word
would give back, and nothing of a chain that it has executed again (08 R185). -/
def Thread.settleChain (t : Thread) (pre post : GArch) (lane : Nat) (chain : Pos) : Thread :=
  let old := pre.thread lane
  { t with
    src := if t.wait.isSome then t.sources old chain else WSrc.none,
    redo := if (old.redoAt chain).isSome then none else t.redo,
    replayAt := if t.replayAt == some chain then none else t.replayAt,
    undo := if t.hold == 0 then [] else (if old.hold == 0 then [] else t.undo) ++ pre.moved post lane }
/-- The same for every thread of the issuing set. -/
def Group.settleChain (g : Group) (pre : GArch) (set : Word) (chain : Pos) : Group :=
  g.mapThreads (fun l t => if set.getLsbD l then t.settleChain pre g.arch l chain else t)
/-- A chain whose late words have to follow its own loads holds its threads until these have performed (03 R76). -/
def Group.afterLoads (g : Group) (pre : GArch) (e : Issue) (id : Nat) : Group :=
  let h : HoldRec := ⟨id, e.chainPos, e.pos.slot, e.set, e.set, .qload, g.ctx, 0, [], pre, e.words, ⟨[], [], [], [], [], [], [], 0, e.late⟩, 0, 0⟩
  { g.mapThreads (fun l t => if e.set.getLsbD l then { t with hold := id, undo := pre.moved g.arch l } else t) with holds := g.holds ++ [h] }

/-- The end of an issue turn: writes are held back, each thread of the issuing set is left with what its chain leaves, and the group
returns to its place. A group whose identifier is 0 is gone. -/
def State.endIssue (ex : Instr → State → Host.Outcome State Fault Refusal) (s : State) (pre : GArch) : State :=
  let went := !s.issue.trapped && !s.issue.blocked
  let g := if went then s.cur.settleChain pre s.issue.set s.issue.chainPos else s.cur
  let g := if s.issue.holdId != 0 && 1 < s.issue.chain.length then g.holdBack pre s.issue.holdId s.issue.late else g
  let g := match g.holdRec s.issue.holdId with
    | some h => g.freeLanes h
    | none => g
  let g := { g with fp := went && s.issue.chain.any (fun i => i.info.pipe == Pipe.fp) }
  let wait := went && s.issue.holdId == 0 && s.issue.late.any (fun w => Instr.waitsForLoads w.2) &&
    g.loads.any (fun r => s.issue.firstId ≤ r.id)
  let g := if wait then g.afterLoads pre s.issue s.sched.nextId else g
  let now := if went && s.issue.holdId == 0 && !wait then s.issue.late else []
  let e := s.issue
  let s := { s with cur := Group.idle, issue := Issue.idle, groups := if g.gid == 0 then s.groups else g :: s.groups,
                    sched := if wait then { s.sched with nextId := s.sched.nextId + 1 } else s.sched }
  (lateOrder now).foldl (State.runLate ex g.gid e.set e.chainPos pre) s

/-- The reads of the fetches of some words are counted, with the walks that they made (17 R337). -/
def State.countFetch (s : State) (g : Group) (p : Pos) (slots : List Nat) : State :=
  if s.mem.ecc.isEmpty then s
  else slots.foldl (fun (t : State) slot =>
    let a := 12 * p.pc.toNat + 4 * slot
    let t := t.countMiss (holdersOf g.core) g.ctx a
    match s.translate (holdersOf g.core) g.ctx a with
    | .leaf e => t.countRead { space := .glob, addr := leafTranslate e a } 4
    | _ => t) s
/-- The EAs in global memory of what a group's chain has issued from an identifier on: loads, store-class words, operations and waits. -/
def Group.issuedEas (g : Group) (first : Nat) (set : Word) : List DWord :=
  ((g.loads ++ g.dloads).filter (fun r => first ≤ r.id)).flatMap (fun r => r.pieces.filterMap (fun p => if p.1.space == .glob then some p.2 else none)) ++
    (g.holds.filter (fun h => first ≤ h.id)).flatMap (fun h => h.pieces.filterMap (fun p => if p.1.tgt.space == .glob then some p.2 else none)) ++
    (g.ops.filter (fun o => first ≤ o.id)).flatMap (fun o => o.pages.map (·.2)) ++
    allLanes.filterMap (fun l => match (g.thread l).wait with
      | some (.addr w) => if set.getLsbD l && w.tgt.space == .glob then some w.ea else none
      | _ => none)
/-- The walks of a chain's accesses are counted, one for each page (17 R337). -/
def State.countWalks (s : State) (gid first : Nat) (set : Word) : State :=
  if s.mem.ecc.isEmpty then s
  else
    match s.group gid with
    | none => s
    | some g => (((g.issuedEas first set).map (fun ea => ea.toNat % 2 ^ 56 / 2 ^ 16)).eraseDups).foldl (fun s p => s.countMiss (holdersOf g.core) g.ctx (p * 2 ^ 16)) s

/-- Issues one chain of a group for the ready threads at the chosen position (01 R14, R15). -/
def State.issueGroup (ex : Instr → State → Host.Outcome State Fault Refusal) (s : State) (g : Group) (ready : List Nat) :
    Host.Outcome State Fault Refusal :=
  let p := choosePos g ready
  let issued := ready.filter (fun l => (g.thread l).pos == p)
  let g' := { g.skips ready issued with lastSel := s.sched.cycle, stalled := false, resumed := false }
  let s0 := s.issueState g' false (maskOfList issued) p
  let chain := s0.fetchChain g' 3 p
  let words := chain.filterMap (fun w => match w.2 with | .ok i => some (w.1, i) | _ => none)
  let s0 := { s0 with issue := { s0.issue with words := words } }
  let s0 := if 1 < chain.length then
      { s0 with issue := { s0.issue with pre := some s0.cur.arch, defers := words.any (fun w => Instr.starts w.2 || Instr.readsGtie w.2) } } else s0
  match runChain ex s0 s0 chain with
  | .ok s' =>
    let t := (s'.endIssue ex s0.cur.arch).count (telBlock (chipletOf g.core) + 0x08) 1
    .next ((t.countFetch g' p (chain.map (·.1))).countWalks g.gid s.sched.nextId (maskOfList issued))
  | .stop o => o

/-- The groups that the Plough stage may select, in the order of 01 R18. -/
def State.ploughOrder (s : State) (core : Nat) : List Group :=
  let gs := s.groups.filter (fun g => g.core == core && g.esc.isNone && !(s.plot g.pid).rolling && g.readyAt ≤ s.sched.cycle &&
    (match g.place with | .slot _ => true | _ => false))
  let key (g : Group) : Nat := max g.lastSel g.seated
  let slot (g : Group) : Nat := match g.place with | .slot n => n | _ => 99
  sortBy (fun a b => key a < key b || (key a == key b && slot a < slot b)) gs
/-- The Plough issue stage of a core in one cycle (01 R18). -/
def issuePloughFrom (ex : Instr → State → Host.Outcome State Fault Refusal) (s : State) : List Group → Host.Outcome State Fault Refusal
  | [] => .next s
  | g :: gs =>
    let ready := s.readyLanes g
    if ready.isEmpty then issuePloughFrom ex s gs else s.issueGroup ex g ready
def issuePlough (ex : Instr → State → Host.Outcome State Fault Refusal) (s : State) (core : Nat) : Host.Outcome State Fault Refusal :=
  issuePloughFrom ex s (s.ploughOrder core)

/-! The Drill front end (01 R33). -/

/-- A Drill stream may issue at all. -/
def State.drillMay (s : State) (g : Group) : Bool :=
  let d := g.arch.drill
  !d.ended && !d.halted && g.esc.isNone && !(s.plot g.pid).rolling && (!g.stopping || d.pos.slot != 0) && tle d.dts (s.tbase + 0x2000_0000)
/-- The order of selection of the Drill front end (01 R33). Groups of different plots that became resident in one cycle go by group index and
then in the order of the state's list, which the spec leaves open (log 87). -/
def State.drillOrder (s : State) (core : Nat) : List Group :=
  let gs := s.groups.filter (fun g => g.core == core && g.place != .saved && g.place != .gone && s.drillMay g)
  sortBy (fun a b => a.dlastSel < b.dlastSel || (a.dlastSel == b.dlastSel && (a.placed < b.placed || (a.placed == b.placed && a.idx < b.idx)))) gs
/-- Issues one Drill word for the first group whose Drill stream can issue. -/
def issueDrillFrom (ex : Instr → State → Host.Outcome State Fault Refusal) (s : State) : List Group → Host.Outcome State Fault Refusal
  | [] => .next s
  | g :: gs =>
    let p := g.arch.drill.pos
    let g' := { g with dlastSel := s.sched.cycle }
    let s0 := s.issueState g' true 0 p
    match runChain ex s0 s0 [(p.slot, s0.fetchInstr g' true p)] with
    | .stop o => o
    | .ok s' =>
      if s'.issue.blocked then issueDrillFrom ex { s with mbox := s'.mbox } gs
      else .next (((s'.endIssue ex g'.arch).countFetch g' p [p.slot]).countWalks g.gid s.sched.nextId 0)
def issueDrill (ex : Instr → State → Host.Outcome State Fault Refusal) (s : State) (core : Nat) : Host.Outcome State Fault Refusal :=
  issueDrillFrom ex s (s.drillOrder core)

end Sys2Proof.Machine
end

