-- ==== Sys2Proof/Machine/Home.lean ====
section
/-! DEFINITION. The consistency protocol at the homes: loads in flight with their validity intervals, stores with their
stamps, and store-class holds (03 R79 to R88, 08 R184, R185). -/

namespace Sys2Proof.Machine
open Sys2Proof

/-! Stamps of threads. -/

/-- A thread's pts joins a stamp (03 R81, R86). -/
def Group.raisePts (g : Group) (lane : Nat) (ts : Word) : Group := g.updThread lane (fun t => { t with pts := tmax t.pts ts })
def State.raisePts (s : State) (gid lane : Nat) (ts : Word) : State := s.updGroup gid (fun g => g.raisePts lane ts)
/-- The Drill stream's dts joins a stamp (03 R88, 10 R225). -/
def Group.raiseDts (g : Group) (ts : Word) : Group :=
  { g with arch := { g.arch with drill := { g.arch.drill with dts := tmax g.arch.drill.dts ts } } }

/-- The end of a lease that a home grants (03 R80, R84). -/
def State.leaseEnd (s : State) (pts : Word) (leaf : BitVec 128) : Word :=
  let e := pts + leaseOf leaf
  let cap := s.tbase + 0x2010_0000
  if tle e cap then e else cap

/-- A sweep (03 R85): every home rewrites the stale stamps of the lines that it holds, and its M. -/
def State.sweep (s : State) : State :=
  let u := unstale s.tbase
  { s with mem := { s.mem with mst := s.mem.mst.map u, rest := u s.mem.rest, lines := s.mem.lines.map (fun (l : LineSt) =>
    { l with wts := u l.wts, rts := u l.rts, held := l.held.map (fun w => (u w.1, u w.2)) }) } }

/-! Overlaps. -/

/-- Two home accesses share a byte. -/
def overlap (t : Target) (n : Nat) (u : Target) (m : Nat) : Bool :=
  (lineBytes t.space == lineBytes u.space) && (t.space == .glob) == (u.space == .glob) && (t.space == .chip) == (u.space == .chip) &&
  (t.space == .chan) == (u.space == .chan) && t.addr < u.addr + m && u.addr < t.addr + n
/-- A target in core scratchpad or a shared window. -/
def Space.isLocal (sp : Space) : Bool := sp == .scratch || sp == .cluster
/-- The ranges of a core's scoreboard: the oldest 32 (10 R240). -/
def State.ranges (s : State) (core : Nat) : List SbRange := (s.mem.sboard.filter (fun r => r.core == core)).take 32
/-- The range scoreboard holds an access (03 R91): any access to a line that an engine will write, and a store to bytes that one still
has to read. -/
def State.boarded (s : State) (t : Target) (n : Nat) (wr : Bool) : Bool :=
  Space.isLocal t.space && (s.ranges (t.addr / 2 ^ 20)).any (fun r =>
    let a := t.addr % 2 ^ 20
    r.len != 0 && (if r.write then a / 64 ≤ (r.lo + r.len - 1) / 64 && r.lo / 64 ≤ (a + n - 1) / 64
    else wr && a < r.lo + r.len && r.lo < a + n))
/-- Every range of an engine operation has its place in its core's scoreboard (10 R240). -/
def State.rangesIn (s : State) (core owner : Nat) : Bool :=
  (s.mem.sboard.filter (fun r => r.owner == owner && r.core == core)).length == ((s.ranges core).filter (fun r => r.owner == owner)).length
/-- An engine operation leaves the scoreboard. -/
def State.unboard (s : State) (owner : Nat) : State :=
  { s with mem := { s.mem with sboard := s.mem.sboard.filter (fun r => r.owner != owner) } }

/-! Reads at a home with their lines' keeping. -/


/-- The whole-line target of a .x4 load, whose code byte it names (02 R63). -/
def x4Line (t : Target) : Target := { t with addr := t.addr / 128 * 128 }
/-- The tag that an access of TYPE t meets in tags of sectors (02 R56): a .x4 load touches the code byte's sector and the
line's last. -/
def tagClash (typ : Nat) (tg : Option Nat) (addr n : Nat) (tagAt : Nat → Nat) : Option Nat :=
  match tg with
  | none => none
  | some v =>
    let secs := if typ == 11 then [addr / 32, addr / 128 * 4 + 3]
      else (List.range (n / 32 + 2)).filterMap (fun i => if (addr / 32 + i) * 32 < addr + n then some (addr / 32 + i) else none)
    (secs.filterMap (fun x => if tagAt x != v then some (tagAt x) else none)).head?

/-- The value of a load of TYPE t (08 R187, 02 R63): its registers, and whether a .x4 line's reserved bytes break it. A load that widens a
signalling NaN sets no flag, which no rule states either way (log 90). -/
def loadValue (typ fmt : Nat) (ea : DWord) (data : List Byte) : List Word × Bool :=
  let x := ofBytes data
  let one (v : Nat) : List Word × Bool := ([BitVec.ofNat 32 v], false)
  match typ with
  | 1 => ([wordOfInt (toSigned 8 x)], false)
  | 3 => ([wordOfInt (toSigned 16 x)], false)
  | 6 | 7 => (wordsOf 2 x, false)
  | 12 => (wordsOf 4 x, false)
  | 11 =>
    let j := ea.toNat % 128
    let el (k : Nat) : Word := BitVec.ofNat 32 (x4ToF32 (x4Elem data (k / 48) (k % 48)))
    ([el (2 * j), el (2 * j + 1)], !x4LineOk data)
  | 8 =>
    match fmt with
    | 2 => one (convert .e4m3 .f32 0 false x).val
    | 3 => one (convert .e5m2 .f32 0 false x).val
    | 4 => one (convert .f16 .f32 0 false x).val
    | 5 => one (convert .bf16 .f32 0 false x).val
    | _ => one x
  | _ => one x

/-! Loads in flight (03 R80, R86). -/

def LSt.isUnsent (x : LSt) : Bool := match x with | .unsent => true | _ => false
def LSt.isSent (x : LSt) : Bool := match x with | .sent _ _ _ _ _ => true | _ => false
def LSt.isArrived (x : LSt) : Bool := match x with | .arrived _ _ _ _ => true | .done _ _ _ => true | _ => false
def LoadRec.setPart (r : LoadRec) (i : Nat) (x : LSt) : LoadRec :=
  { r with parts := r.parts.mapIdx (fun k p => if k == i then { p with st := x } else p) }
/-- A load of either stream. -/
def Group.load (g : Group) (rid : Nat) : Option LoadRec := (g.loads ++ g.dloads).find? (fun r => r.id == rid)
def Group.updLoad (g : Group) (rid : Nat) (f : LoadRec → LoadRec) : Group :=
  { g with loads := g.loads.map (fun r => if r.id == rid then f r else r), dloads := g.dloads.map (fun r => if r.id == rid then f r else r) }
/-- The load belongs to the Drill stream. -/
def Group.isDload (g : Group) (rid : Nat) : Bool := g.dloads.any (fun r => r.id == rid)
/-- An HLD's record (12 R271). -/
def LoadRec.isHld (r : LoadRec) : Bool := match r.dst with | .hyp _ => true | _ => false
/-- A store or atomic of the thread, older than the load and not yet returned, shares bytes with it (03 R86). -/
def Group.overlapsOwnStore (g : Group) (r : LoadRec) (p : LPart) : Bool :=
  g.holds.any (fun h => h.id < r.id && h.parts.any (fun q =>
    h.kind != .qload && (q.lane == r.lane || (h.kind == .hst && h.lanes.getLsbD r.lane)) && overlap p.tgt p.len q.tgt q.data.length &&
    (match q.st with | .unsent => true | .performed _ _ _ => true | _ => false)))
/-- Every older shared access of the load's thread has performed, and no older word can yet send the thread back (03 R86; 08 R185). -/
def Group.olderDone (g : Group) (lane id : Nat) : Bool :=
  !g.loads.any (fun q => q.id < id && (q.lane == lane || q.lanes.getLsbD lane)) &&
  !g.holds.any (fun h => h.id < id && h.kind != .qload && h.binds lane)
/-- The stamp that a load's request carries, and below which it does not perform: pts or dts as it stands (03 R80, R86); of an HLD and of a
gather the stamp at issue (12 R271, 10 R226). -/
def Group.loadStamp (g : Group) (r : LoadRec) : Word :=
  if r.isHld || r.op != 0 then r.base else if g.isDload r.id then g.arch.drill.dts else (g.thread r.lane).pts

/-- The L1 copy of a core that covers a stamp (03 R80). -/
def State.l1Hit (s : State) (core line : Nat) (pts : Word) : Option L1Copy :=
  s.mem.l1.find? (fun c => c.core == core && c.line == line && tle pts c.rts)
/-- The sectors of a global line that are uncorrectable (17 R337). -/
def State.badOf (s : State) (n : Nat) : BitVec 4 :=
  if s.mem.ecc.isEmpty then 0
  else BitVec.ofNat 4 (((List.range 4).filter (fun i => 3 ≤ (alGet s.mem.ecc ((n * 4 + i) * 32)).getD 0)).foldl (fun m i => m + 2 ^ i) 0)
/-- The renewal of the second branch of 03 R80: the home's rts rises and the core takes a copy. -/
def State.renew (s : State) (core : Nat) (t : Target) (pts : Word) (ctx : Nat) : State × L1Copy :=
  let whole : Target := { t with addr := t.addr / 128 * 128 }
  let s := (s.allocLine whole ctx 128 15).countRead whole 128
  let n := t.addr / 128
  let l := s.line (.glob n)
  let e := s.leaseEnd (unstale s.tbase pts) t.leaf
  let l' := l.raise 0 128 e
  let w := (l.stamps 0 128).1
  let ts := tmax (unstale s.tbase pts) w
  let c : L1Copy := ⟨core, n, w, tmax ts e, s.mem.glob.readN (n * 128) 128, (List.range 4).map (fun i => s.sectorTag ((n * 4 + i) * 32)), s.badOf n⟩
  let s := s.setLine l'
  ({ s with mem := { s.mem with l1 := c :: (s.mem.l1.filter (fun x => !(x.core == core && x.line == n))) } }, c)

/-- A load's fault mark for a tag mismatch (08 R185). -/
def tagMark (ea : DWord) (v : Nat) : FMark := ⟨0x1F, v, ea⟩

/-- An access of a load to a peer device has not been acknowledged. -/
def LPart.awaits (p : LPart) : Bool := p.tgt.space == .glob && isPeer p.tgt.addr && !p.st.isArrived
/-- A store or atomic of a word to a peer device by a lane has not been acknowledged. -/
def HoldRec.awaits (h : HoldRec) (lane : Nat) : Bool :=
  h.kind != .qload && h.parts.any (fun p => (p.lane == lane || (h.kind == .hst && h.lanes.getLsbD lane)) &&
    p.tgt.space == .glob && isPeer p.tgt.addr && !p.st.answered)
/-- An older access of the load's thread, or stream, to a peer device has not been acknowledged (03 R96). -/
def Group.remoteBefore (g : Group) (r : LoadRec) : Bool :=
  if g.isDload r.id then g.dloads.any (fun q => q.id < r.id && q.dst != r.dst && q.parts.any LPart.awaits)
  else g.loads.any (fun q => q.id < r.id && ((q.lane < 32 && q.lane == r.lane) || q.lanes.getLsbD r.lane || r.lanes.getLsbD q.lane || q.lanes &&& r.lanes != 0) &&
    q.parts.any LPart.awaits) ||
    g.holds.any (fun h => h.id < r.id && (if r.isHld then lanesOf r.lanes else [r.lane]).any h.awaits)
/-- Whether a part of a load can be sent now. -/
def State.canSend (s : State) (g : Group) (r : LoadRec) (p : LPart) : Bool :=
  p.st.isUnsent && (g.isDload r.id || !g.overlapsOwnStore r p) && !s.boarded p.tgt p.len false && !s.tierWaits p.tgt && !g.remoteBefore r
/-- The remote request that waits for an answer about a part. -/
def State.remoteOut (s : State) (gid rid part : Nat) : Bool :=
  s.peers.remotes.any (fun x => x.gid == gid && x.rid == rid && x.part == part)

/-- One home access of a load, under 03 R80: an L1 hit, a renewal, or the third branch. -/
def State.performLoad (s : State) (g : Group) (r : LoadRec) (i : Nat) (p : LPart) : State :=
  let pts := g.loadStamp r
  let put (s : State) (x : LSt) : State := s.updGroup g.gid (fun g => g.updLoad r.id (fun q => { (q.setPart i x) with base := pts }))
  let x4 := r.typ == 11
  let line := p.tgt.addr / 128
  let back : Back := ⟨s.sched.nextId, s.viaTo (chipletOf g.core) p.tgt⟩
  let third : State :=
    let t := if x4 then x4Line p.tgt else p.tgt
    let n := if x4 then 128 else p.len
    let clash := tagClash r.typ p.tgt.tag p.tgt.addr p.len (fun x => (s.mem.tags.read x).toNat)
    let q := s.readThird t n pts g.ctx r.hint
    put (if clash.isNone then q.1 else q.1.countTag p.tgt).fresh.2 (.sent q.2.1 q.2.2.1 q.2.2.2.1 (clash.map (tagMark r.ea)) back)
  if p.tgt.space == .glob && !r.isHld && r.op == 0 then
    let served (s : State) (c : L1Copy) (hit : Bool) : State :=
      let clash := tagClash r.typ p.tgt.tag p.tgt.addr p.len (fun x => c.tags.getD (x % 4) 0)
      let data := if x4 then c.data else (c.data.drop (p.tgt.addr % 128)).take p.len
      let m := clash.map (tagMark r.ea)
      let s := if hit || clash.isNone then s else s.countTag p.tgt
      if hit then put s (.arrived data c.wts c.rts m) else put s.fresh.2 (.sent data c.wts c.rts m back)
    match s.l1Hit g.core line pts with
    | some c => served s c true
    | none =>
      if effHint p.tgt.leaf r.hint == 0 then
        let q := s.renew g.core p.tgt pts g.ctx
        served q.1 q.2 false
      else third
  else third

/-- The parts of a load in order perform at nondecreasing stamps within their intervals (03 R86): the last stamp, or none
where pts has passed an rts. -/
def validate (free : Bool) : Word → List LPart → Option Word
  | p, [] => some p
  | p, x :: rest =>
    match x.st with
    | .arrived _ w r _ => if free || tle p r then validate free (tmax p w) rest else none
    | .done _ ts _ => validate free (tmax p ts) rest
    | _ => none
/-- The bytes and the mark of a load whose parts have all arrived. -/
def LoadRec.data (r : LoadRec) : List Byte :=
  r.parts.flatMap (fun p => match p.st with | .arrived d _ _ _ => d | .done d _ _ => d | .sent d _ _ _ _ => d | .unsent => [])
def LoadRec.mark (r : LoadRec) : Option FMark :=
  (r.parts.filterMap (fun p => match p.st with | .arrived _ _ _ m => m | .done _ _ m => m | _ => none)).head?

/-- A memory producer's value reaches a register if it is still the recorded producer (05 R128); a younger load that is
still in flight keeps it among the values it would give back (08 R185). -/
def Group.produce (g : Group) (lane n id : Nat) (x : Reg) : Group :=
  let g := if ((g.thread lane).getV n).tag == id && !((g.thread lane).getV n).full then g.updThread lane (fun t => { t with v := t.v.set n x }) else g
  { g with loads := g.loads.map (fun r => if r.lane == lane then
      { r with old := r.old.map (fun o => if o.1 == n && o.2.tag == id && !o.2.full then (n, x) else o) } else r),
           holds := g.holds.map (fun h => { h with snap := { h.snap with threads := h.snap.threads.mapIdx (fun l t =>
             if l == lane && (t.getV n).tag == id && !(t.getV n).full then { t with v := t.v.set n x } else t) } }) }

/-- The value of a validated load lands in its destination (05 R128, 08 R185). -/
def Group.land (g : Group) (r : LoadRec) (vals : List Word) (m : Option FMark) : Group :=
  match r.dst with
  | .reg d =>
    if d.toNat < 56 then (vals.mapIdx (fun j v => (j, v))).foldl (fun g p =>
      g.produce r.lane (d.toNat + p.1) r.id ⟨if m.isSome then ((g.thread r.lane).getV (d.toNat + p.1)).val else p.2, true, 0, m⟩) g
    else g
  | _ => g

/-- Makes the destination of a memory producer empty, and answers what stood there (05 R128). -/
def Group.markEmpty (g : Group) (d : BitVec 6) (n lane id : Nat) : Group × List (Nat × Reg) :=
  if d.toNat < 56 then
    let old := (g.thread lane).regs d.toNat n
    (g.updThread lane (fun t => { t with v := (List.range n).foldl (fun v j => v.set (d.toNat + j) ⟨(t.getV (d.toNat + j)).val, false, id, none⟩) t.v }), old)
  else (g, [])
/-- Registers of a load of TYPE t. -/
def typeRegs (t : Nat) : Nat := match t with | 6 => 2 | 7 => 2 | 11 => 2 | 12 => 4 | _ => 1

/-- Sends a thread's load (08 R187): the destination becomes empty; one into qb answers to the record of the word that holds its threads
(08 R185). -/
def State.sendLoad (s : State) (lane : Nat) (d : BitVec 6) (typ hint : Nat) (ea : DWord) (parts : List LPart) : State :=
  let f := s.fresh
  let s := f.2
  let e := s.cur.markEmpty d (typeRegs typ) lane f.1
  let r : LoadRec := ⟨f.1, lane, 0, if d.toNat == 56 then .qb s.issue.holdId else .reg d, typ, hint, s.cur.ctx, ea, parts, (s.cur.thread lane).pts, 0, e.2⟩
  { s with cur := { e.1 with loads := e.1.loads ++ [r] } }

/-! Store-class words in flight (08 R184, R185). -/

/-- The held write of a register, a push to qb included. A held CINIT declares the lanes that were live as it issued and still are: 06 R153
does not say which moment counts (log 18). -/
def Group.applyHeld (g : Group) (h : Held) : Group :=
  let g := h.v.foldl (fun g e => if e.2.1 == 56 then g.pushQb e.1 e.2.2.val else g.updThread e.1 (fun t => { t with v := t.v.set e.2.1 e.2.2 })) g
  let g := h.p.foldl (fun g e => g.updThread e.1 (fun t => t.setP e.2.1 e.2.2)) g
  let a := g.arch
  let conv := h.conv.foldl (fun c e =>
    let x := c.getD e.1 Conv.clear
    match e.2.1 with
    | some d => c.set e.1 { x with decl := d &&& g.liveMask, sign := 0 }
    | none =>
      let sg := (x.sign ||| e.2.2) &&& x.decl
      c.set e.1 (if sg == x.decl && x.decl != 0 then { x with sign := 0 } else { x with sign := sg, matrix := if x.sign == 0 then false else x.matrix })) a.conv
  let g := { g with arch := { a with s := h.s.foldl (fun l e => l.set e.1 e.2) a.s, h := h.h.foldl (fun l e => l.set e.1 e.2) a.h,
                                     k := h.k.foldl (fun l e => l.set e.1 e.2) a.k, conv := conv, fpmode := a.fpmode ||| h.flags } }
  h.csr.foldl (fun g e => (g.csrWrite e.1 e.2).getD g) g

def SSt.isFailed (x : SSt) : Bool := match x with | .failed _ => true | _ => false
def HoldRec.setPart (h : HoldRec) (i : Nat) (x : SSt) : HoldRec :=
  { h with parts := h.parts.mapIdx (fun k p => if k == i then { p with st := x } else p) }
def Group.updHold (g : Group) (id : Nat) (f : HoldRec → HoldRec) : Group :=
  { g with holds := g.holds.map (fun h => if h.id == id then f h else h) }

/-- Loads that a thread issued under a hold are discarded: their destinations are again what they were (08 R185). -/
def Group.discardLoads (g : Group) (h : HoldRec) : Group :=
  let gone := g.loads.filter (fun r => h.id < r.id && h.set.getLsbD r.lane)
  let g := gone.reverse.foldl (fun g r => g.updThread r.lane (fun t => { t with v := r.old.foldl (fun v o => v.set o.1 o.2) t.v })) g
  { g with loads := g.loads.filter (fun r => !(h.id < r.id && h.set.getLsbD r.lane)) }

/-- The threads of a store-class word leave their hold. -/
def Group.unhold (g : Group) (h : HoldRec) : Group :=
  { g with holds := g.holds.filter (fun x => x.id != h.id) }.mapThreads (fun _ t => if t.hold == h.id then { t with hold := 0, undo := [] } else t)

/-- Starts a store-class word, or a load into qb: its record, and the hold of every thread of the issuing set (08 R184, R185; log 18). -/
def State.startHold (s : State) (a : GArch) (lanes : List Nat) (kind : SKind) (hint : Nat) (parts : List SPart) : State :=
  let f := s.fresh
  let s := f.2
  let g := s.cur
  let h : HoldRec := ⟨f.1, s.issue.chainPos, s.issue.pos.slot, s.issue.set, maskOfList lanes, kind, g.ctx, hint, parts, a, s.issue.words,
    ⟨[], [], [], [], [], [], [], 0, []⟩, g.latestPts lanes, a.replayed s.issue.set s.issue.chainPos⟩
  let g := g.mapThreads (fun l t => if s.issue.set.getLsbD l then { t with hold := f.1 } else t)
  { s with cur := { g with holds := g.holds ++ [h] }, issue := { s.issue with holdId := f.1 } }

/-- A write that reaches beyond the plot ends the rollback eligibility of its interval (01 R41). -/
def State.endEligible (s : State) (pid : Nat) : State := s.updPlot pid (fun p => { p with eligible := false })

end Sys2Proof.Machine
end

