-- ==== Sys2Proof/Machine/Atomics.lean ====
section
/-! DEFINITION. Fetch-and-ops: the operations and their composites, merging at the core, combining in the windrow stages
and splitting in the winnow (08 R192 to R200). -/

namespace Sys2Proof.Machine
open Sys2Proof

/-- Bits of a WID code. -/
def widBits (wid : Nat) : Nat := if wid == 0 then 32 else if wid == 1 then 64 else 128
/-- Bytes of a WID code. -/
def widBytes (wid : Nat) : Nat := widBits wid / 8

/-- One application of an operation, f(x, a) (08 R192). -/
def fetchOp (opa wid x a : Nat) : Nat :=
  let n := widBits wid
  let m := 2 ^ n
  match opa with
  | 0 => (x + a) % m
  | 1 => x &&& a
  | 2 => x ||| a
  | 3 => x ^^^ a
  | 4 => if toSigned n x ≤ toSigned n a then x else a
  | 5 => if toSigned n x ≤ toSigned n a then a else x
  | 6 => if x ≤ a then x else a
  | 7 => if x ≤ a then a else x
  | 9 => if a ≤ x then 0 else (x + 1) % m
  | 10 => if x == 0 || a < x then a else x - 1
  | 11 => (Fmt.f32.add 0 x a).val
  | _ => a
/-- The operation with a composite operand of c applications (08 R197): only the counted operations use c. -/
def applyOp (opa wid a : Nat) : Nat → Nat → Nat
  | 0, x => x
  | c + 1, x => if opa == 9 || opa == 10 then applyOp opa wid a c (fetchOp opa wid x a) else fetchOp opa wid x a
/-- combine(o1, o2) of 08 R197; the counts of `.incw` and `.decw` add up beside it. -/
def combineOp (opa wid o1 o2 : Nat) : Nat :=
  match opa with
  | 8 | 9 | 10 => o2
  | _ => fetchOp opa wid o1 o2
/-- The operation combines at all (08 R200). -/
def combines (opa : Nat) (ra : Bool) : Bool := opa < 11 || (opa == 11 && ra)

/-! Stages: cluster routers 0 to 127, headland ports 128 to 135, memory chiplets 136 to 147. -/

def stageOfCluster (cl : Nat) : Nat := cl
def stageOfChiplet (c : Nat) : Nat := 128 + c
def stageOfMc (mc : Nat) : Nat := 136 + mc
def State.stage (s : State) (n : Nat) : Stage := (s.mem.stages.find? (fun x => x.id == n)).getD ⟨n, [], [], []⟩
def State.updStage (s : State) (n : Nat) (f : Stage → Stage) : State :=
  let st := if s.mem.stages.any (fun x => x.id == n) then s.mem.stages.map (fun x => if x.id == n then f x else x)
    else s.mem.stages ++ [f ⟨n, [], [], []⟩]
  { s with mem := { s.mem with stages := st } }
/-- A request reaches an input port of a stage. -/
def State.arriveAt (s : State) (n port : Nat) (r : AReq) : State :=
  s.updStage n (fun x => { x with arriving := x.arriving ++ [{ r with stage := n, port := port, cycle := s.sched.cycle }] })

/-- One lane's part of an atomic word before merging. -/
structure LaneAtom where
  lane : Nat
  ea : DWord
  tgt : Target
  o : BitVec 128
  swap : BitVec 128

/-- The request of one lane. -/
def LaneAtom.req (x : LaneAtom) (gid rid ctx opa wid : Nat) (ra : Bool) : AReq :=
  { stage := 0, port := 0, chip := x.tgt.space == .chip, addr := x.tgt.addr, mc := x.tgt.mc, opa := opa, wid := wid, tag := x.tgt.tag,
    o := x.o, count := 1, swap := x.swap, ra := ra, m := 1, pts := 0, src := .core gid rid x.ea [(x.lane, x.o)], ea := x.ea, ctx := ctx,
    leaf := x.tgt.leaf, cycle := 0, via := none }
/-- Puts a lane's request into a list of the word's requests (08 R196): with the request of its EA, in ascending lane
order; of `.incw` and `.decw` only with the last request of the EA, if the bound is the same. -/
def mergeInto (r : AReq) : List AReq → List AReq
  | [] => [r]
  | q :: qs =>
    let counted := r.opa == 9 || r.opa == 10
    let mem (x : AReq) : List (Nat × BitVec 128) := match x.src with | .core _ _ _ l => l | .entry _ _ => []
    let ids : Nat × Nat := match r.src with | .core g i _ _ => (g, i) | .entry _ _ => (0, 0)
    if q.ea == r.ea && combines r.opa r.ra && !(counted && (q.o != r.o || qs.any (fun z => z.ea == r.ea))) then
      { q with o := BitVec.ofNat 128 (combineOp r.opa r.wid q.o.toNat r.o.toNat), count := q.count + r.count, m := q.m + r.m,
               src := .core ids.1 ids.2 r.ea (mem q ++ mem r) } :: qs
    else q :: mergeInto r qs
/-- The requests of a word (08 R196). -/
def mergeWord (l : List AReq) : List AReq := l.foldl (fun acc r => mergeInto r acc) []
/-- Sends the requests of a word from a core to its cluster's stage. -/
def State.sendAtomics (s : State) (core : Nat) (l : List AReq) : State :=
  (mergeWord l).foldl (fun s r => s.arriveAt (stageOfCluster (clusterOf core)) (core % 8) r) s

/-- Two requests may combine (08 R197). -/
def combinable (q r : AReq) : Bool :=
  q.chip == r.chip && q.addr == r.addr && q.opa == r.opa && q.wid == r.wid && combines r.opa r.ra && combines q.opa q.ra &&
  q.ea >>> 56 == r.ea >>> 56 && (!(r.opa == 9 || r.opa == 10) || q.o == r.o)
/-- Replaces the last element that satisfies a test. -/
def replaceLast {α : Type} (p : α → Bool) (f : α → α) : List α → Option (List α)
  | [] => none
  | x :: xs =>
    match replaceLast p f xs with
    | some ys => some (x :: ys)
    | none => if p x then some (f x :: xs) else none
/-- A request joins a stage's forwarding queue. -/
def State.queueAt (s : State) (n : Nat) (r : AReq) : State :=
  s.updStage n (fun st => { st with outq := st.outq ++ [{ r with cycle := s.sched.cycle }] })
/-- The words of the cores that a tag answers to, through the wait buffers' entries: group and identifier of each. -/
def State.tagWords (s : State) : Nat → RTag → List (Nat × Nat)
  | _, .core g i _ _ => [(g, i)]
  | 0, .entry _ _ => []
  | n + 1, .entry st id =>
    match (s.stage st).wb.find? (fun e => e.id == id) with
    | none => []
    | some e => s.tagWords n e.first ++ s.tagWords n e.second
/-- The words whose lanes a request carries; entries nest at most 64 deep in each of three stages. -/
def State.words (s : State) (r : AReq) : List (Nat × Nat) := s.tagWords 200 r.src
/-- The requests behind the last of those that satisfy a test. -/
def behindLast {α : Type} (p : α → Bool) (l : List α) : List α := (l.reverse.takeWhile (fun x => !p x)).reverse
/-- The queued request that a request joins: the youngest combinable one (08 R198). Runs of one `.incw` or `.decw` word perform in lane
order (08 R196), so that a request joins none behind which a run of its own word at the address stands (log 77). -/
def State.joins (s : State) (outq : List AReq) (r : AReq) : Option AReq :=
  let own := s.words r
  let keeps := (r.opa == 9 || r.opa == 10) && (behindLast (fun q => combinable q r) outq).any (fun q =>
    q.chip == r.chip && q.addr == r.addr && (s.words q).any (fun w => own.contains w))
  if keeps then none else (outq.filter (fun q => combinable q r)).getLast?
/-- A request passes a stage's combining side (08 R198). The home checks the one TAG of a combined request once, where a member's page
enables the check (08 R197; log 30). -/
def State.windrow (s : State) (n : Nat) (r : AReq) : State :=
  let st := s.stage n
  let f := s.fresh
  if st.wb.length < 64 then
    match s.joins st.outq r with
    | some q =>
      let e : WbEnt := ⟨f.1, q.src, r.src, q.o, q.count, q.m, (q.via, r.via)⟩
      let join (q : AReq) : AReq :=
        { q with o := BitVec.ofNat 128 (combineOp r.opa r.wid q.o.toNat r.o.toNat), count := q.count + r.count, m := q.m + r.m,
                 pts := tmax q.pts r.pts, src := .entry n f.1, tag := q.tag.orElse (fun _ => r.tag), via := none }
      f.2.updStage n (fun st => { st with outq := (replaceLast (fun q => combinable q r) join st.outq).getD st.outq, wb := st.wb ++ [e] })
    | none => s.queueAt n r
  else s.queueAt n r

/-- Splits the reply of an entry (08 R198): first the earlier members, then the later ones with the value that the
earlier ones left. A tag mismatch fails every member alike (08 R197). Each member's reply returns as its own request came (14 R288). -/
def WbEnt.split (e : WbEnt) (r : AReply) : List AReply :=
  let back (via : Option Nat) : Back := { r.back with via := via.orElse (fun _ => r.back.via) }
  [{ r with src := e.first, back := back e.vias.1 },
   { r with src := e.second, back := back e.vias.2, x := BitVec.ofNat 128 (applyOp r.opa r.wid e.oFirst.toNat e.cFirst r.x.toNat), b := r.b + BitVec.ofNat 32 e.mFirst }]
/-- What the lanes of a core's request receive when c of them, with the composite o, precede: the value that the composite leaves, and
stamps that follow one another (08 R198; of `.fadd.ra` the sum of 04 R117). -/
def splitFrom (opa wid : Nat) (x : Nat) (b : Word) (o c : Nat) : List (Nat × BitVec 128) → List (Nat × Nat × Word)
  | [] => []
  | (l, a) :: rest => (l, applyOp opa wid o c x, b + BitVec.ofNat 32 c) ::
      splitFrom opa wid x b (if c == 0 then a.toNat else combineOp opa wid o a.toNat) (c + 1) rest
/-- What each lane of a core's request receives: lane, old value, stamp (08 R198). -/
def splitLanes (opa wid : Nat) (x : Nat) (b : Word) (l : List (Nat × BitVec 128)) : List (Nat × Nat × Word) := splitFrom opa wid x b 0 0 l

/-- What an atomic request leaves at its home and answers: the new value (08 R192, R193). -/
def AReq.result (r : AReq) (x : Nat) : Nat :=
  if r.opa == 16 then (if x == r.o.toNat then r.swap.toNat else x) else applyOp r.opa r.wid r.o.toNat r.count x

/-! Requests to peers (18 R358 to R360). -/

/-- DEVID of DEVSTAT (18 R349). -/
def State.devid (s : State) : Nat := s.field 0x200 12 5
/-- PORTS and DEV of a peer index (18 R358). -/
def State.peerPorts (s : State) (i : Nat) : Nat := s.field (0x31000 + 8 * i) 7 0
def State.peerDev (s : State) (i : Nat) : Nat := s.field (0x31000 + 8 * i) 15 8
/-- The set bits of a number of eight bits, ascending. -/
def setBits (x : Nat) : List Nat := (List.range 8).filter (fun i => bit x i)
/-- The port on which an access to a peer index leaves, none where it is never sent (18 R358). -/
def State.peerRoute (s : State) (i pa : Nat) : Option Nat :=
  let ps := setBits (s.peerPorts i)
  if s.devid == 0 || ps.isEmpty then none else ps[hashLane pa % ps.length]?
/-- PCTL.STATE of a port (18 R359): 0 DOWN, 1 TRAINING, 2 RUN, 3 DRAINING, 4 QUIESCED. -/
def State.portState (s : State) (p : Nat) : Nat := s.field (0x30000 + 64 * p) 6 4
/-- The port on which a retained request is routed afresh (18 R359, 19 R372): its own by the rule above where that one runs, else one of the
peer's ports that run, by the same hash. -/
def State.rerouted (s : State) (i pa : Nat) : Option Nat :=
  let rs := (setBits (s.peerPorts i)).filter (fun p => s.portState p == 2)
  (s.peerRoute i pa).map (fun p => if s.portState p == 2 then p else (rs[hashLane pa % rs.length]?).getD p)
/-- The first transmission of a remote access, where its port runs (18 R359): a write takes its identifier, of DEVID, port and the port's
sequence (R360). -/
def State.inject (s : State) (r : Remote) : State × Remote :=
  if r.sent || r.port == 255 || s.portState r.port != 2 then (s, r)
  else
    let r := { r with sent := true, first := s.sched.cycle }
    if r.kind == .load then (s, r)
    else
      let n := (alGet s.peers.seqs r.port).getD 0
      ({ s with peers := { s.peers with seqs := alSet s.peers.seqs r.port (n + 1) } },
       { r with id := BitVec.ofNat 64 (s.devid * 2 ^ 56 + r.port % 8 * 2 ^ 53 + n % 2 ^ 53) })
/-- Issues a remote access (18 R358, R360). Port 255 marks one that is never sent and is answered UNREACHABLE. A load, and a write that has
not been transmitted, carries no identifier: theirs only names the record, and its DEVID is 0 (log 92). -/
def State.sendRemote (s : State) (gid rid part : Nat) (kind : PeerKind) (pa : Nat) : State :=
  let i := pa >>> 50
  let f := s.fresh
  let r := f.2.inject ⟨BitVec.ofNat 64 (f.1 % 2 ^ 56), i, s.peerDev i, (s.peerRoute i pa).getD 255, false, 0, 0, kind, pa, gid, rid, part, 0, false⟩
  { r.1 with peers := { r.1.peers with remotes := r.1.peers.remotes ++ [r.2] } }

end Sys2Proof.Machine
end

