-- ==== Sys2Proof/Machine/MemOps.lean ====
section
/-! DEFINITION. The Plough memory words of 08: loads, stores, PREF, DISCARD, TAGSET, fetch-and-ops, CAS and REDM, as
they issue. Their accesses perform in the device steps of Events. -/

namespace Sys2Proof.Machine
open Sys2Proof

/-! Addresses (08 R182). -/

/-- The byte offset of a format M word (05 R122, R123). -/
def memOff (w : PW) (x : Option PX) (size : Nat) : Int :=
  match x with
  | none => w.imm8.toInt * size
  | some x => (x.offh ++ w.imm8).toInt * size
/-- TYPE and HINT of a format M word; .n32 without an extension (08 R186). -/
def memTyp (x : Option PX) : Nat := match x with | none => 4 | some x => x.typ
def memHint (x : Option PX) : Nat := match x with | none => 0 | some x => x.hint
/-- EA of a lane in global memory. -/
def GArch.eaGlobal (a : GArch) (f : BitVec 6) (lane : Nat) (off : Int) : DWord := a.src64 f lane + BitVec.ofInt 64 off
/-- Offset of a lane in another space. -/
def GArch.eaLocal (a : GArch) (f : BitVec 6) (lane : Nat) (off : Int) : Int := ((a.src f lane).toNat : Int) + off
/-- EA of a lane, as a fault or a conversion records it. -/
def GArch.ea (a : GArch) (sp : Space) (f : BitVec 6) (lane : Nat) (off : Int) : DWord :=
  if sp == .glob then a.eaGlobal f lane off else BitVec.ofInt 64 (a.eaLocal f lane off)
/-- The plot's group is in handler mode, which lifts the U rule (17 R321). -/
def State.inHandler (s : State) : Bool := s.cur.trap.handler

/-- The home accesses of one lane of a word of n bytes (08 R183). -/
def State.laneTargets (s : State) (a : GArch) (sp : Space) (f : BitVec 6) (lane : Nat) (off : Int) (n align : Nat) (need : Need) :
    Res (List (Target × Nat)) :=
  if sp == .glob then s.checkGlobal (holdersOf s.cur.core) s.cur.ctx s.inHandler lane (a.eaGlobal f lane off) n
      { need with align := fun k => if align == 1 then need.align k else align }
  else s.checkLocal s.cur sp lane (a.eaLocal f lane off) n align need.w
/-- The same for each lane of a list; the lowest failing lane's fault stands (08 R183). -/
def State.targets (s : State) (a : GArch) (sp : Space) (f : BitVec 6) (lanes : List Nat) (off : Int) (n : Nat → Nat) (align : Nat)
    (need : Nat → Need) : Res (List (Nat × List (Target × Nat))) :=
  Res.mapM (fun l => (s.laneTargets a sp f l off (n l) align (need l)).bind fun ts => .ok (l, ts)) lanes

/-! Loads (08 R186, R187). -/

/-- The bytes that a load of TYPE t at an EA reads: those of an element where the page's format makes it convert. -/
def State.loadSize (s : State) (sp : Space) (typ : Nat) (ea : DWord) : Nat :=
  if sp == .glob && typ == 8 then
    match s.translate (holdersOf s.cur.core) s.cur.ctx (ea.toNat % 2 ^ 56) with
    | .leaf e => loadBytes typ (leafFmt e)
    | _ => 4
  else typeSize typ
/-- What a load at an EA into the register field d needs (02 R63). -/
def loadNeedAt (typ : Nat) (d : BitVec 6) (ea : DWord) : Need :=
  let k := loadNeed typ
  if typ == 11 then { k with fmt := fun f => k.fmt f && ea.toNat % 128 < 120 && d.toNat != 55 } else k
/-- The parts of a load: those of the lane slice are done as it issues (02 R46). -/
def loadParts (a : GArch) (lane : Nat) (ts : List (Target × Nat)) : List LPart :=
  ts.map (fun p => ⟨p.1, p.2,
    if p.1.space == .slice then .done ((a.thread lane).slice.readN p.1.addr p.2) (a.thread lane).pts none else .unsent⟩)
/-- A load of a space. -/
def runLoad (i : Instr) (s : State) (w : PW) (x : Option PX) (sp : Space) : Host.Outcome State Fault Refusal :=
  let typ := memTyp x
  let off := memOff w x (typeSize typ)
  runWord i s (fun a lanes s =>
    (s.targets a sp w.a lanes off (fun l => s.loadSize sp typ (a.ea sp w.a l off)) (if sp != .glob && typ == 12 then 16 else 1)
        (fun l => loadNeedAt typ w.d (a.ea sp w.a l off))).bind fun ts =>
      let s := if w.d.toNat == 56 && !ts.isEmpty then s.startHold a lanes .qload (memHint x)
          (ts.map (fun p => ⟨p.1, (p.2.headD ({ space := sp, addr := 0 }, 0)).1, a.ea sp w.a p.1 off, [], .unsent⟩)) else s
      .ok (ts.foldl (fun s p => s.sendLoad p.1 w.d typ (memHint x) (a.ea sp w.a p.1 off) (loadParts a p.1 p.2)) s))

/-- LDP (08 R186). -/
def execLdp (w : PW) (s : State) : Host.Outcome State Fault Refusal := runLoad (.ldp w) s w none .slice
/-- LDP with an XM extension. -/
def execLdpWide (w : PW) (x : PX) (s : State) : Host.Outcome State Fault Refusal := runLoad (.ldpWide w x) s w (some x) .slice
/-- LDS (08 R186). -/
def execLds (w : PW) (s : State) : Host.Outcome State Fault Refusal := runLoad (.lds w) s w none .scratch
/-- LDS with an XM extension. -/
def execLdsWide (w : PW) (x : PX) (s : State) : Host.Outcome State Fault Refusal := runLoad (.ldsWide w x) s w (some x) .scratch
/-- LDC (08 R186). -/
def execLdc (w : PW) (s : State) : Host.Outcome State Fault Refusal := runLoad (.ldc w) s w none .cluster
/-- LDC with an XM extension. -/
def execLdcWide (w : PW) (x : PX) (s : State) : Host.Outcome State Fault Refusal := runLoad (.ldcWide w x) s w (some x) .cluster
/-- LDX (08 R186). -/
def execLdx (w : PW) (s : State) : Host.Outcome State Fault Refusal := runLoad (.ldx w) s w none .chip
/-- LDX with an XM extension. -/
def execLdxWide (w : PW) (x : PX) (s : State) : Host.Outcome State Fault Refusal := runLoad (.ldxWide w x) s w (some x) .chip
/-- LD (08 R186). -/
def execLd (w : PW) (s : State) : Host.Outcome State Fault Refusal := runLoad (.ld w) s w none .glob
/-- LD with an XM extension. -/
def execLdWide (w : PW) (x : PX) (s : State) : Host.Outcome State Fault Refusal := runLoad (.ldWide w x) s w (some x) .glob

/-! Stores (08 R186, R187). -/

/-- The data of a lane's store of TYPE t: the low bytes of its register, pair or quad. -/
def GArch.storeData (a : GArch) (d : BitVec 6) (lane typ : Nat) : List Byte :=
  bytesOf (typeSize typ) (a.srcN (FC.srcRegs (stSrc typ)) d lane)
/-- A store into the lane slices takes effect at once (02 R46, 08 R184). -/
def runStoreSlice (i : Instr) (s : State) (w : PW) (x : Option PX) : Host.Outcome State Fault Refusal :=
  let typ := memTyp x
  let off := memOff w x (typeSize typ)
  runWord i s (fun a lanes s =>
    (s.targets a .slice w.a lanes off (fun _ => typeSize typ) (if typ == 12 then 16 else 1) (fun _ => storeNeed typ)).bind fun _ =>
      .ok (s.updLanes lanes (fun l t => { t with slice := t.slice.writeN (a.eaLocal w.a l off).toNat (a.storeData w.d l typ) })))
/-- The home accesses of one lane's store. -/
def storeParts (lane : Nat) (ea : DWord) (data : List Byte) : List (Target × Nat) → List SPart
  | [] => []
  | (t, n) :: rest => ⟨lane, t, ea, data.take n, .unsent⟩ :: storeParts lane ea (data.drop n) rest
/-- The issuing core's L1 copies of the lines written leave (02 R58). -/
def State.dropL1s (s : State) (core : Nat) (parts : List SPart) : State :=
  parts.foldl (fun s p => if p.tgt.space == .glob then s.dropL1 core (p.tgt.addr / 128) else s) s
/-- Issues the accesses of a store-class word (08 R184). -/
def State.issueStores (s : State) (a : GArch) (lanes : List Nat) (kind : SKind) (hint : Nat) (beyond : Bool) (parts : List SPart) : State :=
  let s := if beyond && !lanes.isEmpty then s.endEligible s.cur.pid else s
  if parts.isEmpty then s else (s.dropL1s s.cur.core parts).startHold a lanes kind hint parts
/-- A store to a space with homes. -/
def runStore (i : Instr) (s : State) (w : PW) (x : Option PX) (sp : Space) : Host.Outcome State Fault Refusal :=
  let typ := memTyp x
  let off := memOff w x (typeSize typ)
  runWord i s (fun a lanes s =>
    (s.targets a sp w.a lanes off (fun _ => typeSize typ) (if sp != .glob && typ == 12 then 16 else 1) (fun _ => storeNeed typ)).bind fun ts =>
      .ok (s.issueStores a lanes .store (memHint x) (sp != .scratch)
        (ts.flatMap (fun p => storeParts p.1 (a.ea sp w.a p.1 off) (a.storeData w.d p.1 typ) p.2))))

/-- STP (08 R186). -/
def execStp (w : PW) (s : State) : Host.Outcome State Fault Refusal := runStoreSlice (.stp w) s w none
/-- STP with an XM extension. -/
def execStpWide (w : PW) (x : PX) (s : State) : Host.Outcome State Fault Refusal := runStoreSlice (.stpWide w x) s w (some x)
/-- STS (08 R186). -/
def execSts (w : PW) (s : State) : Host.Outcome State Fault Refusal := runStore (.sts w) s w none .scratch
/-- STS with an XM extension. -/
def execStsWide (w : PW) (x : PX) (s : State) : Host.Outcome State Fault Refusal := runStore (.stsWide w x) s w (some x) .scratch
/-- STC (08 R186). -/
def execStc (w : PW) (s : State) : Host.Outcome State Fault Refusal := runStore (.stc w) s w none .cluster
/-- STC with an XM extension. -/
def execStcWide (w : PW) (x : PX) (s : State) : Host.Outcome State Fault Refusal := runStore (.stcWide w x) s w (some x) .cluster
/-- STX (08 R186). -/
def execStx (w : PW) (s : State) : Host.Outcome State Fault Refusal := runStore (.stx w) s w none .chip
/-- STX with an XM extension. -/
def execStxWide (w : PW) (x : PX) (s : State) : Host.Outcome State Fault Refusal := runStore (.stxWide w x) s w (some x) .chip
/-- ST (08 R186). -/
def execSt (w : PW) (s : State) : Host.Outcome State Fault Refusal := runStore (.st w) s w none .glob
/-- ST with an XM extension. -/
def execStWide (w : PW) (x : PX) (s : State) : Host.Outcome State Fault Refusal := runStore (.stWide w x) s w (some x) .glob

/-! PREF, DISCARD, TAGSET (08 R189 to R191). -/

/-- A prefetch of one address for a core at a stamp (08 R189, 10 R229): a lane that would fault, meet a tag mismatch or
uncorrectable data is dropped; one whose page the host has to name waits for its answer (17 R327). -/
def State.prefetchAt (s : State) (core ctx : Nat) (handler : Bool) (ea : DWord) (hint : Nat) (pts : Word) : Res State :=
  match s.checkGlobal (holdersOf core) ctx handler 0 ea 1 { r := true, w := false } with
  | .ok [(t, _)] =>
    let line := t.addr / 128
    let whole := x4Line t
    if !s.portServes (chipletOf core) whole then .wait none
    else if isPeer t.addr || (s.tagMismatch t 1).isSome || s.bad whole 128 then .ok s
    else if hint == 0 && leafCp t.leaf == 0 then
      (match s.l1Hit core line pts with
       | some _ => .ok s
       | none => .ok (s.renew core t pts ctx).1)
    else .ok ((s.allocLine whole ctx 128 15 hint).unalloc (s.hasLine whole.key) whole hint)
  | .ok _ => .ok s
  | .trap t => .ok ((s.useAnswer (holdersOf core) ctx t).listPoison t)
  | .wait m => .wait m
/-- Prefetches of lanes' addresses in lane order. -/
def State.prefetches (s : State) (core ctx : Nat) (handler : Bool) (hint : Nat) : List (DWord × Word) → Res State
  | [] => .ok s
  | p :: ps => (s.prefetchAt core ctx handler p.1 hint p.2).bind fun s => s.prefetches core ctx handler hint ps
/-- PREF: a lane in the copy-channel page raises its fault (10 R232). -/
def runPref (i : Instr) (s : State) (w : PW) (x : Option PX) : Host.Outcome State Fault Refusal :=
  let off := memOff w x 4
  runWord i s (fun a lanes s =>
    let c := s.ctx s.cur.ctx
    match lanes.find? (fun l => let ea := (a.eaGlobal w.a l off).toNat; ea < 2 ^ 60 && c.inChan (ea % 2 ^ 56)) with
    | some l =>
      let ea := a.eaGlobal w.a l off
      .trap { Trap.access 0x0C l ea false ((ea.toNat % 2 ^ 56 - c.chpage) / 32 % 256) with faddr := 0 }
    | none => s.prefetches s.cur.core s.cur.ctx s.inHandler (memHint x) (lanes.map (fun l => (a.eaGlobal w.a l off, (s.cur.thread l).pts))))
/-- PREF (08 R189). -/
def execPref (w : PW) (s : State) : Host.Outcome State Fault Refusal := runPref (.pref w) s w none
/-- PREF with an XM extension. -/
def execPrefWide (w : PW) (x : PX) (s : State) : Host.Outcome State Fault Refusal := runPref (.prefWide w x) s w (some x)

/-- Issues an engine operation of the group (03 R89, R90). -/
def Group.addOp (g : Group) (id : Nat) (c : Cls) (stamp : Word) (left : Nat) (pages : List (BitVec 128 × DWord)) : Group :=
  { g with ops := g.ops ++ [⟨id, c, stamp, left == 0, left, [], [], pages⟩] }
def State.addOp (s : State) (id : Nat) (c : Cls) (stamp : Word) (left : Nat) (pages : List (BitVec 128 × DWord) := []) : State :=
  { s with cur := s.cur.addOp id c stamp left pages }

/-- DISCARD (08 R190): the discard goes to all twelve slices and retires from ocp. -/
def execDiscard (w : PW) (s : State) : Host.Outcome State Fault Refusal :=
  runWord (.discard w) s (fun a lanes s =>
    if lanes.isEmpty then .ok s
    else
      let t := (a.src w.a (lowestOf lanes)).toNat
      if t == 0 || 4095 < t then .trap Trap.operand
      else
        let f := s.fresh
        let pts := s.cur.latestPts lanes
        let s := (f.2.endEligible s.cur.pid).addOp f.1 .ocp pts 12
        .ok { s with mem := { s.mem with discs := s.mem.discs ++ [⟨f.1, s.cur.gid, s.cur.ctx, t, pts, List.range 12⟩] } })

/-- TAGSET (08 R191). -/
def runTagset (i : Instr) (s : State) (w : PW) (x : Option PX) : Host.Outcome State Fault Refusal :=
  let off := memOff w x 32
  runWord i s (fun a lanes s =>
    (s.targets a .glob w.a lanes off (fun _ => 32) 32 (fun _ => { r := false, w := true, tagged := false })).bind fun ts =>
      .ok (s.issueStores a lanes .tagset 0 true (ts.flatMap (fun p =>
        storeParts p.1 (a.eaGlobal w.a p.1 off) (List.replicate 32 (BitVec.ofNat 8 ((a.src w.d p.1).toNat % 16))) p.2))))
/-- TAGSET (08 R191). -/
def execTagset (w : PW) (s : State) : Host.Outcome State Fault Refusal := runTagset (.tagset w) s w none
/-- TAGSET with an XM extension. -/
def execTagsetWide (w : PW) (x : PX) (s : State) : Host.Outcome State Fault Refusal := runTagset (.tagsetWide w x) s w (some x)

/-! Fetch-and-ops, CAS and REDM (08 R192 to R196). -/

/-- What an atomic of an operation needs of its page (02 R64, 17 R321). -/
def atomNeed (opa : Nat) : Need := { r := true, w := true, fmt := fun f => f == 0 || opa != 11 }
/-- The lanes of an atomic word with their targets and operands. -/
def State.laneAtoms (s : State) (a : GArch) (sp : Space) (f vb vc : BitVec 6) (lanes : List Nat) (opa wid : Nat) : Res (List LaneAtom) :=
  (s.targets a sp f lanes 0 (fun _ => widBytes wid) (widBytes wid) (fun _ => atomNeed opa)).bind fun ts =>
    .ok (ts.filterMap (fun p =>
      match p.2 with
      | (t, _) :: _ => some ⟨p.1, a.ea sp f p.1 0, t, BitVec.ofNat 128 (a.srcN (widRegs wid) vb p.1),
          if opa == 16 then BitVec.ofNat 128 (a.srcN (widRegs wid) vc p.1) else 0⟩
      | [] => none))
/-- The access is to a peer device's memory, where nothing combines (08 R192, 18 R360). -/
def LaneAtom.peer (x : LaneAtom) : Bool := x.tgt.space == .glob && isPeer x.tgt.addr
/-- The word's record of a lane's access: its operands as bytes, for the peers' protocol and for overlaps. -/
def LaneAtom.part (x : LaneAtom) (wid : Nat) : SPart :=
  ⟨x.lane, x.tgt, x.ea, bytesOf (widBytes wid) x.o.toNat, .unsent⟩

/-- ATOM, ATOMX, CAS and CASX as they issue. -/
def runAtomic (i : Instr) (s : State) (w : PW) (x : PX) (sp : Space) (opa : Nat) : Host.Outcome State Fault Refusal :=
  let wid := x.m 5 4
  runWord i s (fun a lanes s =>
    (s.laneAtoms a sp w.a w.b x.vc lanes opa wid).bind fun las =>
      let s := if lanes.isEmpty then s else s.endEligible s.cur.pid
      if las.isEmpty then .ok s
      else
        let s := (s.dropL1s s.cur.core (las.map (·.part wid))).startHold a lanes (.atomic w.d (widRegs wid)) 0 (las.map (·.part wid))
        let rid := s.issue.holdId
        let g := las.foldl (fun g q => (g.markEmpty w.d (widRegs wid) q.lane rid).1) s.cur
        let s := { s with cur := g }
        .ok (s.sendAtomics s.cur.core ((las.filter (fun q => !q.peer)).map (fun q => q.req s.cur.gid rid s.cur.ctx opa wid w.x))))
/-- ATOM (08 R192). -/
def execAtom (w : PW) (x : PX) (s : State) : Host.Outcome State Fault Refusal := runAtomic (.atom w x) s w x .glob (x.m 3 0)
/-- ATOMX (08 R192). -/
def execAtomx (w : PW) (x : PX) (s : State) : Host.Outcome State Fault Refusal := runAtomic (.atomx w x) s w x .chip (x.m 3 0)
/-- CAS (08 R193). -/
def execCas (w : PW) (x : PX) (s : State) : Host.Outcome State Fault Refusal := runAtomic (.cas w x) s w x .glob 16
/-- CASX (08 R193). -/
def execCasx (w : PW) (x : PX) (s : State) : Host.Outcome State Fault Refusal := runAtomic (.casx w x) s w x .chip 16

/-- REDM (08 R194): an engine operation whose lanes answer one by one. -/
def execRedm (w : PW) (x : PX) (s : State) : Host.Outcome State Fault Refusal :=
  let wid := x.m 5 4
  let opa := x.m 3 0
  let sp : Space := if x.m 6 6 == 1 then .chip else .glob
  runWord (.redm w x) s (fun a lanes s =>
    (s.laneAtoms a sp w.a w.b w.b lanes opa wid).bind fun las =>
      if las.isEmpty then .ok s
      else
        let f := s.fresh
        let s := ((f.2.endEligible s.cur.pid).dropL1s s.cur.core (las.map (·.part wid))).addOp f.1 .ord (s.cur.latestPts lanes) las.length
          (las.map (fun q => (q.tgt.leaf, q.ea)))
        let stamp := s.cur.latestPts lanes
        let s := (las.filter (·.peer)).foldl (fun s q => s.sendRemote s.cur.gid f.1 q.lane .atomic q.tgt.addr) s
        .ok (s.sendAtomics s.cur.core ((las.filter (fun q => !q.peer)).map (fun q => { q.req s.cur.gid f.1 s.cur.ctx opa wid w.x with pts := stamp }))))

end Sys2Proof.Machine
end

