-- ==== Sys2Proof/Machine/Matrix.lean ====
section
/-! DEFINITION. Descriptor quads, plane operands and the matrix arithmetic (11 R243 to R246, R251 to R254; 04 R111 to
R116), matrix rounds and their acceptance (R247, R248), the Sheaf buffer's arrivals (R258 to R263), and the words PLANE,
UNPLANE, MMA and NANR as they issue. -/

namespace Sys2Proof.Machine
open Sys2Proof

/-! Descriptor quads (05 R135, R136; 11 R243). -/

structure Quad where
  base : Nat
  row : Nat
  plane : Nat
  chunk : Nat
  perm : Nat
  /-- ROWS + 1 -/
  rows : Nat
  /-- PL + 1 -/
  p : Nat
  np : Bool
  kind : Nat
  nz : Bool
  xt : Nat
  xl : Nat
  rsv : Bool
deriving DecidableEq, Repr

/-- The fields of four scalars. -/
def Quad.of (q : List Word) : Quad :=
  let w (i : Nat) : Nat := (q.getD i 0).toNat
  { base := w 0, row := bits (w 1) 15 0, plane := bits (w 1) 31 16, chunk := bits (w 2) 23 0, perm := bits (w 2) 31 28,
    rows := bits (w 3) 4 0 + 1, p := bits (w 3) 8 5 + 1, np := bit (w 3) 9, kind := bits (w 3) 11 10, nz := bit (w 3) 12,
    xt := bits (w 3) 14 13, xl := bits (w 3) 23 16, rsv := bits (w 2) 27 24 != 0 || bit (w 3) 15 || bits (w 3) 31 24 != 0 }
/-- The scalars of quad n. -/
def GArch.quad (a : GArch) (n : Nat) : List Word := (List.range 4).map (fun i => a.scalar (4 * n + i))
/-- Plane slots of a plane operand (11 R244). -/
def Quad.slots (q : Quad) : Nat := q.p + 1 + bnat q.np
/-- Row r, chunk c and slot k of a plane operand, before permutation (11 R244). -/
def Quad.recAt (q : Quad) (r c k : Nat) : Nat := q.base + c * q.chunk + k * q.plane + r * q.row
/-- A layout or mode word that no use allows (05 R136, 11 R243, R245): `nzOk` for an MMA's C, `xOk` for a .x4 target. The BASE of a
scratchpad operand has to be a multiple of 64, for which R136 names no fault (log 34); that of a global B counts in its address (R253). -/
def Quad.bad (q : Quad) (nzOk xOk : Bool) (glob : Bool := false) : Bool :=
  q.rsv || 4 < q.perm || (!glob && q.base % 64 != 0) || q.row % 8 != 0 || q.plane % 64 != 0 || q.chunk % 64 != 0 ||
  (q.kind != 0 && (q.p != 1 || q.np || q.plane != 0 || q.chunk != 0)) || (q.nz && !nzOk) || ((q.xt != 0 || q.xl != 0) && !xOk)
/-- Bytes of a row of KIND 1 to 3 (11 R245, R246). -/
def rowBytes (kind typ n : Nat) : Nat :=
  if kind == 3 then (if typ == 11 then 128 * ((n + 239) / 240) else typeSize typ * n) else 4 * n
/-- Records overlap (11 R246). -/
def Quad.overlaps (q : Quad) (kc len : Nat) : Bool :=
  if q.kind == 0 then
    let span := (q.rows - 1) * q.row + 96
    (q.rows != 1 && q.row < 96) || q.plane < span || (kc != 1 && q.chunk < (q.slots - 1) * q.plane + span)
  else q.rows != 1 && q.row < len
/-- The end of the operand's extent (11 R246). -/
def Quad.ending (q : Quad) (kc len : Nat) : Nat :=
  if q.kind == 0 then q.recAt (q.rows - 1) (kc - 1) (q.slots - 1) + (if q.np then 96 else 32)
  else q.base + (q.rows - 1) * q.row + len
/-- The permuted offset (05 R137). -/
def permute (perm x : Nat) : Nat := if perm == 0 then x else x ^^^ (((x >>> (7 + perm)) &&& 31) <<< 3)

/-! The matrix words' own fields. -/

def mxParts (i : Instr) : Option (PW × PX) :=
  match i with
  | .mma w x | .plane w x | .unplane w x => some (w, x)
  | _ => none
def mxCn (x : PX) : Nat := x.m 3 0
def mxKc (x : PX) : Nat := x.m 7 4 + 1
def mxType (x : PX) : Nat := x.m 11 8
def mxAddc (x : PX) : Bool := x.m 8 8 == 1
def mxBg (x : PX) : Bool := x.m 9 9 == 1
def mxNow (x : PX) : Bool := x.m 10 10 == 1

/-! Operands as bytes. -/

/-- Units of 8 bytes of an operand (all sizes and offsets are multiples of 8): their offsets after permutation. -/
def unitsAt (perm x n : Nat) : List Nat := (List.range (n / 8)).map (fun i => permute perm (x + 8 * i))
/-- A reader of n bytes at an unpermuted offset. -/
abbrev Rd := Nat → Nat → List Byte
/-- The reader of a scratchpad operand of a plot at byte `base` of the scratchpads, or of global memory at a physical
address from which `base0` is counted. -/
def MemSt.reader (m : MemSt) (glob : Bool) (base perm : Nat) : Rd := fun x n =>
  (unitsAt perm x n).flatMap (fun u => (if glob then m.glob else m.scratch).readN (base + u) 8)

/-- A row of a plane operand: integers, block exponents, NaN marks (04 R111, 11 R244). -/
structure PRow where
  ints : List Int
  exps : List Int
  nan : List Bool

/-- Element k of a chunk from its plane records, top plane negative (04 R111). -/
def planeElem (recs : List Nat) (k : Nat) : Int :=
  let n := recs.length
  (recs.mapIdx (fun i r => if r.testBit k then (if i + 1 == n then -(2 ^ i : Int) else 2 ^ i) else 0)).foldl (· + ·) 0
/-- One row of a plane operand; none where a block exponent lies outside −256 to 255 (04 R111). -/
def Quad.readRow (q : Quad) (rd : Rd) (kc r : Nat) : Option PRow :=
  let chunks := (List.range kc).map (fun c =>
    let recs := (List.range q.p).map (fun k => ofBytes (rd (q.recAt r c k) 96))
    let ex := rd (q.recAt r c q.p) 32
    let exps := (List.range 16).map (fun b => toSigned 16 (ofBytes ((ex.drop (2 * b)).take 2)))
    let np := if q.np then ofBytes (rd (q.recAt r c (q.p + 1)) 96) else 0
    let nan := (List.range 768).map (fun k => np.testBit k || exps.getD (k / 48) 0 == -256)
    let ints := (List.range 768).map (fun k => if nan.getD k false then 0 else planeElem recs k)
    (⟨ints, exps, nan⟩ : PRow))
  if chunks.any (fun c => c.exps.any (fun e => decide (e < -256) || decide (255 < e))) then none
  else some ⟨chunks.flatMap (·.ints), chunks.flatMap (·.exps), chunks.flatMap (·.nan)⟩

/-! MMA (04 R114 to R116, 11 R254). -/

/-- An exact term v × 2^e. -/
abbrev Term := Int × Int
/-- The block terms of a row of A and a column of B. -/
def blockTerms (a b : PRow) : List Term :=
  (List.range a.exps.length).map (fun q =>
    ((((a.ints.drop (48 * q)).take 48).zipWith (· * ·) ((b.ints.drop (48 * q)).take 48)).foldl (· + ·) 0,
      a.exps.getD q 0 + b.exps.getD q 0))
/-- The window's contents and the sticky bit (04 R114). -/
def window (lo : Int) (ts : List Term) : Int × Bool :=
  ts.foldl (fun acc t =>
    if lo ≤ t.2 then (acc.1 + t.1 * 2 ^ (t.2 - lo).toNat, acc.2)
    else
      let d : Int := 2 ^ (lo - t.2).toNat
      (acc.1 + t.1 / d, acc.2 || t.1 % d != 0)) (0, false)
/-- A window value as sign, magnitude, exponent and sticky: a sticky value lies just above W × 2^lo. -/
def windowVal (w : Int) (lo : Int) (sticky : Bool) : Bool × Nat × Int :=
  if w < 0 && sticky then (true, w.natAbs * 2 ^ 64 - 1, lo - 64) else (decide (w < 0), w.natAbs, lo)
/-- The rounded sum of the terms: FP32, or INT32 when `int` (04 R114). -/
def mmaRound (int : Bool) (ts : List Term) : Nat :=
  let nz := ts.filter (fun t => t.1 != 0)
  match nz with
  | [] => 0
  | t :: rest =>
    let lg (t : Term) : Int := t.2 + t.1.natAbs.log2
    let top := rest.foldl (fun m t => max m (lg t)) (lg t)
    let ws := window (top - 117) nz
    let v := windowVal ws.1 (top - 117) ws.2
    if int then
      let k := (roundTo 0 v.1 v.2.1 v.2.2 0 ws.2).1
      (BitVec.ofInt 32 (clampInt (if v.1 then -(k : Int) else k) (-(2 ^ 31)) (2 ^ 31 - 1))).toNat
    else if v.2.1 == 0 then 0
    else
      let r := (Fmt.f32.round 0 v.1 v.2.1 v.2.2 ws.2).val
      if r == 0x80000000 then 0 else r
/-- What the old C gives: none when ADDC is 0 (04 R116). -/
def oldC (int : Bool) (x : Nat) : FVal := if int then (let i := toSigned 32 x; .fin (decide (i < 0)) i.natAbs 0) else Fmt.f32.unpack x
/-- One output element in NaN mode `zero` (04 R114, R116).  With NAN.ZERO, a NaN in the row or the column and an
old C of infinity, the row for infinities does not apply and no other names the result: the model gives that
infinity (DESIGN CHOICE, log 81). -/
def mmaElem (int zero : Bool) (a b : PRow) (c : Option FVal) : Nat :=
  let cnan := match c with | some v => v.isNan | none => false
  if !zero && (a.nan.any id || b.nan.any id || cnan) then (if int then 0x80000000 else 0x7FC00000)
  else
    match c with
    | some (.inf sg) => Fmt.f32.signed sg Fmt.f32.inf
    | some (.fin sg m e) => mmaRound int (blockTerms a b ++ [((if sg then -(m : Int) else m), e)])
    | _ => mmaRound int (blockTerms a b)
/-- The results and NaN counts of an MMA, row by row: rows of A, columns of B, the old C when ADDC. -/
def mmaAll (int zero : Bool) (as bs : List PRow) (old : Option (List (List Nat))) : List (List Nat × Nat) :=
  let bn := bs.foldl (fun n b => n + (b.nan.filter id).length) 0
  as.mapIdx (fun i a =>
    let c (j : Nat) : Option FVal := old.map (fun o => oldC int ((o.getD i []).getD j 0))
    (bs.mapIdx (fun j b => mmaElem int zero a b (c j)),
      if zero then (a.nan.filter id).length + bn +
        ((List.range 32).filter (fun j => match c j with | some v => v.isNan | none => false)).length else 0))

/-! PLANE and UNPLANE (04 R110 to R113, 11 R251, R252). -/

/-- A block ready to be stored as planes: integers, exponent, NaN marks. -/
abbrev PBlock := List Int × Int × List Bool
/-- Blocks of one .x4 row for p planes (04 R109, R112), none on a format fault; the planes of a NaN block are 0 (log 35). -/
def x4Blocks (p n : Nat) (bytes : List Byte) : Option (List PBlock) :=
  let line (q : Nat) : List Byte := (bytes.drop (128 * (q / 5))).take 128
  let scale (q : Nat) : Nat := ((line q).getD (120 + q % 5) 0).toNat
  if (List.range ((n + 4) / 5)).any (fun i => !x4LineOk (line (5 * i))) ||
      (List.range n).any (fun q => scale q != 0x3F && p < planesNeeded (scale q / 64)) then none
  else some ((List.range n).map (fun q =>
    let t := scale q / 64
    let code (k : Nat) : Nat :=
      let i := 48 * (q % 5) + k
      let b := ((line q).getD (i / 2) 0).toNat
      if i % 2 == 0 then b % 16 else b / 16
    ((List.range 48).map (fun k => if scale q == 0x3F then 0 else planeInt t (code k)),
      if scale q == 0x3F then -256
      else (scale q % 64 : Int) - 32 + toSigned 8 ((line q).getD 125 0).toNat + planeShift t, List.replicate 48 false)))
/-- Blocks of one row of a floating-point type (04 R113). -/
def fpBlocks (typ p : Nat) (np : Bool) (n : Nat) (bytes : List Byte) : List PBlock :=
  let z := typeSize typ
  (List.range n).map (fun q => toBfp p np ((List.range 48).map (fun k =>
    (Fmt.ofType typ).unpack (ofBytes ((bytes.drop ((48 * q + k) * z)).take z)))))
/-- The records of one chunk of a row: plane records, exponent record, NaN record (11 R244). -/
def Quad.storeChunk (q : Quad) (r c : Nat) (bs : List PBlock) : List (Nat × List Byte) :=
  let bitsOf (f : PBlock → Nat → Bool) : Nat :=
    (bs.mapIdx (fun b x => (List.range 48).foldl (fun acc k => if f x k then acc + 2 ^ (48 * b + k) else acc) 0)).foldl (· + ·) 0
  (List.range q.p).map (fun i => (q.recAt r c i, bytesOf 96 (bitsOf (fun x k => (BitVec.ofInt 64 (x.1.getD k 0)).getLsbD i)))) ++
    [(q.recAt r c q.p, bs.flatMap (fun x => bytesOf 2 (BitVec.ofInt 16 x.2.1).toNat))] ++
    (if q.np then [(q.recAt r c (q.p + 1), bytesOf 96 (bitsOf (fun x k => x.2.2.getD k false)))] else [])
/-- PLANE's writes, none on a format fault found in its source. -/
def planeAll (typ kc : Nat) (src dst : Quad) (rd : Rd) : Option (List (Nat × List Byte)) :=
  let rows := (List.range src.rows).map (fun r =>
    let bytes := rd (src.base + r * src.row) (rowBytes 3 typ (768 * kc))
    (if typ == 11 then x4Blocks dst.p (16 * kc) bytes else some (fpBlocks typ dst.p dst.np (16 * kc) bytes)).map (fun bs =>
      (List.range kc).flatMap (fun c => dst.storeChunk r c ((bs.drop (16 * c)).take 16))))
  if rows.any (·.isNone) then none else some ((rows.filterMap id).flatten)

/-- The values of one row of UNPLANE's source (11 R252). -/
def Quad.values (q : Quad) (rd : Rd) (kc r : Nat) : Option (List FVal) :=
  if q.kind == 0 then
    (q.readRow rd kc r).map (fun row => (List.range (768 * kc)).map (fun k =>
      if row.nan.getD k false then .nan false false
      else let i := row.ints.getD k 0; .fin (decide (i < 0)) i.natAbs (row.exps.getD (k / 48) 0)))
  else
    let b := rd (q.base + r * q.row) (4 * 768 * kc)
    some ((List.range (768 * kc)).map (fun k => oldC (q.kind == 2) (ofBytes ((b.drop (4 * k)).take 4))))
/-- A value in a stored floating-point format (11 R252; 04 R99, R104). -/
def fpEncode (typ md : Nat) (sat : Bool) (v : FVal) : Nat :=
  let f := Fmt.ofType typ
  match v with
  | .nan s _ => f.signed s f.nan
  | .inf s => if f.width == 8 then (if sat then f.signed s f.maxFin else if f.ieee then f.signed s f.inf else f.signed s f.nan) else f.signed s f.inf
  | .fin s m e => if f.width == 8 then (f.round8 md sat s m e).val else (f.round md s m e).val
/-- One .x4 line of up to five blocks (04 R109, R110). -/
def x4Line5 (t xl : Nat) (vs : List FVal) : List Byte :=
  let blocks := (List.range 5).map (fun b =>
    let v := (vs.drop (48 * b)).take 48
    if v.isEmpty then (0, List.replicate 48 0) else x4Encode t (toSigned 8 xl) (v.map (fun x => match x with | .fin _ _ _ => some x | _ => none)))
  let codes := blocks.flatMap (·.2)
  (List.range 120).map (fun j => BitVec.ofNat 8 (codes.getD (2 * j) 0 + 16 * codes.getD (2 * j + 1) 0)) ++
    blocks.map (fun b => BitVec.ofNat 8 b.1) ++ [BitVec.ofNat 8 xl, 0, 0]
/-- UNPLANE's writes, none on a format fault found in its source. -/
def unplaneAll (typ kc md : Nat) (sat : Bool) (src dst : Quad) (rd : Rd) : Option (List (Nat × List Byte)) :=
  let rows := (List.range src.rows).map (fun r => (src.values rd kc r).map (fun vs =>
    (dst.base + r * dst.row,
      if typ == 11 then (List.range ((768 * kc + 239) / 240)).flatMap (fun l => x4Line5 dst.xt dst.xl ((vs.drop (240 * l)).take 240))
      else vs.flatMap (fun v => bytesOf (typeSize typ) (fpEncode typ md sat v)))))
  if rows.any (·.isNone) then none else some (rows.filterMap id)

/-! Acceptance (11 R248). -/

/-- The descriptor fault of a quad (17 R330). -/
def Trap.descriptor (n : Nat) : Trap := { code := 0x09, info := n }
/-- An operand of a matrix word in scratchpad: its quad, its number, row length and use. -/
structure MOp where
  q : Quad
  n : Nat
  len : Nat
  wr : Bool
/-- Scratchpad byte of the plot's allocation. -/
def State.plotBase (s : State) (g : Group) : Nat := g.core * 2 ^ 20 + (s.plot g.pid).base
/-- The extent of an operand, whole 256-byte blocks where it is permuted: start and length. -/
def MOp.extent (o : MOp) (kc : Nat) : Nat × Nat :=
  let e := o.q.ending kc o.len
  if o.q.perm == 0 then (o.q.base, e - o.q.base)
  else (o.q.base / 256 * 256, (e + 255) / 256 * 256 - o.q.base / 256 * 256)

/-- What acceptance comes to: the scratchpad operands and the target of a global B. -/
structure Accepted where
  ops : List MOp
  btgt : Target
  bea : DWord

/-- The operands of a matrix word with the check of their descriptors (11 R246, R251 to R253). Of two that fail one step the fault names the
first here, a source before the target, and A, B and C of an MMA in that order: R248 orders the steps, not the operands (log 84). -/
def matrixOps (a : GArch) (i : Instr) : Res (List MOp × Option MOp) :=
  match i with
  | .plane w x =>
    let d := Quad.of (a.quad w.d.toNat); let s := Quad.of (a.quad w.a.toNat)
    let kc := mxKc x; let len := rowBytes 3 (mxType x) (768 * kc)
    if s.bad false false || s.kind != 3 || s.overlaps kc len then .trap (Trap.descriptor w.a.toNat)
    else if d.bad false false || d.kind != 0 || d.rows != s.rows || d.overlaps kc 0 then .trap (Trap.descriptor w.d.toNat)
    else .ok ([⟨s, w.a.toNat, len, false⟩, ⟨d, w.d.toNat, 0, true⟩], none)
  | .unplane w x =>
    let d := Quad.of (a.quad w.d.toNat); let s := Quad.of (a.quad w.a.toNat)
    let kc := mxKc x; let len := rowBytes 3 (mxType x) (768 * kc); let slen := 4 * 768 * kc
    if s.bad false false || s.kind == 3 || s.overlaps kc slen then .trap (Trap.descriptor w.a.toNat)
    else if d.bad false (mxType x == 11) || d.kind != 3 || d.rows != s.rows || d.overlaps kc len then .trap (Trap.descriptor w.d.toNat)
    else .ok ([⟨s, w.a.toNat, slen, false⟩, ⟨d, w.d.toNat, len, true⟩], none)
  | .mma w x =>
    let c := Quad.of (a.quad w.d.toNat); let qa := Quad.of (a.quad w.a.toNat); let b := Quad.of (a.quad w.b.toNat)
    let kc := mxKc x
    if qa.bad false false || qa.kind != 0 || qa.overlaps kc 0 then .trap (Trap.descriptor w.a.toNat)
    else if b.bad false false (mxBg x) || b.kind != 0 || b.rows != 32 || b.overlaps kc 0 || (mxBg x && b.perm != 0) then .trap (Trap.descriptor w.b.toNat)
    else if c.bad true false || !(c.kind == 1 || c.kind == 2) || c.rows != qa.rows || c.overlaps kc 128 then .trap (Trap.descriptor w.d.toNat)
    else
      let ob : MOp := ⟨b, w.b.toNat, 0, false⟩
      .ok ([⟨qa, w.a.toNat, 0, false⟩] ++ (if mxBg x then [] else [ob]) ++ [⟨c, w.d.toNat, 128, true⟩], if mxBg x then some ob else none)
  | _ => .ok ([], none)

/-- The checks of acceptance, in the order of 11 R248. -/
def State.acceptChecks (s : State) (g : Group) (i : Instr) : Res Accepted :=
  (matrixOps g.arch i).bind fun ops =>
    let kc := match mxParts i with | some (_, x) => mxKc x | none => 1
    let size := (s.plot g.pid).size
    match ops.1.find? (fun o => size < o.q.ending kc o.len) with
    | some o => .trap { code := 0x12, faddr := BitVec.ofNat 64 o.q.base, wr := o.wr }
    | none =>
      let planes := match i with
        | .plane w x => mxType x != 11 && (Quad.of (g.arch.quad w.d.toNat)).p < 2
        | _ => false
      if planes then .trap { code := 0x1D, faddr := BitVec.ofNat 64 (match i with | .plane w _ => (Quad.of (g.arch.quad w.d.toNat)).base | _ => 0) }
      else
        match ops.2, i with
        | some o, .mma _ x =>
          let n := x.vc.toNat
          let va : DWord := (g.arch.scalar (n + 1) ++ g.arch.scalar n) + BitVec.ofNat 64 o.q.base
          let len := o.q.ending kc 0 - o.q.base
          let one : Bool := match s.translate [.cluster (clusterOf g.core)] g.ctx (va.toNat % 2 ^ 56) with
            | .leaf e => va.toNat % 2 ^ 56 % leafSize e + len ≤ leafSize e
            | _ => true
          match s.checkGlobal [.cluster (clusterOf g.core)] g.ctx g.trap.handler 0 va 1
              { r := true, w := false, fmt := fun f => f == 0 && one, align := fun _ => 64 } with
          | .trap t => .trap { t with lane := none }
          | .wait m => .wait m
          | .ok ts => .ok ⟨ops.1, (ts.map (·.1)).headD { space := .glob, addr := 0 }, va⟩
        | _, _ => .ok ⟨ops.1, { space := .scratch, addr := match i with
            | .mma w _ => s.plotBase g + (let b := Quad.of (g.arch.quad w.b.toNat); permute b.perm b.base)
            | _ => 0 }, 0⟩

/-! The Sheaf buffer (11 R258 to R263). -/

def MItem.px (m : MItem) : PX := match mxParts m.word with | some (_, x) => x | none => ⟨false, 0⟩
def MItem.kc (m : MItem) : Nat := mxKc m.px
/-- M, the rows of A. -/
def MItem.rows (m : MItem) : Nat := (Quad.of m.qa).rows
/-- The word is an MMA that may merge (11 R258). -/
def MItem.eligible (m : MItem) : Bool := match m.word with | .mma w _ => w.x && m.rows ≤ 16 | _ => false
/-- The sharing domain of an instruction of a context with its B at a target (11 R259). -/
def State.domainOf (s : State) (ctx : Nat) (b : Target) : Nat :=
  let d := leafDom b.leaf
  if b.space == .glob && d != 0 && (s.ctx ctx).domains.getLsbD d then d else 0
/-- Two MMAs have equal keys (11 R258). -/
def sameKey (m k : MItem) : Bool :=
  m.btgt.space == k.btgt.space && m.btgt.addr == k.btgt.addr && m.qb.take 3 == k.qb.take 3 && m.kc == k.kc &&
  (Quad.of m.qb).p == (Quad.of k.qb).p && (Quad.of m.qb).np == (Quad.of k.qb).np && m.dom == k.dom && (m.dom != 0 || m.ctx == k.ctx)
def Sheaf.free : Sheaf := ⟨.free, [], 0, 0, 0⟩
def Sheaf.rows (h : Sheaf) : Nat := h.members.foldl (fun n m => n + m.rows) 0
def Sheaf.prio (h : Sheaf) : Nat := h.members.foldl (fun n m => max n m.prio) 0
/-- The deadline (11 R261). -/
def Sheaf.deadline (h : Sheaf) : Nat :=
  match h.members with
  | [] => 0
  | m :: ms => ms.foldl (fun d k => min d (k.cycle + k.limit)) (m.cycle + m.limit)
def Sheaf.isOpen (h : Sheaf) : Bool := h.st == .opened
/-- Closes an open sheaf (11 R262). -/
def Sheaf.close (h : Sheaf) (cycle : Nat) : Sheaf := { h with st := .closed, closed := cycle }
/-- A member joins, closing the sheaf when it fills, when FRC is set or when its limit is 0 (11 R260, R262). -/
def Sheaf.join (h : Sheaf) (cycle : Nat) (m : MItem) : Sheaf :=
  let h' := { h with st := .opened, members := h.members ++ [m], opened := if h.members.isEmpty then cycle else h.opened }
  if 32 ≤ h'.rows || mxNow m.px || m.limit == 0 then h'.close cycle else h'

/-- An eligible arrival (11 R262): the new sheaves, whether it must wait, and whether it has closed one of lower priority. -/
def State.sheafArrive (s : State) (hs : List Sheaf) (m : MItem) : List Sheaf × Bool × Bool :=
  let cycle := s.sched.cycle
  let key (h : Sheaf) : Bool := h.isOpen && h.members.any (fun k => sameKey m k)
  let put (hs : List Sheaf) : List Sheaf × Bool × Bool :=
    if hs.any (fun h => h.st == .free) then
      let i := hs.findIdx (fun h => h.st == .free)
      (hs.modify i (fun _ => (Sheaf.free).join cycle m), false, false)
    else
      let opens := hs.filter (·.isOpen)
      let low := opens.foldl (fun n h => min n h.prio) 99
      if low < m.prio && !opens.isEmpty then
        let old := (opens.filter (fun h => h.prio == low)).foldl (fun n h => min n h.opened) (2 ^ 64 + cycle)
        let i := hs.findIdx (fun h => h.isOpen && h.prio == low && h.opened == old)
        (hs.modify i (fun h => h.close cycle), true, true)
      else (hs, true, false)
  if hs.any key then
    let i := hs.findIdx key
    if (hs.getD i Sheaf.free).rows + m.rows ≤ 32 then (hs.modify i (fun h => h.join cycle m), false, false)
    else put (hs.modify i (fun h => h.close cycle))
  else put hs
/-- The LIMIT of a priority (11 R260) and the cycle are those at the arrival. -/
def State.stampItem (s : State) (m : MItem) : MItem := { m with limit := s.field (0x100 + 4 * m.prio) 15 0, cycle := s.sched.cycle }
/-- An accepted item joins a sheaf, waits for one, or joins the dispatch queue (11 R248, R262, R263). -/
def State.itemArrive (s : State) (m : MItem) : State :=
  let cl := clusterOf m.core
  let m := s.stampItem m
  if m.eligible then
    let r := s.sheafArrive (s.cluster cl).sheaves m
    let s := if r.2.2 then s.count (telBlock (cl / 16) + 0x50) 1 else s
    s.updCluster cl (fun c => { c with sheaves := r.1, arrivals := if r.2.1 then c.arrivals ++ [m] else c.arrivals })
  else s.updCluster cl (fun c => { c with dispatch := c.dispatch ++ [m] })
/-- Handles the waiting arrivals again, in priority order, then arrival order (11 R262). -/
def State.rearrive (s : State) (cl : Nat) : State :=
  let ws := sortBy (fun a b => b.prio < a.prio) (s.cluster cl).arrivals
  let s := s.updCluster cl (fun c => { c with arrivals := [] })
  ws.foldl (fun s m => s.itemArrive m) s

/-- Clears a round: its signers stand at the word again (11 R248, R249). -/
def Group.clearRound (g : Group) (c : Nat) : Group :=
  let sg := g.arch.conv.getD c Conv.clear
  ({ g with arch := { g.arch with conv := g.arch.conv.set c { sg with sign := 0, matrix := false, word := none } } }).mapThreads
    (fun _ t => t.unwait (· == Wait.matrix c))
/-- A trap of a matrix round: the round is cleared and the trap taken at the word for its signers (11 R248, R249). -/
def State.trapRound (s : State) (gid c : Nat) (set : Word) (pos : Pos) (t : Trap) : State :=
  (s.updGroup gid (fun g => g.clearRound c)).takeTrap gid t pos pos.slot set

/-- A completed matrix round is accepted, or traps (11 R247, R248): `set` are the lanes that the trap takes beside the
signers. -/
def State.acceptRound (s : State) (gid c : Nat) (i : Instr) (lanes : Word) (pos : Pos) (set : Word) : Res State :=
  match s.group gid with
  | none => .ok s
  | some g =>
    match s.acceptChecks g i with
    | .wait m => .wait m
    | .trap t => .ok (s.trapRound gid c (lanes ||| set) pos t)
    | .ok acc =>
      let f := s.fresh
      let s := f.2
      let kc := match mxParts i with | some (_, x) => mxKc x | none => 1
      let quad (n : BitVec 6) : List Word := g.arch.quad n.toNat
      let qs : List Word × List Word × List Word := match mxParts i with | some (w, _) => (quad w.d, quad w.a, quad w.b) | none => ([], [], [])
      let rm := match i with | .unplane _ x => g.arch.rmode x.rnd | _ => 0
      let m : MItem := ⟨f.1, gid, g.core, g.ctx, g.prio, c, i, lanes, qs.1, qs.2.1, qs.2.2, acc.btgt, acc.bea, rm, pos, 0, 0, s.domainOf g.ctx acc.btgt⟩
      let rs := acc.ops.flatMap (fun o =>
        let e := o.extent kc
        let r (wr : Bool) : SbRange := ⟨g.core, (s.plot g.pid).base + e.1, e.2, wr, f.1⟩
        if o.wr then (match i with | .mma _ x => if mxAddc x then [r false, r true] else [r true] | _ => [r true]) else [r false])
      let s := { s with mem := { s.mem with sboard := s.mem.sboard ++ rs } }
      let s := s.updGroup gid (fun g =>
        { g with arch := { g.arch with conv := g.arch.conv.modify c (fun x => { x with sign := 0, matrix := false, word := none }) } })
      .ok (s.itemArrive m)

/-! Withdrawal (11 R250, R266). -/

/-- A member of the group is in a sheaf that is being read. -/
def State.taking (s : State) (gid : Nat) : Bool :=
  s.clusters.any (fun c => c.sheaves.any (fun h => h.st == .reading && h.members.any (fun m => m.gid == gid)))
/-- A sheaf without the group's members; one left empty is free. -/
def Sheaf.without (h : Sheaf) (gid : Nat) : Sheaf :=
  if h.st == .reading || h.st == .free then h
  else
    let ms := h.members.filter (fun m => m.gid != gid)
    if ms.isEmpty then Sheaf.free else { h with members := ms }
/-- Withdraws every accepted instruction of a group that has not been taken, and clears its open matrix rounds: each
thread that had signed stands at its word. The arrivals that wait for a sheaf are handled again where one becomes free (11 R262). -/
def State.withdraw (s : State) (gid : Nat) : State :=
  match s.group gid with
  | none => s
  | some g =>
    let cl := clusterOf g.core
    let c := s.cluster cl
    let ids := ((c.sheaves.filter (fun h => h.st != .reading)).flatMap (·.members) ++ c.dispatch ++ c.arrivals).filter (fun m => m.gid == gid)
    let s := ids.foldl (fun s m => s.unboard m.id) s
    let gone := ((c.sheaves.filter (fun h => h.st != .reading)).flatMap (·.members)).filter (fun m => m.gid == gid)
    let s := if gone.isEmpty then s else s.count (telBlock (cl / 16) + 0x58) gone.length
    let freed := c.sheaves.any (fun h => h.st != .free && (h.without gid).st == .free)
    let s := s.updCluster cl (fun c => { c with sheaves := c.sheaves.map (fun h => h.without gid), dispatch := c.dispatch.filter (fun m => m.gid != gid),
                                                arrivals := c.arrivals.filter (fun m => m.gid != gid) })
    let open_ := (List.range 16).filter (fun n =>
      (g.arch.conv.getD n Conv.clear).matrix || g.arch.threads.any (fun t => t.waits (· == Wait.matrix n)))
    let s := s.updGroup gid (fun g => open_.foldl (fun g n => g.clearRound n) g)
    if freed then s.rearrive cl else s

/-! The words. -/

/-- A matrix word signs its round (11 R247, 06 R154); the last signature has the instruction accepted. -/
def runMatrix (i : Instr) (s : State) (x : PX) : Host.Outcome State Fault Refusal :=
  runWord i s (fun _ lanes s =>
    if lanes.isEmpty then .ok s
    else
      let n := mxCn x
      let c := s.cur.arch.conv.getD n Conv.clear
      let set := maskOfList lanes
      let conv : Trap := { code := 0x05, info := n }
      let pos := s.issue.chainPos
      if set &&& ~~~c.decl != 0 || set &&& c.sign != 0 then .trap conv
      else if c.sign != 0 && (!c.matrix || c.pos != pos) then .trap conv
      else
        let sg := c.sign ||| set
        let s := { s with cur := { s.cur with arch := { s.cur.arch with conv := s.cur.arch.conv.set n ⟨c.decl, sg, true, pos, some i⟩ } } }
        let s := s.updLanes lanes (fun _ t => t.hold_ (Wait.matrix n) pos)
        if sg != c.decl then .ok s
        else (s.acceptRound s.cur.gid n i sg pos s.issue.set).bind fun s' =>
          .ok (if s'.cur.trap == s.cur.trap && s'.cur.esc == s.cur.esc then s' else { s' with issue := { s'.issue with trapped := true } }))
/-- PLANE (11 R251). -/
def execPlane (w : PW) (x : PX) (s : State) : Host.Outcome State Fault Refusal := runMatrix (.plane w x) s x
/-- UNPLANE (11 R252). -/
def execUnplane (w : PW) (x : PX) (s : State) : Host.Outcome State Fault Refusal := runMatrix (.unplane w x) s x
/-- MMA (11 R253). -/
def execMma (w : PW) (x : PX) (s : State) : Host.Outcome State Fault Refusal := runMatrix (.mma w x) s x
/-- NANR (11 R257). -/
def execNanr (w : PW) (s : State) : Host.Outcome State Fault Refusal :=
  runWord (.nanr w) s (fun a lanes s =>
    let idx (l : Nat) : Nat := (a.src w.a l).toNat
    if lanes.any (fun l => 31 < idx l) then .trap Trap.operand
    else
      let read := s.writeLanes1 w.d lanes (fun l => a.nan.getD (idx l) 0)
      if w.x then s.later (.nanr w) (.ok { read with cur := { read.cur with arch := { read.cur.arch with
        nan := lanes.foldl (fun n l => n.set (idx l) 0) read.cur.arch.nan } } })
      else .ok read)

end Sys2Proof.Machine
end

