-- ==== Sys2Proof/Machine/Save.lean ====
section
/-! DEFINITION. The save pool of a context (16 R311 to R313, R378; 17 R334, R339): places in it, the layout of a group's save
record, and writing one. Where the spec gives a region's contents without their layout, its bytes are free values (log 3). -/

namespace Sys2Proof.Machine
open Sys2Proof

/-- Rounds up to a multiple. -/
def roundUp (n m : Nat) : Nat := (n + m - 1) / m * m
/-- Bytes of a group's save record (16 R378). -/
def recordLen (slice : Nat) : Nat := roundUp (0x12000 + 32 * slice) 4096
/-- Bytes of the slot buffers of the channels whose consumer is a plot (02 R50). -/
def Launch.slotBytes (l : Launch) (idx : Nat) : Nat := (l.chans.filter (fun c => c.consumer == idx)).foldl (fun n c => n + 128 * c.slots) 0
/-- A plot's save space (16 R378). -/
def Launch.saveLen (l : Launch) (idx : Nat) : Nat :=
  4096 + l.groupCount * recordLen l.slice + roundUp l.scratch 4096 + roundUp (l.slotBytes idx) 4096

/-- The places of a context's save pool that are taken. -/
def State.poolUsed (s : State) (x : Nat) : List (Nat × Nat) :=
  (s.plots.filter (fun p => (s.launch p.lid).ctx == x)).flatMap (fun p => [(p.savePa, p.saveLen), (p.shadowPa, p.shadowLen)].filter (fun r => r.2 != 0))
/-- The lowest place of n bytes in a context's save pool. -/
def State.poolFind (s : State) (x n : Nat) : Option Nat :=
  let c := s.ctx x
  let used := s.poolUsed x
  let fits (a : Nat) : Bool := c.savebase ≤ a && a + n ≤ c.savebase + c.savesize && used.all (fun r => a + n ≤ r.1 || r.1 + r.2 ≤ a)
  (sortBy (fun a b => a < b) (c.savebase :: used.map (fun r => r.1 + r.2))).find? fits

/-- The bytes of a list of words. -/
def wordBytes (ws : List Word) : List Byte := ws.flatMap (fun w => bytesOf 4 w.toNat)
/-- A lane record: position, pts, skip count, predicates, full mask, fault-mark mask, queue heads, return position (16 R313,
17 R334). -/
def Thread.record (t : Thread) (free : Nat → Byte) : List Byte :=
  let mask (f : Reg → Bool) : Nat := (t.v.mapIdx (fun i r => if f r then 2 ^ i else 0)).foldl (· + ·) 0
  bytesOf 8 (posVal t.pos).toNat ++ bytesOf 4 t.pts.toNat ++ bytesOf 1 t.skip ++ bytesOf 1 t.p.toNat ++ bytesOf 8 (mask (·.full)) ++
    bytesOf 8 (mask (fun r => r.mark.isSome)) ++ t.qh.flatMap (fun h => bytesOf 1 (h % 8)) ++ bytesOf 8 (posVal t.ret).toNat ++ (List.range 18).map free
/-- The eight places of a queue: entry number n stands at place n mod 8. -/
def Queue.record (q : Queue) : List Byte :=
  (List.range 8).flatMap (fun k =>
    let i := (k + 8 - q.base % 8) % 8
    wordBytes (q.ents.getD i QEnt.blank).vals)
/-- A bundle register, one byte per counter. -/
def Bundle.record (b : Bundle) : List Byte :=
  (List.range 8192).map (fun j => BitVec.ofNat 8 ((b.planes.mapIdx (fun i p => if p.getLsbD j then 2 ^ i else 0)).foldl (· + ·) 0))
/-- The state of each entry of a queue: reserved, filled, and its stamp; entry number n stands at place n mod 8. -/
def Queue.entStates (q : Queue) : List Byte :=
  (List.range 8).flatMap (fun k =>
    match q.ents[(k + 8 - q.base % 8) % 8]? with
    | some e => bytesOf 4 (1 + 2 * bnat e.filled) ++ bytesOf 4 e.stamp.toNat
    | none => bytesOf 8 0)
/-- A Drill load that has completed and is not yet validated (10 R242). -/
def LoadRec.completed (r : LoadRec) : Bool := r.op == 0 && r.parts.all (fun p => p.st.isArrived)
/-- The record of one: queue, entry's place, lane, bytes arrived, EA low half, and the
bytes. -/
def LoadRec.record (r : LoadRec) : List Byte :=
  let d := (r.parts.flatMap (fun p => match p.st with | .arrived d _ _ _ => d | .done d _ _ => d | _ => []))
  match r.dst with
  | .queue q e => bytesOf 1 q ++ bytesOf 1 (e % 8) ++ bytesOf 1 r.lane ++ bytesOf 1 d.length ++ bytesOf 4 r.ea.toNat ++ bytesOf 8 (ofBytes d)
  | _ => bytesOf 16 0
/-- Bytes brought to a length, with free values for what is missing. -/
def fillTo (n k : Nat) (free : Nat → Byte) (bs : List Byte) : List Byte := (bs ++ (List.range (n - bs.length)).map (fun i => free (k + i))).take n
/-- The region of the Drill loads that have completed and are not yet validated (16 R313). -/
def Group.drillRegion (g : Group) (free : Nat → Byte) : List Byte := fillTo 4096 4096 free ((g.dloads.filter LoadRec.completed).flatMap LoadRec.record)
/-- A group's save record (16 R313, 17 R334). Within a region the items stand in the order in which R313 lists them, each in its own
width (log 51). -/
def Group.record (g : Group) (l : Launch) (idx : Nat) (a : GArch) (free : Nat → Byte) : List Byte :=
  let words (ns : List Nat) : List Byte := ns.flatMap (bytesOf 4)
  let counters := [Cls.omx, Cls.ogt, Cls.ocp, Cls.ord].flatMap (fun c => bytesOf 1 (g.counter c))
  let wide := (a.k.mapIdx (fun i b => if b.wide then 2 ^ i else 0)).foldl (· + ·) 0
  let kinds := (a.conv.mapIdx (fun i c => if c.matrix then 2 ^ i else 0)).foldl (· + ·) 0
  fillTo 64 0 free (words [l.ctx, l.queue, l.entry, idx, g.idx] ++ bytesOf 8 (posVal a.drill.pos).toNat ++ words [a.drill.dts.toNat, wide]) ++
    fillTo 192 64 free (bytesOf 4 (bnat a.trap.handler) ++ bytesOf 4 a.trap.hset.toNat) ++
    (a.threads.mapIdx (fun i t => t.record (fun k => free (256 + 18 * i + k)))).flatten ++
    fillTo 1024 1024 free (wordBytes a.s ++ a.drill.a.flatMap (fun x => bytesOf 8 x.toNat) ++
      a.conv.flatMap (fun c => words [c.decl.toNat, c.sign.toNat]) ++ bytesOf 2 kinds ++ counters ++
      words [a.part.toNat, a.fpmode.toNat, a.tieh.toNat, a.trap.epc.toNat, a.trap.cause.toNat] ++ bytesOf 8 a.trap.faddr.toNat ++
      words [a.trap.done.toNat] ++ a.drill.loops.flatMap (fun l => words [l.trip.toNat, l.count.toNat] ++ bytesOf 8 l.start.toNat) ++
      (List.range 32).flatMap (fun i => match a.msync[i]? with | some m => words [m.mask.toNat, m.arrived.toNat] | none => bytesOf 8 0) ++
      (List.range 4).flatMap (fun i => match a.sbar[i]? with | some b => words [b.1, b.2] | none => bytesOf 8 0) ++ wordBytes a.nan) ++
    (List.range 56).flatMap (fun n => wordBytes (a.threads.map (fun t => (t.getV n).val))) ++
    a.q.flatMap Queue.record ++ a.qb.record ++ fillTo 768 2048 free (a.q.flatMap Queue.entStates ++ a.qb.entStates) ++
    a.h.flatMap (fun h => bytesOf 1024 h.val.toNat) ++ a.k.flatMap Bundle.record ++
    g.drillRegion free ++
    a.threads.flatMap (fun t => t.slice.readN 0 l.slice)

/-- Writes bytes at a physical address as an agent with a stamp: one write per line, each performing after the one before
(03 R96); one at a failed home has no effect (19 R373). Answers the stamp of the last. -/
def agentPieces (s : State) (ctx : Nat) (ts : Word) (pa : Nat) (bs : List Byte) : List (Nat × Nat) → State × Word
  | [] => (s, ts)
  | (o, n) :: rest =>
    let t : Target := { space := .glob, addr := pa + o }
    if s.homeDead t then agentPieces s ctx ts pa bs rest
    else
      let q := s.putHome t ((bs.drop o).take n) ts ctx 0
      agentPieces q.1 ctx q.2 pa bs rest
def State.agentWrite (s : State) (ctx : Nat) (ts : Word) (pa : Nat) (bs : List Byte) : State × Word :=
  agentPieces s ctx ts pa bs (cutLines 128 pa (bs.length / 128 + 2) 0 bs.length)
/-- Reads n bytes at a physical address as an agent (03 R80 third branch, R96): the bytes, and the stamp after. -/
def agentReads (s : State) (ts : Word) (pa : Nat) (acc : List Byte) : List (Nat × Nat) → State × List Byte × Word
  | [] => (s, acc, ts)
  | (o, n) :: rest =>
    let r := s.readThird { space := .glob, addr := pa + o } n ts 0 0
    agentReads r.1 r.2.2.2.2 pa (acc ++ r.2.1) rest
def State.agentRead (s : State) (ts : Word) (pa n : Nat) : State × List Byte × Word :=
  agentReads s ts pa [] (cutLines 128 pa (n / 128 + 2) 0 n)

/-- The front end reaches every line of n bytes at a physical address (02 R71; 18 R355; 19 R372). -/
def State.feServes (s : State) (pa n : Nat) : Bool := s.spanServes s.fePort pa n
/-- A write of the front end at a physical address: its stamp follows (03 R96). -/
def State.agentPut (s : State) (ctx pa : Nat) (bs : List Byte) : State :=
  let q := s.agentWrite ctx s.fe.stamp pa bs
  { q.1 with fe := { q.1.fe with stamp := tmax q.1.fe.stamp q.2 } }
/-- Writes the record of a group's registers at a place of the save pool. -/
def State.writeRecord (s : State) (g : Group) (a : GArch) (pa : Nat) : State :=
  let l := s.launch g.lid
  let bs := g.record l (s.plot g.pid).index a (fun k => Config.freeByte (s.sched.free + k))
  let s := { s with sched := { s.sched with free := s.sched.free + 8192 } }
  (s.agentWrite g.ctx s.fe.stamp pa bs).1
/-- Where a group's record, and the image of the allocation behind the records, stand in a saved plot's place (16 R378). -/
def State.recordPa (s : State) (g : Group) : Nat := (s.plot g.pid).savePa + 4096 + g.idx * recordLen (s.launch g.lid).slice
def State.imagePa (s : State) (p : Plot) : Nat := let l := s.launch p.lid; p.savePa + 4096 + l.groupCount * recordLen l.slice
/-- A Drill load of a saved group completes into the save area (01 R39; 10 R242; 16 R313). -/
def State.saveDrill (s : State) (gid rid : Nat) : State :=
  match s.group gid with
  | none => s
  | some g =>
    if g.place == .saved && g.dloads.any (fun r => r.id == rid && r.completed) then
      let bs := g.drillRegion (fun k => Config.freeByte (s.sched.free + k))
      ({ s with sched := { s.sched with free := s.sched.free + 8192 } }.agentWrite g.ctx s.fe.stamp (s.recordPa g + 0x11000) bs).1
    else s

end Sys2Proof.Machine
end

