-- ==== Sys2Proof/Machine/Barrier.lean ====
section
/-! DEFINITION. What completes when threads arrive or exit: plot, set and masked barriers (09 R207 to R210), convergence
rounds (06 R152), the exit of threads (R149); and rollback and kill of plots (01 R42, 17 R336 to R339). -/

namespace Sys2Proof.Machine
open Sys2Proof

/-- Folds a checked effect over a list; the first trap or wait stands. -/
def Res.foldM {α β : Type} (f : β → α → Res β) : β → List α → Res β
  | x, [] => .ok x
  | x, a :: l => (f x a).bind fun y => Res.foldM f y l

/-- A waiting thread leaves a barrier: pts is at least the latest pts of the participants (03 R94). -/
def Thread.leaveAt (t : Thread) (p : Wait → Bool) (ts : Word) : Thread := ({ t with pts := tmax t.pts ts }).leaveOf p
/-- The waits of a thread: the one in which it stands, and the one from which a trap took it. -/
def Thread.waitings (t : Thread) : List Wait := t.wait.toList ++ t.susp.toList.map (·.1)
/-- The latest arrival stamp of the threads that satisfy a test. -/
def latestArr (ts : List Thread) (p : Thread → Bool) : Word :=
  match ts.filter p with
  | [] => 0
  | t :: rest => rest.foldl (fun m u => tmax m u.arr) t.arr

/-! Plot barrier (09 R207, 01 R41). -/

def Thread.atPbar (t : Thread) : Bool := t.waits (· == Wait.pbar)
/-- The groups of a plot. -/
def State.plotGroups (s : State) (pid : Nat) : List Group := s.allGroups.filter (fun g => g.pid == pid)
/-- A new rollback interval starts (01 R41): shadow copies are taken, the log is empty, groups that ended are forgotten. -/
def State.newInterval (s : State) (pid : Nat) : State :=
  let s := s.mapGroups (fun g => if g.pid == pid then { g with shadow := some g.arch, owed := g.deferred, barrier := s.sched.nextId } else g)
  let s := { s with groups := s.groups.filter (fun g => !(g.pid == pid && g.place == Place.gone)) }
  let p := s.plot pid
  let n := recordLen (s.launch p.lid).slice
  let s := if p.shadowOk then (s.plotGroups pid).foldl (fun s g => s.writeRecord g g.arch (p.shadowPa + n * g.idx)) s else s
  s.updPlot pid (fun p => { p with eligible := p.shadowOk, logging := p.shadowOk, log := [], recvLog := [] })
/-- Completes the plot barrier when every live thread of every group of the plot has arrived. -/
def State.settlePbar (s : State) (pid : Nat) : State :=
  let ts := ((s.plotGroups pid).filter (fun g => g.place != Place.gone)).flatMap (fun g => g.arch.threads.filter (·.live))
  if !ts.isEmpty && ts.all (·.atPbar) then
    let m := latestArr ts (fun _ => true)
    (s.mapGroups (fun g => if g.pid == pid then g.mapThreads (fun _ t => if t.live then t.leaveAt (· == Wait.pbar) m else t) else g)).newInterval pid
  else s

/-! Set barriers (09 R208, R209). -/

/-- A wait at a set entry. -/
def Wait.isSbar (w : Wait) (e : Nat) : Bool := match w with | .sbar n _ => n == e | _ => false
def Thread.atSbar (t : Thread) (e : Nat) : Bool := t.waits (fun w => w.isSbar e)
/-- The arrival count of a group for a set entry. -/
def Group.sbarCount (g : Group) (e : Nat) : Nat := (alGet g.arch.sbar e).getD 0
/-- Every live thread of the group has arrived at the entry (vacuous without live threads). -/
def Group.sbarArrived (g : Group) (e : Nat) : Bool := g.arch.threads.all (fun t => !t.live || t.atSbar e)
def Launch.bar (l : Launch) (e : Nat) : SetBar := (l.bars.find? (fun b => b.entry == e)).getD ⟨e, 0, [], 0⟩
def Launch.setBar (l : Launch) (b : SetBar) : Launch := { l with bars := l.bars.filter (fun x => x.entry != b.entry) ++ [b] }
/-- A group leaves generation n of a set barrier. -/
def Group.leaveSbar (g : Group) (e n : Nat) (ts : Word) : Group :=
  let g := { g with arch := { g.arch with sbar := alSet g.arch.sbar e n } }
  g.mapThreads (fun _ t => if t.live && t.atSbar e then t.leaveAt (fun w => w.isSbar e) ts else t)
/-- A plot of the launch has arrived at entry e for the generation after the completed ones. -/
def State.plotArrived (s : State) (l : Launch) (b : SetBar) (idx : Nat) : Bool :=
  s.plots.any (fun p => p.lid == l.lid && p.index == idx &&
    (p.st == PlotSt.ended || p.st == PlotSt.killed || (s.plotGroups p.pid).all (fun g => g.place == Place.gone || g.liveMask == 0 || b.arrived.contains g.gid)))
/-- One set entry of a launch: groups that have wholly arrived are recorded, or leave when their generation is complete;
the generation completes when every plot of the entry has arrived. -/
def State.settleBar (s : State) (lid e : Nat) : State :=
  let l := s.launch lid
  let b := l.bar e
  let inBar (g : Group) : Bool := g.lid == lid && g.liveMask != 0 && g.sbarArrived e
  let s := s.mapGroups (fun g => if inBar g && g.sbarCount e + 1 ≤ b.gens then g.leaveSbar e (g.sbarCount e + 1) b.pts else g)
  let here := s.allGroups.filter (fun g => inBar g && !b.arrived.contains g.gid)
  let b := here.foldl (fun (b : SetBar) g =>
    let m := latestArr g.arch.threads (fun t => t.live)
    { b with arrived := b.arrived ++ [g.gid], pts := if b.arrived.isEmpty then m else tmax b.pts m }) b
  let s := s.updLaunch lid (fun l => l.setBar b)
  if !b.arrived.isEmpty && (l.setPlots e).all (fun i => s.plotArrived l b i) then
    let s := s.mapGroups (fun g => if inBar g && g.sbarCount e == b.gens then g.leaveSbar e (b.gens + 1) b.pts else g)
    s.updLaunch lid (fun l => l.setBar { b with gens := b.gens + 1, arrived := [] })
  else s
/-- Every set entry at which a thread of the launch waits, or has arrived. -/
def State.settleBars (s : State) (lid : Nat) : State :=
  let waiting := (s.allGroups.filter (fun g => g.lid == lid)).flatMap (fun g => g.arch.threads.flatMap (fun t =>
    t.waitings.filterMap (fun w => match w with | .sbar e _ => some e | _ => none)))
  let es := (waiting ++ (s.launch lid).bars.map (·.entry)).eraseDups
  es.foldl (fun s e => s.settleBar lid e) s

/-! Masked synchronisation (09 R210). -/

/-- Closes the records whose mask has wholly arrived or exited. -/
def Group.settleMsync (g : Group) : Group :=
  g.arch.msync.foldl (fun g r =>
    let dead := ~~~g.liveMask
    if r.arrived ||| (r.mask &&& dead) == r.mask then
      let m := latestArr ((lanesOf r.arrived).map (fun i => g.thread i)) (fun t => t.live)
      let g := { g with arch := { g.arch with msync := g.arch.msync.filter (fun x => x.mask != r.mask) } }
      g.mapThreads (fun i t => if r.arrived.getLsbD i && t.waits (· == Wait.msync) then t.leaveAt (· == Wait.msync) m else t)
    else g) g

/-! Exit of threads (06 R149, R152). -/

/-- The threads of some lanes stop being live. -/
def Group.exitLanes (g : Group) (lanes : Word) (pos : Pos) : Group :=
  let g := g.mapThreads (fun i t => if lanes.getLsbD i then { t with live := false, wait := none, susp := none, redo := none, exiting := false, hold := 0, kept := [], undo := [], told := none } else t)
  let conv := g.arch.conv.map (fun c => { c with decl := c.decl &&& ~~~lanes, sign := c.sign &&& ~~~lanes })
  ({ g with arch := { g.arch with conv := conv }, lastExit := pos }).freeQueues
/-- Completes a round that SIGN = DECL leaves complete: a join's bits clear, a matrix round is accepted (06 R152). -/
def State.settleRound (s : State) (gid c : Nat) : Res State :=
  match s.group gid with
  | none => .ok s
  | some g =>
    let r := g.arch.conv.getD c Conv.clear
    if r.sign == 0 || r.sign != r.decl then .ok s
    else if r.matrix then
      match r.word with
      | some i => s.acceptRound gid c i r.sign r.pos 0
      | none => .ok s
    else .ok (s.updGroup gid (fun g => { g with arch := { g.arch with conv := g.arch.conv.set c { r with sign := 0 } } }))
/-- What follows from the exit of threads of a group. -/
def State.settleExit (s : State) (gid : Nat) : Res State :=
  (Res.foldM (fun s c => s.settleRound gid c) s (List.range 16)).bind fun s =>
    let s := s.updGroup gid Group.settleMsync
    match s.group gid with
    | none => .ok s
    | some g => .ok ((s.settlePbar g.pid).settleBars g.lid)
/-- Exits threads (06 R149). -/
def State.exitThreads (s : State) (gid : Nat) (lanes : Word) (pos : Pos) : Res State :=
  (s.updGroup gid (fun g => g.exitLanes lanes pos)).settleExit gid

/-! Kill and rollback (01 R42; 17 R336, R338, R339). -/

/-- A group of a killed launch stops: loads, those of gathers with them, and escalation are dropped, what it had issued beyond them runs
on. -/
def Group.kill (g : Group) : Group :=
  let g := g.mapThreads (fun _ t => { t with live := false, wait := none, susp := none, redo := none, exiting := false, hold := 0, kept := [], undo := [], told := none })
  { g with loads := [], dloads := [], deferred := [], owed := [], holds := g.holds.filter (fun h => h.kind != .qload),
           ops := g.ops.filter (fun o => !g.dloads.any (fun r => r.op == o.id)), esc := none, stopping := false, stalled := false,
           arch := { g.arch with drill := { g.arch.drill with ended := true, halted := false }, conv := List.replicate 16 Conv.clear,
                                 msync := [], trap := { g.arch.trap with handler := false, pending := none } } }
/-- A waiter of a monitor belongs to a group of a launch. -/
def State.waiterOf (s : State) (lid : Nat) (w : Waiter) : Bool :=
  match w with
  | .thread gid _ => s.allGroups.any (fun g => g.gid == gid && g.lid == lid)
  | .queue _ => false
/-- Kills a launch with an ending status (17 R336): every group stops at once. -/
def State.kill (s : State) (lid code : Nat) : State :=
  if (s.launch lid).failing != 0 then s
  else
    let gids := (s.allGroups.filter (fun g => g.lid == lid)).map (·.gid)
    let s := gids.foldl (fun s gid => s.withdraw gid) s
    let s := { s with mbox := { s.mbox with pending := s.mbox.pending.filter (fun p => match p with | .esc gid => !gids.contains gid | _ => true) },
                      mem := { s.mem with monitors := s.mem.monitors.filter (fun m => !s.waiterOf lid m.who) } }
    let s := s.mapGroups (fun g => if g.lid == lid then g.kill else g)
    let s := (s.plots.filter (fun p => p.lid == lid && p.st == .resident)).foldl (fun s p => s.count (telBlock (chipletOf p.core) + 0x78) 1) s
    let s := { s with plots := s.plots.map (fun (p : Plot) => if p.lid == lid && p.st != PlotSt.ended then
      { p with eligible := false, logging := false, rolling := false, log := [], represent := [] } else p) }
    s.updLaunch lid (fun l => { l with failing := code })
/-- Posts a record with a code that never stands in a group's CAUSE (17 R330, R338, R340). -/
def State.postRecord (s : State) (g : Group) (code info : Nat) (addr : Nat) : State :=
  let live := (List.range 32).filter (fun i => (g.thread i).live)
  let g' := g.updTrap (fun t => { t with cause := BitVec.ofNat 32 (code + info % 256 * 2 ^ 24), faddr := BitVec.ofNat 64 addr, done := 0 })
  s.post 0x01 (escBody g' (s.launch g.lid) (s.plot g.pid) (leastPos g live))
/-- A plot consumes uncorrectable data in n bytes at a target, or diverges (01 R42): an eligible interval rolls back, any other kills. -/
def State.consume (s : State) (gid code info : Nat) (at_ : Option (Target × Nat)) : State :=
  match s.group gid with
  | none => s
  | some g =>
    let p := s.plot g.pid
    if p.rolling || (s.launch g.lid).failing != 0 then s
    else
      let s := ((at_.map (fun t => s.countRead t.1 t.2)).getD s).postRecord g code info ((at_.map (·.1.addr)).getD 0)
      if p.eligible then s.updPlot p.pid (fun p => { p with rolling := true }) else s.kill g.lid 6
/-- The syndrome class of a target (17 R337). -/
def State.badClass (s : State) (t : Target) (n : Nat) : Nat :=
  if t.space == .glob then s.eccClass t.addr n
  else if s.homeDead t then 4 else (alGet s.mem.ecc (t.space.eccBase + t.addr / 32 * 32)).getD 4
/-- A word of the issuing group meets uncorrectable data while it performs: the plot is stopped or killed, and the rest
of the chain does not execute (17 R338). -/
def State.consumeHere (s : State) (t : Target) (n : Nat) : State :=
  let s := s.consume s.cur.gid 0x31 (s.badClass t n) (some (t, n))
  { s with issue := { s.issue with trapped := true } }
/-- Adds NaN counts to the group's bank, saturating (11 R256). -/
def addNans (bank : List Word) (ns : List (Nat × Nat)) : List Word :=
  ns.foldl (fun b p => b.modify p.1 (fun x => BitVec.ofNat 32 (min (x.toNat + p.2) 0xFFFFFFFF))) bank
/-- A group just after the barrier again; stamps stay (03 R95), loads of before the barrier still come, and what operations of before it
count and defer stays, though it came since (R43). -/
def Group.restore (g : Group) : Group :=
  match g.shadow with
  | none => g
  | some a =>
    let old := g.ops.filter (fun o => o.id < g.barrier)
    let a := { a with nan := old.foldl (fun n o => addNans n o.nans) a.nan }
    let owed := g.owed ++ old.flatMap (fun o => o.faults.map (fun t => (o.cls, t)))
    let ts := a.threads.mapIdx (fun i t => { t with pts := (g.thread i).pts, hold := 0 })
    let kept (r : LoadRec) : Bool := match r.dst with
      | .queue q e => let x := a.q.getD q Queue.empty; e < x.base + x.ents.length
      | .hyp n => (a.h.getD n HReg.zero).load == r.id
      | _ => false
    { g with arch := { a with threads := ts, drill := { a.drill with dts := g.arch.drill.dts } }, shadow := some a, loads := g.loads.filter kept,
             dloads := g.dloads.filter kept, holds := [], deferred := owed, owed := owed, resumed := false, esc := none, stalled := false,
             ops := [], retired := g.ops.foldl (fun r o => r.modify o.cls.num (fun m => tmax m o.stamp)) g.retired }

end Sys2Proof.Machine
end

