-- ==== Sys2Proof/Machine/Waits.lean ====
section
/-! DEFINITION. Waits, barriers, barrier objects and dataflow channels: the words of 09 (opcodes 0x64 to 0x6F). -/

namespace Sys2Proof.Machine
open Sys2Proof

/-! WAITO (09 R202). -/

/-- The deferred fault that a WAITO or DWAITO on a class raises. -/
def Group.deferredOf (g : Group) (c : Cls) : Option Trap := (g.deferred.find? (fun d => d.1 == c)).map (·.2)
/-- Drops the first deferred fault of a class. -/
def dropDeferred (c : Cls) : List (Cls × Trap) → List (Cls × Trap)
  | [] => []
  | d :: ds => if d.1 == c then ds else d :: dropDeferred c ds
/-- Raises the deferred fault of a class, once (09 R202). -/
def State.raiseDeferred (s : State) (c : Cls) (t : Trap) : State :=
  ({ s with cur := { s.cur with deferred := dropDeferred c s.cur.deferred } }).trapWord { t with defer := true }
/-- A word that may take its trap with an effect of its own: `f` gives the effect from the state before the word, or the
body of the word. -/
def runWordOr (i : Instr) (s : State) (first : GArch → List Nat → State → Option State) (body : GArch → List Nat → State → Res State) :
    Host.Outcome State Fault Refusal :=
  runWord i s (fun a lanes s' =>
    match first a lanes s with
    | some t => .ok t
    | none => body a lanes s')

/-- WAITO (09 R202). -/
def execWaito (w : PW) (s : State) : Host.Outcome State Fault Refusal :=
  let c := clsOf w.d.toNat
  runWordOr (.waito w) s
    (fun _ lanes _ => if lanes.isEmpty then none else (s.cur.deferredOf c).map (fun t => s.raiseDeferred c t))
    (fun _ lanes s => .ok (s.updLanes lanes (fun _ t => { t with pts := tmax t.pts (s.cur.retired.getD c.num t.pts) })))

/-! WAITA and WAITC (09 R203 to R206). -/

/-- The copy-error notice for a counter that names the group (09 R204). -/
def State.noticeFor (s : State) (gid pa : Nat) : Option Notice := s.mem.notices.find? (fun n => n.gid == gid && n.counter == pa)
/-- The notice with which a lane's WAITC on a counter traps: one that has woken it, or one that stands at the counter's home. -/
def State.noticeOf (s : State) (lane pa : Nat) : Option Notice :=
  (((s.cur.thread lane).told.filter (fun n => n.1 == s.issue.chainPos && n.2.counter == pa)).map (·.2)).orElse (fun _ => s.noticeFor s.cur.gid pa)
/-- A notice is consumed, with the threads of the issuing set that it has woken. -/
def State.dropNotice (s : State) (n : Notice) : State :=
  { s with mem := { s.mem with notices := s.mem.notices.erase n },
           cur := s.cur.mapThreads (fun l t => if s.issue.set.getLsbD l && t.told.any (fun x => x.2 == n) then { t with told := none } else t) }
/-- The copy-error trap (17 R330). -/
def Notice.trap (n : Notice) : Trap := { code := 0x0D, info := n.status, faddr := n.record }
/-- A first load of WAITA or WAITC by one lane: it leaves with the value, or arms its monitor and waits. -/
def State.waitLane (s : State) (lane : Nat) (w : AddrWait) (chain : Pos) : State :=
  let n := if w.two then 8 else 4
  let pts := (s.cur.thread lane).pts
  let clash := s.tagMismatch w.tgt n
  let r := s.readThird w.tgt n pts s.cur.ctx 0
  let s := r.1
  let x := BitVec.ofNat 64 (ofBytes r.2.1)
  let ts := r.2.2.2.2
  let s := { s with cur := s.cur.updThread lane (fun t => { t with pts := ts }) }
  match clash with
  | some v =>
    let m := tagMark w.ea v
    let g := s.cur.updThread lane (fun t =>
      let k := if w.two then 2 else 1
      let t := if w.d.toNat < 56 then { t with v := (List.range k).foldl (fun l j => l.modify (w.d.toNat + j) (fun r => { r with full := true, tag := 0, mark := some m })) t.v } else t
      if w.counter then t else t.setP w.pd.toNat false)
    ({ s with cur := g }).countTag w.tgt
  | none =>
    if w.counter then
      if w.cmp.toNat ≤ x.toNat then { s with cur := s.cur.dstN w.d lane (wordsOf 2 x.toNat) }
      else
        let s := s.arm w.tgt s.cur.ctx (.thread s.cur.gid lane)
        { s with cur := s.cur.updThread lane (fun t => t.hold_ (.addr w) chain) }
    else if condHolds w.cond (8 * n) x w.cmp then
      { s with cur := (s.cur.dstN w.d lane (wordsOf (n / 4) x.toNat)).updThread lane (fun t => t.setP w.pd.toNat true) }
    else
      let s := s.arm w.tgt s.cur.ctx (.thread s.cur.gid lane)
      { s with cur := s.cur.updThread lane (fun t => t.hold_ (.addr w) chain) }
/-- The lanes of a WAITA or WAITC with their targets. -/
def State.waitTargets (s : State) (a : GArch) (sp : Space) (w : PW) (lanes : List Nat) (n : Nat) : Res (List (Nat × Target)) :=
  (s.targets a sp w.a lanes 0 (fun _ => n) n (fun _ => { r := true, w := false })).bind fun ts =>
    .ok (ts.filterMap (fun p => (p.2.head?).map (fun t => (p.1, t.1))))
/-- The homes of a wait's words can serve its first loads now (02 R71; 18 R355; 19 R372). -/
def State.waitServes (s : State) (ts : List (Nat × Target)) : Bool := ts.all (fun p => s.portServes (chipletOf s.cur.core) p.2)
/-- WAITA and WAITC once their checks have passed. Of a peer's word the load is a remote one (log 20). -/
def State.waitAll (s : State) (n : Nat) (mk : Nat → Target → AddrWait) (ts : List (Nat × Target)) : State :=
  match ts.find? (fun p => s.bad p.2 n) with
  | some p => s.consumeHere p.2 n
  | none =>
    ts.foldl (fun s p =>
      if p.2.space == .glob && isPeer p.2.addr then
        ({ s with cur := s.cur.updThread p.1 (fun t => t.hold_ (.addr (mk p.1 p.2)) s.issue.chainPos) }).sendRemote s.cur.gid 0 p.1 .load p.2.addr
      else s.waitLane p.1 (mk p.1 p.2) s.issue.chainPos) s
/-- The first lane whose load into qb meets a tag mismatch: the word traps with no effect (08 R185). -/
def State.waitQbTrap (s : State) (d : BitVec 6) (n : Nat) (ea : Nat → DWord) (ts : List (Nat × Target)) : Option Trap :=
  if d.toNat != 56 then none
  else ts.findSome? (fun p => (s.tagMismatch p.2 n).map (fun v => { code := 0x1F, info := v, faddr := ea p.1, lane := some p.1 }))
/-- WAITA (09 R206). -/
def execWaita (w : PW) (x : PX) (s : State) : Host.Outcome State Fault Refusal :=
  let two := x.m 4 4 == 1
  let n := if two then 8 else 4
  let sp : Space := if x.m 5 5 == 1 then .chip else .glob
  runWord (.waita w x) s (fun a lanes s =>
    (s.waitTargets a sp w lanes n).bind fun ts =>
      if !s.waitServes ts then .wait none
      else
      match s.waitQbTrap w.d n (fun l => a.ea sp w.a l 0) ts with
      | some t => .trap t
      | none =>
        .ok ((s.waitAll n (fun l t => ⟨t, a.ea sp w.a l 0, false, two, x.m 3 0, a.srcX two w.b l, w.d, x.vc, s.issue.pos.slot, false,
            s.viaTo (chipletOf s.cur.core) t⟩) ts).keepHeads
          a (.waita w x) lanes))
/-- WAITC (09 R203, R204). -/
def execWaitc (w : PW) (x : PX) (s : State) : Host.Outcome State Fault Refusal :=
  runWordOr (.waitc w x) s
    (fun a lanes _ =>
      match s.waitTargets a .glob w lanes 8 with
      | .ok ts => ((ts.filterMap (fun p => s.noticeOf p.1 p.2.addr)).head?).map (fun n => (s.dropNotice n).trapWord n.trap)
      | _ => none)
    (fun a lanes s =>
      (s.waitTargets a .glob w lanes 8).bind fun ts =>
        if !s.waitServes ts then .wait none
        else .ok ((s.waitAll 8 (fun l t => ⟨t, a.ea .glob w.a l 0, true, true, 0, a.src64 w.b l, w.d, 0, s.issue.pos.slot, false,
          s.viaTo (chipletOf s.cur.core) t⟩) ts).keepHeads
          a (.waitc w x) lanes))

/-! Barriers (09 R207 to R210). -/

/-- PBAR (09 R207). -/
def execPbar (w : PW) (s : State) : Host.Outcome State Fault Refusal :=
  runWord (.pbar w) s (fun _ lanes s =>
    let s := s.updLanes lanes (fun _ t => t.hold_ .pbar s.issue.chainPos)
    .ok (s.settlePbar s.cur.pid))
/-- SBAR (09 R208, R209). -/
def execSbar (w : PW) (s : State) : Host.Outcome State Fault Refusal :=
  let e := w.imm8.toNat
  runWord (.sbar w) s (fun _ lanes s =>
    if lanes.isEmpty then .ok s
    else
      let l := s.launch s.cur.lid
      if !l.inSet e (s.plot s.cur.pid).index then .trap Trap.operand
      else
        let s := s.updLanes lanes (fun _ t => t.hold_ (.sbar e (s.cur.sbarCount e + 1)) s.issue.chainPos)
        .ok (s.settleBar s.cur.lid e))
/-- The records after one lane's arrival; none on a sync-mask fault (09 R210). -/
def msyncArrive (width lane : Nat) (m : Word) (rs : List MRec) : Option (List MRec) :=
  if !m.getLsbD lane || m.toNat >>> width != 0 then none
  else
    match rs.find? (fun r => r.mask &&& m != 0) with
    | some r => if r.mask != m then none
        else some (rs.map (fun x => if x.mask == m then { x with arrived := x.arrived ||| laneBit lane } else x))
    | none => some (rs ++ [⟨m, laneBit lane⟩])
/-- MSYNC (09 R210). -/
def execMsync (w : PW) (s : State) : Host.Outcome State Fault Refusal :=
  runWord (.msync w) s (fun a lanes s =>
    match lanes.foldl (fun (acc : Option (List MRec)) l => acc.bind (fun rs => msyncArrive s.cur.width l (a.src w.a l) rs)) (some s.cur.arch.msync) with
    | none => .trap (Trap.of 0x07)
    | some rs =>
      let s := { s with cur := { s.cur with arch := { s.cur.arch with msync := rs } } }
      let s := s.updLanes lanes (fun _ t => t.hold_ .msync s.issue.chainPos)
      .ok { s with cur := s.cur.settleMsync })

/-! Barrier objects (09 R211, R212). -/

structure KObj where
  gen : Nat
  valid : Bool
  dead : Bool
  rsv : Nat
  epoch : Nat
  expect : Nat
  pend : Nat
  wcnt : Nat
  inb : Nat
  outb : Nat

/-- The fields of an object (09 R211). -/
def KObj.of (x : Nat) : KObj :=
  ⟨bits x 3 0, bit x 4, bit x 5, bits x 7 6, bits x 15 8, bits x 31 16, bits x 47 32, bits x 63 48, bits x 95 64, bits x 127 96⟩
def KObj.num (o : KObj) : Nat :=
  o.gen % 16 + 16 * bnat o.valid + 32 * bnat o.dead + 64 * (o.rsv % 4) + o.epoch % 256 * 2 ^ 8 + o.expect % 2 ^ 16 * 2 ^ 16 +
  o.pend % 2 ^ 16 * 2 ^ 32 + o.wcnt % 2 ^ 16 * 2 ^ 48 + o.inb % 2 ^ 32 * 2 ^ 64 + o.outb % 2 ^ 32 * 2 ^ 96
/-- Reserved bits, or a valid object that expects nothing (09 R211). -/
def KObj.broken (o : KObj) : Bool := o.rsv != 0 || (o.valid && o.expect == 0)
/-- The completion of a phase (09 R211). -/
def KObj.advance (o : KObj) : KObj := if o.pend == 0 && o.inb == 0 && o.outb == 0 then { o with gen := (o.gen + 1) % 16, pend := o.expect } else o
/-- The effect of KBINIT, KBARR or KBINV on an object; none is the barrier-object fault (09 R212). `op` is 0, 1 or 3, `out`
the direction of KBARR. -/
def KObj.act (o : KObj) (op : Nat) (out : Bool) (vb : Nat) : Option KObj :=
  if o.broken then none
  else
    match op with
    | 0 => if o.wcnt != 0 then none else some ⟨0, true, false, 0, (o.epoch + 1) % 256, vb, vb, 0, 0, 0⟩
    | 1 =>
      if !o.valid || o.pend == 0 then none
      else
        let o := { o with pend := o.pend - 1 }
        some (if out then { o with outb := (o.outb + vb) % 2 ^ 32 } else { o with inb := (o.inb + vb) % 2 ^ 32 }).advance
    | _ => if !o.valid then none else some { o with valid := false, dead := true }

/-- The target of the object at a scratchpad byte. -/
def objTarget (a : Nat) : Target := { space := .scratch, addr := a }
/-- A thread leaves the barrier-object waits that `past` names, at the stamp `ts`; one that a trap has taken from it executes its word again
when the handler returns. -/
def Group.kbLeave (g : Group) (past : Wait → Bool) (i : Nat) (status ts : Word) : Group :=
  let g := match (g.thread i).wait with
    | some (.kb off gen d) =>
      if past (.kb off gen d) then (g.dst d i status).updThread i (fun t => ({ t with pts := tmax t.pts ts }).leave) else g
    | _ => g
  if (g.thread i).susp.any (fun w => past w.1) then g.updThread i Thread.suspAgain else g
/-- Wakes the waiters of the object at a scratchpad byte whose generation has passed or that is dead (09 R212): each
leaves with the status, and its wake is a load of the object. An object with uncorrectable data wakes nobody: its waiters consume it (17
R338). -/
def State.kbWake (s : State) (a : Nat) : State :=
  let o := KObj.of (s.mem.scratch.num a 16)
  let past (g : Group) (w : Wait) : Bool := match w with
    | .kb off gen _ => s.plotBase g + off == a && (o.dead || o.gen != gen)
    | _ => false
  let waits (g : Group) (t : Thread) : Bool := t.waits (past g)
  let n := s.allGroups.foldl (fun n g => if g.place == .saved then n else n + (g.arch.threads.flatMap (fun t => t.waitings.filter (past g))).length) 0
  if n == 0 || s.bad (objTarget a) 16 then s
  else
    let s := s.poke (objTarget a) (bytesOf 16 { o with wcnt := (o.wcnt + 2 ^ 16 - n % 2 ^ 16) % 2 ^ 16 }.num)
    let l := s.line (objTarget a).key
    let pts := s.allGroups.foldl (fun m g => g.arch.threads.foldl (fun m t => if waits g t then tmax m t.pts else m) m) l.wts
    let s := s.setLine (l.raise 0 64 pts)
    s.mapGroups (fun g => if g.place == .saved then g else
      (List.range 32).foldl (fun k i => k.kbLeave (past g) i (if o.dead then 1 else 0) l.wts) g)
/-- The barrier objects that a scratchpad write touches wake their waiters where their phase has passed (09 R212). -/
def State.kbTouch (s : State) (t : Target) (n : Nat) : State :=
  let kb (w : Wait) : Bool := match w with | .kb _ _ _ => true | _ => false
  if t.space == .scratch && s.allGroups.any (fun g => g.arch.threads.any (fun t => t.waits kb)) then (List.range (n / 16 + 2)).foldl (fun s i => let a := (t.addr / 16 + i) * 16; if a < t.addr + n then s.kbWake a else s) s else s
/-- Waiters of barrier objects that leave without their object's completing are counted out: each with its stamp (09 R201, R211). -/
def State.leaveKb (s : State) (g : Group) (ws : List (Wait × Word)) : State :=
  ws.foldl (fun s w =>
    match w.1 with
    | .kb off _ _ =>
      let a := s.plotBase g + off
      let o := KObj.of (s.mem.scratch.num a 16)
      (s.homeWrite (objTarget a) (bytesOf 16 { o with wcnt := (o.wcnt + 2 ^ 16 - 1) % 2 ^ 16 }.num) w.2 g.ctx).1
    | _ => s) s
/-- The object offset of a lane. -/
def kbOff (a : GArch) (w : PW) (lane : Nat) : Nat := (a.src w.a lane).toNat
/-- The barrier-object fault of a lane (17 R330). -/
def kbTrap (off lane : Nat) : Trap := { code := 0x0A, faddr := BitVec.ofNat 64 off, lane := some lane }

/-- One lane of KBINIT, KBARR or KBINV acts on its object; `acc` gathers the lanes that meet a barrier-object fault (09 R212). -/
def State.kbStep (a : GArch) (w : PW) (op : Nat) (acc : State × List Nat) (l : Nat) : State × List Nat :=
  let s := acc.1
  let b := s.plotBase s.cur + kbOff a w l
  let o := KObj.of (s.mem.scratch.num b 16)
  match o.act op w.x (a.src w.b l).toNat with
  | none => (s, acc.2 ++ [l])
  | some o' =>
    let q := s.homeWrite (objTarget b) (bytesOf 16 o'.num) (s.cur.thread l).pts s.cur.ctx
    let s := { q.1 with cur := q.1.cur.updThread l (fun t => { t with pts := q.2 }) }
    let s := if op == 1 then { s with cur := s.cur.dst w.d l (BitVec.ofNat 32 o.gen) } else s
    (s.kbWake b, acc.2)
/-- The threads of the issuing set stand before a word again, as in `old`; the lanes of `done` have read the queue entries that the word
alone reads. -/
def State.backTo (s old : State) (i : Instr) (done : Word) : State :=
  { s with cur := s.cur.mapThreads (fun l t =>
    if old.issue.set.getLsbD l then
      let o := old.cur.thread l
      let o' := if done.getLsbD l then (old.snap.ownPops old.issue.words i l).foldl (fun t q => t.pop (old.snap.thread l) q) o else o
      { t with qh := o'.qh, kept := o'.kept, pos := o.pos, wnext := o.wnext }
    else t) }
/-- The first object that holds uncorrectable data (17 R338). -/
def State.badObject (s : State) (ts : List (Nat × List (Target × Nat))) : Option Target := (ts.flatMap (fun p => p.2.map (·.1))).find? (fun t => s.bad t 16)
/-- KBINIT, KBARR and KBINV: lanes act on their objects in ascending order; a barrier-object fault traps after every lane
has acted, with DONE naming the lanes that performed (09 R212, 08 R185). -/
def runKb (i : Instr) (s : State) (w : PW) (op : Nat) : Host.Outcome State Fault Refusal :=
  runWord i s (fun a lanes e =>
    (e.targets a .scratch w.a lanes 0 (fun _ => 16) 16 (fun _ => { r := true, w := true })).bind fun ts =>
      if op == 0 && lanes.any (fun l => (a.src w.b l).toNat == 0 || 65535 < (a.src w.b l).toNat) then .trap Trap.operand
      else if ts.any (fun p => p.2.any (fun t => e.boarded t.1 16 true)) then .wait none
      else
        match e.badObject ts with
        | some t => .ok (e.consumeHere t 16)
        | none =>
        let r := lanes.foldl (State.kbStep a w op) (e, [])
        match r.2 with
        | [] => .ok r.1
        | l :: _ =>
          let now := maskOfList (lanes.filter (fun k => !r.2.contains k))
          -- the lanes that an earlier execution has performed stay done (08 R185)
          let skipped := s.snap.replayed s.issue.set s.issue.chainPos
          let u := r.1.backTo s i now
          let u := { u with issue := { u.issue with trapped := true, home := true } }
          .ok (u.takeTrap s.cur.gid { kbTrap (kbOff a w l) l with done := now ||| skipped, wr := true }
            s.issue.chainPos s.issue.pos.slot s.issue.set))
/-- KBINIT (09 R212). -/
def execKbinit (w : PW) (s : State) : Host.Outcome State Fault Refusal := runKb (.kbinit w) s w 0
/-- KBARR (09 R212). -/
def execKbarr (w : PW) (s : State) : Host.Outcome State Fault Refusal := runKb (.kbarr w) s w 1
/-- KBINV (09 R212). -/
def execKbinv (w : PW) (s : State) : Host.Outcome State Fault Refusal := runKb (.kbinv w) s w 3
/-- One lane of KBWAIT: it waits while the object is valid and its generation is the lane's, else it reads the object (09 R212). -/
def State.kbWaitLane (a : GArch) (w : PW) (s : State) (l : Nat) : State :=
  let b := s.plotBase s.cur + kbOff a w l
  let o := KObj.of (s.mem.scratch.num b 16)
  if o.valid && !o.dead && o.gen == (a.src w.b l).toNat then
    let q := s.homeWrite (objTarget b) (bytesOf 16 { o with wcnt := (o.wcnt + 1) % 2 ^ 16 }.num) (s.cur.thread l).pts s.cur.ctx
    { q.1 with cur := q.1.cur.updThread l (fun t => ({ t with pts := q.2 }).hold_ (.kb (kbOff a w l) o.gen w.d) s.issue.chainPos) }
  else
    let q := s.readStamp (objTarget b) 16 (s.cur.thread l).pts
    { q.1 with cur := (q.1.cur.dst w.d l (if o.dead then 1 else 0)).updThread l (fun t => { t with pts := q.2 }) }
/-- KBWAIT (09 R212): every object is read before any lane blocks. -/
def execKbwait (w : PW) (s : State) : Host.Outcome State Fault Refusal :=
  runWord (.kbwait w) s (fun a lanes s =>
    (s.targets a .scratch w.a lanes 0 (fun _ => 16) 16 (fun _ => { r := true, w := false })).bind fun ts =>
      let objAt (l : Nat) : KObj := KObj.of (s.mem.scratch.num (s.plotBase s.cur + kbOff a w l) 16)
      if lanes.any (fun l => 15 < (a.src w.b l).toNat) then .trap Trap.operand
      else
        match s.badObject ts, lanes.find? (fun l => (objAt l).broken || (!(objAt l).valid && !(objAt l).dead)) with
        | some t, _ => .ok (s.consumeHere t 16)
        | none, some l => .trap (kbTrap (kbOff a w l) l)
        | none, none =>
          if ts.any (fun p => p.2.any (fun t => s.boarded t.1 16 true)) then .wait none
          else .ok ((lanes.foldl (State.kbWaitLane a w) s).keepHeads a (.kbwait w) lanes))

/-! Dataflow channels (09 R214 to R216). -/

/-- The slot that SEND forms: bytes 4i to 4i + 3 are lane i's word, zero for an inactive lane. -/
def sendSlot (a : GArch) (f : BitVec 6) (lanes : List Nat) : List Byte :=
  allLanes.flatMap (fun l => bytesOf 4 (if lanes.contains l then (a.src f l).toNat else 0))
def Launch.updChan (l : Launch) (ch : Nat) (f : Chan → Chan) : Launch := { l with chans := l.chans.modify ch f }
/-- SEND (09 R215). -/
def execSend (w : PW) (s : State) : Host.Outcome State Fault Refusal :=
  let ch := w.b.toNat
  runWord (.send w) s (fun a lanes s =>
    if lanes.isEmpty then .ok s
    else
      (s.sendState s.cur ch).bind fun _ =>
        let c := (s.launch s.cur.lid).chans.getD ch ⟨0, 0, 0, [], [], [], []⟩
        let ts := tmax (s.cur.latestPts lanes) (c.credits.headD 0 + 1)
        let s := (s.endEligible s.cur.pid).updLaunch s.cur.lid (fun l => l.updChan ch (fun c =>
          { c with credits := c.credits.drop 1, flight := c.flight ++ [⟨s.cur.gid, chipletOf s.cur.core, sendSlot a w.a lanes, ts⟩] }))
        .ok (s.updLanes lanes (fun _ t => { t with pts := ts })))
/-- RECV (09 R215, R216): slots presented again after a rollback come first. -/
def execRecv (w : PW) (s : State) : Host.Outcome State Fault Refusal :=
  let ch := w.b.toNat
  runWord (.recv w) s (fun _ lanes s =>
    if lanes.isEmpty then .ok s
    else
      (s.recvState s.cur ch).bind fun _ =>
        let p := s.plot s.cur.pid
        let c := (s.launch s.cur.lid).chans.getD ch ⟨0, 0, 0, [], [], [], []⟩
        let again := p.represent.find? (fun r => r.1 == ch)
        let slot : List Byte × Word := match again with | some r => r.2 | none => c.pending.headD ([], 0)
        let rts := lanes.foldl (fun m l => tmax m (s.cur.thread l).pts) slot.2
        let s := match again with
          | some r => s.updPlot p.pid (fun p => { p with represent := p.represent.erase r })
          | none => s.updLaunch s.cur.lid (fun l => l.updChan ch (fun c => { c with pending := c.pending.drop 1, returning := c.returning ++ [rts] }))
        let s := s.updPlot p.pid (fun p => { p with recvLog := p.recvLog ++ [(ch, slot.1, slot.2)] })
        let s := s.writeLanes1 w.d lanes (fun l => BitVec.ofNat 32 (ofBytes ((slot.1.drop (4 * l)).take 4)))
        .ok (s.updLanes lanes (fun _ t => { t with pts := tmax t.pts slot.2 })))

end Sys2Proof.Machine
end

