-- ==== Sys2Proof/Machine/Hyper.lean ====
section
/-! DEFINITION. Hypervectors, bundle counters and the Granary (12 R267 to R283), with the state registers GTIE belongs to,
and the words STOPT and SRET of a decode stream (16 R320). -/

namespace Sys2Proof.Machine
open Sys2Proof

def GArch.hyp (a : GArch) (f : BitVec 6) : HVec := (a.h.getD f.toNat HReg.zero).val
def GArch.bundle (a : GArch) (f : BitVec 6) : Bundle := a.k.getD f.toNat Bundle.zero
/-- Writes a hypervector register: full, without a mark (12 R271). -/
def Group.setHyp (g : Group) (n : Nat) (v : HVec) : Group := { g with arch := { g.arch with h := g.arch.h.set n ⟨v, 0, none⟩ } }
def Group.setBundle (g : Group) (n : Nat) (b : Bundle) : Group := { g with arch := { g.arch with k := g.arch.k.set n b } }
/-- A whole-vector word (12 R267): nothing without an active lane, else once, `f` checking and computing. -/
def runHyper (i : Instr) (s : State) (f : GArch → Nat → List Nat → State → Res State) : Host.Outcome State Fault Refusal :=
  runWord i s (fun a lanes s => if lanes.isEmpty then .ok s else f a (lowestOf lanes) lanes s)

/-! Binding, permutation, seeds (12 R272, R273). -/

/-- HBIND (12 R272). -/
def execHbind (w : PW) (s : State) : Host.Outcome State Fault Refusal :=
  runHyper (.hbind w) s (fun a _ _ s => .ok { s with cur := s.cur.setHyp w.d.toNat (a.hyp w.a ^^^ a.hyp w.b) })
/-- HPERM (12 R272): bit b moves up, or down with X. -/
def execHperm (w : PW) (s : State) : Host.Outcome State Fault Refusal :=
  runHyper (.hperm w) s (fun a l _ s =>
    let n := (a.src w.b l).toNat
    if 8191 < n then .trap Trap.operand
    else .ok { s with cur := s.cur.setHyp w.d.toNat (if w.x then (a.hyp w.a).rotateRight n else (a.hyp w.a).rotateLeft n) })
/-- The word w of a seeded hypervector (12 R273). -/
def seedWord (seed : DWord) (w : Nat) : DWord :=
  let z := seed + BitVec.ofNat 64 (w + 1) * 0x9E3779B97F4A7C15
  let z := (z ^^^ (z >>> 30)) * 0xBF58476D1CE4E5B9
  let z := (z ^^^ (z >>> 27)) * 0x94D049BB133111EB
  z ^^^ (z >>> 31)
/-- The seeded hypervector (12 R273). -/
def seedHyp (seed : DWord) : HVec := BitVec.ofNat 8192 (ofDigitsW 64 ((List.range 128).map (fun w => (seedWord seed w).toNat)))
/-- HSEED (12 R273). -/
def execHseed (w : PW) (s : State) : Host.Outcome State Fault Refusal :=
  runHyper (.hseed w) s (fun a l _ s => .ok { s with cur := s.cur.setHyp w.d.toNat (seedHyp (a.src64 w.a l)) })

/-! Bundle counters (12 R274 to R278), as planes of bits. -/

/-- Counters equal to a constant of 8 bits. -/
def planesEq (ps : List HVec) (c : BitVec 8) : HVec :=
  (ps.mapIdx (fun i p => if c.getLsbD i then p else ~~~p)).foldl (fun acc p => acc &&& p) (BitVec.allOnes 8192)
/-- Adds 1 at the positions of a mask. -/
def planesInc (m : HVec) : List HVec → List HVec
  | [] => []
  | p :: ps => (p ^^^ m) :: planesInc (p &&& m) ps
/-- Subtracts 1 at the positions of a mask. -/
def planesDec (m : HVec) : List HVec → List HVec
  | [] => []
  | p :: ps => (p ^^^ m) :: planesDec (~~~p &&& m) ps
/-- One bundling step (12 R275): bits of `v` count up, the others down, or the reverse with `neg`, saturating. -/
def Bundle.step (b : Bundle) (v : HVec) (neg : Bool) : Bundle :=
  let up := if neg then ~~~v else v
  let lim : BitVec 8 := if b.wide then 127 else 7
  { b with planes := planesDec (~~~up &&& ~~~(planesEq b.planes (-lim))) (planesInc (up &&& ~~~(planesEq b.planes lim)) b.planes) }
/-- HBUND (12 R275). -/
def execHbund (w : PW) (s : State) : Host.Outcome State Fault Refusal :=
  let clr := w.b.getLsbD 0
  let neg := w.b.getLsbD 1
  runHyper (.hbund w) s (fun a _ _ s =>
    let k := a.bundle w.d
    if !clr && w.x != k.wide then .trap Trap.operand
    else
      let k := if clr then { Bundle.zero with wide := w.x } else k
      .ok { s with cur := s.cur.setBundle w.d.toNat (k.step (a.hyp w.a) neg) })
/-- The bits of thresholded counters (12 R277). -/
def Bundle.threshold (b : Bundle) (tie : HVec) : HVec :=
  let sign := b.planes.getD 7 0
  let any := b.planes.foldl (fun acc p => acc ||| p) 0
  (any &&& ~~~sign) ||| (~~~any &&& tie)
/-- HTHR (12 R277). -/
def execHthr (w : PW) (s : State) : Host.Outcome State Fault Refusal :=
  runHyper (.hthr w) s (fun a _ _ s =>
    let k := a.bundle w.a
    let tie := (a.h.getD (a.tieh.toNat % 16) HReg.zero).val
    let g := s.cur.setHyp w.d.toNat (k.threshold tie)
    .ok { s with cur := if w.x then g.setBundle w.a.toNat { Bundle.zero with wide := k.wide } else g })
/-- HDIST (12 R278). -/
def execHdist (w : PW) (s : State) : Host.Outcome State Fault Refusal :=
  runHyper (.hdist w) s (fun a _ _ s =>
    .ok (s.writeScalar w.d.toNat (BitVec.ofNat 32 (popcount2 13 (a.hyp w.a ^^^ a.hyp w.b).toNat))))

/-! HLD and HST (12 R270, R271). -/

/-- The eight lines of an HLD or HST, checked for the lowest active lane. -/
def State.hypTargets (s : State) (a : GArch) (w : PW) (x : Option PX) (lane : Nat) (wr : Bool) : Res (List (Target × Nat)) :=
  s.laneTargets a .glob w.a lane (memOff w x 1024) 1024 1024 { r := !wr, w := wr, fmt := fun f => f == 0 }
/-- HLD. -/
def runHld (i : Instr) (s : State) (w : PW) (x : Option PX) : Host.Outcome State Fault Refusal :=
  runHyper i s (fun a l lanes s =>
    (s.hypTargets a w x l false).bind fun ts =>
      let f := s.fresh
      let s := f.2
      let r : LoadRec := ⟨f.1, 32, maskOfList lanes, .hyp w.d.toNat, 4, memHint x, s.cur.ctx, a.eaGlobal w.a l (memOff w x 1024),
        ts.map (fun p => ⟨p.1, p.2, .unsent⟩), s.cur.latestPts lanes, 0, []⟩
      let g := { s.cur with loads := s.cur.loads ++ [r] }
      .ok { s with cur := { g with arch := { g.arch with h := g.arch.h.modify w.d.toNat (fun h => { h with load := f.1 }) } } })
/-- HLD (12 R270). -/
def execHld (w : PW) (s : State) : Host.Outcome State Fault Refusal := runHld (.hld w) s w none
/-- HLD with an XM extension. -/
def execHldWide (w : PW) (x : PX) (s : State) : Host.Outcome State Fault Refusal := runHld (.hldWide w x) s w (some x)
/-- HST: a store-class word for every active thread; DONE plays no part (12 R271). -/
def runHst (i : Instr) (s : State) (w : PW) (x : Option PX) : Host.Outcome State Fault Refusal :=
  runHyper i s (fun a l lanes s =>
    (s.hypTargets a w x l true).bind fun ts =>
      let parts := storeParts l (a.eaGlobal w.a l (memOff w x 1024)) (bytesOf 1024 (a.hyp w.d).toNat) ts
      .ok (((s.endEligible s.cur.pid).dropL1s s.cur.core parts).startHold a lanes .hst (memHint x) parts))
/-- HST (12 R270). -/
def execHst (w : PW) (s : State) : Host.Outcome State Fault Refusal := runHst (.hst w) s w none
/-- HST with an XM extension. -/
def execHstWide (w : PW) (x : PX) (s : State) : Host.Outcome State Fault Refusal := runHst (.hstWide w x) s w (some x)

/-! The Granary (12 R279 to R283). -/

/-- The driver has granted a domain to a context (16 R302). -/
def State.granted (s : State) (x d : Nat) : Bool := (s.ctx x).domains.getLsbD d
/-- The entry is visible to a context; only valid entries are listed (12 R279). -/
def State.visible (s : State) (e : GEnt) (x : Nat) : Bool := if e.dom == 0 then e.ctx == x else s.granted x e.dom
/-- An access of the cluster's Granary as a write or a read, from the latest pts of the active lanes (12 R280). -/
def State.granAccess (s : State) (cl : Nat) (pts : Word) (wr : Bool) : State × Word :=
  let l := s.line (.gran cl)
  let p := unstale s.tbase pts
  if wr then let b := tmax p (l.rts + 1); (s.setLine { l with wts := b, rts := b }, b)
  else let ts := tmax p l.wts; (s.setLine { l with rts := tmax l.rts ts }, ts)
/-- The same with its effect on the active threads: each takes the access's stamp. -/
def State.granHere (s : State) (lanes : List Nat) (wr : Bool) : State :=
  let r := s.granAccess (clusterOf s.cur.core) (s.cur.latestPts lanes) wr
  let s := if wr then r.1.endEligible r.1.cur.pid else r.1
  s.updLanes lanes (fun _ t => { t with pts := tmax t.pts r.2 })
/-- The operand fault of an HGWR whose operands lane `l` gives (12 R281). -/
def State.hgwrTrap (s : State) (a : GArch) (g : Group) (l : Nat) (w : PW) : Option Trap :=
  let v := (a.src w.b l).toNat
  let d := bits v 17 10
  let old := (s.cluster (clusterOf g.core)).gran.find? (fun e => e.index == bits v 9 0)
  if v >>> 18 != 0 || (d != 0 && (w.x || !s.granted g.ctx d)) || (match old with | some o => !s.visible o g.ctx | none => false) then some Trap.operand
  else none
/-- HGWR (12 R281). -/
def execHgwr (w : PW) (s : State) : Host.Outcome State Fault Refusal :=
  runHyper (.hgwr w) s (fun a l lanes s =>
    let v := (a.src w.b l).toNat
    let e := bits v 9 0
    let d := bits v 17 10
    let x := s.cur.ctx
    let cl := clusterOf s.cur.core
    match s.hgwrTrap a s.cur l w with
    | some t => .trap t
    | none =>
      s.later (.hgwr w) (.ok ((s.granHere lanes true).updCluster cl (fun c =>
        let rest := c.gran.filter (fun g => g.index != e)
        { c with gran := if w.x then rest else rest ++ [⟨e, x, d, a.hyp w.a⟩] }))))
/-- The cursor of a context in a cluster (12 R282). -/
def Cluster.cursor (c : Cluster) (x : Nat) : Nat := (alGet c.gtie x).getD 0
/-- HQRY's answer (12 R283): index, distance, and the cursor where it moves. -/
def granQuery (cands : List (Nat × Nat)) (rot : Bool) (g : Nat) : Option (Nat × Nat × Option Nat) :=
  match cands with
  | [] => none
  | c :: cs =>
    let dmin := cs.foldl (fun m x => min m x.2) c.2
    let ties := (cands.filter (fun x => x.2 == dmin)).map (·.1)
    let least := ties.foldl min 1024
    if !rot || ties.length == 1 then some (least, dmin, none)
    else
      let win := match ((List.range 1024).map (fun i => (g + i) % 1024)).find? (fun e => ties.contains e) with | some e => e | none => least
      some (win, dmin, some ((win + 1) % 1024))
/-- HQRY (12 R283). -/
def execHqry (w : PW) (x : PX) (s : State) : Host.Outcome State Fault Refusal :=
  runHyper (.hqry w x) s (fun a l lanes s =>
    let v := (a.src w.b l).toNat
    let first := bits v 9 0
    let count := bits v 20 10
    let c := s.cur.ctx
    let cl := clusterOf s.cur.core
    if count == 0 || 1024 < count || 1024 < first + count || v >>> 21 != 0 then .trap Trap.operand
    else
      let cands := ((s.cluster cl).gran.filter (fun e => first ≤ e.index && e.index < first + count && s.visible e c)).map
        (fun e => (e.index, popcount2 13 (a.hyp w.a ^^^ e.bits).toNat))
      let r := s.granHere lanes w.x
      s.later (.hqry w x) (match granQuery cands w.x ((r.cluster cl).cursor c) with
      | none => .ok ((r.writeScalar w.d.toNat 0xFFFFFFFF).writeScalar x.vc.toNat 0xFFFFFFFF)
      | some (win, d, cur) =>
        let r := match cur with | some n => r.updCluster cl (fun k => { k with gtie := alSet k.gtie c n }) | none => r
        .ok ((r.writeScalar w.d.toNat (BitVec.ofNat 32 win)).writeScalar x.vc.toNat (BitVec.ofNat 32 d))))

/-! STOPT and SRET (16 R320). -/

/-- The sequence-table entry of a slot of a stream, as a physical address (16 R315, R316). -/
def State.seqEntry (s : State) (stream slot : Nat) : Nat := s.mem.glob.num (s.regN 0x28 + 128 * stream + 8) 8 + 128 * slot
/-- A reserved bit of a stream's descriptor is set, in CFG, GEOM or LOGS: no effect is performed from it (16 R315; 00 R7). -/
def descBroken (cfg geom logs : Nat) : Bool := bit cfg 31 || bits geom 31 28 != 0 || bits logs 31 13 != 0 || bits logs 7 5 != 0
/-- The stream's descriptor as it stands in memory. -/
def State.streamBroken (s : State) (stream : Nat) : Bool :=
  let f (o : Nat) : Nat := s.mem.glob.num (s.regN 0x28 + 128 * stream + o) 4
  descBroken (f 0) (f 4) (f 40)
/-- The slots of a launch's batch: the words after the count (16 R317). -/
def Launch.batch (l : Launch) : List Nat := ((l.bdesc.drop 1).take (l.bdesc.headD 0).toNat).map (·.toNat)
/-- One mark of a sequence as an indivisible write of its first 16 bytes; answers its stamp and whether the token is a stop
token. `tok` is STOPT's token, `reason` SRET's reason. -/
def State.markSeq (s : State) (e : Nat) (tok : Option Nat) (reason : Nat) (pts : Word) (ctx : Nat) : State × Word × Bool :=
  let st := s.mem.glob.num e 4
  let stops := (List.range (min (s.mem.glob.num (e + 16) 4) 8)).map (fun i => s.mem.glob.num (e + 20 + 4 * i) 4)
  let m := match tok with | some t => stops.contains t | none => true
  let why := match tok with | some _ => 1 | none => reason
  let st' := if m && !bit st 8 then st - bits st 23 16 * 2 ^ 16 + 2 ^ 8 + why % 256 * 2 ^ 16 else st
  let last := match tok with | some t => t | none => s.mem.glob.num (e + 12) 4
  let q := s.putHome { space := .glob, addr := e }
    (bytesOf 4 st' ++ s.mem.glob.readN (e + 4) 8 ++ bytesOf 4 last) pts ctx 0
  (q.1, q.2, m)
/-- STOPT and SRET. From a descriptor with a reserved bit set they write no mark, and STOPT leaves its predicate (00 R7; log 83). -/
def runSeq (i : Instr) (s : State) (w : PW) (stop : Bool) : Host.Outcome State Fault Refusal :=
  runWord i s (fun a lanes s =>
    let l := s.launch s.cur.lid
    let slot (k : Nat) : Nat := (a.src (if stop then w.b else w.a) k).toNat
    let val (k : Nat) : Nat := (a.src (if stop then w.a else w.b) k).toNat
    let entry (k : Nat) : Nat := s.seqEntry l.hstream (slot k)
    if lanes.any (fun k => !l.step || !l.batch.contains (slot k) || (!stop && (val k < 16 || 255 < val k))) then .trap Trap.operand
    else if lanes.isEmpty || s.streamBroken l.hstream then .ok s
    else if lanes.any (fun k => !s.portServes (chipletOf s.cur.core) { space := .glob, addr := entry k }) then .wait none
    else
      match lanes.find? (fun k => s.bad { space := .glob, addr := entry k } 16) with
      | some k => .ok (s.consumeHere { space := .glob, addr := entry k } 16)
      | none =>
        s.later i (.ok (lanes.foldl (fun s k =>
          let q := s.markSeq (entry k) (if stop then some (val k) else none) (val k) (s.cur.thread k).pts s.cur.ctx
          { q.1 with cur := q.1.cur.updThread k (fun t =>
            let t := { t with pts := q.2.1 }
            if stop then t.setP w.d.toNat q.2.2 else t) }) (s.endEligible s.cur.pid))))
/-- STOPT (16 R320). -/
def execStopt (w : PW) (s : State) : Host.Outcome State Fault Refusal := runSeq (.stopt w) s w true
/-- SRET (16 R320). -/
def execSret (w : PW) (s : State) : Host.Outcome State Fault Refusal := runSeq (.sret w) s w false

end Sys2Proof.Machine
end

