-- ==== Sys2Proof/Machine/Control.lean ====
section
/-! DEFINITION. Control words: branches, calls, EXIT, YIELD, TRAP and ERET, convergence registers, state registers and QENT
(06 R147 to R155; 05 R133, R134; 16 R319; 17 R333). -/

namespace Sys2Proof.Machine
open Sys2Proof

/-- NOP (06). -/
def execNop (w : PW) (s : State) : Host.Outcome State Fault Refusal := runWord (.nop w) s (fun _ _ s => .ok s)

/-! Branches, calls and jumps (06 R147, R148). -/

/-- The target of a branch or call: slot 0 of a packet (06 R147). -/
def branchTarget (p : Pos) (w : PW) : Pos := ⟨pc52 (p.pc + w.off21.signExtend 64), 0⟩
/-- Moves the active threads. -/
def State.jumpTo (s : State) (lanes : List Nat) (f : Nat → Pos) : State := s.updLanes lanes (fun l t => t.goto (f l))
/-- BRA (06 R147). -/
def execBra (w : PW) (s : State) : Host.Outcome State Fault Refusal :=
  runWord (.bra w) s (fun _ lanes s => .ok (s.jumpTo lanes (fun _ => branchTarget s.issue.pos w)))
/-- CALL (06 R147): the return position goes to v54:v55. -/
def execCall (w : PW) (s : State) : Host.Outcome State Fault Refusal :=
  runWord (.call w) s (fun _ lanes s =>
    let link := posVal (s.issue.pos.after 1)
    .ok ((s.writeLanes 54 lanes (fun _ => wordsOf 2 link.toNat)).jumpTo lanes (fun _ => branchTarget s.issue.pos w)))
/-- A position value no jump may take (06 R148). -/
def badTarget (ret : Bool) (t : DWord) : Bool := t >>> 54 != 0 || t.toNat % 4 == 3 || (!ret && t.toNat % 4 != 0)
/-- The position of a position value. -/
def posOfVal (t : DWord) : Pos := ⟨t >>> 2, t.toNat % 4⟩
/-- JMPI, CALLI and RET. -/
def runJump (i : Instr) (s : State) (w : PW) (ret : Bool) (link : Option (BitVec 6)) : Host.Outcome State Fault Refusal :=
  runWord i s (fun a lanes s =>
    match lanes.find? (fun l => badTarget ret (a.src64 w.a l)) with
    | some l => .trap { code := 0x04, faddr := a.src64 w.a l }
    | none =>
      let s := match link with
        | some d => s.writeLanes d lanes (fun _ => wordsOf 2 (posVal (s.issue.pos.after 1)).toNat)
        | none => s
      .ok (s.jumpTo lanes (fun l => posOfVal (a.src64 w.a l))))
/-- JMPI (06 R148). -/
def execJmpi (w : PW) (s : State) : Host.Outcome State Fault Refusal := runJump (.jmpi w) s w false none
/-- CALLI (06 R148). -/
def execCalli (w : PW) (s : State) : Host.Outcome State Fault Refusal := runJump (.calli w) s w false (some w.d)
/-- RET (06 R148). -/
def execRet (w : PW) (s : State) : Host.Outcome State Fault Refusal := runJump (.ret w) s w true none

/-! Exit, yield, trap and return (06 R149 to R151). -/

/-- EXIT (06 R149): at once, or when the chain's store-class word or wait lets the thread go (05 R120, 08 R184). -/
def execExit (w : PW) (s : State) : Host.Outcome State Fault Refusal :=
  runWord (.exit w) s (fun _ lanes s =>
    let later := lanes.filter (fun l => s.issue.holdId != 0 || (s.cur.thread l).wait.isSome)
    let now := lanes.filter (fun l => !later.contains l)
    let s := s.updLanes later (fun _ t => { t with exiting := true })
    if now.isEmpty then .ok s else s.exitThreads s.cur.gid (maskOfList now) s.issue.pos)

/-- The priority of a group in the wake queue (01 R21). -/
def Group.wakePrio (g : Group) : Nat := match g.place with | .woken _ true => 15 | _ => g.prio
def Group.wokenAt (g : Group) : Nat := match g.place with | .woken c _ => c | _ => 0
def Group.isWoken (g : Group) : Bool := match g.place with | .woken _ _ => true | _ => false
/-- The wake queue of a core (01 R21). Of groups of equal priority woken in one cycle the one earlier in the state's list stands first: the spec
says nothing of them (log 87). -/
def State.wakeQueue (s : State) (core : Nat) : List Group :=
  sortBy (fun a b => b.wakePrio < a.wakePrio || (a.wakePrio == b.wakePrio && a.wokenAt < b.wokenAt))
    (s.groups.filter (fun g => g.core == core && g.isWoken))
/-- A woken group takes a slot: it issues two cycles later (01 R21). -/
def Group.seat (g : Group) (slot cycle : Nat) : Group := { g with place := .slot slot, seated := cycle, readyAt := cycle + 2, stalled := false }
/-- YIELD (06 R150). -/
def execYield (w : PW) (s : State) : Host.Outcome State Fault Refusal :=
  runWord (.yield w) s (fun _ lanes s =>
    if lanes.isEmpty then .ok s
    else s.later (.yield w) (.ok (match s.wakeQueue s.cur.core, s.cur.place with
      | h :: _, .slot n => ({ s with cur := { s.cur with place := .woken s.sched.cycle false } }).updGroup h.gid (fun g => g.seat n s.sched.cycle)
      | _, _ => s)))
/-- TRAP (06 R151). -/
def execTrap (w : PW) (s : State) : Host.Outcome State Fault Refusal :=
  runWord (.trap w) s (fun _ lanes s => if lanes.isEmpty then .ok s else .trap { code := 0x03, info := w.imm8.toNat })
/-- A Drill trap that waited for the end of handler mode is taken (17 R332). -/
def State.takePending (s : State) (gid : Nat) : State :=
  match (s.group gid).bind (fun g => g.trap.pending) with
  | some (t, pos) => s.takeGroupTrap gid t pos true
  | none => s
/-- ERET (06 R151, 17 R333). -/
def execEret (w : PW) (s : State) : Host.Outcome State Fault Refusal :=
  runWord (.eret w) s (fun _ lanes s =>
    if lanes.isEmpty then .ok s
    else if !s.cur.trap.handler then .trap Trap.illegal
    else
      let l := s.launch s.cur.lid
      -- a wait of the handler's own code is over (17 R333)
      let left := (lanesOf s.cur.trap.hset).filterMap (fun i => (s.cur.thread i).wait.map (fun x => (x, (s.cur.thread i).pts)))
      let u := s.leaveKb s.cur left
      s.later (.eret w) (.ok (({ u with cur := u.cur.eret l.pentry l.dentry }).takePending s.cur.gid)))

/-! Convergence registers (06 R152 to R155). -/

def GArch.cv (a : GArch) (n : Nat) : Conv := a.conv.getD n Conv.clear
def State.setConv (s : State) (n : Nat) (c : Conv) : State :=
  { s with cur := { s.cur with arch := { s.cur.arch with conv := s.cur.arch.conv.set n c } } }
/-- A write of a convergence register that the chain's store-class word holds back (08 R184). -/
def State.heldConv (s : State) (e : Nat × Option Word × Word) : State :=
  { s with cur := s.cur.updHold s.issue.holdId (fun h => { h with held := { h.held with conv := h.held.conv ++ [e] } }) }
/-- The convergence trap of a register (17 R330). -/
def Trap.convergence (n : Nat) : Trap := { code := 0x05, info := n }
/-- CINIT (06 R153). -/
def execCinit (w : PW) (s : State) : Host.Outcome State Fault Refusal :=
  let n := w.d.toNat
  runWord (.cinit w) s (fun a lanes s =>
    if lanes.isEmpty then .ok s
    else
      let c := s.cur.arch.cv n
      let decl := a.src w.a (lowestOf lanes) &&& s.cur.liveMask
      if c.sign != 0 then .trap (Trap.convergence n)
      else if s.issue.holdId != 0 then .ok (s.heldConv (n, some decl, 0))
      else .ok (s.setConv n { c with decl := decl, sign := 0 }))
/-- CSIGN (06 R154). -/
def execCsign (w : PW) (s : State) : Host.Outcome State Fault Refusal :=
  let n := w.d.toNat
  runWord (.csign w) s (fun _ lanes s =>
    if lanes.isEmpty then .ok s
    else
      let c := s.cur.arch.cv n
      let set := maskOfList lanes
      let sg := c.sign ||| set
      if set &&& ~~~c.decl != 0 || set &&& c.sign != 0 || (c.sign != 0 && c.matrix) then .trap (Trap.convergence n)
      else if s.issue.holdId != 0 then .ok (s.heldConv (n, none, set))
      else .ok (s.setConv n { c with sign := if sg == c.decl then 0 else sg, matrix := false }))
/-- CWAIT (06 R155): a thread whose bit is clear passes; `wordReady` holds the others. -/
def execCwait (w : PW) (s : State) : Host.Outcome State Fault Refusal := runWord (.cwait w) s (fun _ _ s => .ok s)

/-! State registers (05 R132 to R134; 12 R282). -/

/-- CSRR (05 R133). -/
def execCsrr (w : PW) (s : State) : Host.Outcome State Fault Refusal :=
  let n := w.imm8.toNat
  runWord (.csrr w) s (fun a lanes s =>
    if n == 0x13 then
      if lanes.isEmpty then .ok s
      else
        let v := (s.cluster (clusterOf s.cur.core)).cursor s.cur.ctx
        s.later (.csrr w) (.ok ((s.granHere lanes false).writeLanes1 w.d lanes (fun _ => BitVec.ofNat 32 v)))
    else .ok (s.writeLanes1 w.d lanes (fun l => s.csrValue a n l)))
/-- CSRW (05 R134): the value of the lowest active lane. -/
def execCsrw (w : PW) (s : State) : Host.Outcome State Fault Refusal :=
  let n := w.imm8.toNat
  runWord (.csrw w) s (fun a lanes s =>
    if lanes.isEmpty then .ok s
    else
      let v := a.src w.a (lowestOf lanes)
      if n == 0x13 then
        if v >>> 10 != 0 then .trap Trap.illegal
        else
          let cl := clusterOf s.cur.core
          s.later (.csrw w) (.ok ((s.granHere lanes true).updCluster cl (fun c => { c with gtie := alSet c.gtie s.cur.ctx v.toNat })))
      else
        match s.cur.csrWrite n v with
        | some g => if 0x30 ≤ n then s.later (.csrw w) (.ok { s with cur := g }) else .ok { s with cur := g }
        | none => .trap Trap.illegal)
/-- QENT (16 R319). -/
def execQent (w : PW) (s : State) : Host.Outcome State Fault Refusal :=
  runWord (.qent w) s (fun a lanes s =>
    let b := (s.launch s.cur.lid).bdesc
    let i (l : Nat) : Nat := (a.src w.a l).toNat + w.imm8.toNat
    if lanes.any (fun l => b.length ≤ i l) then .trap Trap.operand
    else .ok (s.writeLanes1 w.d lanes (fun l => b.getD (i l) 0)))

end Sys2Proof.Machine
end

