-- ==== Sys2Proof/Machine/Copy.lean ====
section
/-! DEFINITION. Copy channels and transfer records (10 R231 to R240; 09 R204, R213): starting a chain, fetching and checking a
record, its transfer, and what its end leaves. -/

namespace Sys2Proof.Machine
open Sys2Proof

/-! Starting chains (10 R233). -/

/-- The hardware channel that a context binds to channel k. -/
def Ctx.channel (c : Ctx) (k : Nat) : Option Nat := let b := c.chans.getD k 0; if bit b 15 then some (b % 4096) else Option.none
/-- A store of a head to CHEAD at stamp ts: the channel after it, none while the store waits for room. -/
def HwChan.head (c : HwChan) (a : Nat) (i : Init) (ts : Word) : Option HwChan :=
  if a == 0 || a % 128 != 0 then some c
  else
    let c' := { c with stamp := tmax c.stamp (ts + 1) }
    if c.st == 0 then some { c' with st := 1, next := a, init := i }
    else if c.heads.length < 4 then some { c' with heads := c.heads ++ [(a, i)] }
    else if c.st == 1 then none
    else some { c with refused := true }
/-- Stores that waited for room are taken while there is some. -/
def HwChan.absorb : Nat → HwChan → HwChan
  | 0, c => c
  | n + 1, c =>
    match c.waiting with
    | [] => c
    | w :: ws =>
      match ({ c with waiting := ws }).head w.1 w.2.1 w.2.2 with
      | some c' => HwChan.absorb n c'
      | none => c
/-- The channel takes its next queued head, or is idle. -/
def HwChan.nextHead (c : HwChan) : HwChan :=
  let c := match c.heads with
    | [] => { c with st := 0 }
    | h :: hs => { c with st := 1, next := h.1, init := h.2, heads := hs }
  c.absorb c.waiting.length
/-- An engine operation has performed its last access (03 R89). -/
def Group.completeOp (g : Group) (id : Nat) (stamp : Word) (f : Option Trap) : Group :=
  { g with ops := g.ops.map (fun o => if o.id == id then { o with done := true, left := 0, stamp := tmax o.stamp stamp, faults := o.faults ++ f.toList } else o) }
/-- The chain of a channel ends, or halts: a tracked one completes its operation (10 R233). -/
def State.chainEnd (s : State) (h : Nat) (halt : Bool) : State :=
  let c := s.chan h
  let s := if c.init.op == 0 then s else s.updGroup c.init.gid (fun g => g.completeOp c.init.op c.stamp none)
  s.updChan h (fun c =>
    let c := { c with record := none, init := { c.init with op := 0 } }
    if halt then { c with st := 2 } else c.nextHead)

/-- A chain halts before its next record because its engine's chiplet is drained (19 R372). -/
def State.chainHold (s : State) (h : Nat) : State := (s.chainEnd h true).updChan h (fun c => { c with held := true })

/-! The record (10 R234, R235). -/

/-- A little-endian field of a record. -/
def CopyRec.at (r : CopyRec) (lo n : Nat) : Nat := (r.image.toNat >>> (8 * lo)) % 2 ^ (8 * n)
def CopyRec.nxt (r : CopyRec) : Nat := r.at 0 8
def CopyRec.own (r : CopyRec) : Bool := bit (r.at 8 4) 0
def CopyRec.decode (r : CopyRec) : Nat := bits (r.at 8 4) 8 5
def CopyRec.sspace (r : CopyRec) : Nat := bits (r.at 8 4) 10 9
def CopyRec.dspace (r : CopyRec) : Nat := bits (r.at 8 4) 12 11
def CopyRec.bobj (r : CopyRec) : Bool := bit (r.at 8 4) 13
def CopyRec.tplot (r : CopyRec) : Nat := r.at 12 4
def CopyRec.saddr (r : CopyRec) : Nat := r.at 16 8
def CopyRec.daddr (r : CopyRec) : Nat := r.at 24 8
def CopyRec.len (r : CopyRec) : Nat := r.at 32 4
def CopyRec.nrows (r : CopyRec) : Nat := r.at 36 4
def CopyRec.sstr (r : CopyRec) : Int := toSigned 32 (r.at 40 4)
def CopyRec.dstr (r : CopyRec) : Int := toSigned 32 (r.at 44 4)
def CopyRec.caddr (r : CopyRec) : Nat := r.at 48 8
def CopyRec.cinc (r : CopyRec) : Nat := r.at 56 8
def CopyRec.planes (r : CopyRec) : Nat := bits (r.at 76 4) 4 0
def CopyRec.np (r : CopyRec) : Bool := bit (r.at 76 4) 5
def CopyRec.xt (r : CopyRec) : Nat := bits (r.at 76 4) 7 6
def CopyRec.xl (r : CopyRec) : Nat := bits (r.at 76 4) 15 8
def CopyRec.boff (r : CopyRec) : Nat := r.at 80 4
/-- The plane operand that modes 1 and 2 write (10 R236, 05 R136). -/
def CopyRec.quad (r : CopyRec) : Quad :=
  { Quad.of [BitVec.ofNat 32 (r.at 64 4), BitVec.ofNat 32 (r.at 68 4), BitVec.ofNat 32 (r.at 72 4), 0] with
    rows := r.nrows, p := r.planes, np := r.np }
/-- Modes 1 and 2 write planes. -/
def CopyRec.toPlanes (r : CopyRec) : Bool := r.decode == 1 || r.decode == 2
/-- Bytes of a row of the source, whose elements in mode 2 take `z` bytes. -/
def CopyRec.srcLen (r : CopyRec) (z : Nat) : Nat :=
  match r.decode with
  | 0 => r.len
  | 1 | 3 => rowBytes 3 11 r.len
  | 2 => z * r.len
  | _ => 4 * r.len
/-- Bytes of a row of the destination, in modes without planes. -/
def CopyRec.dstLen (r : CopyRec) : Nat :=
  match r.decode with
  | 0 => r.len
  | 3 => 4 * r.len
  | _ => rowBytes 3 11 r.len
/-- Start of a row, modulo 2^64. -/
def rowStart (a : Nat) (str : Int) (i : Nat) : Nat := (BitVec.ofInt 64 ((a : Int) + i * str)).toNat
/-- The reserved fields, ranges and mode conditions of check 2 (10 R237). -/
def CopyRec.bad (r : CopyRec) : Bool :=
  let ctrl := r.at 8 4
  r.nxt % 128 != 0 || bits ctrl 31 14 != 0 || bits ctrl 4 1 != 0 || 4 < r.decode || r.sspace == 3 || r.dspace == 3 || bits r.tplot 31 24 != 0 ||
  r.len == 0 || 2 ^ 24 < r.len || r.nrows == 0 || 65536 < r.nrows || r.caddr % 8 != 0 || bits (r.at 76 4) 31 16 != 0 ||
  r.at 84 4 != 0 || r.at 96 32 != 0 || r.boff % 16 != 0 ||
  (match r.decode with
   | 1 => r.sspace != 0 || r.dspace != 2 || r.len % 768 != 0 || r.planes == 0 || 16 < r.planes || r.quad.bad false false ||
       r.saddr % 128 != 0 || (1 < r.nrows && r.sstr % 128 != 0)
   | 2 => r.sspace != 0 || r.dspace != 2 || r.len % 768 != 0 || r.planes < 2 || 16 < r.planes || r.quad.bad false false
   | 3 => r.sspace != 0 || r.len % 240 != 0
   | 4 => r.len % 240 != 0
   | _ => false)
/-- The record names the target plot. -/
def CopyRec.needsPlot (r : CopyRec) : Bool := r.sspace == 2 || r.dspace == 2 || r.bobj
/-- The rows of an operand in the target plot stay inside its allocation (10 R237). -/
def rowsInside (size a : Nat) (str : Int) (rows len : Nat) : Bool :=
  let first := (a : Int)
  let last := (a : Int) + (rows - 1 : Nat) * str
  decide (0 ≤ first) && decide (0 ≤ last) && decide (first + len ≤ size) && decide (last + len ≤ size)
/-- Check 4 (10 R237). -/
def CopyRec.outside (r : CopyRec) (size : Nat) : Bool :=
  (r.sspace == 2 && !rowsInside size r.saddr r.sstr r.nrows (r.srcLen 4)) ||
  (r.dspace == 2 && (if r.toPlanes then size < r.quad.ending (r.len / 768) 0 else !rowsInside size r.daddr r.dstr r.nrows r.dstLen)) ||
  (r.bobj && size < r.boff + 16)

/-! Where a chain's accesses go (10 R232, R237). -/

/-- What a chain's accesses use: its engine, its context as at its start (none where the host started it on an unbound channel; 16
R302), the translations that the host gave its record, the target plot, and whether another plot started it. -/
structure CopyEnv where
  engine : Nat
  ctx : Option Nat
  leaves : List TlbEnt
  pid : Nat
  foreign : Bool
  /-- its accesses to memory that waits for a link chiplet have waited too long (19 R372) -/
  late : Bool
/-- The context of a chain. -/
def Init.context (i : Init) : Option Nat := if i.host && i.ctx == 4096 then Option.none else some i.ctx
/-- The context to which a hardware channel is bound (10 R232). -/
def State.boundCtx (s : State) (h : Nat) : Option Nat :=
  (s.ctxs.find? (fun c => c.valid && c.chans.any (fun b => bit b 15 && b % 4096 == h))).map (·.id)
/-- The target plot of a record. -/
def State.targetPlot (s : State) (i : Init) (r : CopyRec) : Option Plot :=
  if i.host then none
  else s.plots.find? (fun p => p.lid == i.lid && p.index == bits r.tplot 23 0 && (p.st == .resident || p.st == .saved))
def State.copyEnv (s : State) (h : Nat) (c : HwChan) (r : CopyRec) : CopyEnv :=
  let pid := ((s.targetPlot c.init r).map (·.pid)).getD 0
  ⟨h / 64, c.init.context, r.leaves, pid, pid != c.init.pid, r.late⟩
/-- One piece of an access: its home, or the fault of its page. A piece of a saved plot's scratchpad lies in its save image,
which `.slice` stands for here (10 R240). -/
def State.copyPlace (s : State) (e : CopyEnv) (sp a n : Nat) (need : Need) : Res Target :=
  match sp with
  | 0 =>
    (match e.ctx with
     | none => if populated a then .ok { space := .glob, addr := a } else .trap (Trap.access 0x18 0 (BitVec.ofNat 64 a) need.w)
     | some x =>
       ({ s with mem := { s.mem with tlb := e.leaves ++ s.mem.tlb } }.checkGlobal [.engine e.engine] x false 0 (BitVec.ofNat 64 a) n need).bind fun ts =>
         match ts with
         | (t, _) :: _ => .ok t
         | [] => .trap (Trap.access 0x18 0 (BitVec.ofNat 64 a) need.w))
  | 1 =>
    (match e.ctx with
     | none => if a + n ≤ 0x18000000 then .ok { space := .chip, addr := a } else .trap (Trap.access 0x14 0 (BitVec.ofNat 64 a) need.w)
     | some x =>
       if a + n ≤ (s.ctx x).cssize * 2 ^ 16 then .ok { space := .chip, addr := (s.ctx x).csbase + a }
       else .trap (Trap.access 0x14 0 (BitVec.ofNat 64 a) need.w))
  | _ =>
    let p := s.plot e.pid
    .ok (if p.st == .resident then { space := .scratch, addr := p.core * 2 ^ 20 + p.base + a } else { space := .slice, addr := a })
/-- A piece of an access has waited too long for a link chiplet's memory (19 R372). -/
def State.overdue (s : State) (e : CopyEnv) (t : Target) : Bool := e.late && s.tierWaits t
/-- A piece that can reach its home and be answered; one that a held pair, a back-off or a drain keeps waits (02 R71; 18 R354, R355). -/
def State.copyPiece (s : State) (e : CopyEnv) (sp a n : Nat) (need : Need) : Res Target :=
  (s.copyPlace e sp a n need).bind fun t =>
    let port := Config.enginePort e.engine
    let core := if t.space == .scratch then t.addr / 2 ^ 27 else port
    if s.overdue e t || (s.portServes port t && s.pairOpen port core && s.pairOpen core port) then .ok t else .wait none
/-- The engine's translation cache takes the leaf that a piece was translated with (17 R324). -/
def State.engineFill (s : State) (e : CopyEnv) (t : Target) (a : Nat) : State :=
  match e.ctx with
  | none => s
  | some x =>
    let va := a % 2 ^ 56
    if t.space != .glob || s.mem.tlb.any (fun k => k.covers [.engine e.engine] x va) then s else (s.countWalk x va).tlbInsert (.engine e.engine) x va t.leaf
/-- A piece of an access with what reaching it leaves: the engine's cached translation, or a fault's used answer and listed sector
(17 R324, R327, R328). -/
def State.copyAt (s : State) (e : CopyEnv) (sp a n : Nat) (need : Need) : State × Res Target :=
  match s.copyPiece e sp a n need with
  | .ok t => (s.engineFill e t a, .ok t)
  | .trap t => ((s.useAnswer [.engine e.engine] (e.ctx.getD 4096) t).listPoison t, .trap t)
  | .wait m => (s, .wait m)
/-- The home line size by which accesses to a record's space are cut. -/
def copyLine (sp : Nat) : Nat := if sp == 0 then 128 else 64

/-- How a row's accesses come out: bytes read, a status with the faulting address, or a translation to wait for. -/
inductive CopyOut
  | ok (bs : List Byte)
  | stop (status : Nat) (fva : Option Nat)
  | wait (m : Option Miss)

/-- Reads the pieces of a row at the channel's stamp (03 R80 third branch, R96). A read that decodes elements of a page without a row
length ends with FORMAT status (02 R61). -/
def copyRead (e : CopyEnv) (sp a : Nat) (decodes : Bool) (need : Need) : List (Nat × Nat) → State → Word → List Byte → State × Word × CopyOut
  | [], s, ts, acc => (s, ts, .ok acc)
  | (o, n) :: rest, s, ts, acc =>
    let ea := (a + o) % 2 ^ 64
    let p := s.copyAt e sp ea n need
    let s := p.1
    match p.2 with
    | .wait m => (s, ts, .wait m)
    | .trap _ => (s, ts, .stop 3 (some ea))
    | .ok t =>
      if decodes && t.space == .glob && e.ctx.isSome && leafGeom t.leaf == 0 then (s, ts, .stop 9 none)
      else if (t.space == .glob && isPeer t.addr) || s.overdue e t then (s, ts, .stop 6 (some ea))
      else if s.bad t n then (s.countRead t n, ts, .stop 6 (some ea))
      else if (s.tagMismatch t n).isSome then (s.countTag t, ts, .stop 3 (some ea))
      else if t.space == .slice then copyRead e sp a decodes need rest s ts (acc ++ (s.plot e.pid).image.readN t.addr n)
      else
        let r := s.readThird t n ts (e.ctx.getD 0) 0
        copyRead e sp a decodes need rest r.1 r.2.2.2.2 (acc ++ r.2.1)
/-- The first write to a line of a logging plot keeps its old bytes, also where the plot is saved (01 R41). -/
def State.logImage (s : State) (pid a : Nat) : State :=
  s.updPlot pid (fun p =>
    let off := p.base + a / 64 * 64
    if !p.logging || p.log.any (fun e => e.1 == off) then p else { p with log := p.log ++ [(off, p.image.readN (a / 64 * 64) 64)] })
/-- Puts bytes at one home as the channel: at a later stamp under 03 R81, or into a save image. A write into an allocation that
another plot's chain makes ends that plot's eligibility (10 R240). -/
def State.copyPut (s : State) (e : CopyEnv) (t : Target) (bs : List Byte) (ts : Word) : State × Word :=
  let s := if e.foreign && (t.space == .slice || t.space == .scratch) then s.endEligible e.pid else s
  if t.space == .slice then ((s.logImage e.pid t.addr).updPlot e.pid (fun p => { p with image := p.image.writeN t.addr bs }), ts)
  else
    let q := s.putHome t bs ts (e.ctx.getD 0) 0
    (q.1.kbTouch t bs.length, q.2)
/-- Writes the pieces of a row; a home that has failed ends the record with DATA (19 R373). -/
def copyWrite (e : CopyEnv) (sp a : Nat) (need : Need) : List (Nat × Nat) → State → Word → List Byte → State × Word × CopyOut
  | [], s, ts, _ => (s, ts, .ok [])
  | (o, n) :: rest, s, ts, bs =>
    let ea := (a + o) % 2 ^ 64
    let p := s.copyAt e sp ea n need
    let s := p.1
    match p.2 with
    | .wait m => (s, ts, .wait m)
    | .trap _ => (s, ts, .stop 4 (some ea))
    | .ok t =>
      if (t.space == .glob && isPeer t.addr) || s.homeDead t || s.overdue e t then (s, ts, .stop 6 (some ea))
      else if (s.tagMismatch t n).isSome then (s.countTag t, ts, .stop 4 (some ea))
      else
        let r := s.copyPut e t (bs.take n) ts
        copyWrite e sp a need rest r.1 r.2 (bs.drop n)
/-- Writes plane records into the target plot (05 R137). -/
def copyPlanes (e : CopyEnv) (perm : Nat) : List (Nat × List Byte) → State → Word → State × Word
  | [], s, ts => (s, ts)
  | (x, bs) :: rest, s, ts =>
    let r := (unitsAt perm x bs.length).foldl (fun (acc : State × Word × List Byte) u =>
      match acc.1.copyPiece e 2 u 8 { r := false, w := true } with
      | .ok t => let q := acc.1.copyPut e t (acc.2.2.take 8) acc.2.1; (q.1, q.2, acc.2.2.drop 8)
      | _ => acc) (s, ts, bs)
    copyPlanes e perm rest r.1 r.2.1

/-! The transfer (10 R236). -/

/-- The formats a record's source and destination pages may have (10 R236, 02 R65). -/
def CopyRec.srcNeed (r : CopyRec) : Need :=
  { r := true, w := false, fmt := fun f => match r.decode with | 1 | 3 => f == 1 | 2 => f != 1 | _ => true }
def CopyRec.dstNeed (r : CopyRec) : Need :=
  { r := false, w := true, fmt := fun f => match r.decode with | 4 => f ≤ 1 | _ => f == 0 || r.decode == 0 }
/-- The leaf of a global source row. -/
def State.srcLeaf (s : State) (e : CopyEnv) (a : Nat) : BitVec 128 :=
  match s.copyPiece e 0 a 1 { r := true, w := false, tagged := false } with
  | .ok t => t.leaf
  | _ => 0
/-- The TYPE of a page format's elements in mode 2: RAW is read as FP32. -/
def fmtType (fmt : Nat) : Nat := match fmt with | 2 => 13 | 3 => 14 | 4 => 9 | 5 => 10 | _ => 8
/-- The first byte that a row of the source is read from, and how many bytes: in mode 3, whose rows 10 R236 does not place, the whole lines
that hold the elements from that of the row's address on, as a .x4 load would name it (log 85). -/
def CopyRec.rowSpan (r : CopyRec) (a z : Nat) : Nat × Nat :=
  if r.decode == 3 then (a / 128 * 128, 128 * ((2 * (a % 128) + r.len + 239) / 240)) else (a, r.srcLen z)
/-- What a row of the source becomes: bytes of the destination row, or plane records; none on a format fault. -/
def CopyRec.convert (r : CopyRec) (fmt row place : Nat) (bs : List Byte) : Option (List Byte ⊕ List (Nat × List Byte)) :=
  let chunks (blocks : List PBlock) : List (Nat × List Byte) :=
    (List.range (r.len / 768)).flatMap (fun c => r.quad.storeChunk row c ((blocks.drop (16 * c)).take 16))
  match r.decode with
  | 0 => some (.inl bs)
  | 1 => (x4Blocks r.planes (r.len / 48) bs).map (fun b => .inr (chunks b))
  | 2 => some (.inr (chunks (fpBlocks (fmtType fmt) r.planes r.np (r.len / 48) bs)))
  | 3 =>
    let lines := (List.range (bs.length / 128)).map (fun i => (bs.drop (128 * i)).take 128)
    if 120 ≤ place || lines.any (fun l => !x4LineOk l) then none
    else some (.inl (((lines.flatMap (fun l => (List.range 240).map (fun k => x4ToF32 (x4Elem l (k / 48) (k % 48))))).drop (2 * place)).take r.len
      |>.flatMap (bytesOf 4)))
  | _ =>
    let vs := (List.range r.len).map (fun k => Fmt.f32.unpack (ofBytes ((bs.drop (4 * k)).take 4)))
    some (.inl ((List.range (r.len / 240)).flatMap (fun i => x4Line5 r.xt r.xl ((vs.drop (240 * i)).take 240))))
/-- The mode reads encoded elements. -/
def CopyRec.decodes (r : CopyRec) : Bool := r.decode == 1 || r.decode == 2 || r.decode == 3
/-- One row: read, converted, written. -/
def copyRow (e : CopyEnv) (r : CopyRec) (row : Nat) (s : State) (ts : Word) : State × Word × CopyOut :=
  let a := rowStart r.saddr r.sstr row
  let leaf := if r.sspace == 0 then s.srcLeaf e a else 0
  let z := if r.decode == 2 then typeSize (fmtType (leafFmt leaf)) else 4
  let n := (r.rowSpan a z).2
  let at_ := (r.rowSpan a z).1
  let pcs := cutLines (copyLine r.sspace) at_ (n / 64 + 3) 0 n
  let q := copyRead e r.sspace at_ r.decodes r.srcNeed pcs s ts []
  match q.2.2 with
  | .ok bs =>
    (match r.convert (leafFmt leaf) row (a % 128) bs with
     | none => (q.1, q.2.1, .stop 9 none)
     | some (.inr recs) =>
       let w := copyPlanes e r.quad.perm recs q.1 q.2.1
       (w.1, w.2, .ok [])
     | some (.inl out) =>
       let d := rowStart r.daddr r.dstr row
       copyWrite e r.dspace d r.dstNeed (cutLines (copyLine r.dspace) d (out.length / 64 + 3) 0 out.length) q.1 q.2.1 out)
  | o => (q.1, q.2.1, o)
/-- The rows of a record, until one stops. -/
def copyRows (e : CopyEnv) (r : CopyRec) : List Nat → State → Word → State × Word × CopyOut
  | [], s, ts => (s, ts, .ok [])
  | row :: rows, s, ts =>
    let q := copyRow e r row s ts
    match q.2.2 with
    | .ok _ => copyRows e r rows q.1 q.2.1
    | o => (q.1, q.2.1, o)

/-! The end of a record (10 R238; 09 R204, R213). -/

/-- Bytes that a record writes into, and reads from, its target plot. -/
def CopyRec.inBytes (r : CopyRec) : Nat :=
  if r.dspace != 2 then 0
  else if r.toPlanes then r.nrows * (r.len / 768) * (96 * r.planes + 32 + (if r.np then 96 else 0)) else r.nrows * r.dstLen
def CopyRec.outBytes (r : CopyRec) : Nat := if r.sspace == 2 then r.nrows * r.srcLen 4 else 0
/-- The counter's home, none for a record without one, or the fault of its page. -/
def State.counterHome (s : State) (e : CopyEnv) (r : CopyRec) : State × Res (Option Target) :=
  if r.caddr == 0 then (s, .ok none)
  else
    let p := s.copyAt e 0 r.caddr 8 { r := true, w := true }
    (p.1, p.2.bind (fun t => .ok (some t)))
/-- The barrier count of a record: false where it falls into the dead generation (09 R213). -/
def State.barrierCount (s : State) (e : CopyEnv) (r : CopyRec) (epoch : Nat) (ts : Word) : State × Word × Bool :=
  match s.copyPiece e 2 r.boff 16 { r := true, w := true } with
  | .ok t =>
    let raw := if t.space == .slice then (s.plot e.pid).image.num t.addr 16 else s.mem.scratch.num t.addr 16
    let o := KObj.of raw
    if !o.valid || o.epoch != epoch then (s, ts, false)
    else
      let o := { o with inb := (o.inb + 2 ^ 32 - r.inBytes % 2 ^ 32) % 2 ^ 32, outb := (o.outb + 2 ^ 32 - r.outBytes % 2 ^ 32) % 2 ^ 32 }
      let q := s.copyPut e t (bytesOf 16 o.advance.num) ts
      (q.1, q.2, true)
  | _ => (s, ts, false)
/-- The final write of CTRL, or of FVA before it, at the record (10 R238), with the initiating context's translation, permissions and
tags (R237); one that meets a fault is not made, for which the spec gives no status (log 43). Answers the translation that it waits for. -/
def State.recordWrite (s : State) (e : CopyEnv) (a : Nat) (bs : List Byte) (ts : Word) : (State × Word) ⊕ Option Miss :=
  let p := s.copyAt e 0 a bs.length { r := false, w := true }
  match p.2 with
  | .ok t => .inl (if isPeer t.addr || p.1.homeDead t || p.1.overdue e t then (p.1, ts) else if (p.1.tagMismatch t bs.length).isSome then (p.1.countTag t, ts)
      else p.1.putHome t bs ts (e.ctx.getD 0) 0)
  | .trap _ => .inl (p.1, ts)
  | .wait m => .inr m
/-- CTRL with a status and OWN = 0. -/
def CopyRec.ctrlDone (r : CopyRec) (status : Nat) : List Byte :=
  let c := r.at 8 4
  bytesOf 4 (c - bits c 4 1 * 2 - bits c 0 0 + status * 2)
/-- The overflow record of a copy error (17 R335, 18 R347): group, record and counter, or channel and record of a chain that
the host started (10 R232). -/
def State.postCopyError (s : State) (gid h : Nat) (recAddr counter status : Nat) : State :=
  match s.group gid with
  | some g => s.post 0x02 (BitVec.ofNat 480 (ofDigitsW 32 [g.ctx, (s.launch g.lid).queue, (s.launch g.lid).entry, (s.plot g.pid).index, g.idx, status,
      recAddr % 2 ^ 32, recAddr / 2 ^ 32, counter % 2 ^ 32, counter / 2 ^ 32]))
  | none => s.post 0x02 (BitVec.ofNat 480 (ofDigitsW 32 [0xFFFFFFFF, h, 0, 0, 0, status, recAddr % 2 ^ 32, recAddr / 2 ^ 32]))
/-- The threads of a group that are blocked in WAITC on a counter wake (09 R204): their words execute again and trap with the notice, each
set of them at its own position. -/
def State.noticeWake (s : State) (n : Notice) : State :=
  match s.group n.gid with
  | none => s
  | some g =>
    let on (w : Wait) : Bool := match w with
      | .addr w => w.counter && w.tgt.space == .glob && w.tgt.addr == n.counter
      | _ => false
    let stands (t : Thread) : Pos := if t.wait.isSome then t.pos else t.ret
    let set := maskOf (fun l => (g.thread l).waits on)
    let s := { s with mem := { s.mem with monitors := s.mem.monitors.filter (fun m =>
      match m.who with
      | .thread gid i => !(gid == n.gid && set.getLsbD i)
      | .queue _ => true) } }
    s.updGroup n.gid (fun g => g.mapThreads (fun l t =>
      if !set.getLsbD l then t
      else
        let t := { t with told := some (stands t, n) }
        if t.wait.any on then { t.again t.pos t.wnext t.src with wait := none } else t.suspAgain))
/-- Posts a copy-error notice (09 R204): at the counter's home while it has room, to the driver otherwise, and where the record has no
counter at a home of the device; one whose group has ended is only counted. -/
def State.postNotice (s : State) (h : Nat) (c : HwChan) (r : CopyRec) (home : Option Target) : State :=
  if c.init.host then s.postCopyError 0 h r.addr r.caddr r.status
  else
    match home with
    | some t =>
      if isPeer t.addr then s.postCopyError c.init.gid h r.addr r.caddr r.status
      else if (s.group c.init.gid).isNone then s.count (telBlock (8 + t.mc) + 0x60) 1
      else if 256 ≤ (s.mem.notices.filter (fun n => homeMc n.counter == t.mc)).length then s.postCopyError c.init.gid h r.addr r.caddr r.status
      else
        let n : Notice := ⟨c.init.gid, t.addr, BitVec.ofNat 64 r.addr, r.status⟩
        { s with mem := { s.mem with notices := s.mem.notices ++ [n] } }.noticeWake n
    | none => s.postCopyError c.init.gid h r.addr r.caddr r.status

/-- The barrier count of a record whose counter add has performed: DONE, or DEADBAR (10 R238). -/
def State.recordCount (s : State) (e : CopyEnv) (r : CopyRec) (ts : Word) : State × Nat × Option Nat × Word :=
  match r.epoch with
  | none => (s, 1, none, ts)
  | some ep =>
    let q := s.barrierCount e r ep ts
    (q.1, if q.2.2 then 1 else 8, none, q.2.1)
/-- The engine and the core of the target plot that a record names serve each other. -/
def State.plotServes (s : State) (e : CopyEnv) (r : CopyRec) : Bool :=
  !r.needsPlot || (match s.copyPiece e 2 0 1 { r := true, w := false } with | .wait _ => false | _ => true)
/-- What performing a fetched record comes to: state, status, faulting address, channel stamp; or what it waits for. The counter add is
an atomic at the counter's home (03 R79, R92). -/
def State.runRecord (s : State) (h : Nat) (c : HwChan) (r : CopyRec) : (State × Nat × Option Nat × Word) ⊕ Option Miss :=
  let e := s.copyEnv h c r
  if r.status != 0 then .inl (s, r.status, r.fva.map (·.toNat), c.stamp)
  else if !s.plotServes e r then .inr none
  else
    let q := copyRows e r (List.range r.nrows) s c.stamp
    match q.2.2 with
    | .wait m => .inr m
    | .stop st fva => .inl (q.1, st, fva, q.2.1)
    | .ok _ =>
      let k := q.1.counterHome e r
      match k.2 with
      | .wait m => .inr m
      | .trap _ => .inl (k.1, 4, some r.caddr, q.2.1)
      | .ok none => .inl (k.1.recordCount e r q.2.1)
      | .ok (some t) =>
        if isPeer t.addr || k.1.overdue e t then .inl (k.1, 6, some r.caddr, q.2.1)
        else if k.1.bad t 8 then .inl (k.1.countRead t 8, 6, some r.caddr, q.2.1)
        else if (k.1.tagMismatch t 8).isSome then .inl (k.1.countTag t, 4, some r.caddr, q.2.1)
        else
          let w := k.1.atomicAt t 8 (fun v => (v + r.cinc) % 2 ^ 64) (q.2.1 + 1) (e.ctx.getD 0) 1
          .inl (w.1.recordCount e r w.2.2)

/-- A translation that only the host can give: asked for once, and the device step waits (17 R327). -/
def State.askOnce (s : State) (m : Option Miss) : Host.Outcome State Fault Refusal :=
  match m with
  | none => .fault .eventNotEnabled
  | some k =>
    if s.mbox.pending.contains (Pending.trans k.holder k.ctx k.page) then .fault .eventNotEnabled else .next (s.askHost m)

/-! The device steps. -/

/-! The stamps of the agents (03 R96). -/

/-- The stamp of an agent's port: a host port by its number, a peer port from 256 up. -/
def State.portStamp (s : State) (k : Nat) : Word := (alGet s.peers.stamps k).getD s.tbase
def State.setPortStamp (s : State) (k : Nat) (ts : Word) : State := { s with peers := { s.peers with stamps := alSet s.peers.stamps k ts } }

/-- CHEAD_WRITE: the host's store to CHEAD of a hardware channel (10 R232, R233); one that finds no room waits at the channel. It
performs at the stamp of the host ports, the later of the two since the register write names neither (03 R96, log 42). -/
def execCheadWrite (h : Nat) (addr : DWord) (s : State) : Host.Outcome State Fault Refusal :=
  s.regAnswers <|
  if 4096 ≤ h then .fault .eventNotEnabled
  else
    let q := s.homeWrite { space := .chan, addr := 32 * h } [] (tmax (s.portStamp 20) (s.portStamp 21)) 0 8
    let i : Init := { Init.none with host := true, ctx := (s.boundCtx h).getD 4096 }
    .next (((q.1.setPortStamp 20 q.2).setPortStamp 21 q.2).updChan h (fun c =>
      (c.head addr.toNat i q.2).getD { c with waiting := c.waiting ++ [(addr.toNat, i, q.2)] }))
/-- CCTL_GO (10 R231): a chain that a drain halted goes on with its next record (19 R372). -/
def State.cctlGo (s : State) (h : Nat) : State :=
  s.updChan h (fun c => if c.st != 2 then c else if c.held then { c with st := 1, held := false } else c.nextHead)
def execCctlGo (h : Nat) (s : State) : Host.Outcome State Fault Refusal :=
  s.regAnswers (if (s.chan h).st == 2 then .next (s.cctlGo h) else .fault .eventNotEnabled)

/-- The ranges that a record puts into the scoreboard of its target plot's core (03 R91, 10 R240). -/
def CopyRec.ranges (r : CopyRec) (p : Plot) : List SbRange :=
  let span (a : Nat) (str : Int) (len : Nat) (wr : Bool) : SbRange :=
    let z := ((a : Int) + (r.nrows - 1 : Nat) * str).toNat
    ⟨p.core, p.base + min a z, max a z + len - min a z, wr, r.id⟩
  (if r.sspace == 2 then [span r.saddr r.sstr (r.srcLen 4) false] else []) ++
  (if r.dspace != 2 then []
   else if r.toPlanes then
     let lo := r.quad.base / 256 * 256
     [⟨p.core, p.base + lo, (r.quad.ending (r.len / 768) 0 + 255) / 256 * 256 - lo, true, r.id⟩]
   else [span r.daddr r.dstr r.dstLen true])
/-- The record reads or writes the target plot's scratchpad, whose ranges enter the scoreboard while it is resident. -/
def State.boardRecord (s : State) (r : CopyRec) (p : Plot) : State :=
  if p.st == .resident then { s with mem := { s.mem with sboard := s.mem.sboard ++ r.ranges p } } else s
/-- The checks of a fetched record after OWN (10 R237): its status, 0 to go on. -/
def State.recordStatus (s : State) (i : Init) (r : CopyRec) : Nat :=
  if r.bad || (i.host && r.needsPlot) then 5
  else if !r.needsPlot then 0
  else
    match s.targetPlot i r with
    | none => 7
    | some p => if r.outside p.size then 2 else 0
/-- A record whose checks have passed starts: its barrier object's epoch is captured, its ranges enter the scoreboard, and
the eligibility of the initiating plot is judged (09 R213; 10 R240; 01 R41). -/
def State.startRecord (s : State) (e : CopyEnv) (c : HwChan) (r : CopyRec) : State × CopyRec :=
  let tp := s.targetPlot c.init r
  let raw := match s.copyPiece e 2 r.boff 16 { r := true, w := false } with
    | .ok t => if t.space == .slice then (s.plot e.pid).image.num t.addr 16 else s.mem.scratch.num t.addr 16
    | _ => 0
  let r := if r.bobj then { r with epoch := some (KObj.of raw).epoch } else r
  let own := match tp with | some p => r.dspace == 2 && p.pid == c.init.pid | none => false
  let s := if !c.init.host && (!own || r.caddr != 0) then s.endEligible c.init.pid else s
  match tp with
  | some p => (s.boardRecord r p, r)
  | none => (s, r)
/-- COPY_RECORD_FETCH (10 R237). -/
def execCopyRecordFetch (h : Nat) (s : State) : Host.Outcome State Fault Refusal :=
  let c := s.chan h
  let port := Config.enginePort (h / 64)
  if c.st != 1 || c.record.isSome then .fault .eventNotEnabled
  else if 20 ≤ port && 1 ≤ s.chipState port && s.chipState port ≤ 3 then .next (s.chainHold h)
  else
    let s := s.rouse (fun u => u.1 == 3 || u == (2, port))
    let e : CopyEnv := ⟨h / 64, c.init.context, [], 0, false, false⟩
    let put (s : State) (r : CopyRec) (ts : Word) : State :=
      s.updChan h (fun c => { c with record := some r, last := BitVec.ofNat 64 c.next, stamp := ts })
    let f := s.fresh
    let fail (s : State) (st : Nat) : Host.Outcome State Fault Refusal :=
      .next (put s ⟨f.1, c.next, 0, st, some (BitVec.ofNat 64 c.next), none, [], false⟩ c.stamp)
    if s.chipState port == 4 then fail f.2 6
    else
    let q := copyRead e 0 c.next false { r := true, w := false } [(0, 128)] f.2 c.stamp []
    match q.2.2 with
    | .wait m => s.askOnce m
    | .stop st _ => fail q.1 st
    | .ok bs =>
      let r : CopyRec := ⟨f.1, c.next, BitVec.ofNat 1024 (ofBytes bs), 0, none, none, [], false⟩
      if !r.own then .next ((q.1.updChan h (fun c => { c with last := BitVec.ofNat 64 c.next, stamp := q.2.1 })).chainEnd h false)
      else
        let st := q.1.recordStatus c.init r
        if st != 0 then .next (put q.1 { r with status := st } q.2.1)
        else if !q.1.plotServes (q.1.copyEnv h c r) r then .fault .eventNotEnabled
        else
          let x := q.1.startRecord (q.1.copyEnv h c r) c r
          .next (put x.1 x.2 q.2.1)

/-- A chain's access has waited 50 ms for a draining link chiplet's memory (19 R372): the record, or the one that is fetched, ends with
DATA. -/
def State.copyOverdue (s : State) (h : Nat) : Host.Outcome State Fault Refusal :=
  let c := s.chan h
  let e : CopyEnv := ⟨h / 64, c.init.context, [], 0, false, true⟩
  if c.st != 1 || (s.chipState 20 == 0 && s.chipState 21 == 0) then .fault .eventNotEnabled
  else
    match c.record with
    | some r =>
      (match s.runRecord h c r with
       | .inr none => .next (s.updChan h (fun c => { c with record := some { r with late := true } }))
       | _ => .fault .eventNotEnabled)
    | none =>
      (match s.copyPiece e 0 c.next 128 { r := true, w := false } with
       | .ok t =>
         if !s.tierWaits t then .fault .eventNotEnabled
         else
           let f := s.fresh
           .next (f.2.updChan h (fun c => { c with
             record := some ⟨f.1, c.next, 0, 6, some (BitVec.ofNat 64 c.next), none, [], true⟩, last := BitVec.ofNat 64 c.next }))
       | _ => .fault .eventNotEnabled)
/-- A fetched record may perform: its ranges are in the scoreboard (10 R240). -/
def State.recordMay (s : State) (c : HwChan) (r : CopyRec) : Bool :=
  match s.targetPlot c.init r with
  | some p => p.st != .resident || s.rangesIn p.core r.id
  | none => true
/-- COPY_RECORD_COMPLETE (10 R238): a record whose outcome is DONE or DEADBAR. -/
def execCopyRecordComplete (h : Nat) (s : State) : Host.Outcome State Fault Refusal :=
  let c := s.chan h
  match c.record with
  | none => .fault .eventNotEnabled
  | some r =>
    if !s.recordMay c r then .fault .eventNotEnabled
    else
      match s.runRecord h c r with
      | .inr m => s.askOnce m
      | .inl (s', st, _, ts) =>
        if st != 1 && st != 8 then .fault .eventNotEnabled
        else
          match s'.recordWrite (s.copyEnv h c r) (r.addr + 8) (r.ctrlDone st) (ts + 1) with
          | .inr m => s.askOnce m
          | .inl w =>
            let s' := (w.1.unboard r.id).updChan h (fun c => { c with stamp := w.2 })
            if r.nxt == 0 then .next (s'.chainEnd h false)
            else .next (s'.updChan h (fun c => { c with record := none, next := r.nxt }))
/-- COPY_RECORD_FAIL (10 R238): any other outcome. -/
def execCopyRecordFail (h : Nat) (s : State) : Host.Outcome State Fault Refusal :=
  let c := s.chan h
  match c.record with
  | none => .fault .eventNotEnabled
  | some r =>
    if !s.recordMay c r then .fault .eventNotEnabled
    else
      match s.runRecord h c r with
      | .inr m => s.askOnce m
      | .inl (s', st, fva, ts) =>
        if st == 1 || st == 8 then .fault .eventNotEnabled
        else
          let e := s.copyEnv h c r
          let f : (State × Word) ⊕ Option Miss := match fva with
            | none => .inl (s', ts)
            | some v => s'.recordWrite e (r.addr + 88) (bytesOf 8 v) (ts + 1)
          match f with
          | .inr m => s.askOnce m
          | .inl a =>
            match a.1.recordWrite e (r.addr + 8) (r.ctrlDone st) (a.2 + 1) with
            | .inr m => s.askOnce m
            | .inl w =>
              let k := w.1.counterHome e r
              match k.2 with
              | .wait m => s.askOnce m
              | .trap _ => .next ((((k.1.unboard r.id).updChan h (fun c => { c with stamp := w.2 })).chainEnd h true).postNotice h c { r with status := st } none)
              | .ok home =>
                .next ((((k.1.unboard r.id).updChan h (fun c => { c with stamp := w.2 })).chainEnd h true).postNotice h c { r with status := st } home)

end Sys2Proof.Machine
end

