-- ==== Sys2Proof/Machine/Drill.lean ====
section
/-! DEFINITION. The Drill stream (10 R217 to R230, R233): control and loops, address arithmetic, loads into seed queues, gathers,
pushes, the back queue and DCOPY. -/

namespace Sys2Proof.Machine
open Sys2Proof

/-! The frame of a Drill word (10 R217, R218). -/

/-- The Drill lanes: lanes below the group width whose threads are live. -/
def Group.drillLanes (g : Group) : List Nat := allLanes.filter (fun l => l < g.width && (g.thread l).live)
/-- Changes the Drill stream's own state. -/
def State.updDrill (s : State) (f : DrillSt → DrillSt) : State :=
  { s with cur := { s.cur with arch := { s.cur.arch with drill := f s.cur.arch.drill } } }
def State.dts (s : State) : Word := s.cur.arch.drill.dts
/-- What a Drill word comes to: the checks of 05 R138, its effect with the stream past the word, and the limits of 17 R329,
measured from the stream's entry. -/
def State.drillRes (s : State) (i : Instr) (body : State → Res State) : Res State :=
  if s.illegalHere i then .trap Trap.illegal
  else
    (body (s.updDrill (fun d => { d with pos := s.issue.pos.after i.width }))).bind fun s' =>
      if inRange (s.launch s.cur.lid).dentry s'.cur.arch.drill.pos.pc then .ok s' else .trap (Trap.of 0x20)
/-- Executes a Drill word. -/
def runDrill (i : Instr) (s : State) (body : State → Res State) : Host.Outcome State Fault Refusal :=
  if s.issue.active && s.issue.drill then .next (s.finishWord i (s.drillRes i body)) else .fault .noIssue

/-- An address register. -/
def State.areg (s : State) (f : BitVec 6) : DWord := s.cur.arch.drill.a.getD f.toNat 0
/-- Writes an address register. -/
def State.setAreg (s : State) (n : Nat) (x : DWord) : State := s.updDrill (fun d => { d with a := d.a.set n x })
/-- A word of address arithmetic. -/
def runAreg (i : Instr) (s : State) (w : PW) (f : State → DWord) : Host.Outcome State Fault Refusal :=
  runDrill i s (fun s => .ok (s.setAreg w.d.toNat (f s)))
/-- Lane i of an address vector (10 R219). -/
def State.avec (s : State) (f : BitVec 6) (lane : Nat) : DWord :=
  s.areg f + BitVec.ofNat 64 lane * s.cur.arch.drill.a.getD (f.toNat + 1) 0

/-! Control (10 R221 to R223, R230). -/

/-- DNOP (10 R221). -/
def execDnop (w : PW) (s : State) : Host.Outcome State Fault Refusal := runDrill (.dnop w) s (fun s => .ok s)
/-- DBRA (10 R221). -/
def execDbra (w : PW) (s : State) : Host.Outcome State Fault Refusal :=
  runDrill (.dbra w) s (fun s => .ok (s.updDrill (fun d => { d with pos := branchTarget s.issue.pos w })))
/-- DEND (10 R221). -/
def execDend (w : PW) (s : State) : Host.Outcome State Fault Refusal :=
  runDrill (.dend w) s (fun s => .ok (s.updDrill (fun d => { d with pos := s.issue.pos, ended := true })))
/-- DLOOP (10 R222). -/
def execDloop (w : PW) (x : PX) (s : State) : Host.Outcome State Fault Refusal :=
  runDrill (.dloop w x) s (fun s =>
    let t : Word := if w.x then (s.areg w.a).setWidth 32 else x.body.setWidth 32
    if t == 0 then .trap Trap.operand
    else .ok (s.updDrill (fun d => { d with loops := d.loops.set w.d.toNat ⟨t, t, pc52 (s.issue.pos.pc + 1)⟩ })))
/-- DNEXT (10 R223). -/
def execDnext (w : PW) (s : State) : Host.Outcome State Fault Refusal :=
  let sr : BitVec 6 := (w.imm8.extractLsb' 0 4).setWidth 6
  let en := w.imm8.getLsbD 4
  runDrill (.dnext w) s (fun s =>
    let l := s.cur.arch.drill.loops.getD w.d.toNat ⟨0, 0, 0⟩
    if l.count == 0 then .trap Trap.operand
    else
      let l' := { l with count := l.count - 1 }
      let s := s.updDrill (fun d => { d with loops := d.loops.set w.d.toNat l' })
      if l'.count != 0 then
        let s := if en then s.setAreg w.a.toNat (s.areg w.a + s.areg sr) else s
        .ok (s.updDrill (fun d => { d with pos := ⟨l.start, 0⟩ }))
      else .ok (if en then s.setAreg w.a.toNat (s.areg w.a - (l.trip - 1).setWidth 64 * s.areg sr) else s))
/-- DWAITO (10 R230): waits, raises a deferred fault as a Drill trap, or joins dts to the class's completion stamps. -/
def execDwaito (w : PW) (s : State) : Host.Outcome State Fault Refusal :=
  let c := clsOf w.d.toNat
  runDrill (.dwaito w) s (fun s' =>
    if w.imm8.toNat < s.cur.counter c then .wait none
    else
      match s.cur.deferredOf c with
      | some t => .ok (s.raiseDeferred c t)
      | none => .ok { s' with cur := s'.cur.raiseDts (s'.cur.retired.getD c.num s'.dts) })

/-! Address arithmetic (10 R220). -/

/-- AADD (10 R220). -/
def execAadd (w : PW) (s : State) : Host.Outcome State Fault Refusal :=
  runAreg (.aadd w) s w (fun s => if w.x then s.areg w.a - s.areg w.b else s.areg w.a + s.areg w.b)
/-- AADDI (10 R220). -/
def execAaddi (w : PW) (s : State) : Host.Outcome State Fault Refusal :=
  runAreg (.aaddi w) s w (fun s => s.areg w.a + w.imm8.signExtend 64)
/-- AADDI with an XI extension. -/
def execAaddiWide (w : PW) (x : PX) (s : State) : Host.Outcome State Fault Refusal :=
  runAreg (.aaddiWide w x) s w (fun s => s.areg w.a + (x.body ++ w.imm8).signExtend 64)
/-- AMOVI (10 R220). -/
def execAmovi (w : PW) (s : State) : Host.Outcome State Fault Refusal := runAreg (.amovi w) s w (fun _ => w.imm8.signExtend 64)
/-- AMOVI with an XI extension. -/
def execAmoviWide (w : PW) (x : PX) (s : State) : Host.Outcome State Fault Refusal :=
  runAreg (.amoviWide w x) s w (fun _ => (x.body ++ w.imm8).signExtend 64)
/-- ASHLI (10 R220). -/
def execAshli (w : PW) (s : State) : Host.Outcome State Fault Refusal :=
  let n := w.imm8.toNat % 64
  runAreg (.ashli w) s w (fun s =>
    match w.imm8.toNat / 64 with
    | 0 => s.areg w.a <<< n
    | 1 => s.areg w.a >>> n
    | _ => (s.areg w.a).sshiftRight n)
/-- AMUL (10 R220). -/
def execAmul (w : PW) (s : State) : Host.Outcome State Fault Refusal := runAreg (.amul w) s w (fun s => s.areg w.a * s.areg w.b)

/-! Queues (01 R32). -/

/-- A full queue cannot reserve (01 R33). -/
def State.queueFull (s : State) (q : Nat) : Bool := 8 ≤ (s.cur.arch.q.getD q Queue.empty).ents.length
/-- The absolute number of the entry that the next reservation takes. -/
def State.tailOf (s : State) (q : Nat) : Nat := let u := s.cur.arch.q.getD q Queue.empty; u.base + u.ents.length
/-- Reserves the tail entry. -/
def State.reserve (s : State) (q : Nat) (e : QEnt) : State :=
  let a := s.cur.arch
  { s with cur := { s.cur with arch := { a with q := a.q.modify q (fun u => { u with ents := u.ents ++ [e] }) } } }
/-- The head entry of qb, once every live lane has written it (01 R32). -/
def State.qbHead (s : State) : Option QEnt :=
  match s.cur.arch.qb.ents with
  | [] => none
  | e :: _ => if s.cur.liveMask &&& ~~~e.written == 0 && e.written != 0 then some e else none
/-- Reads the head of qb: dts joins its stamp (03 R88), and it leaves unless the word peeks. -/
def State.takeQb (s : State) (e : QEnt) (peek : Bool) : State :=
  let s := { s with cur := s.cur.raiseDts e.stamp }
  let a := s.cur.arch
  if peek then s else { s with cur := { s.cur with arch := { a with qb := ⟨a.qb.base + 1, a.qb.ents.tail⟩ } } }
/-- The entry that a word reserves: filled at once when it has no Drill lane (10 R217). -/
def State.freshEntry (s : State) (lanes : List Nat) : QEnt := { QEnt.blank with filled := lanes.isEmpty, stamp := s.dts }

/-! Loads and gathers (10 R224 to R226). -/

/-- The home accesses of each Drill lane (08 R183, 10 R218). -/
def State.drillTargets (s : State) (sp : Space) (lanes : List Nat) (typ : Nat) (ea : Nat → DWord) (off : Nat → Int) :
    Res (List (Nat × List (Target × Nat))) :=
  Res.mapM (fun l =>
    let r := if sp == .glob then s.checkGlobal (holdersOf s.cur.core) s.cur.ctx s.inHandler l (ea l) (s.loadSize sp typ (ea l))
        { loadNeed typ with chanTyp := 99 }
      else s.checkLocal s.cur sp l (off l) (typeSize typ) 1 false
    r.bind fun ts => .ok (l, ts)) lanes
/-- Sends a lane's load into an entry; `op` is the gather it belongs to. -/
def State.sendDrill (s : State) (lane q entry typ hint : Nat) (ea : DWord) (op : Nat) (ts : List (Target × Nat)) : State :=
  let f := s.fresh
  let s := f.2
  let parts := ts.map (fun p => (⟨p.1, p.2, .unsent⟩ : LPart))
  let r : LoadRec := ⟨f.1, lane, 0, .queue q entry, typ, hint, s.cur.ctx, ea, parts, s.dts, op, []⟩
  { s with cur := { s.cur with dloads := s.cur.dloads ++ [r] } }
/-- DLD, DLDX, DLDS and DLDC. -/
def runDld (i : Instr) (s : State) (w : PW) (x : Option PX) (sp : Space) : Host.Outcome State Fault Refusal :=
  let typ := memTyp x
  let off := memOff w x (typeSize typ)
  let q := w.d.toNat - 56
  runDrill i s (fun s =>
    let lanes := s.cur.drillLanes
    let ea (l : Nat) : DWord := s.avec w.a l + BitVec.ofInt 64 off
    (s.drillTargets sp lanes typ ea (fun l => (s.avec w.a l).toInt + off)).bind fun ts =>
      if s.queueFull q then .wait none
      else
        let e := s.tailOf q
        .ok (ts.foldl (fun s p => s.sendDrill p.1 q e typ (memHint x) (ea p.1) 0 p.2) (s.reserve q (s.freshEntry lanes))))
/-- DLD (10 R224). -/
def execDld (w : PW) (s : State) : Host.Outcome State Fault Refusal := runDld (.dld w) s w none .glob
/-- DLD with an XM extension. -/
def execDldWide (w : PW) (x : PX) (s : State) : Host.Outcome State Fault Refusal := runDld (.dldWide w x) s w (some x) .glob
/-- DLDX (10 R224). -/
def execDldx (w : PW) (s : State) : Host.Outcome State Fault Refusal := runDld (.dldx w) s w none .chip
/-- DLDX with an XM extension. -/
def execDldxWide (w : PW) (x : PX) (s : State) : Host.Outcome State Fault Refusal := runDld (.dldxWide w x) s w (some x) .chip
/-- DLDS (10 R224). -/
def execDlds (w : PW) (s : State) : Host.Outcome State Fault Refusal := runDld (.dlds w) s w none .scratch
/-- DLDS with an XM extension. -/
def execDldsWide (w : PW) (x : PX) (s : State) : Host.Outcome State Fault Refusal := runDld (.dldsWide w x) s w (some x) .scratch
/-- DLDC (10 R224). -/
def execDldc (w : PW) (s : State) : Host.Outcome State Fault Refusal := runDld (.dldc w) s w none .cluster
/-- DLDC with an XM extension. -/
def execDldcWide (w : PW) (x : PX) (s : State) : Host.Outcome State Fault Refusal := runDld (.dldcWide w x) s w (some x) .cluster

/-- DGATH (10 R226): an engine operation of class ogt, whose start stamp is dts after qb is read. -/
def execDgath (w : PW) (x : PX) (s : State) : Host.Outcome State Fault Refusal :=
  let typ := x.typ
  let size := typeSize typ
  let off : Int := x.offh.toInt * size
  let q := w.d.toNat - 56
  runDrill (.dgath w x) s (fun s =>
    match s.qbHead with
    | none => .wait none
    | some h =>
      let lanes := s.cur.drillLanes
      let idx (l : Nat) : Int := if w.x then toSigned 32 (h.vals.getD l 0).toNat else (h.vals.getD l 0).toNat
      let ea (l : Nat) : DWord := s.areg w.a + BitVec.ofInt 64 (idx l * size + off)
      if s.queueFull q || 255 ≤ s.cur.counter .ogt then .wait none
      else
        (s.drillTargets .glob lanes typ ea (fun _ => 0)).bind fun ts =>
          let s := s.takeQb h w.bm
          let e := s.tailOf q
          let f := s.fresh
          let s := (f.2.reserve q (s.freshEntry lanes)).addOp f.1 .ogt s.dts lanes.length
          .ok (ts.foldl (fun s p => s.sendDrill p.1 q e typ x.hint (ea p.1) f.1 p.2) s))

/-! Pushes, the back queue, prefetch and DCOPY (10 R227 to R229, R233). -/

/-- DPUSH (10 R227). -/
def execDpush (w : PW) (s : State) : Host.Outcome State Fault Refusal :=
  let q := w.d.toNat - 56
  runDrill (.dpush w) s (fun s =>
    if s.queueFull q then .wait none
    else
      let lanes := s.cur.drillLanes
      let val (l : Nat) : Word := if w.x then (s.avec w.a l >>> 32).setWidth 32 else (s.avec w.a l).setWidth 32
      .ok (s.reserve q { QEnt.blank with vals := allLanes.map (fun l => if lanes.contains l then val l else 0), filled := true, stamp := s.dts }))
/-- DQBR (10 R228). -/
def execDqbr (w : PW) (s : State) : Host.Outcome State Fault Refusal :=
  runDrill (.dqbr w) s (fun s =>
    match s.qbHead with
    | none => .wait none
    | some h =>
      let v := h.vals.getD w.b.toNat 0
      .ok ((s.setAreg w.d.toNat (if w.x then v.signExtend 64 else v.setWidth 64)).takeQb h w.am))
/-- DPREF. -/
def runDpref (i : Instr) (s : State) (w : PW) (x : Option PX) : Host.Outcome State Fault Refusal :=
  let off := memOff w x 4
  runDrill i s (fun s =>
    s.prefetches s.cur.core s.cur.ctx s.inHandler (memHint x) (s.cur.drillLanes.map (fun l => (s.avec w.a l + BitVec.ofInt 64 off, s.dts))))
/-- DPREF (10 R229). -/
def execDpref (w : PW) (s : State) : Host.Outcome State Fault Refusal := runDpref (.dpref w) s w none
/-- DPREF with an XM extension. -/
def execDprefWide (w : PW) (x : PX) (s : State) : Host.Outcome State Fault Refusal := runDpref (.dprefWide w x) s w (some x)
/-- DCOPY (10 R233): a head of 0 starts nothing, so that a tracked one completes at once. -/
def execDcopy (w : PW) (s : State) : Host.Outcome State Fault Refusal :=
  runDrill (.dcopy w) s (fun s =>
    let k := (s.areg w.b).toNat
    let a := (s.areg w.a).toNat
    let fault : Trap := { code := 0x0C, info := k % 256 }
    match (s.ctx s.cur.ctx).channel (k % 256) with
    | none => .trap fault
    | some h =>
      let c := s.chan h
      if 256 ≤ k || (c.st == 2 && 4 ≤ c.heads.length) then .trap fault
      else if a % 128 != 0 then .trap Trap.operand
      else if (c.st == 1 && 4 ≤ c.heads.length && a != 0) || (w.x && 255 ≤ s.cur.counter .ocp) then .wait none
      else
        let f := s.fresh
        let s := if w.x then f.2.addOp f.1 .ocp s.dts 1 else s
        let q := s.homeWrite { space := .chan, addr := 32 * h } [] s.dts s.cur.ctx 8
        let i : Init := ⟨false, s.cur.gid, s.cur.lid, s.cur.pid, s.cur.ctx, if w.x then f.1 else 0⟩
        let s := q.1.updChan h (fun c => (c.head a i q.2).getD c)
        let s := if w.x && a == 0 then { s with cur := s.cur.completeOp f.1 q.2 none } else s
        .ok { s with cur := s.cur.raiseDts q.2 })

end Sys2Proof.Machine
end

