-- ==== Sys2Proof/Machine/HomeEvents.lean ====
section
/-! DEFINITION. Device steps at the homes and on the way back (03 R79 to R93, 08 R184, R185, R195 to R199; 10 R225, R226): loads,
stores, atomics, windrow and winnow stages, validation, stamp returns and the retirement of engine operations. -/

namespace Sys2Proof.Machine
open Sys2Proof

/-! Loads. -/

/-- The load would be served by an L1 copy (03 R80). -/
def State.l1Serves (s : State) (g : Group) (r : LoadRec) (p : LPart) : Bool :=
  p.tgt.space == .glob && !r.isHld && r.op == 0 && (s.l1Hit g.core (p.tgt.addr / 128) (g.loadStamp r)).isSome
/-- A part of a load that can be sent meets uncorrectable data, in the L1 copy that serves it or at its home (17 R338, 19 R373). -/
def State.loadBad (s : State) (g : Group) (r : LoadRec) (p : LPart) : Bool :=
  let x4 := r.typ == 11
  if s.l1Serves g r p then
    (match s.l1Hit g.core (p.tgt.addr / 128) (g.loadStamp r) with
     | some c => c.bad &&& (if x4 then 15 else sectors p.tgt.off p.len) != 0
     | none => false)
  else s.homeDead p.tgt || (if x4 then s.bad (x4Line p.tgt) 128 else s.bad p.tgt p.len)
/-- The slice port and address-hash lane of a request's target (02 R69, R70). -/
def Target.way (t : Target) : Option (Nat × Nat) :=
  match t.space with
  | .glob => if isPeer t.addr then none else some (homeMc t.addr, hashLane t.addr)
  | .chip => some (chipMc t.addr, hashLane t.addr)
  | _ => none
/-- Every older load of the lanes of a store-class word has performed (03 R86). -/
def Group.loadsBefore (g : Group) (h : HoldRec) (lane : Nat) : Bool :=
  g.loads.any (fun q => q.id < h.id && (if h.kind == .hst then (q.lane < 32 && h.lanes.getLsbD q.lane) || q.lanes &&& h.lanes != 0
    else q.lane == lane || q.lanes.getLsbD lane))
/-- A part of a store-class word may be sent: older loads of its thread have performed, lower lanes' overlapping parts have,
and the first part of a split access has returned (03 R77, R86; 08 R184). -/
def Group.partMay (g : Group) (h : HoldRec) (i : Nat) (p : SPart) : Bool :=
  let before := h.parts.take i
  h.kind != .qload && !g.loadsBefore h p.lane &&
  (h.kind == .hst || before.all (fun q => if q.lane == p.lane then q.st.answered && !q.st.isFailed
    else !(overlap q.tgt q.data.length p.tgt p.data.length) || q.st != .unsent))
/-- A store of the word performs at its home, not in the windrow stages. -/
def SKind.plain (k : SKind) : Bool := match k with | .atomic _ _ => false | .qload => false | _ => true
/-- The target of an atomic request. -/
def AReq.target (r : AReq) : Target := { space := if r.chip then .chip else .glob, addr := r.addr, leaf := r.leaf, tag := r.tag }
/-- The oldest word whose lanes a request carries. -/
def State.oldest (s : State) (r : AReq) : Nat := (s.words r).foldl (fun n w => min n w.2) s.sched.nextId
/-- A core sends a request of a store-class word once the older loads of its lanes have performed; it carries the latest pts of
its members (08 R196). -/
def State.coreStamp (s : State) (r : AReq) : Option Word :=
  match r.src with
  | .entry _ _ => some r.pts
  | .core gid rid _ ls =>
    match s.group gid with
    | none => some r.pts
    | some g =>
      match g.holdRec rid with
      | none => some r.pts
      | some h => if ls.any (fun l => g.loadsBefore h l.1) then none else some (g.latestPts (ls.map (·.1)))
/-- An atomic request of a word older than an identifier, of the same chiplet and way, is still on its way to the fabric. -/
def State.atomicsBefore (s : State) (chiplet id : Nat) (w : Nat × Nat) : Bool :=
  s.mem.stages.any (fun st =>
    let mine (r : AReq) : Bool := r.target.way == some w && s.oldest r < id
    (st.id < 128 && st.id / 16 == chiplet && (st.outq.any mine || st.arriving.any (fun r => mine r && (s.coreStamp r).isSome))) ||
    (st.id == stageOfChiplet chiplet && st.outq.any mine))
/-- A load, or a store-class word whose accesses do not pass the windrow stages, of a group has a part on a way that may leave, before part
`part` of the word `rid`. -/
def State.mayLeave (s : State) (k : Group) (rid part : Nat) (w : Nat × Nat) : Bool :=
  let here (id i : Nat) (u : Target) : Bool := (id < rid || (id == rid && i < part)) && u.way == some w
  (k.loads ++ k.dloads).any (fun r => r.id ≤ rid && (r.parts.mapIdx (fun i p => (i, p))).any (fun p =>
    here r.id p.1 p.2.tgt && s.canSend k r p.2 && !s.l1Serves k r p.2)) ||
  k.holds.any (fun h => h.id ≤ rid && h.kind.plain && (h.parts.mapIdx (fun i p => (i, p))).any (fun p =>
    here h.id p.1 p.2.tgt && p.2.st == .unsent && k.partMay h p.1 p.2 && !s.tierWaits p.2.tgt))
/-- The fabric delivers requests of one source port to one destination on one lane in order (02 R70): an older one of the same chiplet
may still leave. -/
def State.behind (s : State) (g : Group) (rid part : Nat) (t : Target) : Bool :=
  match t.way with
  | none => false
  | some w =>
    s.atomicsBefore (chipletOf g.core) rid w ||
    s.allGroups.any (fun k => k.place != .saved && chipletOf k.core == chipletOf g.core && s.mayLeave k rid part w)
/-- A thread's wait at an address has been woken, and its load can perform: the home reads what it can serve, and its reply returns (02 R71;
09 R203, R206). -/
def State.reloadMay (s : State) (g : Group) (lane : Nat) : Bool :=
  match (g.thread lane).wait with
  | some (.addr w) => w.woken && !s.bad w.tgt (if w.two then 8 else 4) && s.dramOpen w.tgt && s.answersVia (chipletOf g.core) w.tgt w.via && !s.tierWaits w.tgt
  | _ => false
/-- HOME_LOAD (03 R80): a part of a load performs at its home, or leaves for a peer device (18 R358); of identifier 0, the load of a wait
that has been woken, for the lane `part` (09 R203, R206). -/
def execHomeLoad (gid rid part : Nat) (s : State) : Host.Outcome State Fault Refusal :=
  match s.group gid with
  | none => .fault .eventNotEnabled
  | some g =>
    match g.load rid with
    | none => if rid == 0 && s.reloadMay g part then .next (s.waitReload gid part) else .fault .eventNotEnabled
    | some r =>
      match r.parts[part]? with
      | none => .fault .eventNotEnabled
      | some p =>
        if !s.canSend g r p || s.remoteOut gid rid part || (!s.l1Serves g r p && s.behind g rid part p.tgt) then .fault .eventNotEnabled
        else if p.tgt.space == .glob && isPeer p.tgt.addr then .next (s.sendRemote gid rid part .load p.tgt.addr)
        else if s.loadBad g r p || !(s.l1Serves g r p || s.reachable g.core p.tgt) then .fault .eventNotEnabled
        else .next (s.performLoad g r part p)

/-- The reply to lanes of a store-class word or REDM. -/
def AReply.for (r : AReply) (gid rid : Nat) : Bool := match r.src with | .core g i _ _ => g == gid && i == rid | .entry _ _ => false
def AReply.lanes (r : AReply) : List (Nat × BitVec 128) := match r.src with | .core _ _ _ l => l | .entry _ _ => []
/-- A marker in a reply: the request met uncorrectable data (17 R338). -/
def replyBad : Nat := 255
/-- The chiplet to which a reply returns over the fabric, for a word that waits for it; a reply to an engine operation is counted in as the
operation retires (03 R90). -/
def State.replyTo (s : State) (r : AReply) : Option Nat :=
  match r.src with
  | .entry n _ => if n < 128 then some (n / 16) else if n < 136 then some (n - 128) else none
  | .core gid rid _ _ => (s.group gid).bind (fun g => if (g.holdRec rid).isSome && r.bad != some replyBad then some (chipletOf g.core) else none)
/-- An earlier data reply of the same home to the same chiplet on the same lane has not arrived (02 R70). -/
def State.dataBehind (s : State) (chiplet : Nat) (t : Target) (b : Back) : Bool :=
  match t.way with
  | none => false
  | some w =>
    s.allGroups.any (fun k => chipletOf k.core == chiplet && (k.loads ++ k.dloads).any (fun r => r.parts.any (fun p =>
      match p.st with
      | .sent _ _ _ _ x => decide (x.seq < b.seq) && p.tgt.way == some w
      | _ => false))) ||
    s.mem.replies.any (fun r => decide (r.back.seq < b.seq) && s.replyTo r == some chiplet && (r.mc, hashLane r.addr) == w)
/-- An earlier stamp reply of the same home to the same chiplet on the same lane has not arrived (02 R70). -/
def State.stampBehind (s : State) (chiplet : Nat) (t : Target) (b : Back) : Bool :=
  match t.way with
  | none => false
  | some w =>
    s.allGroups.any (fun k => chipletOf k.core == chiplet && k.holds.any (fun h => h.parts.any (fun p =>
      match p.st with
      | .performed _ _ x => decide (x.seq < b.seq) && p.tgt.way == some w
      | .faulted _ x => decide (x.seq < b.seq) && p.tgt.way == some w
      | _ => false)))
/-- The target that a reply's request named. -/
def AReply.target (r : AReply) : Target := { space := if r.chip then .chip else .glob, addr := r.addr }
/-- A reply to an atomic reaches a chiplet next. -/
def State.replyMay (s : State) (chiplet : Nat) (r : AReply) : Bool :=
  s.returnOpen r.back.via (hashLane r.addr) (8 + r.mc) chiplet && !s.dataBehind chiplet r.target r.back
/-- LOAD_REPLY (03 R86): a provisional value arrives with its interval. -/
def execLoadReply (gid rid part : Nat) (s : State) : Host.Outcome State Fault Refusal :=
  match (s.group gid).bind (fun g => (g.load rid).bind (fun r => (r.parts[part]?).map (fun p => (g.core, p)))) with
  | some (core, ⟨t, _, .sent d w r m b⟩) =>
    if !s.answersVia (chipletOf core) t b.via || s.dataBehind (chipletOf core) t b then .fault .eventNotEnabled
    else .next ((s.updGroup gid (fun g => g.updLoad rid (fun x => x.setPart part (.arrived d w r m)))).saveDrill gid rid)
  | _ => .fault .eventNotEnabled

/-- The load's value is discarded and its parts are sent again (03 R86); a lane-slice part stays. -/
def LoadRec.resend (r : LoadRec) : LoadRec :=
  { r with parts := r.parts.map (fun p => if p.tgt.space == .slice then p else { p with st := .unsent }) }
/-- The load leaves the loads in flight. -/
def Group.dropLoad (g : Group) (rid : Nat) : Group := { g with loads := g.loads.filter (fun r => r.id != rid), dloads := g.dloads.filter (fun r => r.id != rid) }
/-- The format of a load's page. -/
def LoadRec.fmt (r : LoadRec) : Nat := match r.parts with | p :: _ => if p.tgt.space == .glob then leafFmt p.tgt.leaf else 0 | [] => 0
/-- The value of a load all of whose parts have arrived, and the fault mark it leaves (08 R185, R187; 02 R63). -/
def LoadRec.result (r : LoadRec) : List Word × Option FMark :=
  let v := loadValue r.typ r.fmt r.ea r.data
  (v.1, match r.mark with
    | some m => some m
    | none => if v.2 then some ⟨0x1D, 0, r.ea⟩ else none)
/-- Applies a change to a group's registers and to its shadow copy, whose loads of before the barrier land too (01 R41). -/
def Group.both (g : Group) (f : GArch → GArch) : Group := { g with arch := f g.arch, shadow := g.shadow.map f }
/-- A validated load performs at a stamp (03 R86): its threads' pts join it, and its destination becomes full. -/
def State.landLoad (s : State) (g : Group) (r : LoadRec) (ts : Word) : State :=
  let lanes := if r.isHld then lanesOf r.lanes else [r.lane]
  let v := r.result
  let s := s.updGroup g.gid (fun g => lanes.foldl (fun g l => g.raisePts l ts) g)
  match r.dst, v.2 with
  | .hyp n, m =>
    s.updGroup g.gid (fun g => (g.dropLoad r.id).both (fun a => { a with h := a.h.modify n (fun h =>
          if h.load != r.id then h
          else match m with
            | some k => { h with load := 0, mark := some k }
            | none => ⟨BitVec.ofNat 8192 (ofBytes r.data), 0, none⟩) }))
  -- a lane of a load into qb answers to the record of its word (08 R185)
  | .qb h, m =>
    s.updGroup g.gid (fun g => (g.updHold h (fun h => { h with parts := h.parts.map (fun (p : SPart) => if p.lane == r.lane then
      { p with st := match m with | some k => .failed k.info | none => .done ts (bytesOf 4 (v.1.headD 0).toNat) } else p) })).dropLoad r.id)
  | _, m => s.updGroup g.gid (fun g => (g.land r v.1 m).dropLoad r.id)
/-! Drill loads and gathers (10 R225, R226). -/

/-- A lane's value reaches its place of an entry of a group's queue. -/
def GArch.fill (a : GArch) (q e lane : Nat) (x : Word) (m : Option FMark) (ts : Word) : GArch :=
  { a with q := a.q.modify q (fun u => if e < u.base then u else
      { u with ents := u.ents.modify (e - u.base) (fun n =>
          { n with vals := n.vals.set lane x, stamp := tmax n.stamp ts, marks := match m with | some k => n.marks ++ [(lane, k)] | none => n.marks }) }) }
/-- An entry is filled. -/
def GArch.filled (a : GArch) (q e : Nat) : GArch :=
  { a with q := a.q.modify q (fun u => if e < u.base then u else { u with ents := u.ents.modify (e - u.base) (fun n => { n with filled := true }) }) }
/-- The stamp that an entry carries. -/
def GArch.entStamp (a : GArch) (q e : Nat) : Word := let u := a.q.getD q Queue.empty; (u.ents.getD (e - u.base) QEnt.blank).stamp
/-- A lane of a Drill load performs at a stamp. -/
def Group.landDrill (g : Group) (r : LoadRec) (q e : Nat) (ts : Word) : Group :=
  let v := r.result
  let g := (g.both (fun a => a.fill q e r.lane (v.1.headD 0) v.2 ts)).dropLoad r.id
  if g.dloads.any (fun x => x.dst == .queue q e) then g
  else
    let g := g.both (fun a => a.filled q e)
    (if r.op == 0 then g.raiseDts (g.arch.entStamp q e) else g).freeQueues
/-- DRILL_LOAD_VALIDATION (10 R225): in Drill program order, against dts. -/
def execDrillLoadValidation (gid rid : Nat) (s : State) : Host.Outcome State Fault Refusal :=
  match s.group gid with
  | none => .fault .eventNotEnabled
  | some g =>
    match g.dloads.find? (fun r => r.id == rid && r.op == 0) with
    | none => .fault .eventNotEnabled
    | some r =>
      if g.place == .saved || !r.parts.all (fun p => p.st.isArrived) ||
          g.dloads.any (fun q => q.op == 0 && q.id < rid && q.dst != r.dst) then .fault .eventNotEnabled
      else
        match validate false (g.loadStamp r) r.parts, r.dst with
        | some ts, .queue q e => .next (s.updGroup gid (fun g => g.landDrill r q e ts))
        | _, _ => .next (s.updGroup gid (fun g => g.updLoad rid LoadRec.resend))
/-- GATHER_ENTRY_FILL (10 R226): every lane of the gather has performed. -/
def execGatherEntryFill (gid rid : Nat) (s : State) : Host.Outcome State Fault Refusal :=
  match s.group gid with
  | none => .fault .eventNotEnabled
  | some g =>
    let ls := g.dloads.filter (fun r => r.op == rid && rid != 0)
    if ls.isEmpty || g.place == .saved || !ls.all (fun r => r.parts.all (fun p => p.st.isArrived)) then .fault .eventNotEnabled
    else
      let stamp (r : LoadRec) : Word := (validate true r.base r.parts).getD r.base
      let last := ls.foldl (fun m r => tmax m (stamp r)) (ls.headD ⟨0, 0, 0, .hyp 0, 0, 0, 0, 0, [], 0, 0, []⟩).base
      .next (s.updGroup gid (fun g =>
        (ls.foldl (fun g r => match r.dst with | .queue q e => g.landDrill r q e (stamp r) | _ => g) g).completeOp rid last none))

/-! Stores (03 R81, 08 R184, R185). -/

/-- A store to a register of a copy channel (10 R231, R233): none while it waits for room. -/
def State.chanStore (s : State) (gid : Nat) (p : SPart) (ts : Word) : Option State :=
  let h := p.tgt.addr / 32
  let x := ofBytes p.data
  match p.tgt.addr % 32 with
  | 0 =>
    (match s.group gid with
     | none => some s
     | some g => ((s.chan h).head x ⟨false, gid, g.lid, g.pid, g.ctx, 0⟩ ts).map (fun c => s.updChan h (fun _ => c)))
  | 8 => some (if bit x 5 then s.updChan h (fun c => { c with refused := false }) else s)
  | 12 => some (if bit x 0 then s.cctlGo h else s)
  | _ => some s
/-- A write of bytes at the home of a target for a context, with the line's keeping (02 R60, R66). -/
def State.storeHome (s : State) (t : Target) (bs : List Byte) (pts : Word) (ctx hint : Nat) : State × Word :=
  let q := s.putHome t bs pts ctx hint
  (q.1.kbTouch t bs.length, q.2)
/-- A write of an allocation tag (08 R191). -/
def State.tagHome (s : State) (t : Target) (v : Byte) (pts : Word) (ctx : Nat) : State × Word :=
  let was := s.hasLine t.key
  let q := (s.allocLine t ctx 32 15).homeWrite t [] pts ctx 32
  ((({ q.1 with mem := { q.1.mem with tags := q.1.mem.tags.write (t.addr / 32) v } }).markDirty t.addr).unalloc was t 0, q.2)
/-- HOME_STORE (03 R81): a part of a store-class word performs at its home, or leaves for a peer device. -/
def execHomeStore (gid rid part : Nat) (s : State) : Host.Outcome State Fault Refusal :=
  match s.group gid with
  | none => .fault .eventNotEnabled
  | some g =>
    match g.holdRec rid with
    | none => .fault .eventNotEnabled
    | some h =>
      match h.parts[part]? with
      | none => .fault .eventNotEnabled
      | some p =>
        let put (s : State) (x : SSt) : State := s.updGroup gid (fun g => g.updHold rid (fun h => h.setPart part x))
        let pts := if h.kind == .hst then g.latestPts (lanesOf h.lanes) else (g.thread p.lane).pts
        let peer := p.tgt.space == .glob && isPeer p.tgt.addr
        let back : Back := ⟨s.sched.nextId, s.viaTo (chipletOf g.core) p.tgt⟩
        let atom : Bool := match h.kind with | .atomic _ _ => true | _ => false
        if p.st != .unsent || !g.partMay h part p || (atom && !peer) || s.behind g rid part p.tgt || s.remoteOut gid rid part || s.boarded p.tgt p.data.length true ||
            s.homeDead p.tgt || s.tierWaits p.tgt || !s.reachable g.core p.tgt then .fault .eventNotEnabled
        else if peer then .next (s.sendRemote gid rid part (if atom then .atomic else .store) p.tgt.addr)
        else
          match s.tagMismatch p.tgt p.data.length with
          | some v => .next ((put s.fresh.2 (.faulted v back)).countTag p.tgt)
          | none =>
            if p.tgt.space == .chan then
              let q := s.homeWrite p.tgt [] pts g.ctx p.data.length
              match q.1.chanStore gid p q.2 with
              | none => .fault .eventNotEnabled
              | some s' => .next (put s'.fresh.2 (.performed q.2 [] back))
            else
              let q := if h.kind == .tagset then s.tagHome p.tgt (p.data.headD 0) pts g.ctx else s.storeHome p.tgt p.data pts g.ctx h.hint
              .next (put q.1.fresh.2 (.performed q.2 [] back))

/-- Writes the old value that an atomic returned to its lane (08 R192). -/
def Group.atomReturn (g : Group) (h : HoldRec) (lane : Nat) (old : List Byte) : Group :=
  match h.kind with
  | .atomic d n =>
    let ws := wordsOf n (ofBytes old)
    if d.toNat < 56 then (ws.mapIdx (fun i v => (i, v))).foldl (fun g p => g.produce lane (d.toNat + p.1) h.id ⟨p.2, true, 0, none⟩) g
    else g.dst d lane (ws.headD 0)
  | .qload => g.dst 56 lane ((wordsOf 1 (ofBytes old)).headD 0)
  | _ => g
/-- The returned values of a word's lanes. -/
def Group.atomReturns (g : Group) (h : HoldRec) : Group :=
  h.parts.foldl (fun g p => match p.st with | .done _ old => g.atomReturn h p.lane old | _ => g) g
/-- Threads that left a word and have an EXIT of its chain behind them exit (05 R120, 08 R184). -/
def State.exitNow (s : State) (gid : Nat) (lanes : Word) : Res State :=
  match s.group gid with
  | none => .ok s
  | some g =>
    let ls := (lanesOf lanes).filter (fun l => let t := g.thread l; t.live && t.leaving && t.hold == 0 && t.wait.isNone)
    match ls with
    | [] => .ok s
    | l :: _ => s.exitThreads gid (maskOfList ls) (g.thread l).pos
/-- Lanes whose accesses have all performed; those that the replay left out count (08 R185). -/
def HoldRec.doneMask (h : HoldRec) : Word :=
  if h.kind == .hst || h.kind == .qload then 0 else h.skipped ||| maskOf (fun l => h.lanes.getLsbD l && !h.parts.any (fun p => p.lane == l && p.st.isFailed))
/-- The queue entries that a lane reads again after the trap of a word in flight: all that it has popped with the chain and since, but those
that the word alone has read where the lane's access has performed, since its replay leaves that lane out (08 R185). -/
def HoldRec.giveBack (h : HoldRec) (lane : Nat) (undo : List (Nat × QEnt)) : List (Nat × QEnt) :=
  if h.doneMask.getLsbD lane && h.lanes.getLsbD lane then
    match h.words.find? (fun w => w.1 == h.slot) with
    | some w => (h.snap.ownPops h.words w.2 lane).foldl (fun l q => l.eraseP (fun e => e.1 == q)) undo
    | none => undo
  else undo
/-- The registers that an access of a lane writes without having performed: those of an atomic, and those of the loads of a chain whose
threads had to wait for them. -/
def HoldRec.unwritten (h : HoldRec) (lane : Nat) : List Nat :=
  match h.kind with
  | .atomic d n => if d.toNat < 56 && h.lanes.getLsbD lane && !h.doneMask.getLsbD lane then (List.range n).map (d.toNat + ·) else []
  | .qload => h.words.flatMap (fun w => (Instr.dests w.2).filterMap (fun d => if d.1 == 0 && d.2 < 56 then some d.2 else none))
  | _ => []
/-- The group before a chain whose word in flight traps: its threads are free of it, and what has not performed leaves nothing (08 R185). -/
def Group.undoHold (g : Group) (h : HoldRec) : Group :=
  let g := g.discardLoads h
  let hyps := if h.kind == .qload then h.words.flatMap (fun w => (Instr.dests w.2).filterMap (fun d => if d.1 == 4 then some d.2 else none)) else []
  let g := { g with arch := { g.arch with h := hyps.foldl (fun l n => l.set n (h.snap.h.getD n HReg.zero)) g.arch.h } }
  let g := g.mapThreads (fun l t =>
    if !h.set.getLsbD l then t
    else
      let v := (h.unwritten l).foldl (fun v n => v.set n ((h.snap.thread l).getV n)) t.v
      { t with v := v, kept := h.giveBack l t.undo ++ t.kept, exiting := false, wait := if t.pos == h.pos then none else t.wait })
  ({ h with parts := h.parts.filter (fun p => h.doneMask.getLsbD p.lane) } |> g.atomReturns).unhold h
/-- The trap of a store-class word once all its accesses have answered (08 R185). -/
def State.holdTrap (s : State) (g : Group) (h : HoldRec) (t : Trap) (slot : Nat) : State :=
  (s.updGroup g.gid (fun g => g.undoHold h)).takeTrap g.gid { t with done := h.doneMask } h.pos slot h.set
/-- The trap that a word's accesses have met: that of the first in lane order. -/
def HoldRec.trap (h : HoldRec) : Option Trap :=
  (h.parts.find? (fun p => p.st.isFailed)).map (fun p =>
    { code := 0x1F, info := match p.st with | .failed v => v | _ => 0, faddr := p.ea, lane := if h.kind == .hst then none else some p.lane,
      wr := h.kind != .qload })
/-- The trap of a word of a chain that acts late and finds, as it acts, that it may not: an HGWR whose entry or grant has changed since its
chain issued (12 R281). -/
def State.lateTrap (s : State) (g : Group) (h : HoldRec) : Option (Nat × Trap) :=
  h.held.late.findSome? (fun w => match w.2 with
    | .hgwr x => match h.snap.active h.set (Instr.hgwr x).guard with
      | l :: _ => (s.hgwrTrap h.snap g l x).map (fun t => (w.1, t))
      | [] => none
    | _ => none)
/-- The words that act late (05 R120). -/
def lateExec (i : Instr) (s : State) : Host.Outcome State Fault Refusal :=
  match i with
  | .hgwr w => execHgwr w s
  | .hqry w x => execHqry w x s
  | .stopt w => execStopt w s
  | .sret w => execSret w s
  | .nanr w => execNanr w s
  | .eret w => execEret w s
  | .csrw w => execCsrw w s
  | .csrr w => execCsrr w s
  | .yield w => execYield w s
  | _ => .next s
/-- The end of a store-class word's hold: the held writes take effect (08 R184), and the words that had to wait act. -/
def State.releaseHold (s : State) (g : Group) (h : HoldRec) : Res State :=
  ((lateOrder h.held.late).foldl (State.runLate lateExec g.gid h.set h.pos h.snap)
    (s.updGroup g.gid (fun g => ((g.atomReturns h).applyHeld h.held).unhold h))).exitNow g.gid h.set
/-- A word all of whose accesses have answered ends; a trap waits while the group is with the driver, or in handler mode
for other threads. -/
def State.settleHold (s : State) (gid rid : Nat) : Host.Outcome State Fault Refusal :=
  match (s.group gid).bind (fun g => (g.holdRec rid).map (fun h => (g, h))) with
  | none => .next s
  | some (g, h) =>
    if !h.parts.all (fun p => p.st.answered) then
      .next (if h.sure then s.updGroup gid (fun g => (g.atomReturns h).freeLanes h) else s)
    else if (s.launch g.lid).failing != 0 || (s.plot g.pid).rolling then .next (s.updGroup gid (fun g => g.unhold h))
    else
      match (h.trap.map (fun t => (h.slot, t))).orElse (fun _ => s.lateTrap g h) with
      | some t => .next (if g.esc.isSome || (g.trap.handler && h.set &&& ~~~g.trap.hset != 0) then s else s.holdTrap g h t.2 t.1)
      | none =>
        match s.releaseHold g h with
        | .ok s' => .next s'
        | .trap _ => .next s
        | .wait m => s.askOnce m
/-- A load has performed: the word that holds its threads for it may end (08 R185; 03 R76). -/
def State.settleLoad (s : State) (gid : Nat) (r : LoadRec) : Host.Outcome State Fault Refusal :=
  match s.group gid with
  | none => .next s
  | some g =>
    match g.holds.find? (fun h => h.kind == .qload && (match r.dst with
      | .qb i => h.id == i
      | _ => h.parts.isEmpty && r.id < h.id && !g.loads.any (fun q => q.id < h.id && (h.set.getLsbD q.lane || q.lanes &&& h.set != 0)))) with
    | some h => s.settleHold gid h.id
    | none => .next s
/-- LOAD_VALIDATION (03 R86): in program order, once every older access of the thread has performed. -/
def execLoadValidation (gid rid : Nat) (s : State) : Host.Outcome State Fault Refusal :=
  match s.group gid with
  | none => .fault .eventNotEnabled
  | some g =>
    match g.loads.find? (fun r => r.id == rid) with
    | none => .fault .eventNotEnabled
    | some r =>
      let lanes := if r.isHld then lanesOf r.lanes else [r.lane]
      if g.place == .saved || !r.parts.all (fun p => p.st.isArrived) || !lanes.all (fun l => g.olderDone l rid) then .fault .eventNotEnabled
      else
        match validate r.isHld (g.loadStamp r) r.parts with
        | none => .next (s.updGroup gid (fun g => g.updLoad rid LoadRec.resend))
        | some ts => (s.landLoad g r ts).settleLoad gid r

/-- A word all of whose accesses have answered can end now: its trap, if it has one, need not wait. -/
def State.holdMay (s : State) (g : Group) (h : HoldRec) : Bool :=
  h.parts.all (fun p => p.st.answered) &&
  !(h.parts.isEmpty && g.loads.any (fun q => q.id < h.id && (h.set.getLsbD q.lane || q.lanes &&& h.set != 0))) &&
  ((h.trap.isNone && (s.lateTrap g h).isNone) || (g.esc.isNone && !(g.trap.handler && h.set &&& ~~~g.trap.hset != 0)))
/-- STORE_STAMP_RETURN (08 R184, R185): the stamp, or a tag mismatch, returns to a part of a store-class word. -/
def execStoreStampReturn (gid rid part : Nat) (s : State) : Host.Outcome State Fault Refusal :=
  match (s.group gid).bind (fun g => (g.holdRec rid).map (fun h => (g, h))) with
  | none => .fault .eventNotEnabled
  | some (g, h) =>
    match h.parts[part]? with
    | none => if part == 0 && s.holdMay g h then s.settleHold gid rid else .fault .eventNotEnabled
    | some p =>
      let lanes (l : Nat) : List Nat := if h.kind == .hst then lanesOf h.lanes else [l]
      match p.st with
      | .performed ts old b =>
        if !s.answersVia (chipletOf g.core) p.tgt b.via || s.stampBehind (chipletOf g.core) p.tgt b then .fault .eventNotEnabled
        else (s.updGroup gid (fun g => (lanes p.lane).foldl (fun g l => g.raisePts l ts) (g.updHold rid (fun h => h.setPart part (.done ts old))))).settleHold gid rid
      | .faulted v b =>
        if !s.answersVia (chipletOf g.core) p.tgt b.via || s.stampBehind (chipletOf g.core) p.tgt b then .fault .eventNotEnabled
        else (s.updGroup gid (fun g => g.updHold rid (fun h =>
          { h with parts := h.parts.mapIdx (fun i q => if i == part || (h.kind != .hst && part < i && q.lane == p.lane) then { q with st := .failed v } else q) }))).settleHold gid rid
      | .unsent =>
        (match s.mem.replies.find? (fun r => r.for gid rid && r.lanes.any (fun l => l.1 == p.lane) && r.bad != some replyBad && s.replyMay (chipletOf g.core) r) with
         | none => .fault .eventNotEnabled
         | some r =>
           let s := { s with mem := { s.mem with replies := s.mem.replies.erase r } }
           let got := splitLanes r.opa r.wid r.x.toNat r.b r.lanes
           let upd (g : Group) : Group :=
             let g := g.updHold rid (fun h => { h with parts := h.parts.map (fun q =>
               match got.find? (fun x => x.1 == q.lane) with
               | some x => { q with st := match r.bad with | some v => .failed v | none => .done x.2.2 (bytesOf (widBytes r.wid) x.2.1) }
               | none => q) })
             if r.bad.isSome then g else got.foldl (fun g x => g.raisePts x.1 x.2.2) g
           (s.updGroup gid upd).settleHold gid rid)
      | _ =>
        -- a trap that had to wait is taken now, and a release that waited for a translation
        if s.holdMay g h then s.settleHold gid rid else .fault .eventNotEnabled

/-! Windrow and winnow stages, and the synchronisation engine (08 R195 to R199; 03 R79, R93). -/

/-- The counters of a stage: requests combined, and passed for want of a wait-buffer entry (19 R368). -/
def stageCounter (n : Nat) (full : Bool) : Nat :=
  if n < 128 then telBlock (n / 16) + (if full then 0x68 else 0x60)
  else if n < 136 then telBlock (n - 128) + (if full then 0x68 else 0x60)
  else telBlock (8 + (n - 136)) + (if full then 0x50 else 0x48)
/-- Passes a request through a stage, counting (08 R198, 19 R368). -/
def State.windrowCount (s : State) (n : Nat) (r : AReq) : State :=
  let st := s.stage n
  let hit := (s.joins st.outq r).isSome
  let s := if hit then s.count (stageCounter n (64 ≤ st.wb.length)) 1 else s
  s.windrow n r
/-- The stage and request that arrive next at a stage's port: from a core, or the head of the stage before. The requests of a memory
chiplet's ports 8 to 21 are those of the agents, which pass its stage in the step in which they perform (08 R195; log 77). -/
def State.nextArrival (s : State) (n port : Nat) : Option (Nat × AReq) :=
  if n < 128 then ((s.stage n).arriving.find? (fun r => r.port == port)).map (fun r => (n, r))
  else if n < 136 then (let u := (n - 128) * 16 + port; if port < 16 then ((s.stage u).outq.head?).map (fun r => (u, r)) else none)
  else (let u := 128 + port; if port < 8 then ((s.stage u).outq.find? (fun r => r.mc == n - 136 && s.laneOpen port (n - 128) (hashLane r.addr))).map (fun r => (u, r)) else none)
/-- A load or store of a chiplet that is older than every request queued for a memory chiplet at its headland port, on the way of a request,
may still leave (02 R70). -/
def State.accessesBefore (s : State) (chiplet mc : Nat) (r : AReq) : Bool :=
  let id := (((s.stage (stageOfChiplet chiplet)).outq.filter (fun q => q.mc == mc)).map s.oldest).foldl min (s.oldest r)
  match r.target.way with
  | none => false
  | some w =>
    s.allGroups.any (fun k => k.place != .saved && chipletOf k.core == chiplet && s.mayLeave k id 0 w)
/-- The request that can arrive at a stage's port, with the stage it comes from and its pts. -/
def State.arrivalAt (s : State) (stage port : Nat) : Option (Nat × AReq × Word) :=
  match s.nextArrival stage port with
  | none => none
  | some (from_, r) =>
    if from_ == stage then (s.coreStamp r).map (fun pts => (from_, r, pts))
    else if 136 ≤ stage && s.accessesBefore port (stage - 136) r then none
    else some (from_, r, r.pts)
/-- WINDROW_ARRIVAL (08 R198). Of the requests that stand at a stage's ports together the one of the lowest port arrives first (08
R199). -/
def execWindrowArrival (stage port : Nat) (s : State) : Host.Outcome State Fault Refusal :=
  if 148 ≤ stage || (List.range (min port 22)).any (fun q => (s.arrivalAt stage q).isSome) then .fault .eventNotEnabled
  else
    match s.arrivalAt stage port with
    | none => .fault .eventNotEnabled
    | some (from_, r, pts) =>
      if from_ == stage then .next ((s.updStage stage (fun st => { st with arriving := st.arriving.erase r })).windrowCount stage { r with pts := pts })
      else .next ((s.updStage from_ (fun st => { st with outq := st.outq.erase r })).windrowCount stage
        { r with stage := stage, port := port, via := if 136 ≤ stage then s.viaOf port (8 + (stage - 136)) else none })
/-- WINNOW_SPLIT (08 R198): a reply to a combined request is split and its wait-buffer entry freed. -/
def execWinnowSplit (stage : Nat) (s : State) : Host.Outcome State Fault Refusal :=
  let chiplet := if stage < 128 then stage / 16 else stage - 128
  let here (r : AReply) : Bool := match r.src with
    | .entry n _ => n == stage && (136 ≤ stage || s.replyMay chiplet r)
    | .core _ _ _ _ => false
  match s.mem.replies.find? here with
  | none => .fault .eventNotEnabled
  | some r =>
    match r.src with
    | .core _ _ _ _ => .fault .eventNotEnabled
    | .entry _ id =>
      match (s.stage stage).wb.find? (fun e => e.id == id) with
      | none => .fault .eventNotEnabled
      | some e =>
        let s := s.updStage stage (fun st => { st with wb := st.wb.filter (fun x => x.id != id) })
        .next { s with mem := { s.mem with replies := s.mem.replies.erase r ++ e.split r } }
/-- HOME_ATOMIC (03 R93, 08 R197): the head request of a memory chiplet's inbound stage performs. -/
def execHomeAtomic (mc : Nat) (s : State) : Host.Outcome State Fault Refusal :=
  if 12 ≤ mc then .fault .eventNotEnabled
  else
    match (s.stage (stageOfMc mc)).outq with
    | [] => .fault .eventNotEnabled
    | r :: rest =>
      let t := r.target
      let n := widBytes r.wid
      if s.tierWaits t || !s.dramOpen t then .fault .eventNotEnabled
      else
        let s := s.updStage (stageOfMc mc) (fun st => { st with outq := rest })
        let reply (s : State) (x : Nat) (b : Word) (bad : Option Nat) : State :=
          { s.fresh.2 with mem := { s.mem with replies := s.mem.replies ++
            [⟨r.src, r.opa, r.wid, r.count, BitVec.ofNat 128 x, b, bad, r.addr, mc, r.chip, ⟨s.sched.nextId, r.via⟩⟩] } }
        if s.homeDead t || s.bad t n then .next (reply s 0 r.pts (some replyBad))
        else
          match s.tagMismatch t n with
          | some v => .next ((reply s 0 r.pts (some v)).countTag t)
          | none =>
            let q := s.atomicAt t n r.result r.pts r.ctx r.m
            .next (reply q.1 q.2.1 q.2.2 none)
/-- SYNC_ENGINE_RELEASE (03 R79). -/
def execSyncEngineRelease (line : LineKey) (s : State) : Host.Outcome State Fault Refusal :=
  if s.hasLine line && !(s.line line).held.isEmpty then .next (s.setLine (s.line line).release) else .fault .eventNotEnabled

/-! Slices (03 R79, 02 R66). -/

/-- An access that is on its way to a line and allocates it: its target, its context and its hint (02 R59, R60). -/
def State.fillFor (s : State) (line : Nat) : Option (Target × Nat × Nat) :=
  let here (t : Target) (hint : Nat) : Bool := t.space == .glob && t.addr / 128 == line && effHint t.leaf hint != 2
  let ofGroup (g : Group) : Option (Target × Nat × Nat) :=
    ((g.loads ++ g.dloads).findSome? (fun r => (r.parts.find? (fun p => p.st.isUnsent && here p.tgt r.hint)).map (fun p => (p.tgt, r.ctx, r.hint)))).orElse
      (fun _ => g.holds.findSome? (fun h => (h.parts.find? (fun p => p.st == .unsent && here p.tgt h.hint)).map (fun p => (p.tgt, h.ctx, h.hint))))
  (s.allGroups.findSome? ofGroup).orElse (fun _ =>
    (s.mem.stages.flatMap (fun x => x.arriving ++ x.outq)).findSome? (fun r => if here r.target 0 then some (r.target, r.ctx, 0) else none))
/-- L2_FILL (03 R79): a line enters its slice for an access that misses, with that access's tensor tag (02 R66). -/
def execL2Fill (line : Nat) (s : State) : Host.Outcome State Fault Refusal :=
  match s.fillFor line with
  | some (t, ctx, hint) =>
    if populated (128 * line) && !s.hasLine (.glob line) then .next (s.allocLine { t with addr := 128 * line } ctx 128 15 hint) else .fault .eventNotEnabled
  | none => .fault .eventNotEnabled
/-- L2_EVICT (03 R79): a slice's first victims leave before its other lines (02 R60); which line leaves is otherwise open, and a slice is one
set of lines (log 86). -/
def execL2Evict (line : Nat) (s : State) : Host.Outcome State Fault Refusal :=
  let victims := s.mem.lines.any (fun l => l.first && (match l.key with | .glob n => homeMc (128 * n) == homeMc (128 * line) | _ => false))
  if s.hasLine (.glob line) && ((s.line (.glob line)).first || !victims) then .next (s.dropLine line) else .fault .eventNotEnabled
/-- The L1 copies of a line hold unspecified bytes (02 R66). -/
def State.spoilL1 (s : State) (n : Nat) : State :=
  s.mem.l1.foldl (fun s c => if c.line != n then s else
    let f := s.freeBytes 128
    { f.2 with mem := { f.2.mem with l1 := f.2.mem.l1.map (fun x => if x.core == c.core && x.line == n then { x with data := f.1 } else x) } }) s
/-- A DISCARD performs at one line as a write (03 R95): its bytes become unspecified, also in L1 copies, waiters wake, and the line
leaves without write-back (02 R66). -/
def State.discardLine (s : State) (n : Nat) (pts : Word) : State × Word :=
  let t : Target := { space := .glob, addr := 128 * n }
  let f := s.freeBytes 128
  let q := f.2.homeWrite t f.1 pts 0
  (((q.1.setLine { q.1.line (.glob n) with dirty := 0 }).dropLine n).spoilL1 n, q.2)
/-- DISCARD_SLICE_COMPLETE (02 R66, 08 R190). -/
def execDiscardSliceComplete (id mc : Nat) (s : State) : Host.Outcome State Fault Refusal :=
  match s.mem.discs.find? (fun d => d.id == id && d.left.contains mc) with
  | none => .fault .eventNotEnabled
  | some d =>
    let shut := (s.group d.gid).any (fun g => let port := chipletOf g.core
      !s.pairOpen port (8 + mc) || (List.range 8).any (fun lane => !s.returnOpen (s.viaOf port (8 + mc)) lane (8 + mc) port))
    if shut then .fault .eventNotEnabled else
    let ns := s.mem.lines.filterMap (fun l => match l.key with
      | .glob n => if homeMc (128 * n) == mc && l.tctx == d.ctx && l.tid == d.tid then some n else none
      | _ => none)
    let q := ns.foldl (fun (acc : State × Word) n => let r := acc.1.discardLine n d.pts; (r.1, tmax acc.2 r.2)) (s, d.pts)
    let left := d.left.erase mc
    let s := { q.1 with mem := { q.1.mem with discs := q.1.mem.discs.filterMap (fun (x : Disc) =>
      if x.id != id then some x else if left.isEmpty then none else some { x with left := left }) } }
    .next (s.updGroup d.gid (fun g => { g with ops := g.ops.map (fun (o : EngOp) =>
      if o.id == id then { o with stamp := tmax o.stamp q.2, left := left.length, done := left.isEmpty } else o) }))
/-- STAMP_SWEEP (03 R85). -/
def execStampSweep (s : State) : Host.Outcome State Fault Refusal := .next s.sweep

/-! Engine operations (03 R90). -/

/-- Replies to a REDM's lanes are counted in as it retires: completion stamps, and the deferred fault of a mismatch. -/
def EngOp.collect (o : EngOp) (rs : List AReply) : EngOp :=
  rs.foldl (fun o r =>
    let got := splitLanes r.opa r.wid r.x.toNat r.b r.lanes
    let ea := match r.src with | .core _ _ a _ => a | .entry _ _ => 0
    let o := { o with left := o.left - got.length }
    let o := { o with done := o.left == 0 }
    match r.bad with
    | some v => { o with faults := o.faults ++ got.map (fun x => { code := 0x1F, info := v, faddr := ea, lane := some x.1, wr := true }) }
    | none => { o with stamp := got.foldl (fun m x => tmax m x.2.2) o.stamp }) o
/-- An operation retires (03 R90): its NaN counts are added, also to the registers that a rollback would bring back where it was issued before
the plot barrier (11 R256; 01 R43), and its faults are deferred unless the launch has been killed (17 R336). -/
def Group.retire (g : Group) (o : EngOp) (killed : Bool) : Group :=
  let fs := if killed then [] else o.faults.map (fun t => (o.cls, t))
  let before := decide (o.id < g.barrier)
  let count (a : GArch) : GArch := { a with nan := addNans a.nan o.nans }
  { g with
    ops := g.ops.filter (fun x => x.id != o.id), retired := g.retired.modify o.cls.num (fun m => tmax m o.stamp),
    deferred := g.deferred ++ fs, owed := if before then g.owed ++ fs else g.owed, arch := count g.arch,
    shadow := if before then g.shadow.map count else g.shadow }
/-- ENGINE_OP_RETIRE (03 R90): the oldest operation of its class, once complete. -/
def execEngineOpRetire (gid cls : Nat) (s : State) : Host.Outcome State Fault Refusal :=
  match s.group gid with
  | none => .fault .eventNotEnabled
  | some g =>
    let c := clsOf cls
    match g.ops.find? (fun o => o.cls == c) with
    | none => .fault .eventNotEnabled
    | some o =>
      let rs := s.mem.replies.filter (fun r => r.for gid o.id && r.bad != some replyBad && s.returnOpen r.back.via (hashLane r.addr) (8 + r.mc) (chipletOf g.core))
      let o := if o.done then o else o.collect rs
      if !o.done then .fault .eventNotEnabled
      else
        let s := { s with mem := { s.mem with replies := s.mem.replies.filter (fun r => !rs.contains r) } }
        .next (s.updGroup gid (fun g => g.retire o ((s.launch g.lid).failing != 0)))

end Sys2Proof.Machine
end

