-- ==== Sys2Proof/Machine/MatrixEvents.lean ====
section
/-! DEFINITION. Device steps of the matrix engines and the Sheaf buffer (11 R249 to R256, R262 to R265): taking an item, its
reads, results and faults. -/

namespace Sys2Proof.Machine
open Sys2Proof

/-! Reads of an operand at its homes. -/

/-- The records of an operand: offset and length (11 R244 to R246). -/
def Quad.recs (q : Quad) (kc len : Nat) : List (Nat × Nat) :=
  if q.kind == 0 then
    (List.range q.rows).flatMap (fun r => (List.range kc).flatMap (fun c => (List.range q.slots).map (fun k =>
      (q.recAt r c k, if k == q.p then 32 else 96))))
  else (List.range q.rows).map (fun r => (q.base + r * q.row, len))
/-- Reads the lines of records at a stamp for a context (03 R80, R89); `place` gives the home of an 8-byte unit. Answers the latest
stamp. -/
def State.readRecs (s : State) (ctx perm : Nat) (place : Nat → Target) (recs : List (Nat × Nat)) (pts : Word) : State × Word :=
  recs.foldl (fun acc r =>
    (((unitsAt perm r.1 r.2).map (fun u => let t := place u; { t with addr := t.addr / lineBytes t.space * lineBytes t.space })).eraseDups).foldl
      (fun (acc : State × Word) t => let q := acc.1.readThird t (lineBytes t.space) pts ctx 0; (q.1, tmax acc.2 q.2.2.2.2)) acc) (s, pts)
/-- Home of a unit of an operand in a plot's scratchpad. -/
def plotUnit (base u : Nat) : Target := { space := .scratch, addr := base + u }
/-- Home of a unit of a global B (11 R253). -/
def MItem.bUnit (m : MItem) (u : Nat) : Target := { m.btgt with addr := m.btgt.addr + (u - (Quad.of m.qb).base) }
/-- The word of an item names a global B. -/
def MItem.global (m : MItem) : Bool := m.btgt.space == .glob
/-- The reader of an item's B, whose plot's scratchpad begins at `base`. -/
def State.bReader (s : State) (m : MItem) (base : Nat) : Rd :=
  if m.global then fun x n => s.mem.glob.readN (m.bUnit x).addr n else s.mem.reader false base (Quad.of m.qb).perm
/-- B's lines are read once, at a stamp (11 R264). -/
def State.readB (s : State) (m : MItem) (base : Nat) (pts : Word) : State × Word :=
  let q := Quad.of m.qb
  s.readRecs m.ctx (if m.global then 0 else q.perm) (fun u => if m.global then m.bUnit u else plotUnit base u) (q.recs m.kc 0) pts
/-- The first record of a scratchpad operand with uncorrectable data (11 R249, R265). -/
def State.badRecs (s : State) (perm base : Nat) (recs : List (Nat × Nat)) : Option Target :=
  if s.mem.ecc.isEmpty then none
  else recs.findSome? (fun r => ((unitsAt perm r.1 r.2).map (plotUnit base)).find? (fun t => s.bad t 8))
/-- The first sector of n bytes at a target that holds uncorrectable data (17 R330). -/
def State.badSector (s : State) (t : Target) (n : Nat) : Option Target :=
  ((List.range (n / 32 + 2)).map (fun i => { t with addr := (t.addr / 32 + i) * 32 })).find? (fun u => decide (u.addr < t.addr + n) && s.bad u 32)
/-- The reads of a global B are counted (17 R337). -/
def State.countB (s : State) (m : MItem) : State :=
  if m.global then ((Quad.of m.qb).recs m.kc 0).foldl (fun s r => s.countRead (m.bUnit r.1) r.2) s else s
/-- B holds uncorrectable data, or lies at a peer device, which engines do not reach; `base` is where its plot's scratchpad begins. -/
def State.badB (s : State) (m : MItem) (base : Nat) : Option Target :=
  let q := Quad.of m.qb
  if !m.global then s.badRecs q.perm base (q.recs m.kc 0)
  else if isPeer m.btgt.addr then some m.btgt
  else (q.recs m.kc 0).findSome? (fun r => s.badSector (m.bUnit r.1) r.2)
/-- A member's own tag differs from a sector of B (02 R56, 11 R265): the tag found. -/
def State.clashB (s : State) (m : MItem) : Option Nat :=
  if m.global then ((Quad.of m.qb).recs m.kc 0).findSome? (fun r => s.tagMismatch (m.bUnit r.1) r.2) else none

/-! Results. -/

/-- What an item computes: writes by offset into the plot, and NaN counts by row; or a format fault at an operand. -/
inductive MOut
  | ok (writes : List (Nat × List Byte)) (perm : Nat) (nans : List (Nat × Nat))
  | format (base : Nat)
/-- The parameters of a matrix word's rows. -/
def State.computeItem (s : State) (m : MItem) (base : Nat) (bs : Option (List PRow)) : MOut :=
  let d := Quad.of m.qd
  let a := Quad.of m.qa
  let rdA := s.mem.reader false base a.perm
  match m.word with
  | .plane _ x =>
    (match planeAll (mxType x) m.kc a d rdA with
     | some ws => .ok ws d.perm []
     | none => .format a.base)
  | .unplane w x =>
    (match unplaneAll (mxType x) m.kc m.rm w.x a d rdA with
     | some ws => .ok ws d.perm []
     | none => .format a.base)
  | .mma _ x =>
    let rows := (List.range a.rows).map (fun r => a.readRow rdA m.kc r)
    if rows.any (·.isNone) then .format a.base
    else
      match bs with
      | none => .format (Quad.of m.qb).base
      | some bs =>
        let rdC := s.mem.reader false base d.perm
        let old := if mxAddc x then some ((List.range d.rows).map (fun r =>
          let b := rdC (d.base + r * d.row) 128
          (List.range 32).map (fun j => ofBytes ((b.drop (4 * j)).take 4)))) else none
        let out := mmaAll (d.kind == 2) d.nz (rows.filterMap id) bs old
        .ok (out.mapIdx (fun r o => (d.base + r * d.row, o.1.flatMap (bytesOf 4)))) d.perm
          (if d.nz then out.mapIdx (fun r o => (r, o.2)) else [])
  | _ => .ok [] 0 []
/-- The rows of B; none on a format fault. -/
def State.rowsB (s : State) (m : MItem) (base : Nat) : Option (List PRow) :=
  let q := Quad.of m.qb
  let rs := (List.range 32).map (fun r => q.readRow (s.bReader m base) m.kc r)
  if rs.any (·.isNone) then none else some (rs.filterMap id)
/-- Writes one record of a result line by line under 03 R81. -/
def State.writeRec (s : State) (base perm : Nat) (ctx : Nat) (x : Nat) (bs : List Byte) (pts : Word) : State × Word :=
  let us := unitsAt perm x bs.length
  let lines := (us.map (fun u => (base + u) / 64)).eraseDups
  let stamped := lines.foldl (fun (acc : State × Word) l =>
    let q := acc.1.homeWrite (plotUnit 0 (64 * l)) [] pts ctx 64; (q.1, tmax acc.2 q.2)) (s, pts)
  ((us.foldl (fun (acc : State × List Byte) u =>
    ((acc.1.poke (plotUnit base u) (acc.2.take 8)).kbTouch (plotUnit base u) 8, acc.2.drop 8)) (stamped.1, bs)).1, stamped.2)

/-- An item leaves the scoreboard. -/
def State.dropItem (s : State) (m : MItem) : State := s.unboard m.id
/-- An item is withdrawn without effect, as a fault found while reading leaves it: its round, cleared at acceptance, stays so, and its
signers stand at the word (11 R249). -/
def State.freeSigners (s : State) (m : MItem) : State :=
  (s.dropItem m).updGroup m.gid (fun g => g.mapThreads (fun l t => if m.lanes.getLsbD l then t.unwait (· == Wait.matrix m.c) else t))
/-- The trap of an item at its word, for its signers (11 R249). Those of a group that is with the driver, or in handler mode without them,
meet the fault when they execute the word again. -/
def State.trapItem (s : State) (m : MItem) (t : Trap) : State :=
  let u := s.freeSigners m
  match s.group m.gid with
  | none => u
  | some g =>
    if g.esc.isSome || (g.trap.handler && m.lanes &&& ~~~g.trap.hset != 0) then u else u.takeTrap m.gid t m.pos m.pos.slot m.lanes
/-- Uncorrectable data under an item (11 R249, R265): its plot is handled by 01 R42. -/
def State.badItem (s : State) (m : MItem) (t : Target) : State :=
  (s.freeSigners m).consume m.gid 0x31 (s.badClass t 8) (some (t, 0))
/-- What a member's taking comes to once its operands are read. -/
inductive Taken
  | gone
  | trap (t : Trap)
  | bad (t : Target)
  | ok (last : Word) (writes : List (Nat × List Byte)) (perm : Nat) (nans : List (Nat × Nat))
/-- The records that an item reads in its plot's scratchpad beside B: permutation, offset and length of each. -/
def MItem.ownRecs (m : MItem) : List (Nat × List (Nat × Nat)) :=
  let a := Quad.of m.qa
  let d := Quad.of m.qd
  let n := match m.word with
    | .plane _ x => rowBytes 3 (mxType x) (768 * m.kc)
    | .unplane _ _ => if a.kind == 0 then 0 else 4 * 768 * m.kc
    | _ => 0
  (a.perm, a.recs m.kc n) :: (match m.word with | .mma _ x => if mxAddc x then [(d.perm, d.recs m.kc 128)] else [] | _ => [])
/-- Reads a member's own operands once B is known (11 R249, R265): its tag on B, uncorrectable data, its results. Of several errors found in
one reading the first in this order counts, B's uncorrectable data before all: 11 R265 gives no order (log 84). -/
def State.readMember (s : State) (m : MItem) (start bStamp : Word) (bs : Option (List PRow)) : State × Taken :=
  match s.group m.gid with
  | none => (s, .gone)
  | some g =>
    if (s.launch g.lid).failing != 0 then (s, .gone)
    else
      let base := s.plotBase g
      match s.clashB m with
      | some v => (s.countTag m.btgt, .trap { code := 0x1F, info := v, faddr := m.bea })
      | none =>
        match m.ownRecs.findSome? (fun r => s.badRecs r.1 base r.2) with
        | some t => (s, .bad t)
        | none =>
          match s.computeItem m base bs with
          | .format b => (s, .trap { code := 0x1D, faddr := BitVec.ofNat 64 b })
          | .ok ws perm nans =>
            let r := m.ownRecs.foldl (fun (acc : State × Word) r =>
              let q := acc.1.readRecs g.ctx r.1 (plotUnit base) r.2 start; (q.1, tmax acc.2 q.2)) (s, bStamp)
            (r.1, .ok r.2 ws perm nans)
/-- A taken item performs (11 R249): its writes follow its reads, its operation counts in omx and has performed, and its threads pass
the word. -/
def State.performItem (s : State) (m : MItem) (last : Word) (ws : List (Nat × List Byte)) (perm : Nat) (nans : List (Nat × Nat)) : State :=
  match s.group m.gid with
  | none => s
  | some g =>
    let base := s.plotBase g
    let w := ws.foldl (fun (acc : State × Word) p => let q := acc.1.writeRec base perm g.ctx p.1 p.2 last; (q.1, tmax acc.2 q.2)) (s, last)
    (w.1.dropItem m).updGroup m.gid (fun g =>
      { g with ops := g.ops ++ [(⟨m.id, .omx, w.2, true, 0, [], nans, []⟩ : EngOp)] }.mapThreads (fun l t =>
        if m.lanes.getLsbD l then t.leaveOf (· == Wait.matrix m.c) else t))
/-- One member's outcome. -/
def State.takeMember (s : State) (m : MItem) (x : Taken) : State :=
  match x with
  | .gone => s.dropItem m
  | .trap t => s.trapItem m t
  | .bad t => s.badItem m t
  | .ok last ws perm nans => s.performItem m last ws perm nans
/-- Members whose B is known read all their operands, and then write their results in order (11 R249, R264). -/
def State.takeAll (s : State) (ms : List (MItem × Word)) (bStamp : Word) (bs : Option (List PRow)) : State :=
  let r := ms.foldl (fun (acc : State × List (MItem × Taken)) m =>
    let q := acc.1.readMember m.1 m.2 bStamp bs; (q.1, acc.2 ++ [(m.1, q.2)])) (s, [])
  r.2.foldl (fun s m => s.takeMember m.1 m.2) r.1

/-! Taking (11 R262 to R264). -/

/-- The homes of a global B and the item's chiplet serve each other (02 R71; 18 R354, R355). -/
def State.bServes (s : State) (m : MItem) : Bool :=
  !m.global || isPeer m.btgt.addr || ((Quad.of m.qb).recs m.kc 0).all (fun r =>
    s.portServes (chipletOf m.core) (m.bUnit r.1) && s.portServes (chipletOf m.core) (m.bUnit (r.1 + r.2 - 1)))
/-- omx has room for each of the items (05 R130). -/
def State.omxRoom (s : State) (ms : List MItem) : Bool :=
  ms.all (fun m => match s.group m.gid with
    | some g => g.counter .omx + (ms.filter (fun k => k.gid == m.gid)).length ≤ 255
    | none => true)
/-- Items can be taken now: their ranges are in the scoreboard (10 R240), their B can be read, and omx has room for each (05 R130). -/
def State.itemsMay (s : State) (ms : List MItem) : Bool := ms.all (fun m => s.rangesIn m.core m.id && s.bServes m) && s.omxRoom ms
/-- The start stamp of an item (03 R89). -/
def State.itemStart (s : State) (m : MItem) : Word :=
  match s.group m.gid with
  | some g => g.latestPts (lanesOf m.lanes)
  | none => s.tbase
/-- The engines of a cluster that read a sheaf. -/
def Cluster.busy (c : Cluster) : List Nat := (c.sheaves.filter (fun h => h.st == .reading)).map (·.engine)
/-- What stands in a dispatch queue: a sheaf by number, or an item by position; priority and the cycle it queued. -/
def Cluster.queued (c : Cluster) : List ((Nat ⊕ Nat) × Nat × Nat) :=
  ((c.sheaves.mapIdx (fun i h => (i, h))).filterMap (fun p => if p.2.st == .closed then some (.inl p.1, p.2.prio, p.2.closed) else none)) ++
  c.dispatch.mapIdx (fun i m => (.inr i, m.prio, m.cycle))
/-- The items of a queued entry. -/
def Cluster.itemsOf (c : Cluster) (q : Nat ⊕ Nat) : List MItem :=
  match q with
  | .inl i => (c.sheaves.getD i Sheaf.free).members
  | .inr i => (c.dispatch[i]?).toList
/-- ENGINE_TAKE (11 R249, R263): the lowest free engine takes the queued item of highest priority, among equals the earliest.
A sheaf begins to be read; any other item is taken at once. -/
def execEngineTake (cluster : Nat) (s : State) : Host.Outcome State Fault Refusal :=
  let c := s.cluster cluster
  let order := sortBy (fun (a b : (Nat ⊕ Nat) × Nat × Nat) => b.2.1 < a.2.1 || (a.2.1 == b.2.1 && a.2.2 < b.2.2)) c.queued
  match order.find? (fun q => s.itemsMay (c.itemsOf q.1)), (List.range 4).find? (fun e => !c.busy.contains e) with
  | some (.inl i, _), some e =>
    let h := c.sheaves.getD i Sheaf.free
    let held := h.members.foldl (fun n m => n + (h.closed - m.cycle)) 0
    let b := telBlock (cluster / 16)
    let s := s.updCluster cluster (fun c => { c with sheaves := c.sheaves.modify i (fun h => { h with st := .reading, engine := e }) })
    .next ((((s.count (b + 0x30) 1).count (b + 0x38) h.members.length).count (b + 0x40) h.rows).count (b + 0x48) held)
  | some (.inr i, _), some _ =>
    (match c.dispatch[i]? with
     | none => .fault .eventNotEnabled
     | some m =>
       let s := s.updCluster cluster (fun c => { c with dispatch := c.dispatch.eraseIdx i })
       let start := s.itemStart m
       let isMma : Bool := match m.word with | .mma _ _ => true | _ => false
       if isMma then
         let base := ((s.group m.gid).map s.plotBase).getD 0
         match s.badB m base with
         | some t => .next ((s.countB m).badItem m t)
         | none =>
           let q := s.readB m base start
           .next (q.1.takeAll [(m, start)] q.2 (s.rowsB m base))
       else .next (s.takeAll [(m, start)] start none))
  | _, _ => .fault .eventNotEnabled
/-- SHEAF_DEADLINE (11 R262). -/
def execSheafDeadline (cluster sheaf : Nat) (s : State) : Host.Outcome State Fault Refusal :=
  let h := (s.cluster cluster).sheaves.getD sheaf Sheaf.free
  if h.isOpen && h.deadline ≤ s.sched.cycle then
    .next (s.updCluster cluster (fun c => { c with sheaves := c.sheaves.modify sheaf (fun h => h.close s.sched.cycle) }))
  else .fault .eventNotEnabled
/-- SHEAF_OPERANDS_READ (11 R262, R264, R265): B is read once, each surviving member is taken, and the sheaf is free. It waits while omx has no
room for the members (05 R130). -/
def execSheafOperandsRead (cluster sheaf : Nat) (s : State) : Host.Outcome State Fault Refusal :=
  let h := (s.cluster cluster).sheaves.getD sheaf Sheaf.free
  match h.st, h.members with
  | .reading, m :: _ =>
    if !s.omxRoom h.members then .fault .eventNotEnabled else
    let s1 := s.updCluster cluster (fun c => { c with sheaves := c.sheaves.set sheaf Sheaf.free })
    let done (s : State) : State := s.rearrive cluster
    let base := ((s1.group m.gid).map s1.plotBase).getD 0
    (match s1.badB m base with
     | some t => .next (done (h.members.foldl (fun s k => s.badItem k t) (s1.countB m)))
     | none =>
       let latest := h.members.foldl (fun n k => tmax n (s1.itemStart k)) (s1.itemStart m)
       let q := s1.readB m base latest
       let bs := s1.rowsB m base
       .next (done (q.1.takeAll (h.members.map (fun k => (k, tmax (s1.itemStart k) q.2))) q.2 bs)))
  | _, _ => .fault .eventNotEnabled

end Sys2Proof.Machine
end

