-- ==== Sys2Proof/Machine/GroupEvents.lean ====
section
/-! DEFINITION. Device steps of groups: parking, stalling, the wake queue (01 R18 to R23, 13 R285), the stream-deadlock trap
(01 R34), the end of a group (01 R13), TBASE (03 R83 to R85), consumption of uncorrectable data, shadow divergence and
rollback (01 R42, 17 R338 to R340), replies of the driver (17 R335), channel slots (02 R73) and the mesh's deadlocks (R74). -/

namespace Sys2Proof.Machine
open Sys2Proof

/-! What holds a thread (01 R19, R20). -/

/-- The words of the chain at which a lane of a group stands, in the state in which the lane would issue them. -/
def State.standing (s : State) (g : Group) (lane : Nat) : State × List Instr :=
  let p := (g.thread lane).pos
  let s' := s.issueState g false (laneBit lane) p
  (s', (s'.fetchChain g 3 p).filterMap (fun w => match w.2 with | .ok i => some i | _ => none))
/-- The producer of an empty register is an access to global memory or chip scratchpad: LD, LDX or an atomic. -/
def Group.longProducer (g : Group) (tag : Nat) : Bool :=
  let far (t : Target) : Bool := t.space == .glob || t.space == .chip || t.space == .chan
  g.loads.any (fun r => r.id == tag && r.parts.any (fun p => far p.tgt)) || g.holds.any (fun h => h.id == tag)
/-- A field is held by a long-latency dependence: an empty register with such a producer, or a queue without a filled entry. -/
def Group.longField (g : Group) (x : Fld) (lane : Nat) : Bool :=
  match x.k with
  | .src n =>
    if x.f.toNat < 56 then !x.m && ((g.thread lane).regs x.f.toNat n).any (fun r => !r.2.full && g.longProducer r.2.tag)
    else match g.arch.head (x.f.toNat - 56) lane with
      | none => true
      | some e => !e.filled
  | _ => false
/-- A word itself holds the lane with a long-latency dependence: WAITO above its threshold, SEND without a free slot, RECV
without data, and a wait that has to follow older loads (log 17). -/
def State.longWord (s : State) (i : Instr) (lane : Nat) : Bool :=
  let g := s.cur
  match i with
  | .waito w => w.imm8.toNat < g.counter (clsOf w.d.toNat)
  | .send w => (s.sendState g w.b.toNat).isWait
  | .recv w => (s.recvState g w.b.toNat).isWait
  | .waita _ _ | .waitc _ _ | .kbwait _ | .sbar _ | .pbar _ | .msync _ => g.loading s.issue.firstId lane
  | _ => false
/-- A live thread is held by a long-latency dependence (01 R19; 03 R84; 09 R201). -/
def State.longHeld (s : State) (g : Group) (lane : Nat) : Bool :=
  let t := g.thread lane
  match t.wait with
  | some (.addr _) | some .pbar | some (.sbar _ _) | some .msync | some (.kb _ _ _) => true
  | some (.matrix _) | some .again => false
  | none =>
    if t.leaving || (g.trap.handler && !g.trap.hset.getLsbD lane) then false
    else if !tle t.pts (s.tbase + 0x2000_0000) then true
    else
      let w := s.standing g lane
      w.2.any (fun i => g.arch.guarded i lane && ((Instr.fields i).any (fun x => g.longField x lane) || w.1.longWord i lane))

/-! Parking and seating (01 R18 to R22; 13 R285). -/

def Group.live (g : Group) : List Nat := allLanes.filter (fun l => (g.thread l).live)
def Place.slotOf (p : Place) : Option Nat := match p with | .slot n => some n | _ => Option.none
/-- Entries of a core's Fallow table that are taken. -/
def State.fallow (s : State) (core : Nat) : Nat :=
  (s.groups.filter (fun g => g.core == core && (g.place == Place.waiting || g.isWoken))).length
/-- An active group would park: no live thread is ready and every one is held by a long-latency dependence (01 R20). -/
def State.wantsPark (s : State) (g : Group) : Bool :=
  !g.live.isEmpty && (s.readyLanes g).isEmpty && g.live.all (fun l => s.longHeld g l)
/-- Parking: into the Fallow table, in exchange with the head of the wake queue, or not at all (01 R20, R22). -/
def State.parkGroup (s : State) (g : Group) (slot : Nat) : Option State :=
  let leave (s : State) : State := s.updGroup g.gid (fun g => { g with place := .waiting, stalled := false })
  if s.fallow g.core < 56 then some (leave s)
  else
    match s.wakeQueue g.core with
    | h :: _ => some (((leave s).updGroup h.gid (fun g => g.seat slot s.sched.cycle)).count (telBlock (chipletOf g.core) + 0x28) 1)
    | [] => none
/-- PARK (01 R20, R22): a group for which there is neither a place nor a partner stalls. -/
def execPark (gid : Nat) (s : State) : Host.Outcome State Fault Refusal :=
  match s.group gid with
  | none => .fault .eventNotEnabled
  | some g =>
    match g.place.slotOf with
    | none => .fault .eventNotEnabled
    | some n =>
      if g.stalled || g.esc.isSome || (s.plot g.pid).rolling || !s.wantsPark g then .fault .eventNotEnabled
      else .next ((s.parkGroup g n).getD (s.updGroup gid (fun g => { g with stalled := true })))
/-- The stalled groups of a core in ascending order of slot (13 R285). -/
def State.stalledOf (s : State) (core : Nat) : List (Nat × Group) :=
  sortBy (fun a b => a.1 < b.1) (s.groups.filterMap (fun g => if g.core == core && g.stalled then g.place.slotOf.map (fun n => (n, g)) else none))
/-- One stalled group's check (01 R22): a ready thread first, then parking, then exchange. -/
def State.recheck (s : State) (p : Nat × Group) : State :=
  if !(s.readyLanes p.2).isEmpty then s.updGroup p.2.gid (fun g => { g with stalled := false })
  else if s.wantsPark p.2 then (s.parkGroup p.2 p.1).getD s
  else s
/-- STALL_RECHECK (01 R22, 13 R285). -/
def execStallRecheck (core : Nat) (s : State) : Host.Outcome State Fault Refusal :=
  let gs := s.stalledOf core
  if gs.any (fun p => !(s.readyLanes p.2).isEmpty || (s.wantsPark p.2 && (s.fallow core < 56 || !(s.wakeQueue core).isEmpty))) then
    .next (gs.foldl State.recheck s)
  else .fault .eventNotEnabled
/-- The lowest free slot of a core. -/
def State.freeSlot (s : State) (core : Nat) : Option Nat :=
  (List.range 8).find? (fun n => !s.groups.any (fun g => g.core == core && g.place == .slot n))
/-- WAKE_QUEUE_SEAT (01 R21). -/
def execWakeQueueSeat (core : Nat) (s : State) : Host.Outcome State Fault Refusal :=
  match s.wakeQueue core, s.freeSlot core with
  | h :: _, some n => .next (s.updGroup h.gid (fun g => g.seat n s.sched.cycle))
  | _, _ => .fault .eventNotEnabled
/-- WAKE_QUEUE_AGING (01 R21). -/
def execWakeQueueAging (gid : Nat) (s : State) : Host.Outcome State Fault Refusal :=
  match (s.group gid).map (·.place) with
  | some (Place.woken c false) => if c + 4096 ≤ s.sched.cycle then .next (s.updGroup gid (fun g => { g with place := .woken c true })) else .fault .eventNotEnabled
  | _ => .fault .eventNotEnabled
/-- A WAITING group with a ready thread becomes WOKEN (01 R21). -/
def State.wakeIfReady (s : State) (gid : Nat) : State :=
  match s.group gid with
  | none => s
  | some g =>
    if g.place == Place.waiting && !(s.readyLanes g).isEmpty then s.updGroup gid (fun g => { g with place := .woken s.sched.cycle false }) else s

/-! Resident places (01 R12, R18, R26; 02 R46). -/

/-- Plots reserved on cores and not yet placed: launch, index, core and base (01 R30). -/
def State.reservations (s : State) : List (Launch × Nat × Nat × Nat) :=
  s.launches.flatMap (fun l => l.reserved.map (fun r => (l, r.1, r.2 / 2 ^ 20, r.2 % 2 ^ 20)))
/-- Groups that hold a resident place on a core; those of a plot that is being saved keep theirs until the whole plot is saved (16 R312). -/
def State.resident (s : State) (core : Nat) : List Group :=
  s.allGroups.filter (fun g => g.core == core && g.place != .gone && (g.place != .saved || (s.plot g.pid).st != .saved))
/-- Free resident places of a core (01 R12, R26). -/
def State.freePlaces (s : State) (core : Nat) : Nat :=
  64 - ((s.resident core).length + ((s.reservations.filter (fun r => r.2.2.1 == core)).map (fun r => r.1.groupCount)).sum)
/-- Bytes of every lane's slice space that are taken (02 R46): lane 0 is in every group. -/
def State.sliceUsed (s : State) (core : Nat) : Nat :=
  ((s.resident core).map (fun g => (s.launch g.lid).slice)).sum +
  ((s.reservations.filter (fun r => r.2.2.1 == core)).map (fun r => r.1.groupCount * r.1.slice)).sum
/-- A group takes a free slot, or enters the Fallow table as WOKEN where there is none or a group waits before it for one (01 R21). -/
def State.seatNew (s : State) (g : Group) : Group :=
  match (s.freeSlot g.core).filter (fun _ => (s.wakeQueue g.core).isEmpty) with
  | some n => { g with place := .slot n, seated := s.sched.cycle, readyAt := s.sched.cycle, dlastSel := s.sched.cycle, placed := s.sched.cycle, stopping := false }
  | none => { g with place := .woken s.sched.cycle false, dlastSel := s.sched.cycle, placed := s.sched.cycle, stopping := false }

/-! The stream-deadlock trap (01 R34). -/

/-- The seed queue in which a Drill word reserves an entry. -/
def Instr.reserves (i : Instr) : Option Nat :=
  match i with
  | .dld w | .dldWide w _ | .dldx w | .dldxWide w _ | .dlds w | .dldsWide w _ | .dldc w | .dldcWide w _ | .dgath w _ | .dpush w => some (w.d.toNat - 56)
  | _ => none
/-- A Drill word that reads the head of qb. -/
def Instr.readsQb (i : Instr) : Bool := match i with | .dgath _ _ | .dqbr _ => true | _ => false
/-- The Drill stream waits to reserve in a full queue or on an empty qb, or has ended. -/
def State.drillStuck (s : State) (g : Group) : Bool :=
  let d := g.arch.drill
  d.ended ||
    (!d.halted &&
      (let s' := s.issueState g true 0 d.pos
       match s'.fetchInstr g true d.pos with
       | .ok i => (match Instr.reserves i with | some q => s'.queueFull q | none => false) || (Instr.readsQb i && s'.qbHead.isNone)
       | _ => false))
/-- A field waits on a seed queue whose head in the lane is unreserved, or to write a full qb. -/
def Group.deadField (g : Group) (x : Fld) (lane : Nat) : Bool :=
  match x.queue with
  | some q => let u := g.arch.q.getD q Queue.empty; (alGet (g.thread lane).kept q).isNone && u.base + u.ents.length ≤ (g.thread lane).qh.getD q 0
  | none => (match x.k with | .dst 1 _ => x.holds g.arch lane | _ => false)
/-- A live thread waits on one of the queues for good. -/
def State.queueStuck (s : State) (g : Group) (lane : Nat) : Bool :=
  (g.thread lane).wait.isNone &&
    (let w := s.standing g lane
     w.2.any (fun i => g.arch.guarded i lane && (Instr.fields i).any (fun x => g.deadField x lane)))
/-- STREAM_DEADLOCK (01 R34): a Plough trap at the first of the waiting positions for every live thread; in handler mode a
double trap of the handler set (17 R332). No thread waits on a queue while it is under a hold (08 R184, R185). A group without a live thread has no waiting position: R34 does not say what then becomes of its Drill stream,
which waits on in this model (log 47). -/
def execStreamDeadlock (gid : Nat) (s : State) : Host.Outcome State Fault Refusal :=
  match s.group gid with
  | none => .fault .eventNotEnabled
  | some g =>
    if g.place == .saved || g.place == .gone || g.esc.isSome || (s.plot g.pid).rolling || g.live.isEmpty || !g.dloads.isEmpty || !g.holds.isEmpty ||
        !g.live.all (fun l => s.queueStuck g l) || !s.drillStuck g then .fault .eventNotEnabled
    else
      let p := leastPos g (if g.trap.handler then g.live.filter (fun l => g.trap.hset.getLsbD l) else g.live)
      if g.trap.handler then .next (s.takeTrap gid (Trap.of 0x06) p p.slot g.trap.hset)
      else .next (s.takeGroupTrap gid (Trap.of 0x06) p false)

/-! The end of a group (01 R13). -/

/-- A chain that a launch started still runs or is queued (17 R336). -/
def State.chainsOf (s : State) (lid : Nat) : Bool :=
  s.chans.any (fun c => (c.st == 1 && !c.init.host && c.init.lid == lid) || (c.st == 1 && c.heads.any (fun h => !h.2.host && h.2.lid == lid)))
/-- The latest stamp of a group's accesses and of its retired operations (03 R95). -/
def Group.lastStamp (g : Group) : Word :=
  tmaxL (tmax ((List.range g.width).foldl (fun m l => tmax m (g.thread l).pts) (g.thread 0).pts) g.arch.drill.dts) g.retired
/-- Notices that name a group are discarded and counted (09 R204). -/
def State.dropNotices (s : State) (gid : Nat) : State :=
  let gone := s.mem.notices.filter (fun n => n.gid == gid)
  gone.foldl (fun s n => s.count (telBlock (8 + homeMc n.counter) + 0x60) 1)
    { s with mem := { s.mem with notices := s.mem.notices.filter (fun n => n.gid != gid) } }
/-- A plot of the launch stands in a cluster, or has its place reserved there (01 R30). -/
def State.clusterUsed (s : State) (l : Launch) (cl : Nat) : Bool :=
  s.plots.any (fun p => p.lid == l.lid && p.st == .resident && clusterOf p.core == cl) || l.reserved.any (fun r => clusterOf (r.2 / 2 ^ 20) == cl)
/-- A launch's allocations in clusters where it has no plot and no reservation are free (16 R309, R310). -/
def State.freeClusterMem (s : State) (lid : Nat) : State :=
  s.updLaunch lid (fun l => { l with callocs := l.callocs.filter (fun c => s.clusterUsed l c.cluster) })
/-- A plot all of whose groups have ended ends. -/
def State.endPlot (s : State) (pid : Nat) : State :=
  let p := s.plot pid
  if (s.plotGroups pid).any (fun g => g.place != Place.gone) then s
  else
    let s := { s with groups := s.groups.filter (fun g => g.pid != pid) }
    let s := s.updPlot pid (fun p => { p with st := .ended, eligible := false, logging := false, log := [], recvLog := [], represent := [],
                                              shadowLen := 0, saveLen := 0 })
    (s.freeClusterMem p.lid).settleBars p.lid
/-- The group has come to its end: no live thread, its Drill stream ended, and nothing outstanding (01 R13, 17 R336). -/
def State.mayEnd (s : State) (g : Group) : Bool :=
  (g.place != .saved || (s.launch g.lid).failing != 0) && g.place != .gone && g.live.isEmpty && g.arch.drill.ended && g.ops.isEmpty && g.holds.isEmpty && g.esc.isNone &&
  !(s.plot g.pid).rolling && !((s.launch g.lid).failing != 0 && s.chainsOf g.lid)
/-- Escalates a deferred fault that no word can raise any more (01 R13). -/
def State.escalateAtEnd (s : State) (g : Group) (t : Trap) : State :=
  let t := { t with defer := true }
  let entry := (s.launch g.lid).pentry
  (s.updGroup g.gid (fun g => g.updTrap (fun x =>
    { x with epc := epcOf entry g.lastExit, cause := causeOf t g.lastExit.slot false, faddr := t.faddr, done := t.done }))).routeTrap
      g.gid t g.lastExit .plough false true g.lastExit.slot 0
/-- GROUP_END (01 R13). -/
def execGroupEnd (gid : Nat) (s : State) : Host.Outcome State Fault Refusal :=
  match s.group gid with
  | none => .fault .eventNotEnabled
  | some g =>
    if !s.mayEnd g then .fault .eventNotEnabled
    else
      match g.deferred with
      | d :: _ => .next (s.escalateAtEnd g d.2)
      | [] =>
        let s := (s.dropNotices gid).updLaunch g.lid (fun l => { l with maxStamp := tmax l.maxStamp g.lastStamp })
        let keep := (s.plot g.pid).eligible && g.shadow.isSome
        let s := if keep then s.updGroup gid (fun g => { g with place := .gone, loads := [], dloads := [] })
          else { s with groups := s.groups.filter (fun x => x.gid != gid) }
        .next (s.endPlot g.pid)

/-! TBASE (03 R83 to R85). -/

/-- The stamps that a load's and a store's accesses have met. -/
def LSt.tick (u : Word → Word) (x : LSt) : LSt :=
  match x with
  | .sent d w r m b => .sent d (u w) (u r) m b
  | .arrived d w r m => .arrived d (u w) (u r) m
  | .done d t m => .done d (u t) m
  | .unsent => .unsent
def SSt.tick (u : Word → Word) (x : SSt) : SSt :=
  match x with
  | .performed t o b => .performed (u t) o b
  | .done t o => .done (u t) o
  | x => x
/-- The stamps that the entries of a list carry. -/
def tickEnts (u : Word → Word) (l : List (Nat × QEnt)) : List (Nat × QEnt) := l.map (fun e => (e.1, { e.2 with stamp := u e.2.stamp }))
/-- The stamps of the queue entries that a thread keeps by itself. -/
def Thread.tick (t : Thread) (u : Word → Word) : Thread :=
  let src (x : WSrc) : WSrc := { x with q := tickEnts u x.q }
  { t with src := src t.src, redo := t.redo.map (fun r => (r.1, r.2.1, src r.2.2)), susp := t.susp.map (fun r => (r.1, r.2.1, src r.2.2)),
           kept := tickEnts u t.kept, undo := tickEnts u t.undo }
/-- The stamps that queue entries carry. -/
def GArch.tick (a : GArch) (u : Word → Word) : GArch :=
  let ent (e : QEnt) : QEnt := { e with stamp := u e.stamp }
  { a with threads := a.threads.map (fun t => t.tick u), q := a.q.map (fun q => { q with ents := q.ents.map ent }), qb := { a.qb with ents := a.qb.ents.map ent } }
/-- A group's copies of stamps when TBASE advances: pts and dts of a resident group drift, the others never go stale (03 R83, R85). -/
def Group.tick (g : Group) (tb : Word) : Group :=
  let u := unstale tb
  let drift (w : Word) : Word := if g.place == Place.saved then u w else w + 1
  let load (r : LoadRec) : LoadRec := { r with base := u r.base, parts := r.parts.map (fun (p : LPart) => { p with st := p.st.tick u }) }
  let a := g.arch.tick u
  { g with
    arch := { a with
      threads := a.threads.map (fun t => if t.live then { t with pts := drift t.pts, arr := u t.arr } else t),
      drill := { a.drill with dts := drift a.drill.dts } },
    shadow := g.shadow.map (fun a => a.tick u),
    loads := g.loads.map load, dloads := g.dloads.map load,
    holds := g.holds.map (fun (h : HoldRec) => { h with base := u h.base, parts := h.parts.map (fun (p : SPart) => { p with st := p.st.tick u }) }),
    ops := g.ops.map (fun (o : EngOp) => { o with stamp := u o.stamp }), retired := g.retired.map u }
/-- The stamps that stand in a channel: of credits, of slots on their way and of slots that have arrived (03 R94). -/
def Chan.tick (c : Chan) (u : Word → Word) : Chan :=
  { c with credits := c.credits.map u, flight := c.flight.map (fun (x : Flight) => { x with ts := u x.ts }), pending := c.pending.map (fun x => (x.1, u x.2)),
           returning := c.returning.map u }
/-- The stamps of a plot's logged slots. -/
def Plot.tick (p : Plot) (u : Word → Word) : Plot :=
  let slot (x : Nat × List Byte × Word) : Nat × List Byte × Word := (x.1, x.2.1, u x.2.2)
  { p with recvLog := p.recvLog.map slot, represent := p.represent.map slot }
/-- The stamps of requests and replies on their way. -/
def MemSt.tick (m : MemSt) (u : Word → Word) : MemSt :=
  let req (r : AReq) : AReq := { r with pts := u r.pts }
  { m with l1 := m.l1.filter (fun c => u c.rts == c.rts),
           stages := m.stages.map (fun (st : Stage) => { st with arriving := st.arriving.map req, outq := st.outq.map req }),
           replies := m.replies.map (fun (r : AReply) => { r with b := u r.b }), discs := m.discs.map (fun (d : Disc) => { d with pts := u d.pts }) }
/-- TBASE advances by one tick: live threads, Drill streams and agents drift, and stale L1 copies go; the homes sweep their lines every
2^27 ticks (03 R83, R85). -/
def State.tick (s : State) : State :=
  let tb := s.tbase + 1
  let u := unstale tb
  let s := s.mapGroups (fun g => g.tick tb)
  let s := { s with
    tbase := tb,
    chans := s.chans.map (fun (c : HwChan) => { c with stamp := c.stamp + 1, waiting := c.waiting.map (fun w => (w.1, w.2.1, u w.2.2)) }),
    plots := s.plots.map (fun p => p.tick u),
    fe := { s.fe with stamp := s.fe.stamp + 1, hay := s.fe.hay + 1 },
    peers := { s.peers with stamps := s.peers.stamps.map (fun p => (p.1, p.2 + 1)) },
    launches := s.launches.map (fun (l : Launch) => let bs := l.bars.map (fun (b : SetBar) => { b with pts := u b.pts })
      { l with maxStamp := u l.maxStamp, stamp := u l.stamp, bars := bs, chans := l.chans.map (fun c => c.tick u) }),
    mem := s.mem.tick u }
  if tb.toNat % 2 ^ 27 == 0 then s.sweep else s
/-- TBASE_ADVANCE (03 R83): once every 64 cycles. -/
def execTbaseAdvance (s : State) : Host.Outcome State Fault Refusal :=
  if s.sched.ticked + 64 ≤ s.sched.cycle then .next { s.tick with sched := { s.tick.sched with ticked := s.sched.ticked + 64 } } else .fault .eventNotEnabled

/-! Uncorrectable data, divergence and rollback (01 R42; 17 R338 to R340; 18 R361; 19 R373). -/

/-- What a lane's wait that has been woken reads of uncorrectable data: its word, or the barrier object whose phase has passed. -/
def State.badWait (s : State) (g : Group) (lane : Nat) : Option (Target × Nat) :=
  let bad (t : Target) (n : Nat) : Option (Target × Nat) := if s.bad t n then some (t, n) else none
  match (g.thread lane).wait with
  | some (.addr w) => if w.woken then bad w.tgt (if w.two then 8 else 4) else none
  | some (.kb off gen _) =>
    let o := KObj.of (s.mem.scratch.num (s.plotBase g + off) 16)
    if o.dead || o.gen != gen then bad (objTarget (s.plotBase g + off)) 16 else none
  | _ => none
/-- The part of a load or store-class word that would consume uncorrectable data now: its target and length; of identifier 0, the wait of a
lane. -/
def State.badPart (s : State) (g : Group) (rid : Nat) : Option (Target × Nat) :=
  if rid == 0 then (if g.place == .saved then none else allLanes.findSome? (fun l => s.badWait g l)) else
  match g.load rid, g.holdRec rid with
  | some r, _ =>
    (r.parts.find? (fun (p : LPart) => s.canSend g r p && !(p.tgt.space == .glob && isPeer p.tgt.addr) && s.loadBad g r p)).map
      (fun (p : LPart) => (p.tgt, p.len))
  | none, some h =>
    ((h.parts.mapIdx (fun i p => (i, p))).find? (fun (p : Nat × SPart) => p.2.st == SSt.unsent && g.partMay h p.1 p.2 && s.homeDead p.2.tgt)).map
      (fun (p : Nat × SPart) => (p.2.tgt, p.2.data.length))
  | none, none => none
/-- The home of a request whose reply says that it met uncorrectable data. -/
def State.badReply (s : State) (gid rid : Nat) : Option AReply := s.mem.replies.find? (fun r => r.for gid rid && r.bad == some replyBad)
/-- UNCORRECTABLE_CONSUMPTION (17 R338, 19 R373): a load, a store to a failed home, or an atomic's reply. -/
def execUncorrectableConsumption (gid rid : Nat) (s : State) : Host.Outcome State Fault Refusal :=
  match s.group gid with
  | none => .fault .eventNotEnabled
  | some g =>
    match s.badPart g rid with
    | some t => .next (s.consume gid 0x31 (s.badClass t.1 t.2) (some t))
    | none =>
      match s.badReply gid rid with
      | none => .fault .eventNotEnabled
      | some r =>
        let t : Target := { space := if r.chip then .chip else .glob, addr := r.addr }
        let k := s.badClass t (widBytes r.wid)
        let s := { s with mem := { s.mem with replies := s.mem.replies.erase r } }
        -- a word of a killed launch, and an operation, runs to completion without its value
        let s := s.updGroup gid (fun g => { g.updHold rid (fun h => { h with parts := h.parts.map (fun (p : SPart) =>
          if r.lanes.any (fun l => l.1 == p.lane) then { p with st := .done r.b [] } else p) }) with
            ops := g.ops.map (fun (o : EngOp) => if o.id == rid then { o with left := o.left - r.lanes.length, done := o.left ≤ r.lanes.length } else o) })
        let s := s.consume gid 0x31 k (some (t, widBytes r.wid))
        match (s.group gid).bind (fun g => g.holdRec rid) with
        | some h => .next (if h.parts.all (fun p => p.st.answered) then s.updGroup gid (fun g => g.unhold h) else s)
        | none => .next s
/-- SHADOW_DIVERGENCE (17 R340): the shadow unit of the FP pipe that a group's last turn used finds one. Pipe and shadow unit compute the
same function, so that the comparison of classes, signs and significands can only find a physical error, which this step stands for
(log 82). -/
def execShadowDivergence (gid : Nat) (s : State) : Host.Outcome State Fault Refusal :=
  match s.group gid with
  | none => .fault .eventNotEnabled
  | some g =>
    if !g.fp || g.place == .saved || g.place == .gone || (s.plot g.pid).rolling || (s.launch g.lid).failing != 0 then .fault .eventNotEnabled
    else .next (((s.updGroup gid (fun g => { g with fp := false })).consume gid 0x30 0 none).count (telBlock (chipletOf g.core) + 0x80) 1)

/-- The outstanding operations and accesses of a plot that a rollback waits for (01 R42, 11 R250). -/
def State.rollMay (s : State) (p : Plot) : Bool :=
  p.rolling && (s.plotGroups p.pid).all (fun g => g.ops.all (·.done) && g.holds.all (fun h => h.kind == .qload) && !s.taking g.gid) &&
  !s.chans.any (fun c => match c.record with
    | some r => (match s.targetPlot c.init r with | some q => q.pid == p.pid && r.status == 0 | none => false)
    | none => false)
/-- A logged line is restored at tmax(pts, rts + 1) (03 R95). -/
def State.restoreLine (s : State) (core : Nat) (pts : Word) (e : Nat × List Byte) : State :=
  (s.homeWrite { space := .scratch, addr := core * 2 ^ 20 + e.1 } e.2 pts 0).1
/-- The groups of a plot that had ended in the interval. -/
def State.endedIn (s : State) (pid : Nat) : List Group := (s.plotGroups pid).filter (fun g => g.place == .gone)
/-- The core has places and slices for the groups that a rollback brings back (01 R12, R18; 02 R46; log 19). -/
def State.reviveRoom (s : State) (p : Plot) : Bool :=
  let n := (s.endedIn p.pid).length
  n ≤ s.freePlaces p.core && s.sliceUsed p.core + n * (s.launch p.lid).slice ≤ 8192
/-- A group that had ended takes its place again, as one placed now (01 R21; log 19), or stands among the groups of its plot that are
saved. -/
def State.revive (s : State) (gid : Nat) : State :=
  match s.group gid with
  | none => s
  | some g => let g' := if (s.plot g.pid).st == .saved then { g with place := .saved } else s.seatNew g; s.updGroup gid (fun _ => g')
/-- What a rollback brings back of a plot's saved groups is saved in their place: their records, and the image of the allocation (01 R43). -/
def State.saveAgain (s : State) (pid : Nat) : State :=
  let p := s.plot pid
  let s := ((s.plotGroups pid).filter (fun g => g.place == .saved)).foldl (fun s g => s.writeRecord g g.arch (s.recordPa g)) s
  if p.st == .saved then s.agentPut (s.launch p.lid).ctx (s.imagePa p) (p.image.readN 0 p.size) else s
/-- ROLLBACK (01 R42, R43; 03 R95; 09 R216): operations retire, sheaf members are withdrawn, logged lines and shadow state
return, RBCNT rises, and every group stands just after the barrier. The lines of a plot that has been saved are restored in its
image. A restored line is written at the latest stamp of the plot's groups
and of TBASE, since R95 does not say whose pts it means (log 50). -/
def execRollback (pid : Nat) (s : State) : Host.Outcome State Fault Refusal :=
  let p := s.plot pid
  if !s.rollMay p || !(p.st == .saved || s.reviveRoom p) || !s.feServes p.savePa p.saveLen then .fault .eventNotEnabled
  else
    let gs := s.plotGroups pid
    let back := (s.endedIn pid).map (·.gid)
    let gids := gs.map (·.gid)
    let s := gids.foldl (fun s gid => s.withdraw gid) s
    let pts := gs.foldl (fun m g => tmax m g.lastStamp) s.tbase
    let s := s.updPlot pid (fun p => { p with logging := false })
    let s := if p.st == .saved then s.updPlot pid (fun p => { p with image := p.log.foldl (fun m e => m.writeN (e.1 - p.base) e.2) p.image })
      else p.log.foldl (fun s e => s.restoreLine p.core pts e) s
    let s := { s with mbox := { s.mbox with pending := s.mbox.pending.filter (fun x => match x with | .esc gid => !gids.contains gid | _ => true) },
                      mem := { s.mem with monitors := s.mem.monitors.filter (fun m => match m.who with
                        | .thread gid _ => !gids.contains gid
                        | .queue _ => true) } }
    let s := s.mapGroups (fun g => if g.pid == pid then g.restore else g)
    let s := (back.foldl State.revive s).saveAgain pid
    let s := s.updPlot pid (fun p => { p with rolling := false, rbcnt := min (p.rbcnt + 1) 0xFFFF, log := [], logging := true,
                                              represent := p.recvLog ++ p.represent, recvLog := [] })
    .next ((s.settleBars p.lid).count (telBlock (chipletOf p.core) + 0x70) 1)

/-! Replies of the driver (17 R335). -/

/-- The driver has answered a group's escalation. -/
def State.answered (s : State) (gid : Nat) : State :=
  let s := { s with mbox := { s.mbox with pending := s.mbox.pending.erase (Pending.esc gid) } }
  s.updGroup gid (fun g => { g with esc := none })
/-- A double trap resumes in handler mode at the second trap's position, with the replay under DONE (17 R332). -/
def Group.resumeDouble (g : Group) (e : Esc) : Group :=
  let done := g.trap.done
  (g.mapThreads (fun i t => if e.set.getLsbD i then { t with pos := e.pos, replayAt := if done.getLsbD i then some e.pos else none } else t)).updTrap
    (fun x => { x with done := 0 })
/-- KILL, and the replies that count as it (17 R335, R336). -/
def State.killReply (s : State) (g : Group) : State :=
  (s.answered g.gid).kill g.lid 9
/-- RESUME (17 R335, R332, R333; 01 R13). -/
def execResume (gid : Nat) (s : State) : Host.Outcome State Fault Refusal :=
  match (s.group gid).bind (fun g => g.esc.map (fun e => (g, e))) with
  | none => .fault .eventNotEnabled
  | some (g, e) =>
    let s := s.answered gid
    let l := s.launch g.lid
    if e.atEnd then .next (s.updGroup gid (fun g => { g with deferred := g.deferred.drop 1 }))
    else if e.double then .next (s.updGroup gid (fun g => g.resumeDouble e))
    else .next ((s.updGroup gid (fun g => g.eret l.pentry l.dentry)).takePending gid)
/-- HANDLER (17 R335, R331, R332; 01 R13). -/
def execHandler (gid : Nat) (s : State) : Host.Outcome State Fault Refusal :=
  match (s.group gid).bind (fun g => g.esc.map (fun e => (g, e))) with
  | none => .fault .eventNotEnabled
  | some (g, e) =>
    let traph := (s.ctx g.ctx).traph
    if e.atEnd || e.double || traph == 0 then .next (s.killReply g)
    else .next ((s.answered gid).updGroup gid (fun g => g.enterHandler traph))
/-- KILL (17 R335, R336). -/
def execKill (gid : Nat) (s : State) : Host.Outcome State Fault Refusal :=
  match (s.group gid).bind (fun g => g.esc.map (fun _ => g)) with
  | none => .fault .eventNotEnabled
  | some g => .next (s.killReply g)

/-! Dataflow channels (02 R73, 09 R214 to R216). -/

/-- The slot of a channel that arrives next (02 R71, R73): the oldest one whose way to the resident consumer no held pair bars, with no
older slot of its group still on its way. -/
def State.slotNext (s : State) (lid ch : Nat) : Option Flight :=
  ((s.launch lid).chans[ch]?).bind fun c =>
    let at_ := (s.plots.filter (fun q => q.lid == lid && q.index == c.consumer && q.st == .resident)).map (fun q => chipletOf q.core)
    c.flight.find? (fun x => at_.all (fun b => s.pairOpen x.port b) && c.flight.find? (fun y => y.gid == x.gid) == some x)
/-- CHANNEL_SLOT_ARRIVE (02 R73): a slot in flight reaches the consumer's buffer, or its save state. -/
def execChannelSlotArrive (lid ch : Nat) (s : State) : Host.Outcome State Fault Refusal :=
  match s.slotNext lid ch with
  | none => .fault .eventNotEnabled
  | some x => .next (s.updLaunch lid (fun l => l.updChan ch (fun c => { c with flight := c.flight.erase x, pending := c.pending ++ [(x.data, x.ts)] })))
/-- No held pair keeps a credit from the resident producers of a channel (02 R71). -/
def State.creditOpen (s : State) (lid ch : Nat) : Bool :=
  let l := s.launch lid
  let at_ (i : Nat) : List Nat := (s.plots.filter (fun q => q.lid == lid && q.index == i && q.st == .resident)).map (fun q => chipletOf q.core)
  match l.chans[ch]? with
  | none => true
  | some c => (at_ c.consumer).all (fun a => ((l.setPlots c.producers).flatMap at_).all (fun b => s.pairOpen a b))
/-- CHANNEL_CREDIT_ARRIVE (02 R73). -/
def execChannelCreditArrive (lid ch : Nat) (s : State) : Host.Outcome State Fault Refusal :=
  match ((s.launch lid).chans[ch]?).bind (fun c => c.returning.head?) with
  | none => .fault .eventNotEnabled
  | some x => if !s.creditOpen lid ch then .fault .eventNotEnabled
    else .next (s.updLaunch lid (fun l => l.updChan ch (fun c => { c with returning := c.returning.drop 1, credits := c.credits ++ [x] })))

/-! The mesh (02 R74): packets are not state of this model, so recovery moves none that it holds. -/

/-- NETWORK_DEADLOCK_DETECT (02 R74): the mesh reports a cycle of full router buffers that made no progress for 8192 cycles, and
sends a probe round it. -/
def execNetworkDeadlockDetect (routers : List Nat) (s : State) : Host.Outcome State Fault Refusal :=
  if 2 ≤ routers.length && routers.eraseDups.length == routers.length && !s.ras.probes.contains routers then
    .next { s with ras := { s.ras with probes := s.ras.probes ++ [routers] } }
  else .fault .eventNotEnabled
/-- NETWORK_DEADLOCK_RECOVER (02 R74): the probe returned, and every router of the cycle has moved its head packet. -/
def execNetworkDeadlockRecover (routers : List Nat) (s : State) : Host.Outcome State Fault Refusal :=
  if s.ras.probes.contains routers then
    .next { s with ras := { s.ras with probes := s.ras.probes.erase routers } }
  else .fault .eventNotEnabled

end Sys2Proof.Machine
end

