-- ==== Sys2Proof/Machine/Place.lean ====
section
/-! DEFINITION. Placement and pre-emption (01 R26, R27, R30, R39, R40; 02 R46 to R51; 16 R309 to R312, R314, R378): the resources of
cores and clusters, the placement order, the choice of a core and of victims, eviction and resumption. -/

namespace Sys2Proof.Machine
open Sys2Proof

/-! Resources. -/

/-- Plot space and slot buffers that a plot takes on its core (02 R50). -/
def Launch.space (l : Launch) (idx : Nat) : Nat := l.scratch + roundUp (l.slotBytes idx) 1024
/-- The parts of a core's plot space that are taken. -/
def State.spaceUsed (s : State) (core : Nat) : List (Nat × Nat) :=
  (s.plots.filter (fun p => p.st == .resident && p.core == core)).map (fun p => (p.base, (s.launch p.lid).space p.index)) ++
  (s.reservations.filter (fun r => r.2.2.1 == core)).map (fun r => (r.2.2.2, r.1.space r.2.1))
/-- The lowest place of n bytes below a limit that meets none of the taken ones: the spec does not say which part of the free plot space,
or of a cluster's free window, an allocation takes (02 R50, R51; log 52). -/
def firstFit (used : List (Nat × Nat)) (limit n : Nat) : Option Nat :=
  (sortBy (fun a b => a < b) (0 :: used.map (fun r => r.1 + r.2))).find? (fun a => a + n ≤ limit && used.all (fun r => n == 0 || r.2 == 0 || a + n ≤ r.1 || r.1 + r.2 ≤ a))
/-- The plot space of a core (02 R50). -/
def State.plotSpace (s : State) (core : Nat) : Nat := 2 ^ 20 - s.window (clusterOf core) - 65536
/-- The window offset of a launch's allocation in a cluster: the one it has, or a free one (16 R310). -/
def State.clusterOffset (s : State) (l : Launch) (cl : Nat) : Option Nat :=
  if l.cneed == 0 then some 0
  else
    match l.callocs.find? (fun c => c.cluster == cl) with
    | some c => some c.offset
    | none => firstFit (s.launches.flatMap (fun k => (k.callocs.filter (fun c => c.cluster == cl)).map (fun c => (c.offset, k.cneed / 8)))) (s.window cl) (l.cneed / 8)
/-- A core can hold a plot (01 R26, 02 R46, R50; 16 R300, R310; 19 R370): the base of its allocation. -/
def State.canHold (s : State) (l : Launch) (idx core : Nat) : Option Nat :=
  let cl := clusterOf core
  if s.chipState (chipletOf core) != 0 || (s.cluster cl).winPending.isSome || s.freePlaces core < l.groupCount ||
      8192 < s.sliceUsed core + l.groupCount * l.slice || (s.clusterOffset l cl).isNone then none
  else firstFit (s.spaceUsed core) (s.plotSpace core) (l.space idx)

/-! The choice of a core (16 R310). -/

/-- Keeps the elements of greatest measure. -/
def greatest {α : Type} (f : α → Nat) (l : List α) : List α := let m := l.foldl (fun m x => max m (f x)) 0; l.filter (fun x => f x == m)
/-- Keeps the elements of least key. -/
def least {α : Type} (f : α → Nat) (l : List α) : List α :=
  match l with
  | [] => []
  | x :: xs => let m := xs.foldl (fun m y => min m (f y)) (f x); l.filter (fun y => f y == m)
def State.chipletPlaces (s : State) (c : Nat) : Nat := ((List.range 128).map (fun i => s.freePlaces (128 * c + i))).sum
def State.clusterPlaces (s : State) (cl : Nat) : Nat := ((List.range 8).map (fun i => s.freePlaces (8 * cl + i))).sum
/-- The least of those numbers of a list that have the greatest measure. -/
def bestNumber (f : Nat → Nat) (l : List Nat) : Nat := ((least id (greatest f l.eraseDups)).head?).getD 0
/-- Among cores that can hold a plot: the chiplet with the most free places, in it the cluster, in it the core, ties to the
lower. -/
def State.bestOf (s : State) (cs : List (Nat × Nat)) : Option (Nat × Nat) :=
  let chiplet := bestNumber s.chipletPlaces (cs.map (fun c => chipletOf c.1))
  let cs := cs.filter (fun c => chipletOf c.1 == chiplet)
  let cluster := bestNumber s.clusterPlaces (cs.map (fun c => clusterOf c.1))
  let cs := cs.filter (fun c => clusterOf c.1 == cluster)
  let core := bestNumber s.freePlaces (cs.map (·.1))
  cs.find? (fun c => c.1 == core)
/-- The cores of a list that can hold a plot, with the base each gives it. -/
def State.holders (s : State) (l : Launch) (idx : Nat) (cores : List Nat) : List (Nat × Nat) :=
  cores.filterMap (fun c => (s.canHold l idx c).map (fun b => (c, b)))
/-- The core for an unplaced plot. One of a launch with cluster memory goes first where the allocation is. -/
def State.chooseCore (s : State) (l : Launch) (idx : Nat) : Option (Nat × Nat) :=
  let cs := s.holders l idx (List.range 1024)
  if l.cneed == 0 then s.bestOf cs
  else
    let own := cs.filter (fun c => l.callocs.any (fun a => a.cluster == clusterOf c.1))
    if own.isEmpty then s.bestOf cs else s.bestOf own
/-- Makes a launch's allocation in a cluster; its bytes are what the spec leaves open (log 3). -/
def State.makeAlloc (s : State) (lid cl : Nat) : State :=
  let l := s.launch lid
  if l.cneed == 0 || l.callocs.any (fun c => c.cluster == cl) then s
  else
    match s.clusterOffset l cl with
    | none => s
    | some b =>
      let f := s.fresh
      let s := f.2.updLaunch lid (fun l => { l with callocs := l.callocs ++ [⟨cl, b, f.1⟩] })
      (List.range 8).foldl (fun s k =>
        let f := s.freeBytes (l.cneed / 8)
        { f.2 with mem := { f.2.mem with scratch := f.2.mem.scratch.writeN ((cl * 8 + k) * 2 ^ 20 + (2 ^ 20 - s.window cl) + b) f.1 } }) s
/-- The allocation of a launch in a cluster, 0 for none. -/
def Launch.allocIn (l : Launch) (cl : Nat) : Nat := ((l.callocs.find? (fun c => c.cluster == cl)).map (·.id)).getD 0
/-- Reservations of a launch are given up, with the cluster memory that stood for them alone. -/
def State.unreserve (s : State) (lid : Nat) (gone : Nat → Bool) : State :=
  (s.updLaunch lid (fun l => { l with reserved := l.reserved.filter (fun r => !gone r.1) })).freeClusterMem lid
/-- Reserves a core for each of some plots of a launch (01 R30); none where one finds no place. -/
def State.reserveAll (pick : State → Launch → Nat → Option (Nat × Nat)) (lid : Nat) : List Nat → State → Option State
  | [], s => some s
  | i :: is, s =>
    match pick s (s.launch lid) i with
    | none => none
    | some (c, b) =>
      State.reserveAll pick lid is ((s.makeAlloc lid (clusterOf c)).updLaunch lid (fun l => { l with reserved := l.reserved ++ [(i, c * 2 ^ 20 + b)] }))

/-! The placement order (16 R309). -/

/-- Admitted launches in the order in which their plots are placed. -/
def State.launchOrder (s : State) : List Launch :=
  sortBy (fun a b => b.prio < a.prio || (a.prio == b.prio && a.order < b.order)) (s.launches.filter (fun l => l.st == .admitted && l.failing == 0))
/-- The placement order: launch, plot index, and the plot where it returns from eviction. -/
def State.order (s : State) : List (Launch × Nat × Option Plot) :=
  s.launchOrder.flatMap (fun l =>
    let mine := s.plots.filter (fun p => p.lid == l.lid)
    (sortBy (fun (a b : Plot) => a.index < b.index) (mine.filter (fun p => p.st == .saved))).map (fun p => (l, p.index, some p)) ++
    ((List.range l.plotCount).filter (fun i => !mine.any (fun p => p.index == i))).map (fun i => (l, i, none)))
/-- The plots that return together with an evicted one (01 R39, R40). -/
def State.unit (s : State) (l : Launch) (p : Plot) : List Plot :=
  let saved := s.plots.filter (fun q => q.lid == l.lid && q.st == .saved)
  if l.coop then saved else if l.cneed != 0 then saved.filter (fun q => q.alloc == p.alloc) else [p]
/-- Bytes of a launch's allocation in a cluster, by cluster-memory offset. -/
def State.clusterImage (s : State) (l : Launch) (cl : Nat) : List Byte :=
  (List.range (l.cneed / 64)).flatMap (fun k => s.mem.scratch.readN (s.clusterByte l cl (64 * k)) 64)
/-- Writes bytes line by line at core-scratchpad homes as the front end (03 R95). -/
def State.restoreLines (s : State) (ctx : Nat) (homeOf : Nat → Nat) (bs : List Byte) : State :=
  (cutLines 64 0 (bs.length / 64 + 2) 0 bs.length).foldl (fun s p =>
    (s.homeWrite { space := .scratch, addr := homeOf p.1 } ((bs.drop p.1).take p.2) s.fe.stamp ctx).1) s
/-- Reserves places in one cluster, without an allocation of the launch yet, for plots that shared one, and restores their
cluster memory there (01 R40). -/
def State.reserveTogether (s : State) (l : Launch) (ps : List Plot) : Option State :=
  let idxs := ps.map (·.index)
  let free := (List.range 128).filter (fun cl => !l.callocs.any (fun c => c.cluster == cl))
  let order := sortBy (fun a b => s.chipletPlaces (b / 16) < s.chipletPlaces (a / 16) ||
    (s.chipletPlaces (b / 16) == s.chipletPlaces (a / 16) && (a / 16 < b / 16 || (a / 16 == b / 16 && s.clusterPlaces b < s.clusterPlaces a)))) free
  let tries := order.filterMap (fun cl => (State.reserveAll (fun s l i => s.bestOf (s.holders l i ((List.range 8).map (fun k => 8 * cl + k)))) l.lid idxs s).map
    (fun s' => (cl, s')))
  match tries.head?, ps with
  | some (cl, s'), p :: _ =>
    let a := (s'.launch l.lid).allocIn cl
    let s' := { s' with plots := s'.plots.map (fun (q : Plot) => if ps.any (fun x => x.pid == q.pid) then { q with alloc := a } else q) }
    some (s'.restoreLines l.ctx (fun o => s'.clusterByte (s'.launch l.lid) cl o) (p.image.readN (2 ^ 20) l.cneed))
  | _, _ => none
/-- The allocations that some plots shared. -/
def allocsOf (ps : List Plot) : List Nat := (ps.map (·.alloc)).eraseDups
/-- A plot's reservation can be used: its chiplet is serving (19 R370, R371), no window change is pending in its cluster, and its place lies
below the window in force (16 R300). -/
def State.reservationOpen (s : State) (l : Launch) (idx : Nat) : Bool :=
  l.reserved.any (fun r => r.1 == idx &&
    (let core := r.2 / 2 ^ 20; let cl := clusterOf core
     s.chipState (chipletOf core) == 0 && (s.cluster cl).winPending.isNone && r.2 % 2 ^ 20 + l.space idx ≤ s.plotSpace core &&
     l.callocs.all (fun c => c.cluster != cl || c.offset + l.cneed / 8 ≤ s.window cl)))
/-- Reservations for a plot that returns from eviction and those that return with it; of a co-operative launch also for its plots that have
not been placed yet (01 R30). -/
def State.reserveUnit (s : State) (l : Launch) (p : Plot) : Option State :=
  if l.reserved.any (fun r => r.1 == p.index) then (if s.reservationOpen l p.index then some s else none)
  else
    let u := s.unit l p
    let back :=
      if l.cneed != 0 then (allocsOf u).foldl (fun acc a => acc.bind (fun s => s.reserveTogether (s.launch l.lid) (u.filter (fun q => q.alloc == a)))) (some s)
      else State.reserveAll State.chooseCore l.lid (u.map (·.index)) s
    let rest := if l.coop then (List.range l.plotCount).filter (fun i => !s.plots.any (fun q => q.lid == l.lid && q.index == i)) else []
    back.bind (State.reserveAll State.chooseCore l.lid rest)
/-- The heater throttle keeps out new work of a priority (18 R356). -/
def State.throttles (s : State) (prio : Nat) : Bool := s.field 0x220 0 0 == 1 && prio < s.field 0x218 3 0
/-- Whether a plot of the order can be placed now. -/
def State.placeable (s : State) (e : Launch × Nat × Option Plot) : Bool :=
  match e.2.2 with
  | some p => (s.reserveUnit e.1 p).isSome
  | none => !(s.throttles e.1.prio) && (s.reservationOpen e.1 e.2.1 || (!e.1.coop && (s.chooseCore e.1 e.2.1).isSome))

/-! Placing (01 R26; 03 R83, R95; 05 R130). -/

/-- The threads of a group at its start. -/
def startThreads (l : Launch) (pts : Word) (slices : List (List Byte)) : List Thread :=
  (List.range 32).map (fun i =>
    if i < l.width then { Thread.start with live := true, pos := ⟨l.pentry, 0⟩, pts := pts, slice := Memory.empty.writeN 0 (slices.getD i []) }
    else Thread.start)
/-- The architectural state of a group at its start: s0 to s15 and a0 to a7 from the queue entry, both streams at their entries. -/
def startArch (l : Launch) (pts : Word) (slices : List (List Byte)) : GArch :=
  { GArch.start with
    threads := startThreads l pts slices,
    s := (List.range 32).map (fun n => if n < 16 then BitVec.ofNat 32 (l.at (128 + 4 * n) 4) else 0),
    drill := { DrillSt.start with pos := ⟨l.dentry, 0⟩, dts := pts, ended := l.dentry == BitVec.allOnes 64,
                                  a := (List.range 16).map (fun n => if n < 8 then BitVec.ofNat 64 (l.at (192 + 8 * n) 8) else 0) } }
/-- A new group of a plot becomes resident. -/
def State.addGroup (s : State) (l : Launch) (p : Plot) (idx : Nat) : State :=
  let f := s.fresh
  let sl := (List.range l.width).foldl (fun (acc : State × List (List Byte)) _ => let q := acc.1.freeBytes l.slice; (q.2, acc.2 ++ [q.1])) (f.2, [])
  let s := sl.1
  let pts := tmax s.tbase l.stamp
  let g : Group := { Group.idle with gid := f.1, pid := p.pid, lid := l.lid, idx := idx, core := p.core, ctx := l.ctx, prio := l.prio, width := l.width,
                                     arch := startArch l pts sl.2, retired := List.replicate 4 s.tbase }
  { s with groups := s.groups ++ [s.seatNew g] }
/-- A plot comes to a core, which leaves S1, and its chiplet S2 (18 R351). -/
def State.stirCore (s : State) (core : Nat) : State := s.rouse (fun u => u.1 == 3 || u == (2, chipletOf core) || u == (1, core))
/-- Places an unplaced plot on a core (16 R310; 17 R339; 01 R41: its start counts as a plot barrier). -/
def State.placePlot (s : State) (l : Launch) (idx core base : Nat) : State :=
  let s := (s.stirCore core).makeAlloc l.lid (clusterOf core)
  let f := s.fresh
  let s := f.2.updLaunch l.lid (fun l => { l with reserved := l.reserved.filter (fun r => r.1 != idx) })
  let n := l.groupCount * recordLen l.slice
  let sh := s.poolFind l.ctx n
  let b := s.freeBytes l.scratch
  let s := { b.2 with mem := { b.2.mem with scratch := b.2.mem.scratch.writeN (core * 2 ^ 20 + base) b.1 } }
  let p : Plot := { Plot.none with pid := f.1, lid := l.lid, index := idx, st := .resident, core := core, base := base, size := l.scratch,
                                   shadowPa := sh.getD 0, shadowLen := if sh.isSome then n else 0, shadowOk := sh.isSome,
                                   alloc := (s.launch l.lid).allocIn (clusterOf core) }
  let s := { s with plots := s.plots ++ [p] }
  ((List.range l.groupCount).foldl (fun s i => s.addGroup l p i) s).newInterval p.pid

/-! Eviction (01 R39; 16 R311, R312). -/

/-- A plot may be evicted at all: resident, not escalated (17 R335), not being rolled back. -/
def State.evictable (s : State) (p : Plot) : Bool :=
  p.st == .resident && !p.rolling && (s.plotGroups p.pid).all (fun g => g.esc.isNone)
/-- The plots that go together with one (01 R39, R40). -/
def State.victimUnit (s : State) (p : Plot) : List Plot :=
  let l := s.launch p.lid
  let mine := s.plots.filter (fun q => q.lid == p.lid && q.st == .resident)
  if l.coop then mine else if l.cneed != 0 then mine.filter (fun q => q.alloc == p.alloc) else [p]
/-- The plots whose reservations an eviction of a plot gives up: every one of a co-operative launch, which is evicted whole, and those of
saved plots that were to return to the plot's cluster memory (01 R30, R39, R40). -/
def State.withVictim (s : State) (p : Plot) (index : Nat) : Bool :=
  (s.launch p.lid).coop || (p.alloc != 0 && s.plots.any (fun q => q.lid == p.lid && q.st == .saved && q.alloc == p.alloc && q.index == index))
/-- Starts the eviction of some plots: save space is reserved and their groups stop at packet boundaries; none where a context's
pool has no room. -/
def State.stopPlots : List Plot → State → Option State
  | [], s => some s
  | p :: ps, s =>
    let l := s.launch p.lid
    match s.poolFind l.ctx (l.saveLen p.index) with
    | none => none
    | some a =>
      let s := s.unreserve p.lid (s.withVictim p)
      State.stopPlots ps ((s.updPlot p.pid (fun p => { p with savePa := a, saveLen := l.saveLen p.index })).mapGroups (fun g =>
        if g.pid == p.pid && g.place != .gone then { g with stopping := true } else g))
/-- The state as it would be with some plots evicted. -/
def State.without (s : State) (ps : List Plot) : State :=
  let gone (pid : Nat) : Bool := ps.any (fun p => p.pid == pid)
  let s := ps.foldl (fun s p => s.unreserve p.lid (s.withVictim p)) s
  let s := { s with plots := s.plots.map (fun (p : Plot) => if gone p.pid then { p with st := .saved } else p),
                    groups := s.groups.map (fun (g : Group) => if gone g.pid then { g with place := .saved } else g) }
  ps.foldl (fun s p => s.freeClusterMem p.lid) s
/-- Victims of a core taken one at a time in their ranking until the waiting plot would fit (16 R311). -/
def State.victimsFrom (s : State) (l : Launch) (idx core : Nat) : List Plot → List Plot → Option (List Plot)
  | acc, [] => if ((s.without acc).canHold l idx core).isSome then some acc else none
  | acc, p :: ps =>
    if ((s.without acc).canHold l idx core).isSome then some acc
    else
      let u := (s.victimUnit p).filter (fun q => !acc.any (fun x => x.pid == q.pid))
      if u.all s.evictable && (State.stopPlots (acc ++ u) s).isSome then s.victimsFrom l idx core (acc ++ u) ps else s.victimsFrom l idx core acc ps
/-- The victim set of a core for a waiting plot. -/
def State.victimsOf (s : State) (l : Launch) (idx core : Nat) : Option (List Plot) :=
  let prio (p : Plot) : Nat := (s.launch p.lid).prio
  let ord (p : Plot) : Nat := (s.launch p.lid).order
  let cs := s.plots.filter (fun p => p.core == core && s.evictable p && prio p < l.prio)
  let cs := sortBy (fun a b => prio a < prio b || (prio a == prio b && (ord b < ord a || (ord a == ord b && b.index < a.index)))) cs
  s.victimsFrom l idx core [] cs
/-- The victims in hardware mode (16 R311). -/
def State.victims (s : State) (l : Launch) (idx : Nat) : Option (List Plot) :=
  let sets := (List.range 1024).filterMap (fun c => (s.victimsOf l idx c).map (fun v => (c, v)))
  let sets := least (fun (x : Nat × List Plot) => x.2.length) sets
  let sets := least (fun (x : Nat × List Plot) => x.2.foldl (fun m p => max m (s.launch p.lid).prio) 0) sets
  (sets.head?).map (·.2)
/-- An eviction is under way. -/
def State.evicting (s : State) : Bool := s.groups.any (fun g => g.stopping && g.place != .saved)
/-- The plots returned for a plot that cannot be placed: chosen here, or asked of the host (16 R311, R314). A plot waits while an eviction is
under way, and one that the heater throttle keeps out evicts nothing (18 R356). -/
def State.preempt (s : State) (e : Launch × Nat × Option Plot) : Option State :=
  if s.evicting || (e.2.2.isNone && s.throttles e.1.prio) then none
  else if s.fsplit 3 then
    let w := Pending.victims e.1.lid e.2.1
    if s.mbox.pending.contains w then none
    else some (({ s with mbox := { s.mbox with pending := s.mbox.pending ++ [w] } }).post 0x04
      (BitVec.ofNat 480 (ofDigitsW 32 [e.1.ctx, e.1.queue, e.1.entry, e.2.1, e.1.groupCount, e.1.space e.2.1, e.1.slice, e.1.cneed])))
  else if s.mbox.pending.contains (Pending.victims e.1.lid e.2.1) then none
  else (s.victims e.1 e.2.1).bind (fun v => if v.isEmpty then none else State.stopPlots v s)

/-- PLOT_PLACE (16 R309 to R311): the first plot of the order that a core can hold is placed; for a head that none can hold,
victims are chosen first. -/
def execPlotPlace (s : State) : Host.Outcome State Fault Refusal :=
  if s.fe.stopAdmit then .fault .eventNotEnabled
  else
    match s.order with
    | [] => .fault .eventNotEnabled
    | h :: rest =>
      match (if s.placeable h then none else s.preempt h) with
      | some s' => .next s'
      | none =>
        match (h :: rest).find? s.placeable with
        | some (l, idx, none) =>
          (match (match l.reserved.find? (fun r => r.1 == idx) with | some r => some (r.2 / 2 ^ 20, r.2 % 2 ^ 20) | none => s.chooseCore l idx) with
           | some (core, base) => .next (s.placePlot l idx core base)
           | none => .fault .eventNotEnabled)
        | _ => .fault .eventNotEnabled

/-- A wait whose word executes again from its start after a resumption (09 R201). -/
def Wait.reExec (w : Wait) : Bool := match w with | .addr _ | .kb _ _ _ => true | _ => false
/-- A thread as its group is saved: at a wait that re-executes it stands before its word, an arrival stays (09 R201). -/
def Thread.evict (t : Thread) : Thread :=
  let t := if t.wait.any Wait.reExec then { t.again t.pos t.wnext t.src with wait := none } else t
  if t.susp.any (fun w => w.1.reExec) then t.suspAgain else t
/-- The latest write stamp among the scratchpad lines of a range of a core. -/
def State.regionStamp (s : State) (core lo n : Nat) : Word :=
  s.mem.lines.foldl (fun m l => match l.key with
    | .loc c k => if c == core && lo ≤ 64 * k && 64 * k < lo + n then tmax m (unstale s.tbase l.wts) else m
    | _ => m) s.fe.stamp
/-- The slot buffers of a consumer plot in its save space: of each of its channels the slots that have arrived, in their order, and
zeros for its free slots (16 R312, R378; the order within a channel is log 51's). -/
def Launch.slotImage (l : Launch) (idx : Nat) : List Byte :=
  (l.chans.filter (fun c => c.consumer == idx)).flatMap (fun c =>
    (List.range c.slots).flatMap (fun i => ((c.pending[i]?).map (·.1)).getD (bytesOf 128 0)))
/-- The plot header (16 R378): context, launch, plot, core and the places of the group records; the rest of its 4096 bytes is free
(log 51). -/
def State.plotHeader (s : State) (l : Launch) (p : Plot) (gap : List Byte) : List Byte :=
  let places := (s.plotGroups p.pid).flatMap (fun g => bytesOf 8 (p.savePa + 4096 + g.idx * recordLen l.slice))
  let h := bytesOf 4 l.ctx ++ bytesOf 4 l.queue ++ bytesOf 4 l.entry ++ bytesOf 4 p.index ++ bytesOf 4 p.core ++ bytesOf 4 l.groupCount ++ places
  h ++ gap.drop h.length
/-- The last of a plot's groups has been saved: its allocation, its slot buffers and then its header follow, and its resources are
free (16 R312, R378). The cluster memory that it shared is kept with every saved plot that shared it, as it is now (01 R40). -/
def State.savePlot (s : State) (pid : Nat) : State :=
  let p := s.plot pid
  let l := s.launch p.lid
  let cl := clusterOf p.core
  let a := p.core * 2 ^ 20 + p.base
  let shared := if l.cneed == 0 then [] else s.clusterImage l cl
  let st := tmax (s.regionStamp p.core p.base p.size)
    (if l.cneed == 0 then s.fe.stamp else tmaxL s.fe.stamp ((List.range 8).map (fun k => s.regionStamp (8 * cl + k) (2 ^ 20 - s.window cl) (s.window cl))))
  let s := { s with fe := { s.fe with stamp := tmax s.fe.stamp st } }
  let gap := s.freeBytes 4096
  let s := gap.2
  let pa := s.imagePa p
  let s := s.agentPut l.ctx pa (s.mem.scratch.readN a p.size)
  let s := s.agentPut l.ctx (pa + roundUp l.scratch 4096) (l.slotImage p.index)
  let s := s.agentPut l.ctx p.savePa (s.plotHeader l p gap.1)
  let image := (s.mem.scratch.extract a p.size).writeN (2 ^ 20) shared
  let s := s.updPlot pid (fun p => { p with st := .saved, image := image })
  let s := { s with plots := s.plots.map (fun (q : Plot) =>
    if q.lid == p.lid && q.st == PlotSt.saved && q.alloc == p.alloc && l.cneed != 0 then { q with image := q.image.writeN (2 ^ 20) shared } else q) }
  let ids := s.chans.filterMap (fun c => match c.record with
    | some r => (match s.targetPlot c.init r with | some q => if q.pid == pid then some r.id else none | none => none)
    | none => none)
  (ids.foldl (fun s i => s.unboard i) s).freeClusterMem p.lid
/-- A group that stops has nothing left to wait for (01 R39, 11 R250). -/
def State.mayEvict (s : State) (g : Group) : Bool :=
  g.stopping && g.place != .saved && g.place != .gone && g.esc.isNone && !(s.plot g.pid).rolling && g.holds.isEmpty &&
  (s.readyLanes g).isEmpty && !s.taking g.gid && !(g.loads ++ g.dloads).any (fun r => r.parts.any (fun p => Space.isLocal p.tgt.space)) &&
  !g.arch.threads.any (fun t => t.leaving && t.wait.isNone)
/-- GROUP_EVICT (01 R39, 16 R312). -/
def execGroupEvict (gid : Nat) (s : State) : Host.Outcome State Fault Refusal :=
  match s.group gid with
  | none => .fault .eventNotEnabled
  | some g =>
    if !s.mayEvict g || !s.feServes (s.plot g.pid).savePa (s.plot g.pid).saveLen then .fault .eventNotEnabled
    else
      let s := (s.leaveKb g (g.arch.threads.flatMap (fun t => t.waitings.map (fun w => (w, t.pts))))).withdraw gid
      let s := { s with mem := { s.mem with monitors := s.mem.monitors.filter (fun m => match m.who with | .thread i _ => i != gid | .queue _ => true) } }
      let s := { s with peers := { s.peers with remotes := s.peers.remotes.filter (fun (r : Remote) => !(r.gid == gid && r.rid == 0)) } }
      let s := s.updGroup gid (fun g => { g.mapThreads (fun _ t => t.evict) with place := .saved, stalled := false, stopping := false })
      let s := match s.group gid with
        | some g => s.writeRecord g g.arch (s.recordPa g)
        | none => s
      if (s.plotGroups g.pid).all (fun g => g.place == .saved || g.place == .gone) then .next (s.savePlot g.pid) else .next s

/-! Resumption (01 R40; 03 R83). -/

/-- Stamps of a group that resumes. -/
def Group.catchUp (g : Group) (tb : Word) : Group :=
  let g := g.mapThreads (fun _ t => if t.live then { t with pts := tmax t.pts tb } else t)
  { g with arch := { g.arch with drill := { g.arch.drill with dts := tmax g.arch.drill.dts tb } } }
/-- Restores a saved plot on a core: its scratchpad bytes, its groups and the ranges of the records that write into it. -/
def State.resumePlot (s : State) (l : Launch) (p : Plot) (core base : Nat) : State :=
  let s := (s.stirCore core).restoreLines l.ctx (fun o => core * 2 ^ 20 + base + o) (p.image.readN 0 p.size)
  let taken := (s.plots.filter (fun q => q.st == .resident && q.core == core)).foldl (fun n q => n + q.log.length) 0
  let fits := taken + p.log.length ≤ 1024
  let s := s.updPlot p.pid (fun p => { p with
    st := .resident, core := core, base := base, image := Memory.empty, savePa := 0, saveLen := 0,
    eligible := p.eligible && fits, logging := p.logging && fits, log := if fits then p.log.map (fun e => (e.1 - p.base + base, e.2)) else [] })
  let s := s.updLaunch l.lid (fun l => { l with reserved := l.reserved.filter (fun r => r.1 != p.index) })
  let gids := (sortBy (fun (a b : Group) => a.idx < b.idx) (s.plotGroups p.pid)).map (·.gid)
  let s := gids.foldl (fun s gid => match s.group gid with
    | some g =>
      let g' := { g.catchUp s.tbase with core := core, resumed := !g.loads.isEmpty }
      let g' := if g.place == .gone then g' else s.seatNew g'
      s.updGroup gid (fun _ => g')
    | none => s) s
  s.chans.foldl (fun s c => match c.record with
    | some r => (match s.targetPlot c.init r with | some q => if q.pid == p.pid && r.status == 0 then s.boardRecord r q else s | none => s)
    | none => s) s
/-- PLOT_RESUME (01 R40, 16 R309): a saved plot is the first of the order that can be placed. -/
def execPlotResume (pid : Nat) (s : State) : Host.Outcome State Fault Refusal :=
  if s.fe.stopAdmit then .fault .eventNotEnabled
  else
    match s.order.find? s.placeable with
    | some (l, _, some p) =>
      if p.pid != pid then .fault .eventNotEnabled
      else
        (match s.reserveUnit l p with
         | none => .fault .eventNotEnabled
         | some s' =>
           match ((s'.launch l.lid).reserved.find? (fun r => r.1 == p.index)) with
           | some r => .next (s'.resumePlot (s'.launch l.lid) p (r.2 / 2 ^ 20) (r.2 % 2 ^ 20))
           | none => .fault .eventNotEnabled)
    | _ => .fault .eventNotEnabled

/-- VICTIM_REPLY (16 R314): the named plots are evicted if each is of a lower priority than the waiting plot's and whole
co-operative launches are named; nothing otherwise. -/
def execVictimReply (pids : List Nat) (s : State) : Host.Outcome State Fault Refusal :=
  match s.mbox.pending.filterMap (fun p => match p with | .victims lid i => some (lid, i) | _ => none) with
  | [] => .fault .eventNotEnabled
  | (lid, i) :: _ =>
    let s := { s with mbox := { s.mbox with pending := s.mbox.pending.erase (Pending.victims lid i) } }
    let ps := pids.filterMap (fun pid => s.plots.find? (fun p => p.pid == pid))
    let ok := ps.length == pids.length && ps.all (fun p => s.evictable p && (s.launch p.lid).prio < (s.launch lid).prio &&
      (s.victimUnit p).all (fun q => pids.contains q.pid))
    .next (if ok then (State.stopPlots ps s).getD s else s)

end Sys2Proof.Machine
end

