-- ==== Sys2Proof/Machine/LaunchEvents.lean ====
section
/-! DEFINITION. Device steps of the launch front end (16 R304 to R309), of contexts and cluster windows (R300, R301), and of the
Hayward engine (R315 to R318). -/

namespace Sys2Proof.Machine
open Sys2Proof

/-! Queue registers (16 R304). -/

def State.qhead (s : State) (q : Nat) : Nat := s.regN (qBlock q + 16)
def State.qtail (s : State) (q : Nat) : Nat := s.regN (qBlock q + 12)
def State.qctx (s : State) (q : Nat) : Nat := s.field (qBlock q + 8) 27 16
def State.qen (s : State) (q : Nat) : Bool := bit (s.regN (qBlock q + 20)) 0
/-- Entries of a queue's ring: SIZE is 4 to 16, other values read as 4. -/
def State.qsize (s : State) (q : Nat) : Nat := let n := s.field (qBlock q + 8) 4 0; if 4 ≤ n && n ≤ 16 then 2 ^ n else 16
/-- Physical address of the entry of an index. -/
def State.entryPa (s : State) (q idx : Nat) : Nat := s.regN (qBlock q) + 256 * (idx % s.qsize q)
/-- QCTL.BUSY: an admitted launch of the queue is running. -/
def State.qbusy (s : State) (q : Nat) : Bool := s.launches.any (fun l => l.queue == q && l.st == .admitted)
/-- Entries between QHEAD and QTAIL. -/
def State.qwaiting (s : State) (q : Nat) : Nat := (s.qtail q + 2 ^ 32 - s.qhead q) % 2 ^ 32
/-- QHEAD moves past an entry. -/
def State.qadvance (s : State) (q : Nat) : State := s.setReg (qBlock q + 16) (BitVec.ofNat 64 ((s.qhead q + 1) % 2 ^ 32))
/-- The launch fetched at a queue's head. -/
def State.fetched (s : State) (q : Nat) : Option Launch := s.launches.find? (fun l => l.queue == q && l.st == .fetched)
/-- CTRL of an entry with OWN = 0 and a status. -/
def ctrlWith (ctrl status : Nat) : Nat := ctrl - bits ctrl 4 0 + status % 16 * 2
/-- The front end writes CTRL of an entry (16 R306), as an agent at a stamp after the given one. What it cannot reach stays as it is: only a
write that has waited 50 ms for a link chiplet comes here then (19 R372). -/
def State.writeCtrl (s : State) (q idx ctrl status ctx : Nat) (ts : Word) : State :=
  let pa := s.entryPa q idx
  if populated pa && s.feServes pa 4 then
    let w := s.agentWrite ctx (tmax s.fe.stamp ts) pa (bytesOf 4 (ctrlWith ctrl status))
    { w.1 with fe := { w.1.fe with stamp := w.2 } }
  else s
/-- An entry at the head finishes without starting. -/
def State.reject (s : State) (q ctrl status ctx : Nat) : State :=
  ((s.writeCtrl q (s.qhead q) ctrl status ctx s.fe.stamp).qadvance q)
/-- Forgets the fetched launch and the monitors of a queue. -/
def State.unfetch (s : State) (q : Nat) : State :=
  { s with launches := s.launches.filter (fun l => !(l.queue == q && l.st == .fetched)),
           mem := { s.mem with monitors := s.mem.monitors.filter (fun m => m.who != Waiter.queue q) } }

/-- QTAIL_DOORBELL (16 R304); a doorbell wakes the device (18 R351). -/
def execQtailDoorbell (q : Nat) (value : Word) (s : State) : Host.Outcome State Fault Refusal :=
  s.regAnswers (if 512 ≤ q || s.inS4 then .fault .eventNotEnabled else .next (s.awake.setReg (qBlock q + 12) (value.setWidth 64)))
/-- QUEUE_ENABLE (16 R304): a write of 1 while BUSY is 1 is ignored; with EN = 0 an entry that has been read and not admitted is read
again later, from the ring as it is then. -/
def execQueueEnable (q : Nat) (en : Bool) (s : State) : Host.Outcome State Fault Refusal :=
  s.regAnswers <|
  if 512 ≤ q then .fault .eventNotEnabled
  else if en && s.qbusy q then .next s
  else .next ((if en then s else s.unfetch q).setField (qBlock q + 20) 0 0 (bnat en))
/-- The front end reaches every unadmitted entry of a queue. -/
def State.cancelServes (s : State) (q : Nat) : Bool :=
  (List.range (min (s.qwaiting q) (s.qsize q))).all (fun i => s.feServes (s.entryPa q ((s.qhead q + i) % 2 ^ 32)) 4)
/-- QUEUE_CANCEL (16 R304, R306): every unadmitted entry finishes with CANCELLED. It waits while the front end does not reach one of them
(02 R71; log 91). -/
def execQueueCancel (q : Nat) (s : State) : Host.Outcome State Fault Refusal :=
  s.regAnswers <|
  if 512 ≤ q || !s.cancelServes q then .fault .eventNotEnabled
  else
    let n := min (s.qwaiting q) (s.qsize q)
    let head := s.qhead q
    let s' := (List.range n).foldl (fun s i =>
      let idx := (head + i) % 2 ^ 32
      s.writeCtrl q idx (s.mem.glob.num (s.entryPa q idx) 4) 7 (s.qctx q) s.fe.stamp) (s.unfetch q)
    .next (s'.setReg (qBlock q + 16) (s.reg (qBlock q + 12)))

/-! Entries (16 R305, R306). -/

/-- A defect in the entry's own fields (16 R305, R306). The alignment of a DEP address counts for the dependences that NDEP names (log 89). -/
def Launch.defect (l : Launch) (hsen : Nat) : Bool :=
  let c := l.ctrl
  !bit c 0 || bits c 4 1 != 0 || bit c 7 || bits c 31 20 != 0 || l.at 7 1 != 0 || bits (l.at 8 4) 7 5 != 0 || bits (l.at 8 4) 31 23 != 0 ||
  512 < bits (l.at 8 4) 22 13 || bits (l.at 12 4) 31 25 != 0 || 1024 < bits (l.at 12 4) 10 0 || 8192 < bits (l.at 12 4) 24 11 ||
  64 < l.at 48 4 || 1024 < l.at 52 4 || l.caddr % 8 != 0 || (List.range l.ndep).any (fun i => l.at (80 + 16 * i) 8 % 8 != 0) ||
  (l.step && !bit hsen l.hstream)
/-- LAUNCH_ENTRY_FETCH (16 R306, stages 1 and 2): the entry is kept, or finishes with FETCH or ENTRY. -/
def execLaunchEntryFetch (q : Nat) (s : State) : Host.Outcome State Fault Refusal :=
  if 512 ≤ q || !s.qen q || s.qwaiting q == 0 || (s.fetched q).isSome || s.fe.stopAdmit || !bit (s.regN 0x200) 0 then .fault .eventNotEnabled
  else
    let pa := s.entryPa q (s.qhead q)
    let x := s.qctx q
    if !s.feServes pa 256 then .fault .eventNotEnabled
    else if !populated pa || !populated (pa + 255) || 3 ≤ s.eccClass pa 256 then
      .next ((s.countRead { space := .glob, addr := pa } 256).reject q (s.mem.glob.num pa 4) 8 x)
    else
      let r := s.agentRead s.fe.stamp pa 256
      let f := r.1.fresh
      let s := { f.2 with fe := { f.2.fe with stamp := r.2.2 } }
      let im := BitVec.ofNat 2048 (ofBytes r.2.1)
      let l : Launch := { Launch.none with lid := f.1, queue := q, entry := s.qhead q, ctx := x, st := .fetched, image := im, stamp := r.2.2 }
      let l := { l with prio := min (bits l.ctrl 11 8) (min (s.field (qBlock q + 8) 31 28) (s.ctx x).pmax) }
      if l.defect (s.regN 0x18) then .next (s.reject q l.ctrl 2 x) else .next { s with launches := s.launches ++ [l] }

/-- The front end's translations stand under a holder of their own. -/
def feHolder : List Holder := [.engine 64]
/-- What a fault leaves that the front end meets: a used answer of the host, a listed page-table sector (17 R327, R328), and the count of what
it read: `feBad` and `feClash` name the physical address (R337; 19 R368). -/
def State.feTrap (s : State) (x : Nat) (t : Trap) : State :=
  let at_ : Target := { space := .glob, addr := t.faddr.toNat }
  match t.code with
  | 0x31 => s.countRead at_ t.info
  | 0x1F => s.countTag at_
  | _ => (s.useAnswer feHolder x t).listPoison t
/-- The front end has read n bytes with an uncorrectable sector. -/
def feBad (t : Target) (n : Nat) : Trap := { code := 0x31, info := n, faddr := BitVec.ofNat 64 t.addr }
/-- The front end has met a tag mismatch. -/
def feClash (t : Target) : Trap := { code := 0x1F, faddr := BitVec.ofNat 64 t.addr }
/-- Reads n bytes at a virtual address of a context as the front end; a trap stands for FETCH, which an address of a peer device gives too
(log 53). -/
def feReads (s : State) (x : Nat) (ts : Word) (va : Nat) (acc : List Byte) : List (Nat × Nat) → Res (State × List Byte × Word)
  | [] => .ok (s, acc, ts)
  | (o, n) :: rest =>
    (s.checkGlobal feHolder x false 0 (BitVec.ofNat 64 (va + o)) n { r := true, w := false }).bind fun tg =>
      match tg with
      | (t, _) :: _ =>
        if isPeer t.addr || t.space != .glob then .trap (Trap.of 0x10)
        else if !s.portServes s.fePort t then .wait none
        else if s.bad t n then .trap (feBad t n)
        else if (s.tagMismatch t n).isSome then .trap (feClash t)
        else
          let r := (s.countMiss feHolder x (va + o)).readThird t n ts x 0
          feReads r.1 x r.2.2.2.2 va (acc ++ r.2.1) rest
      | [] => .trap (Trap.of 0x10)
def State.feRead (s : State) (x : Nat) (ts : Word) (va n : Nat) : Res (State × List Byte × Word) :=
  feReads s x ts va [] (cutLines 128 va (n / 128 + 2) 0 n)

/-! Dependences (16 R308). -/

/-- The counters of an entry that it waits for: address and target. -/
def Launch.deps (l : Launch) : List (Nat × Nat) := (List.range l.ndep).map (fun i => (l.at (80 + 16 * i) 8, l.at (88 + 16 * i) 8))
/-- Reads every dependence: the first one not met, if any. -/
def State.depsFrom (x : Nat) : List (Nat × Nat) → State → Res (State × Option Nat)
  | [], s => .ok (s, none)
  | (a, t) :: rest, s =>
    (s.feRead x s.fe.stamp a 8).bind fun r =>
      let s := { r.1 with fe := { r.1.fe with stamp := r.2.2 } }
      if t ≤ ofBytes r.2.1 then s.depsFrom x rest else .ok (s, some a)
/-- The queue waits at a monitor for a dependence. -/
def State.depArmed (s : State) (q : Nat) : Bool := s.mem.monitors.any (fun m => m.who == Waiter.queue q)

/-! The structures of an entry (16 R305, R306; 01 R28; 09 R214). -/

/-- The ranges of a list of a set-table entry; none where a reserved bit is set or the order is broken. -/
def rangesOk (count lo : Nat) : List Nat → Option (List (Nat × Nat))
  | [] => some []
  | w :: ws =>
    let a := bits w 23 0; let b := bits w 55 32
    if bits w 31 24 != 0 || bits w 63 56 != 0 || a < lo || b < a || count ≤ b then none
    else (rangesOk count (b + 1) ws).bind (fun r => some ((a, b) :: r))
/-- Words of w bytes of a list of bytes. -/
def chop (w : Nat) (bs : List Byte) : List Nat := (List.range (bs.length / w)).map (fun i => ofBytes ((bs.drop (w * i)).take w))
/-- Reads the set table: each entry's list of ranges with its reserved bytes. -/
def State.readSets (s : State) (l : Launch) : Res (State × List (List Nat × Nat)) :=
  let tab := l.at 32 8
  if tab == 0 then .ok (s, [])
  else
    (s.feRead l.ctx s.fe.stamp tab 4096).bind fun r =>
      (List.range 256).foldl (fun (acc : Res (State × List (List Nat × Nat))) i =>
        acc.bind fun a =>
          let e := (r.2.1.drop (16 * i)).take 16
          let n := ofBytes ((e.drop 8).take 4)
          if n == 0 then .ok (a.1, a.2 ++ [([], ofBytes (e.drop 12))])
          else (a.1.feRead l.ctx a.1.fe.stamp (ofBytes (e.take 8)) (8 * n)).bind fun q =>
            .ok ({ q.1 with fe := { q.1.fe with stamp := q.2.2 } }, a.2 ++ [(chop 8 q.2.1, ofBytes (e.drop 12))]))
        (.ok ({ r.1 with fe := { r.1.fe with stamp := r.2.2 } }, []))
/-- The set table as kept, none where SETS is given. -/
def checkSets (count : Nat) (es : List (List Nat × Nat)) : Option (List (List (Nat × Nat))) :=
  let rs := es.map (fun e => if e.2 != 0 then none else rangesOk count 0 e.1)
  if rs.any (·.isNone) then none
  else
    let sets := rs.filterMap id
    let firsts := sets.flatMap (fun r => r.map (·.1))
    if firsts.any (fun p => 4 < (sets.filter (fun r => r.any (fun x => x.1 ≤ p && p ≤ x.2))).length) then none else some sets
/-- A channel declaration, none where CHAN is given. The slots that no message has used yet have TBASE's value at admission as the stamp
of their line: 03 R94 states none (log 78). -/
def checkChan (l : Launch) (tb : Word) (w : Nat) : Option Chan :=
  let p := bits w 7 0; let n := bits w 15 8; let c := bits w 39 16
  if bits w 63 40 != 0 || (l.sets.getD p []).isEmpty || l.plotCount ≤ c || n == 0 || 64 < n then none
  else some ⟨p, c, n, List.replicate n tb, [], [], []⟩
/-- The state with nothing resident or reserved (16 R306, CAPACITY). -/
def State.emptied (s : State) : State :=
  { s with groups := [], plots := [], launches := s.launches.map (fun (l : Launch) => { l with reserved := [], callocs := [] }),
           clusters := s.clusters.map (fun (c : Cluster) => { c with winPending := none }) }
/-- Some plot of the launch no core could hold, or a co-operative launch does not fit the whole device, as the choice of 16 R310 would place
its plots one after another on the chiplets that serve now (log 89). -/
def State.overCapacity (s : State) (l : Launch) : Bool :=
  let e := s.emptied
  let kinds := (0 :: l.chans.map (·.consumer)).eraseDups
  kinds.any (fun i => (e.holders l i (List.range 1024)).isEmpty) ||
  (l.coop && (State.reserveAll State.chooseCore l.lid (List.range l.plotCount) e).isNone)

/-- Puts an admitted launch into the order (16 R308). -/
def State.admitLaunch (s : State) (l : Launch) : State :=
  let n := s.fe.order
  let s := s.updLaunch l.lid (fun _ => { l with st := .admitted, order := n, stamp := s.fe.stamp, maxStamp := s.fe.stamp })
  let s := { s with fe := { s.fe with order := n + 1, lastQueue := l.queue } }.rouse (fun u => u.1 == 3)
  (s.qadvance l.queue).setField (qBlock l.queue + 20) 2 2 1

/-- What an entry at the head that has been read comes to (16 R306 stages 3 to 5, R308). -/
inductive Admission
  /-- a translation that only the host can give -/
  | wait (m : Option Miss)
  /-- the dependence at an address is not met -/
  | unmet (s : State) (va : Nat)
  /-- a read met a fault -/
  | fetch (s : State) (t : Trap)
  /-- a check fails: the status -/
  | reject (s : State) (status : Nat)
  /-- a co-operative launch that finds no room now -/
  | held
  /-- the launch as admitted -/
  | ready (s : State)

/-- The structures have been read: the checks SETS, CHAN and CAPACITY in order, then the resources of a co-operative launch. -/
def State.checkEntry (s : State) (l : Launch) (sets : List (List Nat × Nat)) (chans bdesc : List Nat) : Admission :=
  match checkSets l.plotCount sets with
  | none => .reject s 3
  | some sets =>
    let cs := chans.map (checkChan l s.tbase)
    if cs.any (·.isNone) then .reject s 4
    else
      let l := { l with sets := sets, bdesc := bdesc.map (BitVec.ofNat 32), chans := cs.filterMap id }
      let s := s.updLaunch l.lid (fun _ => l)
      if s.overCapacity l then .reject s 5
      else if !l.coop then .ready (s.admitLaunch l)
      else
        match State.reserveAll State.chooseCore l.lid (List.range l.plotCount) s with
        | none => .held
        | some s' => .ready (s'.admitLaunch (s'.launch l.lid))
/-- Stages 3 to 5 for an entry that has been read. -/
def State.admission (s : State) (l : Launch) : Admission :=
  match s.depsFrom l.ctx l.deps with
  | .wait m => .wait m
  | .trap t => .fetch s t
  | .ok (s', some a) => .unmet s' a
  | .ok (s', none) =>
    match s'.readSets l with
    | .wait m => .wait m
    | .trap t => .fetch s' t
    | .ok (s1, sets) =>
      match s1.feRead l.ctx s1.fe.stamp (l.at 40 8) (8 * l.at 48 4) with
      | .wait m => .wait m
      | .trap t => .fetch s1 t
      | .ok c =>
        match c.1.feRead l.ctx c.2.2 (l.at 56 8) (4 * l.at 52 4) with
        | .wait m => .wait m
        | .trap t => .fetch c.1 t
        | .ok b => ({ b.1 with fe := { b.1.fe with stamp := b.2.2 } }).checkEntry l sets (chop 8 c.2.1) (chop 4 b.2.1)
/-- The heads that can be admitted: queue and launch. -/
def State.admissible (s : State) : List (Nat × Launch) :=
  (s.launches.filter (fun l => l.st == .fetched && s.qen l.queue && !s.depArmed l.queue && !s.throttles l.prio &&
    (match s.admission l with | .ready _ => true | _ => false))).map (fun l => (l.queue, l))
/-- The head that the front end takes next (16 R309): highest priority, then rotation. -/
def State.nextHead (s : State) : Option Nat :=
  let rot (q : Nat) : Nat := (q + 512 - (s.fe.lastQueue + 1) % 512) % 512
  ((sortBy (fun (a b : Nat × Launch) => b.2.prio < a.2.prio || (b.2.prio == a.2.prio && rot a.1 < rot b.1)) s.admissible).head?).map (·.1)
/-- LAUNCH_ADMIT (16 R306 stages 3 to 5, R308, R309): an unmet dependence arms a monitor, a co-operative launch that finds no room stays
at the head. -/
def execLaunchAdmit (q : Nat) (s : State) : Host.Outcome State Fault Refusal :=
  match s.fetched q with
  | none => .fault .eventNotEnabled
  | some l =>
    if !s.qen q || s.depArmed q || s.throttles l.prio || s.fe.stopAdmit || !s.feServes (s.entryPa q (s.qhead q)) 4 then .fault .eventNotEnabled
    else
      let gone (s : State) (st : Nat) : Host.Outcome State Fault Refusal := .next ((s.unfetch q).reject q l.ctrl st l.ctx)
      match s.admission l with
      | .wait m => s.askOnce m
      | .fetch s' t => gone (s'.feTrap l.ctx t) 8
      | .unmet s' a =>
        (match s'.checkGlobal feHolder l.ctx false 0 (BitVec.ofNat 64 a) 8 { r := true, w := false } with
         | .ok ((t, _) :: _) => .next (s'.arm t l.ctx (.queue q))
         | _ => gone s' 8)
      | .reject s' st => gone s' st
      | .held => .fault .eventNotEnabled
      | .ready s' => if s.nextHead != some q then .fault .eventNotEnabled else .next s'

/-! The end of a launch (16 R306; 03 R95). -/

/-- A stream, by number. -/
def State.stream (s : State) (n : Nat) : Stream := (s.streams.find? (fun x => x.id == n)).getD ⟨n, [], none⟩
def State.updStream (s : State) (n : Nat) (f : Stream → Stream) : State :=
  if s.streams.any (fun x => x.id == n) then { s with streams := s.streams.map (fun x => if x.id == n then f x else x) }
  else { s with streams := f (s.stream n) :: s.streams }
/-- The completion add at CADDR after a stamp (16 R306), an atomic at its home (03 R79): the state and the stamp it took, none for the
stamp where it meets a fault. -/
def State.completionAdd (s : State) (l : Launch) (ts : Word) : Res (State × Option Word) :=
  match s.checkGlobal feHolder l.ctx false 0 (BitVec.ofNat 64 l.caddr) 8 { r := true, w := true } with
  | .wait m => .wait m
  | .ok ((t, _) :: _) =>
    if isPeer t.addr || t.space != .glob then .ok (s, none)
    else if !s.portServes s.fePort t then .wait none
    else if s.bad t 8 then .ok (s.countRead t 8, none)
    else if (s.tagMismatch t 8).isSome then .ok (s.countTag t, none)
    else
      let w := (s.countMiss feHolder l.ctx l.caddr).atomicAt t 8 (fun v => (v + l.at 72 8) % 2 ^ 64) ts l.ctx 1
      .ok (w.1, some w.2.2)
  | .trap t => .ok (s.feTrap l.ctx t, none)
  | .ok [] => .ok (s, none)
/-- Every plot of the launch has ended; of a killed launch, nothing is left running (17 R336). -/
def State.launchOver (s : State) (l : Launch) : Bool :=
  let mine := s.plots.filter (fun p => p.lid == l.lid)
  l.st == .admitted && !s.allGroups.any (fun g => g.lid == l.lid) && mine.all (fun p => p.st == .ended) &&
  (if l.failing != 0 then !s.chainsOf l.lid else mine.length == l.plotCount)
/-- The launch and its plots leave. -/
def State.dropLaunch (s : State) (l : Launch) : State :=
  let s := { s with launches := s.launches.filter (fun x => x.lid != l.lid), plots := s.plots.filter (fun p => p.lid != l.lid) }
  s.setField (qBlock l.queue + 20) 2 2 (bnat (s.qbusy l.queue))
/-- A launch of the checkpoint image finishes with a status (19 R377). -/
def State.noteEnd (s : State) (l : Launch) (status : Nat) : State :=
  if s.ckpt.launches.any (fun k => k.queue == l.queue && k.entry == l.entry) then
    { s with ckpt := { s.ckpt with ended := (l.queue, l.entry, status) :: s.ckpt.ended.filter (fun e => !(e.1 == l.queue && e.2.1 == l.entry)) } }
  else s
/-- CTRL is written, and a step launch that ended DONE reaches its step boundary (16 R306, R317). -/
def State.finishLaunch (s : State) (l : Launch) (status : Nat) (ts : Word) : State :=
  let s := (s.writeCtrl l.queue l.entry l.ctrl status l.ctx ts).noteEnd l status
  let s := if l.step && status == 1 && bit (s.regN 0x18) l.hstream then
      let s := s.updStream l.hstream (fun x => { x with boundary := x.boundary ++ [some (s.entryPa l.queue l.entry, l.batch.map (BitVec.ofNat 32))] })
      { s with fe := { s.fe with hay := tmax s.fe.hay (s.fe.stamp + 1) } }
    else s
  s.dropLaunch l
/-- LAUNCH_COMPLETE (16 R306, 03 R95). -/
def execLaunchComplete (lid : Nat) (s : State) : Host.Outcome State Fault Refusal :=
  match s.launches.find? (fun l => l.lid == lid) with
  | none => .fault .eventNotEnabled
  | some l =>
    if !s.launchOver l || !s.feServes (s.entryPa l.queue l.entry) 4 then .fault .eventNotEnabled
    else
      let ts := tmax s.fe.stamp (l.maxStamp + 1)
      if l.failing != 0 then .next (s.finishLaunch l l.failing ts)
      else if l.caddr == 0 then .next (s.finishLaunch l 1 ts)
      else
        match s.completionAdd l ts with
        | .wait m => s.askOnce m
        | .ok (s', some b) => .next ({ s' with fe := { s'.fe with stamp := b } }.finishLaunch l 1 (b + 1))
        | .ok (s', none) => .next (s'.finishLaunch l 10 ts)
        | .trap _ => .next (s.finishLaunch l 10 ts)

/-! Contexts and windows (16 R300, R301). -/

/-- The context that an entry describes. -/
def ctxOf (x : Nat) (e : Nat) (chmap : List Nat) : Ctx :=
  let f (lo n : Nat) : Nat := (e >>> (8 * lo)) % 2 ^ (8 * n)
  ⟨x, bit (f 0 4) 0, bits (f 0 4) 4 1, bits (f 0 4) 15 8, f 8 8, f 16 8, f 24 4, f 32 8, chmap, BitVec.ofNat 64 (f 48 8), f 56 8, f 64 8, BitVec.ofNat 256 (f 80 32)⟩
/-- Reserved bits, and fields that break their stated forms. Of a channel binding 16 R301 gives bit 15 and bits 11:0 and does not say what
bits 14:12 are: the model ignores them (log 79). -/
def ctxBroken (c : Ctx) (e : Nat) : Bool :=
  let f (lo n : Nat) : Nat := (e >>> (8 * lo)) % 2 ^ (8 * n)
  bits (f 0 4) 7 5 != 0 || bits (f 0 4) 31 16 != 0 || f 4 4 != 0 || f 28 4 != 0 || f 72 8 != 0 || f 112 16 != 0 || c.domains.getLsbD 0 || c.bw == 0 ||
  6144 < c.cssize || c.ptroot % 256 != 0 || c.csbase % 65536 != 0 || 384 * 2 ^ 20 < c.csbase + c.cssize * 65536 || c.chpage % 8192 != 0 ||
  c.savebase % 4096 != 0 || 2 ^ 56 ≤ 12 * c.traph.toNat
/-- A binding of the context is bound in the loaded copy of another. -/
def State.bindingTaken (s : State) (c : Ctx) : Bool :=
  c.chans.any (fun b => bit b 15 && s.ctxs.any (fun d => d.id != c.id && d.chans.any (fun e => bit e 15 && e % 4096 == b % 4096)))
/-- The context is in use (16 R301). -/
def State.ctxInUse (s : State) (x : Nat) : Bool :=
  s.launches.any (fun l => l.ctx == x && l.st == .admitted) || (List.range 512).any (fun q => s.qen q && s.qctx q == x)
/-- Loads a context-table entry, or sets ERR; the flag says whether it was taken. A CHMAP table that cannot be read refuses the load too (log
54), and a load that is taken leaves ERR as it stands (log 88). -/
def State.loadContext (s : State) (x : Nat) : State × Bool :=
  let pa := s.regN 0x8 + 128 * x
  let no : State × Bool := (s.setField 0x10 14 14 1, false)
  if !populated pa then no
  else if 3 ≤ s.eccClass pa 128 then ((s.countRead { space := .glob, addr := pa } 128).setField 0x10 14 14 1, false)
  else
    let r := s.agentRead s.fe.stamp pa 128
    let e := ofBytes r.2.1
    let map := (e >>> 320) % 2 ^ 64
    if !populated map || !populated (map + 511) then no
    else if 3 ≤ s.eccClass map 512 then ((s.countRead { space := .glob, addr := map } 512).setField 0x10 14 14 1, false)
    else
      let m := r.1.agentRead r.2.2 map 512
      let c := ctxOf x e (chop 2 m.2.1)
      if ctxBroken c e || s.bindingTaken c || (!c.valid && s.ctxInUse x) then no
      else ({ m.1 with ctxs := c :: m.1.ctxs.filter (fun d => d.id != x), fe := { m.1.fe with stamp := m.2.2 } }, true)
/-- The front end reaches a context-table entry and the channel table that it names. -/
def State.contextServes (s : State) (x : Nat) : Bool :=
  let pa := s.regN 0x8 + 128 * x
  s.feServes pa 128 && s.feServes (s.mem.glob.num (pa + 40) 8) 512
/-- CONTEXT_LOAD (16 R301); it waits while the front end does not reach the tables (02 R71; log 91). -/
def execContextLoad (ctx : Nat) (s : State) : Host.Outcome State Fault Refusal :=
  s.regAnswers (if 4096 ≤ ctx || !s.contextServes ctx then .fault .eventNotEnabled else .next ((s.setField 0x10 13 0 ctx).loadContext ctx).1)
/-- CONTEXT_LOAD_INVG (16 R301): the context's own Granary entries and its cursors go too. -/
def execContextLoadInvg (ctx : Nat) (s : State) : Host.Outcome State Fault Refusal :=
  s.regAnswers <|
  if 4096 ≤ ctx || !s.contextServes ctx then .fault .eventNotEnabled
  else
    let r := (s.setField 0x10 13 0 (ctx + 8192)).loadContext ctx
    if !r.2 then .next r.1
    else .next { r.1 with clusters := r.1.clusters.map (fun (c : Cluster) =>
      { c with gran := c.gran.filter (fun e => !(e.ctx == ctx && e.dom == 0)), gtie := alDel c.gtie ctx }) }

/-- A plot is resident in a cluster. -/
def State.clusterBusy (s : State) (cl : Nat) : Bool := s.plots.any (fun p => p.st == .resident && clusterOf p.core == cl)
/-- Sets the window field of a cluster. -/
def State.setWindow (s : State) (cl code : Nat) : State := s.setField (0x40 + 8 * (cl / 16)) (4 * (cl % 16) + 3) (4 * (cl % 16)) code
/-- A window code as a field of CLWIN holds it: 5 to 15 are ignored and read as 0 (16 R299; log 80). -/
def clwinCode (code : Nat) : Nat := if 5 ≤ code then 0 else code
/-- CLWIN_WRITE (16 R299, R300). -/
def execClwinWrite (cluster value : Nat) (s : State) : Host.Outcome State Fault Refusal :=
  s.regAnswers <|
  let code := clwinCode value
  if 128 ≤ cluster || 16 ≤ value then .fault .eventNotEnabled
  else if code == s.field (0x40 + 8 * (cluster / 16)) (4 * (cluster % 16) + 3) (4 * (cluster % 16)) then
    .next (s.updCluster cluster (fun c => { c with winPending := none }))
  else if s.clusterBusy cluster then .next (s.updCluster cluster (fun c => { c with winPending := some code }))
  else .next ((s.updCluster cluster (fun c => { c with winPending := none })).setWindow cluster code)
/-- CLWIN_APPLY (16 R300). -/
def execClwinApply (cluster : Nat) (s : State) : Host.Outcome State Fault Refusal :=
  match (s.cluster cluster).winPending with
  | none => .fault .eventNotEnabled
  | some code =>
    if s.clusterBusy cluster then .fault .eventNotEnabled
    else .next ((s.updCluster cluster (fun c => { c with winPending := none })).setWindow cluster code)

/-! Hayward (16 R315 to R318). -/

/-- Hayward at work: the state, its agent's stamp, and whether an access has met a held lane or a draining link chiplet, so that the whole
piece of work waits (02 R71; 18 R355; 19 R372; log 91). -/
structure Hay where
  st : State
  ts : Word
  held : Bool
deriving DecidableEq, Repr
/-- An access of n bytes can be made now. -/
def Hay.may (h : Hay) (a n : Nat) : Bool := !h.held && h.st.feServes a n
def Hay.stuck (h : Hay) : Hay := { h with held := true }
def Hay.rd (h : Hay) (a n : Nat) : Nat × Hay :=
  if !h.may a n then (0, h.stuck) else let r := h.st.agentRead h.ts a n; (ofBytes r.2.1, ⟨r.1, r.2.2, false⟩)
/-- Writes bytes for a context. -/
def Hay.put (h : Hay) (ctx a : Nat) (bs : List Byte) : Hay :=
  if !h.may a bs.length then h.stuck else let r := h.st.agentWrite ctx h.ts a bs; ⟨r.1, r.2, false⟩
def Hay.wr (h : Hay) (a n v : Nat) : Hay := h.put 0 a (bytesOf n v)
/-- A fetch-and-add at its home, in the synchronisation engine (16 R317, 08 R197, 03 R79; log 77). -/
def Hay.add (h : Hay) (a n : Nat) : Nat × Hay :=
  if !h.may a n then (0, h.stuck)
  else
    let r := h.st.atomicAt { space := .glob, addr := a } n (fun v => (v + 1) % 2 ^ (8 * n)) h.ts 0 1
    (r.2.1, ⟨r.1, tmax h.ts r.2.2, false⟩)

/-- The descriptor of a stream (16 R315). -/
structure HDesc where
  addr : Nat
  ctx : Nat
  queue : Nat
  blimit : Nat
  nslot : Nat
  pps : Nat
  pgtok : Nat
  seqtab : Nat
  pool : Nat
  phead : Nat
  ptail : Nat
  admq : Nat
  plog : Nat
  alog : Nat
  ahead : Nat
  templ : Nat
  bdesc : Nat
  /-- a reserved bit is set: no effect is performed from the descriptor (00 R7) -/
  broken : Bool
deriving DecidableEq, Repr

/-- Reads a stream's descriptor. -/
def Hay.desc (h : Hay) (stream : Nat) : HDesc × Hay :=
  let a := h.st.regN 0x28 + 128 * stream
  let r := h.rd a 64
  let f (lo n : Nat) : Nat := (r.1 >>> (8 * lo)) % 2 ^ (8 * n)
  (⟨a, bits (f 0 4) 11 0, bits (f 0 4) 20 12, bits (f 0 4) 30 21, bits (f 4 4) 15 0 + 1, bits (f 4 4) 19 16 + 1, bits (f 4 4) 27 20, f 8 8, f 16 8,
    f 16 8 + f 24 4, f 16 8 + f 28 4, f 32 8, bits (f 40 4) 4 0, bits (f 40 4) 12 8, f 44 4, f 48 8, f 56 8,
    descBroken (f 0 4) (f 4 4) (f 40 4)⟩, r.2)
/-- Address of a slot's entry of the sequence table (16 R316). -/
def HDesc.seq (d : HDesc) (x : Nat) : Nat := d.seqtab + 128 * x
def Hay.active (h : Hay) (d : HDesc) (x : Nat) : Bool × Hay := let r := h.rd (d.seq x) 4; (bits r.1 1 0 == 1, r.2)
/-- Phase 1 for one slot: the length grows by one token. -/
def Hay.grow (d : HDesc) (h : Hay) (x : Nat) : Hay :=
  let st := h.rd (d.seq x) 4
  if bit st.1 8 then st.2
  else
    let len := st.2.rd (d.seq x + 4) 4
    let mx := len.2.rd (d.seq x + 8) 4
    let n := (len.1 + 1) % 2 ^ 32
    let h := mx.2.wr (d.seq x + 4) 4 n
    if mx.1 ≤ n then h.wr (d.seq x) 4 (st.1 - bits st.1 23 16 * 2 ^ 16 + 2 ^ 8 + 2 * 2 ^ 16) else h
/-- Puts a page back into the pool. -/
def Hay.putPage (d : HDesc) (h : Hay) (page : Nat) : Hay :=
  let t := h.add d.ptail 4
  t.2.wr (d.pool + 8 * (t.1 % 2 ^ d.plog)) 8 (page + t.1 * 2 ^ 32)
/-- Phase 2 for one slot: a retired sequence gives its pages back, reports, and is free. -/
def Hay.retire (d : HDesc) (h : Hay) (x : Nat) : Hay :=
  let st := h.rd (d.seq x) 4
  if !bit st.1 8 then st.2
  else
    let n := st.2.rd (d.seq x + 52) 4
    let h := (List.range (min n.1 16)).foldl (fun (h : Hay) i => let p := h.rd (d.seq x + 56 + 4 * i) 4; Hay.putPage d p.2 p.1) n.2
    let dc := h.rd (d.seq x + 120) 8
    let h := if dc.1 == 0 then dc.2 else (dc.2.add dc.1 8).2
    h.wr (d.seq x) 4 (st.1 - bits st.1 1 0 - bits st.1 9 8 * 2 ^ 8 - bits st.1 23 16 * 2 ^ 16)
/-- Free pages of the pool. -/
def Hay.freePages (d : HDesc) (h : Hay) : Nat × Hay :=
  let t := h.rd d.ptail 4
  let p := t.2.rd d.phead 4
  ((t.1 + 2 ^ 32 - p.1) % 2 ^ 32, p.2)
/-- Takes the next page; none while its place has not been written. -/
def Hay.takePage (d : HDesc) (h : Hay) : Option (Nat × Hay) :=
  let t := h.add d.phead 4
  let e := t.2.rd (d.pool + 8 * (t.1 % 2 ^ d.plog)) 8
  if e.1 >>> 32 == t.1 then some (e.1 % 2 ^ 32, e.2) else none
/-- Phase 3 for one slot: a page for the next token. -/
def Hay.needPage (d : HDesc) (h : Hay) (x : Nat) : Option Hay :=
  let st := h.rd (d.seq x) 4
  if bits st.1 1 0 != 1 then some st.2
  else
    let len := st.2.rd (d.seq x + 4) 4
    let np := len.2.rd (d.seq x + 52) 4
    if len.1 != np.1 * d.pgtok && !bit st.1 9 then some np.2
    else
      let f := Hay.freePages d np.2
      if f.1 == 0 then some (f.2.wr (d.seq x) 4 (st.1 - bits st.1 9 9 * 2 ^ 9 + 2 ^ 9))
      else
        (Hay.takePage d f.2).bind fun p =>
          some (((p.2.wr (d.seq x + 56 + 4 * np.1) 4 p.1).wr (d.seq x + 52) 4 (np.1 + 1)).wr (d.seq x) 4 (st.1 - bits st.1 9 9 * 2 ^ 9))
/-- The slots of a list that are ACTIVE and do not wait for a page. -/
def Hay.going (d : HDesc) (h : Hay) (xs : List Nat) : List Nat × Hay :=
  xs.foldl (fun (acc : List Nat × Hay) x => let st := acc.2.rd (d.seq x) 4; (if bits st.1 1 0 == 1 && !bit st.1 9 then acc.1 ++ [x] else acc.1, st.2)) ([], h)
/-- Some sequence of the stream waits for a page. -/
def Hay.pageWaiters (d : HDesc) (h : Hay) : Bool × Hay :=
  (List.range d.nslot).foldl (fun (acc : Bool × Hay) x => let st := acc.2.rd (d.seq x) 4; (acc.1 || (bits st.1 1 0 == 1 && bit st.1 9), st.2)) (false, h)
/-- The lowest FREE slot. -/
def Hay.freeSlot (d : HDesc) (h : Hay) : Option Nat × Hay :=
  (List.range d.nslot).foldl (fun (acc : Option Nat × Hay) x =>
    if acc.1.isSome then acc else let st := acc.2.rd (d.seq x) 4; (if bits st.1 1 0 == 0 then some x else none, st.2)) (none, h)
/-- Takes n pages. -/
def Hay.takePages (d : HDesc) : Nat → Hay → Option (List Nat × Hay)
  | 0, h => some ([], h)
  | n + 1, h => (Hay.takePage d h).bind fun p => (Hay.takePages d n p.2).bind fun q => some (p.1 :: q.1, q.2)
/-- Phase 4: admission of requests in ring order, at most `fuel` of them; none while a page's place has not been written. -/
def Hay.admitFrom (d : HDesc) : Nat → Nat → List Nat → Hay → Option (List Nat × Hay)
  | 0, _, ns, h => some (ns, h)
  | fuel + 1, ahead, ns, h =>
    let w := Hay.pageWaiters d h
    if d.blimit ≤ ns.length || w.1 then some (ns, w.2)
    else
      let ra := d.admq + 64 * (ahead % 2 ^ d.alog)
      let c := w.2.rd ra 4
      if !bit c.1 0 then some (ns, c.2)
      else
        let len0 := c.2.rd (ra + 4) 4
        let mx := len0.2.rd (ra + 8) 4
        let nst := mx.2.rd (ra + 12) 4
        let n := (len0.1 + 1 + d.pgtok - 1) / d.pgtok
        let next := (ahead + 1) % 2 ^ 32
        let base := c.1 - bits c.1 2 0
        if 16 * d.pgtok < mx.1 || 8 < nst.1 || 16 < n then
          Hay.admitFrom d fuel next ns ((nst.2.wr ra 4 (base + 2 * 2)).wr (d.addr + 44) 4 next)
        else
          let fr := Hay.freePages d nst.2
          let sl := Hay.freeSlot d fr.2
          match sl.1 with
          | none => some (ns, sl.2)
          | some x =>
            if fr.1 < n then some (ns, sl.2)
            else
              (Hay.takePages d n sl.2).bind fun pg =>
                let stops := pg.2.rd (ra + 16) 32
                let dc := stops.2.rd (ra + 56) 8
                let e := d.seq x
                let h := (((((dc.2.wr (e + 4) 4 len0.1).wr (e + 8) 4 mx.1).wr (e + 12) 4 0).wr (e + 16) 4 nst.1).wr (e + 20) 32 stops.1).wr (e + 52) 4 n
                let h := (pg.1.mapIdx (fun i p => (i, p))).foldl (fun (h : Hay) p => h.wr (e + 56 + 4 * p.1) 4 p.2) h
                let h := (h.wr (e + 120) 8 dc.1).wr e 4 1
                let h := ((h.wr (ra + 48) 4 x).wr ra 4 (base + 1 * 2)).wr (d.addr + 44) 4 next
                Hay.admitFrom d fuel next (ns ++ [x]) h
/-- Phase 5: the descriptor words, then the next entry, then QTAIL; none while the ring is full. A stream that HSEN has stopped
writes no entry. -/
def Hay.nextStep (d : HDesc) (stream : Nat) (ns : List Nat) (h : Hay) : Option Hay :=
  if ns.isEmpty || !bit (h.st.regN 0x18) stream then some h
  else if h.st.qsize d.queue ≤ h.st.qwaiting d.queue then none
  else
    let h := (ns.length :: ns).mapIdx (fun i x => (i, x)) |>.foldl (fun (h : Hay) p => h.wr (d.bdesc + 4 * p.1) 4 p.2) h
    let t := h.rd d.templ 256
    let f (lo n : Nat) : Nat := (t.1 >>> (8 * lo)) % 2 ^ (8 * n)
    let ctrl := f 0 4 - bits (f 0 4) 19 14 * 2 ^ 14 - bits (f 0 4) 6 6 * 2 ^ 6 - bits (f 0 4) 0 0 + stream * 2 ^ 14 + 2 ^ 6 + 1
    let plots := f 4 4 - bits (f 4 4) 23 0 + (ns.length * d.pps - 1) % 2 ^ 24
    let e := bytesOf 4 ctrl ++ bytesOf 4 plots ++ bytesOf 44 (f 8 44) ++ bytesOf 4 (ns.length + 1) ++ bytesOf 200 (f 56 200)
    let tail := h.st.qtail d.queue
    let w := t.2.put d.ctx (h.st.entryPa d.queue tail) e
    some { w with st := w.st.setReg (qBlock d.queue + 12) (BitVec.ofNat 64 ((tail + 1) % 2 ^ 32)) }
/-- Steps 1 to 4 of a boundary with its batch, or step 4 of a kick (16 R317): the slots of the next step; none while a page's place has not
been written. -/
def Hay.steps (d : HDesc) (task : Option (Nat × List Word)) (h : Hay) : Option (List Nat × Hay) :=
  match task with
  | none => Hay.admitFrom d (2 ^ d.alog + 1) d.ahead [] h
  | some b =>
    let batch := b.2.map (·.toNat)
    let h := batch.foldl (Hay.grow d) h
    let h := batch.foldl (Hay.retire d) h
    (batch.foldl (fun (acc : Option Hay) x => acc.bind (fun h => Hay.needPage d h x)) (some h)).bind fun h =>
      let n := Hay.going d h batch
      Hay.admitFrom d (2 ^ d.alog + 1) d.ahead n.1 n.2
/-- Hayward's work ends: its agent's stamp, and what the stream still has to do. -/
def Hay.done (h : Hay) (stream : Nat) (todo : List (Option (Nat × List Word))) (owed : Option (List Nat)) : State :=
  { h.st.updStream stream (fun x => { x with boundary := todo, owed := owed }) with fe := { h.st.fe with hay := h.ts } }
/-- Hayward's next piece of work for a stream: a step's entry that waits for room, or the oldest boundary or kick, which leaves its entry
waiting where the ring is full (16 R317). None while it waits; a descriptor with a reserved bit set has no effect (00 R7). -/
def State.hayStep (s : State) (stream : Nat) : Option State :=
  let x := s.stream stream
  let q := Hay.desc ⟨s, s.fe.hay, false⟩ stream
  let done (h : Hay) (todo : List (Option (Nat × List Word))) (owed : Option (List Nat)) : Option State :=
    if h.held then none else some (Hay.done h stream todo owed)
  match x.owed, x.boundary with
  | some ns, todo => if q.1.broken then done q.2 todo none else (Hay.nextStep q.1 stream ns q.2).bind (fun h => done h todo none)
  | none, [] => none
  | none, t :: rest =>
    if q.1.broken then done q.2 rest none
    else (Hay.steps q.1 t q.2).bind fun r =>
      match Hay.nextStep q.1 stream r.1 r.2 with
      | some h => done h rest none
      | none => done r.2 rest (some r.1)
/-- The stream is idle (16 R317). -/
def State.streamIdle (s : State) (n : Nat) : Bool :=
  let q := bits (s.mem.glob.num (s.regN 0x28 + 128 * n) 4) 20 12
  let step (im : Nat) : Bool := bit im 6 && bits im 19 14 == n
  bit (s.regN 0x18) n && (s.stream n).boundary.isEmpty && (s.stream n).owed.isNone &&
  !s.launches.any (fun l => l.st == .admitted && l.step && l.hstream == n) &&
  !(List.range (min (s.qwaiting q) (s.qsize q))).any (fun i => step (s.mem.glob.num (s.entryPa q (s.qhead q + i)) 4))
/-- HSEN_WRITE (16 R317). -/
def execHsenWrite (value : DWord) (s : State) : Host.Outcome State Fault Refusal := s.regAnswers (.next (s.setReg 0x18 value))
/-- HSKICK (16 R317): of an idle stream it runs steps 4 and 5; of any other it has no effect. With FSPLIT.SEQ set it does so in the device too,
and a boundary that has been posted to the host counts as over (log 89). A doorbell, it wakes the device (18 R351). -/
def execHskick (stream : Nat) (s : State) : Host.Outcome State Fault Refusal :=
  s.regAnswers <|
  if 64 ≤ stream || s.inS4 then .fault .eventNotEnabled
  else
    let s := s.awake
    if !s.streamIdle stream then .next s else
    let s' := s.updStream stream (fun x => { x with boundary := [none] })
    .next ((s'.hayStep stream).getD s')
/-- HAYWARD_STEP_BOUNDARY (16 R314, R317, R318): in host-assisted mode the boundary is posted and nothing more. -/
def execHaywardStepBoundary (stream : Nat) (s : State) : Host.Outcome State Fault Refusal :=
  let x := s.stream stream
  match (if s.fsplit 0 && x.owed.isNone then x.boundary.head?.join else none) with
  | some (entry, _) =>
    .next ((s.updStream stream (fun x => { x with boundary := x.boundary.drop 1 })).post 0x05 (BitVec.ofNat 480 (stream % 2 ^ 32 + entry * 2 ^ 32)))
  | none =>
    match s.hayStep stream with
    | some s' => .next s'
    | none => .fault .eventNotEnabled

end Sys2Proof.Machine
end

