-- ==== Sys2Proof/Machine/TransEvents.lean ====
section
/-! DEFINITION. Device steps of translation (17 R321 to R328): the walker, the host's replies in host-assisted walk mode, and
the shootdown. -/

namespace Sys2Proof.Machine
open Sys2Proof

/-- PAGE_WALK (17 R322, R323, R327, R328): for a core's access that misses in its L1 and L2 TLBs. A walk that faults leaves only
a poisoned sector's listing; with FSPLIT.WALK set the miss is posted to the host. -/
def execPageWalk (core ctx : Nat) (va : DWord) (s : State) : Host.Outcome State Fault Refusal :=
  let a := va.toNat
  let hs := holdersOf core
  if 1024 ≤ core || 4096 ≤ ctx || 2 ^ 56 ≤ a || s.mem.tlb.any (fun e => e.covers hs ctx a) then .fault .eventNotEnabled
  else
    match s.translate hs ctx a with
    | .leaf e => .next (((s.countWalk ctx a).tlbInsert (.cluster (clusterOf core)) ctx a e).tlbInsert (.core core) ctx a e)
    | .fault code level poison =>
      if s.fsplit 1 then .fault .eventNotEnabled
      else .next ((s.countWalk ctx a).listPoison { Trap.of code with info := level, poison := poison })
    | .miss => s.askOnce (some ⟨.cluster (clusterOf core), ctx, a / 2 ^ 16⟩)
    | .held => .fault .eventNotEnabled

/-- The oldest request for a translation of a page. -/
def State.transAsked (s : State) (ctx page : Nat) : Option (Holder × Pending) :=
  (s.mbox.pending.filterMap (fun p => match p with
    | Pending.trans h x g => if x == ctx && g == page then some (h, p) else none
    | _ => none)).head?
/-- The records of an engine, which asked for a translation, keep it while they run. -/
def State.recordTakes (s : State) (h : Holder) (x va : Nat) (e : BitVec 128) : State :=
  match h with
  | .engine n =>
    { s with chans := s.chans.map (fun (c : HwChan) => if c.h / 64 == n && c.init.ctx == x then
        { c with record := c.record.map (fun (r : CopyRec) => { r with leaves := ⟨h, x, va / leafSize e * leafSize e, e⟩ :: r.leaves }) } else c) }
  | _ => s
/-- TRANSLATION_REPLY (17 R327): the reply is checked as if a walk had read it at its level, and then serves as a walked
translation does; what a shootdown overtook is discarded (R326). -/
def execTranslationReply (ctx : Nat) (va : DWord) (reply : Option (Nat × BitVec 128)) (s : State) : Host.Outcome State Fault Refusal :=
  let page := va.toNat / 2 ^ 16
  match s.transAsked ctx page with
  | none => .fault .eventNotEnabled
  | some (h, p) =>
    let s := { s with mbox := { s.mbox with pending := s.mbox.pending.erase p } }
    if (match s.fe.shoot with | some k => k.walks.contains p | none => false) then
      .next { s with fe := { s.fe with shoot := s.fe.shoot.map (fun (k : Shoot) => { k with walks := k.walks.erase p }) } }
    else
      let bad (code level : Nat) : Host.Outcome State Fault Refusal :=
        .next { s with mbox := { s.mbox with pending := s.mbox.pending ++ [Pending.transBad h ctx page code level] } }
      match reply with
      | none => bad 0x18 3
      | some (level, e) =>
        if !e.getLsbD 0 then bad 0x18 level
        else if !e.getLsbD 1 || leafDefect e level then bad 0x19 level
        else .next ((s.tlbInsert h ctx va.toNat e).recordTakes h ctx va.toNat e)

/-! Shootdown (17 R325, R326). -/

/-- A context and an address of it are named by a shootdown. -/
def Shoot.names (k : Shoot) (x : Nat) (inPage : Nat → Bool) : Bool :=
  (match k.ctx with | some c => c == x | none => true) && (match k.va with | some v => inPage v | none => true)
/-- The address lies in the page of a leaf translation that reached `ea`. -/
def samePage (leaf : BitVec 128) (ea v : Nat) : Bool := ea % 2 ^ 56 / leafSize leaf == v / leafSize leaf
/-- The access of a context to a target at an EA was translated with a translation that a shootdown drops. -/
def Shoot.hits (k : Shoot) (x : Nat) (t : Target) (ea : DWord) : Bool := t.space == .glob && k.names x (samePage t.leaf ea.toNat)
/-- The pending request is for a translation that the shootdown names. -/
def Shoot.asks (k : Shoot) (p : Pending) : Bool :=
  match p with
  | .trans _ x g => k.names x (fun v => v / 2 ^ 16 == g)
  | .transBad _ x g _ _ => k.names x (fun v => v / 2 ^ 16 == g)
  | _ => false
/-- The target of a thread's WAITA or WAITC, in which it stands or will stand when the handler returns, with its EA. -/
def Thread.waitsAt (t : Thread) : Option (Target × DWord) :=
  match t.wait, t.susp with
  | some (.addr w), _ => some (w.tgt, w.ea)
  | _, some (.addr w, _) => some (w.tgt, w.ea)
  | _, _ => none
/-- GO is set (17 R325, R326): every holder drops the matching translations; a write while GO reads 1 is ignored. ERR stays as it is (log 88). -/
def State.shootdown (s : State) (scope ctx : Nat) (va : Nat) : State :=
  if bit (s.regN 0x38) 16 then s
  else
    let k : Shoot := ⟨if scope == 2 then none else some ctx, if scope == 0 then some (va % 2 ^ 56) else none, s.sched.nextId, [], []⟩
    let walks := s.mbox.pending.filter (fun p => k.asks p && (match p with | .trans _ _ _ => true | _ => false))
    let waits := s.allGroups.flatMap (fun g => allLanes.filterMap (fun l =>
      match (g.thread l).waitsAt with
      | some w => if k.hits g.ctx w.1 w.2 then some (g.gid, l) else none
      | none => none))
    let s := { s with
      fe := { s.fe with shoot := some { k with walks := walks, waits := waits } },
      mbox := { s.mbox with pending := s.mbox.pending.filter (fun p => match p with | .transBad _ _ _ _ _ => !k.asks p | _ => true) },
      mem := { s.mem with tlb := s.mem.tlb.filter (fun t => !k.names t.ctx (fun v => v / leafSize t.leaf * leafSize t.leaf == t.page)) } }
    let s := { s with chans := s.chans.map (fun (c : HwChan) => { c with record := c.record.map (fun (r : CopyRec) =>
      { r with leaves := r.leaves.filter (fun t => !k.names t.ctx (fun v => v / leafSize t.leaf * leafSize t.leaf == t.page)) }) }) }
    s.setReg 0x38 (BitVec.ofNat 64 (ctx % 2 ^ 12 + scope % 4 * 2 ^ 12 + 2 ^ 16 + bnat (bit (s.regN 0x38) 17) * 2 ^ 17))
/-- TLB_SHOOTDOWN_PAGE (17 R325). -/
def execTlbShootdownPage (ctx : Nat) (va : DWord) (s : State) : Host.Outcome State Fault Refusal :=
  s.regAnswers (if 4096 ≤ ctx || 2 ^ 56 ≤ va.toNat then .fault .eventNotEnabled else .next ((s.setReg 0x30 va).shootdown 0 ctx va.toNat))
/-- TLB_SHOOTDOWN_CONTEXT (17 R325). -/
def execTlbShootdownContext (ctx : Nat) (s : State) : Host.Outcome State Fault Refusal :=
  s.regAnswers (if 4096 ≤ ctx then .fault .eventNotEnabled else .next (s.shootdown 1 ctx 0))
/-- TLB_SHOOTDOWN_ALL (17 R325). -/
def execTlbShootdownAll (s : State) : Host.Outcome State Fault Refusal := s.regAnswers (.next (s.shootdown 2 0 0))

/-- An access of a group that was translated with a dropped translation has not yet performed. -/
def Shoot.holdsGroup (k : Shoot) (g : Group) : Bool :=
  (g.loads ++ g.dloads).any (fun r => r.id < k.gate && r.pieces.any (fun p => k.hits g.ctx p.1 p.2)) ||
  g.ops.any (fun o => o.id < k.gate && !o.done && o.pages.any (fun p => k.names g.ctx (samePage p.1 p.2.toNat))) ||
  g.holds.any (fun h => h.id < k.gate && h.pieces.any (fun p => p.1.st == .unsent && k.hits g.ctx p.1.tgt p.2)) ||
  k.waits.any (fun w => w.1 == g.gid && (match (g.thread w.2).waitsAt with | some x => k.hits g.ctx x.1 x.2 | none => false))
/-- An accepted MMA whose global B was translated with a dropped translation is not yet taken or withdrawn. -/
def Shoot.holdsCluster (k : Shoot) (c : Cluster) : Bool :=
  (c.arrivals ++ c.dispatch ++ c.sheaves.flatMap (·.members)).any (fun m => m.id < k.gate && k.hits m.ctx m.btgt m.bea)
/-- TLB_SHOOTDOWN_COMPLETE (17 R326). -/
def execTlbShootdownComplete (s : State) : Host.Outcome State Fault Refusal :=
  match s.fe.shoot with
  | none => .fault .eventNotEnabled
  | some k =>
    if !k.walks.isEmpty || s.allGroups.any k.holdsGroup || s.clusters.any k.holdsCluster then .fault .eventNotEnabled
    else .next ({ s with fe := { s.fe with shoot := none } }.setField 0x38 16 16 0)

end Sys2Proof.Machine
end

