-- ==== Sys2Proof/Machine/FabricEvents.lean ====
section
/-! DEFINITION. Device steps of the colour map and its heaters (02 R71; 18 R353 to R356; 19 R363, R368, R374). The ports of a pair
run from 0 to 21, and colour `true` is B. -/

namespace Sys2Proof.Machine
open Sys2Proof

/-- A pair of ports that has a colour-map register of its own (18 R353). -/
def isPair (a b : Nat) : Bool := a < 22 && b < 22 && a != b
/-- Some pair relays through the lanes of a pair (18 R354). -/
def State.relays (s : State) (a b : Nat) : List (Nat × Nat) :=
  (List.range 22).flatMap (fun x => (List.range 22).filterMap (fun y =>
    if isPair x y && s.cmapMode x y == 2 && ((x == a && s.cmapK x y == b) || (s.cmapK x y == a && y == b)) then some (x, y) else none))
/-- RELAY of a pair through k is allowed (18 R354). -/
def State.relayMay (s : State) (a b k : Nat) : Bool :=
  k < 22 && k != a && k != b && s.cmapMode a k == 0 && s.cmapMode k b == 0 && !s.gated k
/-- A CMAP write is refused (18 R354): mode, colour of HALF, chiplet of RELAY. -/
def State.cmapRefused (s : State) (a b mode : Nat) (sel : Bool) (k : Nat) : Bool :=
  s.cmapPend a b || s.gated a || s.gated b || 3 ≤ mode ||
  (mode == 0 && !(s.colourOk a b false && s.colourOk a b true)) || (mode == 1 && !s.colourOk a b sel) || (mode == 2 && !s.relayMay a b k) ||
  (mode != 0 && !(s.relays a b).isEmpty)
/-- The carrier that a mode gives a lane: colour A or B, or a relay chiplet (02 R71). -/
def carrierOf (mode : Nat) (sel : Bool) (k lane : Nat) : Nat := match mode with | 0 => bnat (4 ≤ lane) | 1 => bnat sel | _ => 2 + k
/-- Starts the change of a pair's mode (18 R354, 02 R71): the fields are written, PEND is 1 until every lane has moved, and the lanes whose carrier
changes are held until then. -/
def State.startChange (s : State) (a b mode : Nat) (sel : Bool) (k : Nat) : State :=
  let old := s.regN (cmapOff a b)
  let lanes := (List.range 8).filter (fun l => carrierOf (old % 4) (bit old 2) (bits old 8 4) l != carrierOf mode sel k l)
  let s := { s with ras := { s.ras with moving := s.ras.moving ++ (lanes.map (fun l => (a, b, l))).filter (fun m => !s.ras.moving.contains m) } }
  s.setReg (cmapOff a b) (BitVec.ofNat 64 (mode % 4 + bnat sel * 4 + k % 32 * 16 + bits old 17 16 * 2 ^ 16 + 2 ^ 18 + bits old 19 19 * 2 ^ 19))
/-- A write of CMAP by the host: the device no longer owns the pair's mode. -/
def State.cmapWrite (s : State) (a b mode : Nat) (sel : Bool) (k : Nat) : State :=
  if s.cmapRefused a b mode sel k then s.setField (cmapOff a b) 19 19 1
  else ({ s with ras := { s.ras with auto := s.ras.auto.erase (a, b) } }).startChange a b mode sel k
/-- CMAP_SET_BOTH (18 R354). -/
def execCmapSetBoth (src dst : Nat) (s : State) : Host.Outcome State Fault Refusal :=
  s.regAnswers (if !isPair src dst then .fault .eventNotEnabled else .next (s.cmapWrite src dst 0 false 0))
/-- CMAP_SET_HALF (18 R354). -/
def execCmapSetHalf (src dst : Nat) (sel : Bool) (s : State) : Host.Outcome State Fault Refusal :=
  s.regAnswers (if !isPair src dst then .fault .eventNotEnabled else .next (s.cmapWrite src dst 1 sel 0))
/-- CMAP_SET_RELAY (18 R354). -/
def execCmapSetRelay (src dst k : Nat) (s : State) : Host.Outcome State Fault Refusal :=
  s.regAnswers (if !isPair src dst || 32 ≤ k then .fault .eventNotEnabled else .next (s.cmapWrite src dst 2 false k))
/-- MODECHG of a pair, saturating (19 R368). -/
def State.countModeChange (s : State) (a b : Nat) : State :=
  let off := pairTel a b + 8
  let v := (s.live off).toNat
  s.setLive off (v - bits v 31 16 * 2 ^ 16 + min (bits v 31 16 + 1) 0xFFFF * 2 ^ 16)
/-- No lane of a pair moves any more. -/
def State.lanesMoved (s : State) (a b : Nat) : State := { s with ras := { s.ras with moving := s.ras.moving.filter (fun m => m.1 != a || m.2.1 != b) } }
/-- The re-centring of a pair for a heater in its margin that could not begin when it entered it (18 R356): it begins once the pair allows it. -/
def State.recentreNext (s : State) (a b : Nat) : State :=
  match s.ras.margins.find? (fun m => m.1 == a && m.2.1 == b) with
  | none => s
  | some m =>
    if s.fsplit 4 || s.cmapMode a b != 0 || s.ras.recentring.any (fun x => x.1 == a && x.2.1 == b) || s.cmapRefused a b 1 (!m.2.2) 0 then s
    else { s with ras := { s.ras with recentring := s.ras.recentring ++ [m] } }.startChange a b 1 (!m.2.2) 0
/-- CMAP_CHANGE_COMPLETE (18 R354, R355; 02 R71): every lane has moved, onto a healthy carrier. The messages injected before the change
have all been delivered: injection and delivery are one step (log 56). -/
def execCmapChangeComplete (src dst : Nat) (s : State) : Host.Outcome State Fault Refusal :=
  if !isPair src dst || !s.cmapPend src dst || !s.carrierOk src dst then .fault .eventNotEnabled
  else .next ((((s.setField (cmapOff src dst) 18 18 0).lanesMoved src dst).countModeChange src dst).recentreNext src dst)

/-! Lost colours (18 R355; 19 R374). -/

/-- A pair is left without a carrier: SUB 0x03. -/
def State.noCarrier (s : State) (a b : Nat) : State := s.ras6 0x03 a b 0 0 0
/-- The device's own change of a pair. -/
def State.autoChange (s : State) (a b mode : Nat) (sel : Bool) (k : Nat) : State :=
  let s := s.startChange a b mode sel k
  { s with ras := { s.ras with auto := if mode == 0 then s.ras.auto.erase (a, b) else (a, b) :: s.ras.auto.erase (a, b) } }
/-- Puts a pair that cannot ride its own colours on the lowest allowed relay, or leaves it held. -/
def State.autoRelay (s : State) (a b : Nat) : State :=
  match (List.range 22).find? (fun k => s.relayMay a b k && s.bothOk a k && s.bothOk k b) with
  | some k => s.autoChange a b 2 false k
  | none => s.noCarrier a b
/-- The loss action of the device for a pair whose carrier is gone (18 R355). -/
def State.lossAction (s : State) (a b : Nat) : State :=
  if s.carrierOk a b then s
  else if s.cmapMode a b == 2 then s.autoRelay a b
  else if s.colourOk a b false then s.autoChange a b 1 false 0
  else if s.colourOk a b true then s.autoChange a b 1 true 0
  else s.autoRelay a b
/-- The loss action of the host-assisted mode: a change whose carrier is gone is given up, and the lanes are held for the host (18 R355). -/
def State.lossHold (s : State) (a b : Nat) : State :=
  if s.cmapPend a b && !s.carrierOk a b then (s.setField (cmapOff a b) 18 18 0).lanesMoved a b else s
/-- COLOUR_FAIL (18 R355, 19 R363): pairs that relay through the pair move first. With FSPLIT.LINK set the lanes are held for the
host. -/
def execColourFail (src dst : Nat) (colour : Bool) (s : State) : Host.Outcome State Fault Refusal :=
  if !isPair src dst || !s.colourOk src dst colour then .fault .eventNotEnabled
  else
    let via := s.relays src dst
    let s := (s.setField (cmapOff src dst) (if colour then 17 else 16) (if colour then 17 else 16) 0).ras6 0x01 src dst (bnat colour) 0 0
    if s.fsplit 5 then
      let s := (via.foldl (fun (s : State) p => (s.lossHold p.1 p.2).noCarrier p.1 p.2) s).lossHold src dst
      .next (if s.colourOk src dst false || s.colourOk src dst true || s.carrierOk src dst then s else s.noCarrier src dst)
    else .next ((via.foldl (fun (s : State) p => s.lossAction p.1 p.2) s).lossAction src dst)
/-- COLOUR_RETRY (19 R374): once a second the fabric tries a failed colour. -/
def execColourRetry (src dst : Nat) (colour locks : Bool) (s : State) : Host.Outcome State Fault Refusal :=
  if !isPair src dst || s.colourOk src dst colour then .fault .eventNotEnabled
  else if !locks then .next s
  else
    let s := (s.setField (cmapOff src dst) (if colour then 17 else 16) (if colour then 17 else 16) 1).ras6 0x02 src dst (bnat colour) 0 0
    if s.fsplit 5 then .next (s.recentreNext src dst)
    else if s.ras.auto.contains (src, dst) && s.colourOk src dst false && s.colourOk src dst true then .next (s.autoChange src dst 0 false 0)
    else .next ((s.lossAction src dst).recentreNext src dst)
/-- FABRIC_LINK_RETRY (18 R355, 19 R368): a message is sent again from the retry buffer of the pair. -/
def execFabricLinkRetry (src dst : Nat) (s : State) : Host.Outcome State Fault Refusal :=
  if !isPair src dst then .fault .eventNotEnabled else .next (s.count (pairTel src dst) 1)

/-! Heaters (18 R356). -/

/-- HEATA or HEATB of a pair takes a drive that the spec does not give: inside the margin, or outside it (log 3). -/
def State.heat (s : State) (a b : Nat) (colour margin : Bool) : State :=
  let x := (Config.freeWord s.sched.free).toNat
  let s := { s with sched := { s.sched with free := s.sched.free + 1 } }
  let v := if margin then (let y := x % 22; if y < 11 then y else y + 79) else 11 + x % 79
  let off := pairTel a b + 8
  let lo := if colour then 8 else 0
  let old := (s.live off).toNat
  s.setLive off (old - bits old (lo + 6) lo * 2 ^ lo + v * 2 ^ lo)
/-- NMARGIN and THROT follow the heaters in their margin. -/
def State.marginStat (s : State) : State :=
  let n := s.ras.margins.length
  (s.setField 0x220 15 8 (min n 255)).setField 0x220 0 0 (bnat (n != 0))
/-- Every heater is centred, and a pair that the device had moved for it returns to BOTH (18 R348, stage 3). -/
def State.centreHeaters (s : State) : State :=
  let all := s.ras.margins
  let own := s.ras.recentring
  let s := all.foldl (fun (s : State) m => s.heat m.1 m.2.1 m.2.2 false) ({ s with ras := { s.ras with margins := [], recentring := [] } }.marginStat)
  own.foldl (fun (s : State) m => if s.cmapRefused m.1 m.2.1 0 false 0 then s else s.startChange m.1 m.2.1 0 false 0) s
/-- HEATER_MARGIN (18 R356, 19 R363): with FSPLIT.RING clear the pair rides its other colour while the ring is re-centred. -/
def execHeaterMargin (src dst : Nat) (colour : Bool) (s : State) : Host.Outcome State Fault Refusal :=
  let m : Nat × Nat × Bool := (src, dst, colour)
  if !isPair src dst || s.ras.margins.contains m then .fault .eventNotEnabled
  else
    let s := (({ s with ras := { s.ras with margins := s.ras.margins ++ [m] } }).heat src dst colour true).marginStat
    .next ((s.ras6 0x04 src dst (bnat colour) 0 s.ras.margins.length).recentreNext src dst)
/-- RECENTRE_TIMEOUT (18 R356, 19 R363): the pair stays in HALF. -/
def execRecentreTimeout (src dst : Nat) (colour : Bool) (s : State) : Host.Outcome State Fault Refusal :=
  let m : Nat × Nat × Bool := (src, dst, colour)
  if !s.ras.recentring.contains m then .fault .eventNotEnabled
  else .next ({ s with ras := { s.ras with recentring := s.ras.recentring.erase m } }.ras6 0x05 src dst (bnat colour) 0 0)
/-- The pair's lanes do not ride a colour now. -/
def State.offColour (s : State) (a b : Nat) (colour : Bool) : Bool :=
  !s.cmapPend a b && ((s.cmapMode a b == 1 && bit (s.regN (cmapOff a b)) 2 != colour) || s.cmapMode a b == 2)
/-- RING_RELOCK_COMPLETE (18 R356): the ring of a colour that carries nothing locks one channel over, its heater leaves the margin,
and a pair that the device re-centred returns to BOTH. -/
def execRingRelockComplete (src dst : Nat) (colour : Bool) (s : State) : Host.Outcome State Fault Refusal :=
  let m : Nat × Nat × Bool := (src, dst, colour)
  if !s.ras.margins.contains m || !s.offColour src dst colour then .fault .eventNotEnabled
  else
    let own := s.ras.recentring.contains m
    let s := (({ s with ras := { s.ras with margins := s.ras.margins.erase m, recentring := s.ras.recentring.erase m } }).heat src dst colour false).marginStat
    if !own then .next s
    else
      let s := s.setField 0x220 31 16 (min (s.field 0x220 31 16 + 1) 0xFFFF)
      .next (if s.cmapRefused src dst 0 false 0 then s else s.startChange src dst 0 false 0)

end Sys2Proof.Machine
end

