-- ==== Sys2Proof/Machine/HostEvents.lean ====
section
/-! DEFINITION. Device steps of the host side (18 R341 to R352): the mailbox and its commands, boot, measurement and quotes, power
states, and the host's reads and writes; with the driver's L2 flush (02 R59) and the telemetry latch (19 R369). -/

namespace Sys2Proof.Machine
open Sys2Proof

/-! The mailbox (18 R346, R347). The bodies of commands and replies are laid out as log 21 says. -/

/-- The records of a reply: sequence number of the command, status, whether more follow, and 56 bytes each of the content. -/
def replyRecords (seq status : Nat) : Nat → List Byte → List Event
  | 0, _ => []
  | n + 1, bs =>
    let more := !(bs.drop 56).isEmpty
    Event.of 0x07 (BitVec.ofNat 480 (seq % 2 ^ 16 + status % 2 ^ 8 * 2 ^ 16 + bnat more * 2 ^ 24 + ofBytes (bs.take 56) * 2 ^ 32)) ::
      (if more then replyRecords seq status n (bs.drop 56) else [])
/-- A reply returns on the path of its command. -/
def State.reply (s : State) (cmd : Nat × Bool) (status : Nat) (bs : List Byte) : State :=
  let rs := replyRecords cmd.1 status (bs.length / 56 + 1) bs
  if cmd.2 then { s with mbox := { s.mbox with i3c := s.mbox.i3c ++ rs.mapIdx (fun i e => e.numbered (s.mbox.i3c.length + i)) } }
  else ({ s with mbox := { s.mbox with waiting := s.mbox.waiting ++ rs } }).pump
/-- The command that a step carries out: where its reply goes. -/
def State.takeCmd (s : State) : (Nat × Bool) × State :=
  match s.mbox.cmds with
  | [] => ((0, false), s)
  | c :: cs => (c, { s with mbox := { s.mbox with cmds := cs } })
/-- Bits hi:lo of a command's body. -/
def cmdField (c : MboxCmd) (hi lo : Nat) : Nat := bits c.body.toNat hi lo
/-- The escalated group that a command names by queue, entry, plot and group. -/
def State.escNamed (s : State) (c : MboxCmd) : Option Nat :=
  (s.allGroups.find? (fun g => let l := s.launch g.lid
    g.esc.isSome && l.queue == cmdField c 31 0 && l.entry == cmdField c 63 32 && (s.plot g.pid).index == cmdField c 95 64 && g.idx == cmdField c 127 96)).map (·.gid)
/-- The plots that a victim reply names: queue, entry and plot of each of at most five. -/
def State.victimsNamed (s : State) (c : MboxCmd) : List Nat :=
  (List.range (min (cmdField c 15 0) 5)).map (fun i =>
    let b := 32 + 80 * i
    ((s.plots.find? (fun p => let l := s.launch p.lid
      l.queue == cmdField c (b + 15) b && l.entry == cmdField c (b + 47) (b + 16) && p.index == cmdField c (b + 79) (b + 48))).map (·.pid)).getD 0)
/-- ROM accepts an image (18 R349): its key is one of the fused ones and not revoked, its signature verifies, and its security counter has
reached the fused count. -/
def imageAccepted (image : Nat) : Bool :=
  let key := Config.imageKey image
  (List.range 4).any (fun i => !Config.keyRevoked i && Config.shake256 key.toNat 57 == Config.keyDigest i) &&
    Config.ed448Verify key (Config.imageDigest image) (Config.imageSig image) && Config.rollbackCount ≤ Config.imageCounter image
/-- The step that a command asks for: none for an unknown TYPE, or one that matches no pending request. -/
def State.command (s : State) (c : MboxCmd) : Option DevStep :=
  let free (gid : Nat) : Bool := !s.sched.agenda.any (fun i => i == DevStep.resume gid || i == DevStep.handler gid || i == DevStep.kill gid)
  let esc : Option Nat := (s.escNamed c).bind (fun gid => if free gid then some gid else none)
  match c.typ with
  | 0x40 => esc.map DevStep.resume
  | 0x41 => esc.map DevStep.handler
  | 0x42 => esc.map DevStep.kill
  | 0x43 =>
    let va := BitVec.ofNat 64 (cmdField c 95 32)
    let i := DevStep.translationReply (cmdField c 31 0) va (if cmdField c 104 104 == 1 then some (cmdField c 103 96, BitVec.ofNat 128 (cmdField c 239 112)) else none)
    if (s.transAsked (cmdField c 31 0) (va.toNat / 2 ^ 16)).isSome && !s.sched.agenda.contains i then some i else none
  | 0x44 =>
    if s.mbox.pending.any (fun p => match p with | .victims _ _ => true | _ => false) &&
        !s.sched.agenda.any (fun i => match i with | .victimReply _ => true | _ => false) then some (.victimReply (s.victimsNamed c)) else none
  | 0x50 => some (.quote (BitVec.ofNat 256 (cmdField c 255 0)))
  | 0x51 => some (.fwstage (cmdField c 63 0) (imageAccepted (cmdField c 63 0)))
  | 0x52 => some .enterS4
  | 0x53 => some .ckpt
  | 0x54 =>
    let n := cmdField c 159 128
    if 4096 < n then none
    else
      let a := cmdField c 127 64
      some (.restore (cmdField c 31 0) (cmdField c 63 32) ((List.range n).map (fun i => (s.mem.glob.num (a + 16 * i) 8, s.mem.glob.num (a + 16 * i + 8) 8))))
  | _ => none
/-- A command that is carried out with a reply of its own later. -/
def replies (typ : Nat) : Bool := 0x50 ≤ typ
/-- Takes a command record: its step joins the agenda, or an error reply goes out (18 R347). -/
def State.takeRecord (s : State) (c : MboxCmd) : State :=
  match s.command c with
  | some i =>
    let s := { s with sched := { s.sched with agenda := s.sched.agenda ++ [i] } }
    if replies c.typ then { s with mbox := { s.mbox with cmds := s.mbox.cmds ++ [(c.seq, c.i3c)] } } else s
  | none => s.reply (c.seq, c.i3c) 1 []
/-- MAILBOX_DOORBELL (18 R346, R347): the records of the ring from CMHEAD to the new CMTAIL are taken, and those that came over
I3C. -/
def execMailboxDoorbell (tail : Word) (recs : List MboxCmd) (s : State) : Host.Outcome State Fault Refusal :=
  let en := bit (s.regN 0x310) 31
  let n := (tail.toNat + 2 ^ 32 - s.regN 0x324) % 2 ^ 32
  let ring := (recs.filter (fun c => !c.i3c)).length
  if s.inS4 || ring != (if en then n else 0) then .fault .eventNotEnabled
  else
    let s := s.awake.setReg 0x320 (tail.setWidth 64)
    let s := if en then s.setReg 0x324 (tail.setWidth 64) else s
    .next (recs.foldl State.takeRecord s)
/-- EVHEAD_WRITE (18 R346, R347; 19 R363): room frees; the record of lost events goes first, and over I3C as every record does. -/
def execEvheadWrite (value : Word) (s : State) : Host.Outcome State Fault Refusal :=
  let s := s.setReg 0x31C (value.setWidth 64)
  let used := (s.regN 0x318 + 2 ^ 32 - s.regN 0x31C) % 2 ^ 32
  if s.mbox.lostNew != 0 && bit (s.regN 0x310) 31 && used < 2 ^ (s.field 0x310 4 0) then
    let e : Event := Event.of 0x06 (rasBody s.sched.cycle 0x0C 0 0xFF 0 0 s.mbox.lostNew)
    .next ({ s with mbox := { s.mbox with lostNew := 0, waiting := e :: s.mbox.waiting, i3c := s.mbox.i3c ++ [e.numbered s.mbox.i3c.length] } }).pump
  else .next s.pump

/-! Measurement, quotes and firmware (18 R349, R350). -/

/-- M = SHAKE256(M ‖ digest) of a measurement register (18 R350). -/
def Boot.extend (b : Boot) (i : Nat) (digest : BitVec 512) : Boot :=
  { b with meas := b.meas.modify i (fun m => Config.shake256 (ofBytes (bytesOf 64 m.toNat ++ bytesOf 64 digest.toNat)) 128) }
/-- What a quote holds before its signature (18 R350). -/
def State.quoteBody (s : State) (nonce : BitVec 256) : List Byte :=
  bytesOf 32 nonce.toNat ++ s.boot.meas.flatMap (fun m => bytesOf 64 m.toNat) ++ Config.imageVersions s.boot.bank ++
    bytesOf 1 (s.field 0x200 12 5) ++ Config.identityChain (s.boot.meas.getD 0 0)
/-- QUOTE (18 R350). -/
def execQuote (nonce : BitVec 256) (s : State) : Host.Outcome State Fault Refusal :=
  let c := s.takeCmd
  let b := s.quoteBody nonce
  let sig := Config.identitySign (s.boot.meas.getD 0 0) (Config.shake256 (ofBytes b) b.length)
  .next (c.2.reply c.1 0 (b ++ bytesOf 114 sig.toNat))
/-- FWSTAGE (18 R349): a set that fails its verification leaves the active bank as it is and stages nothing. -/
def execFwstage (image : Nat) (ok : Bool) (s : State) : Host.Outcome State Fault Refusal :=
  let c := s.takeCmd
  if ok != imageAccepted image then .fault .eventNotEnabled
  else .next ({ c.2 with boot := { c.2.boot with staged := if ok then some image else none } }.reply c.1 (bnat (!ok)) [])

/-! Boot (18 R348, R350; 19 R373). -/

/-- DEVICE_RESET (18 R348, R349; 19 R373): every register and memory as after reset; a staged bank takes effect, and memory chiplets that
had failed are no longer FAILED but still broken, so that the device stays in stage 4. -/
def execDeviceReset (s : State) : Host.Outcome State Fault Refusal :=
  let broken := (List.range 12).filterMap (fun m => if s.chipState (8 + m) == 4 || s.boot.broken.contains (8 + m) then some (8 + m) else none)
  let r := State.reset
  let r := { r with sched := { r.sched with free := s.sched.free, nextId := s.sched.nextId },
                    boot := { r.boot with bank := s.boot.staged.getD s.boot.bank, broken := broken } }
  .next (r.setField 0x200 4 2 1)
/-- Halves of the retained region (19 R375): 577 GiB each. -/
def State.halves (s : State) : List (Nat × Nat) :=
  if s.regN 0x490 == 0 then [] else [(s.regN 0x490, 577 * 2 ^ 30), (s.regN 0x498, 577 * 2 ^ 30)]
/-- An address lies in the retained region. -/
def State.retained (s : State) (pa : Nat) : Bool := s.halves.any (fun h => h.1 ≤ pa && pa < h.1 + h.2)
/-- Memory and homes with the retained bytes and tags only (18 R352). -/
def State.retainedMem (s : State) : MemSt :=
  { MemSt.reset with glob := ⟨s.mem.glob.cells.filter (fun c => s.retained c.1)⟩, tags := ⟨s.mem.tags.cells.filter (fun c => s.retained (32 * c.1))⟩,
                     ecc := s.mem.ecc.filter (fun e => s.retained e.1) }
/-- Stage 4 is done: memory and tags are 0 but for what is retained at a wake from S4, stamps and TBASE are 0, and the device is
ready (18 R348, R352). -/
def State.readyUp (s : State) : State :=
  let m := if s.boot.fromS4 then s.retainedMem else MemSt.reset
  let s := { s with mem := m, tbase := 0, boot := { s.boot with fromS4 := false }, sched := { s.sched with ticked := s.sched.cycle },
                    fe := { s.fe with stamp := 0, hay := 0 }, chans := [], streams := [], clusters := [], peers := { s.peers with stamps := [] } }
  s.setField 0x200 0 0 1
/-- The host has resized BAR2: from 1 GiB to 16 TiB (18 R342; log 11). -/
def State.resizeBar2 (s : State) : State :=
  { s with boot := { s.boot with bar2 := 30 + (Config.freeWord s.sched.free).toNat % 15 }, sched := { s.sched with free := s.sched.free + 1 } }
/-- BOOT_STAGE_COMPLETE (18 R348 to R350): ROM verifies the images of the active bank in stage 1, and a failure sets SECFAIL; once stage 2 ends the
host configures the device; stage 3 centres the heaters; a failed self-test leaves stage 4 unfinished. -/
def execBootStageComplete (digest : BitVec 512) (ok : Bool) (s : State) : Host.Outcome State Fault Refusal :=
  let st := max 1 (s.field 0x200 4 2)
  if s.regN 0x200 % 4 != 0 || s.inS4 then .fault .eventNotEnabled
  else if st == 1 && ok != imageAccepted s.boot.bank then .fault .eventNotEnabled
  else if st == 1 && !ok then .next ((s.setField 0x200 4 2 1).setField 0x200 1 1 1)
  else if st < 4 then
    (if ok then
      let s := if st == 3 then s.centreHeaters else if st == 2 then s.resizeBar2 else s
      .next ({ s with boot := s.boot.extend (st - 1) digest }.setField 0x200 4 2 (st + 1)) else .fault .eventNotEnabled)
  else if ok && s.boot.broken.isEmpty then .next { s with boot := s.boot.extend 3 Config.configRecord }.readyUp
  else .next s

/-! Power (18 R351, R352). -/

/-- Every dirty sector is written back (02 R59), which activates its row (19 R367). -/
def State.flush (s : State) : State :=
  let s := s.mem.lines.foldl (fun (s : State) l => match l.key with | .glob n => if l.dirty != 0 then s.activate (n * 128) else s | _ => s) s
  { s with mem := { s.mem with lines := s.mem.lines.map (fun (l : LineSt) => { l with dirty := 0 }) } }
/-- L2_FLUSH (02 R59). -/
def execL2Flush (s : State) : Host.Outcome State Fault Refusal := .next s.flush
/-- The entry condition of a power state holds now for a unit (18 R351). -/
def State.idleFor (s : State) (level unit : Nat) : Bool :=
  let copies := s.chans.filter (fun c => c.st == 1)
  match level with
  | 1 => unit < 1024 && !s.allGroups.any (fun g => g.core == unit && g.place != Place.saved && g.place != Place.gone)
  | 2 => unit < 22 && !s.plots.any (fun p => p.st == .resident && chipletOf p.core == unit) &&
      !copies.any (fun c => Config.enginePort (c.h / 64) == unit) && s.mbox.waiting.isEmpty && s.mbox.cmds.isEmpty
  | 3 => unit == 0 && !s.launches.any (fun l => l.st == .admitted) && copies.isEmpty && s.streams.all (fun x => x.boundary.isEmpty && x.owed.isNone) &&
      s.admissible.isEmpty
  | _ => false
/-- The wake time of a power state, in nanoseconds (18 R351). -/
def wakeTime (level : Nat) : Nat := match level with | 1 => 2000 | 2 => 40000 | _ => 2000000
/-- POWER_STATE_ENTRY (18 R351; 02 R59): the L2 is written back before S3. -/
def execPowerStateEntry (level unit : Nat) (s : State) : Host.Outcome State Fault Refusal :=
  if !s.idleFor level unit || s.regN 0x208 < wakeTime level || s.boot.asleep.contains (level, unit) || s.inS4 then .fault .eventNotEnabled
  else
    let s := if level == 3 then s.flush else s
    .next { s with boot := { s.boot with asleep := s.boot.asleep ++ [(level, unit)] } }
/-- POWER_WAKE (18 R351, R352): from S4 the device runs stages 3 and 4 of the boot again. -/
def execPowerWake (s : State) : Host.Outcome State Fault Refusal :=
  if s.inS4 then .next ({ s with boot := { s.boot with asleep := [], fromS4 := true } }.setField 0x200 4 2 3)
  else if s.boot.asleep.isEmpty then .fault .eventNotEnabled
  else .next s.awake
/-- ENTER_S4 (18 R352). -/
def execEnterS4 (s : State) : Host.Outcome State Fault Refusal :=
  let c := s.takeCmd
  if s.launches.any (fun l => l.st == .admitted) || (List.range 512).any s.qen then .next (c.2.reply c.1 1 [])
  else
    let r := c.2.reply c.1 0 []
    .next ({ r with mem := r.retainedMem, clusters := [], chans := [], streams := [], launches := [],
                    boot := { r.boot with asleep := [(4, 0)] } }.setField 0x200 0 0 0)

/-! The host's accesses (18 R341 to R345; 03 R96). -/

/-- A host port is up: on LC0, or on LC1 of the DCP-1152L, and its chiplet serves (18 R341; 19 R372). -/
def State.hostPort (s : State) (port : Nat) : Bool :=
  (port == 20 || (port == 21 && !Config.isC)) && s.chipState port ≤ 1 && bit (s.regN 0x200) 0 && !s.inS4
/-- Every byte of a host access lies in populated memory inside the window that BAR2 has now (18 R342, R344). -/
def State.hostRange (s : State) (pa n : Nat) : Bool := pa + n ≤ 2 ^ s.boot.bar2 && (List.range n).all (fun i => populated (pa + i))
/-- A home of a host access is dead. -/
def State.hostDead (s : State) (pa n : Nat) : Bool := (List.range n).any (fun i => s.homeDead { space := .glob, addr := pa + i })
/-- The lines of n bytes at a physical address. -/
def lineTargets (pa n : Nat) : List Target :=
  (List.range (n / 128 + 2)).filterMap (fun i => let a := max pa ((pa / 128 + i) * 128); if a < pa + n then some { space := .glob, addr := a } else none)
/-- The access waits: at a checkpoint's copy, or at a held lane between its port and a home (02 R71). -/
def State.hostWaits (s : State) (port pa n : Nat) : Bool :=
  s.field 0x4A0 1 0 == 1 || (lineTargets pa n).any (fun t => !(s.reachFrom port t && s.answersTo port t))
/-- The access waits for a link chiplet that drains, and completes after 50 ms as one to uncorrectable data (19 R372). -/
def State.hostLate (s : State) (pa n : Nat) : Bool := (lineTargets pa n).any s.tierWaits
/-- HOST_WRITE (18 R344; 03 R96): an access to a hole has no effect; one to a failed home neither, nor one that has waited 50 ms for a link
chiplet (19 R372, R373). -/
def execHostWrite (port : Nat) (pa : Nat) (bytes : List Byte) (s : State) : Host.Outcome State Fault Refusal :=
  let n := bytes.length
  if !s.hostPort port || n == 0 || 512 < n then .fault .eventNotEnabled
  else
    let s := s.awake
    if !s.hostRange pa n then .next s
    else if s.hostWaits port pa n then .fault .eventNotEnabled
    else if s.hostDead pa n || s.hostLate pa n then .next s
    else
      let w := s.agentWrite 0 (s.portStamp port) pa bytes
      .next (w.1.setPortStamp port w.2)
/-- HOST_READ (18 R342, R344; 03 R96): it follows every posted write of its port, since those perform as they arrive. -/
def execHostRead (port : Nat) (pa n : Nat) (s : State) : Host.Outcome State Fault Refusal :=
  if !s.hostPort port || n == 0 || 4096 < n then .fault .eventNotEnabled
  else
    let s := s.awake
    let done (s : State) (c : HostCpl) : Host.Outcome State Fault Refusal :=
      .next { s with peers := { s.peers with hostReads := alSet s.peers.hostReads port c } }
    if !s.hostRange pa n then done s .unsupported
    else if s.hostWaits port pa n then .fault .eventNotEnabled
    else if s.hostDead pa n || s.hostLate pa n then done s .poisoned
    else if 3 ≤ s.eccClass pa n then done (s.countRead { space := .glob, addr := pa } n) .poisoned
    else
      let r := s.agentRead (s.portStamp port) pa n
      done (r.1.setPortStamp port r.2.2) (.data r.2.1)

/-! Telemetry (19 R368, R369). -/

/-- Rows in the watch set of a memory chiplet. -/
def State.watched (s : State) (mc : Nat) : Nat := (s.ras.watch.filter (fun w => w.mc == mc)).length
/-- TELSNAP (19 R369): every counter and gauge is latched; SNAP reads 0 again. -/
def execTelsnap (s : State) : Host.Outcome State Fault Refusal :=
  s.regAnswers <|
  let s := s.ras.counters.foldl (fun (s : State) e => s.setReg e.1 e.2) s
  let s := (List.range 22).foldl (fun (s : State) p => s.setReg (telBlock p) (BitVec.ofNat 64 s.sched.cycle)) s
  .next ((List.range 12).foldl (fun (s : State) m => s.setReg (telBlock (8 + m) + 0x30) (BitVec.ofNat 64 (s.watched m))) s)

end Sys2Proof.Machine
end

