-- ==== Sys2Proof/Machine/PeerEvents.lean ====
section
/-! DEFINITION. Device steps of the peer ports (18 R357 to R362): port states, ECC mode changes, requests from peers with the
completion table, and the responses, resends and time-outs of this device's own remote accesses. -/

namespace Sys2Proof.Machine
open Sys2Proof

/-! Port states (18 R359). -/

/-- PCTL of a port. -/
def pctl (p : Nat) : Nat := 0x30000 + 64 * p
/-- A port changes state: SUB 0x06. -/
def State.setPort (s : State) (p st : Nat) : State := (s.setField (pctl p) 6 4 st).ras6 0x06 p 0xFF st 0 0
/-- PEER_QUIESCE (18 R359): a command that does not fit the state is ignored. -/
def execPeerQuiesce (port : Nat) (s : State) : Host.Outcome State Fault Refusal :=
  s.regAnswers <|
  if 8 ≤ port then .fault .eventNotEnabled
  else if s.portState port == 2 then .next (s.setPort port 3)
  else .next s
/-- PEER_QUIESCED (18 R359): no acknowledgement for 2 µs. -/
def execPeerQuiesced (port : Nat) (s : State) : Host.Outcome State Fault Refusal :=
  if port < 8 && s.portState port == 3 then .next (s.setPort port 4) else .fault .eventNotEnabled
/-- PEER_RESUME (18 R359, R348): from QUIESCED, and from DOWN where nothing keeps the port down. -/
def execPeerResume (port : Nat) (s : State) : Host.Outcome State Fault Refusal :=
  s.regAnswers <|
  if 8 ≤ port then .fault .eventNotEnabled
  else if (s.portState port == 4 || s.portState port == 0) && s.devid != 0 && s.chipState (20 + port / 4) == 0 then .next (s.setPort port 1)
  else .next s
/-- A time in microseconds has passed since a cycle. -/
def State.passed (s : State) (c us : Nat) : Bool := c + 2000 * us ≤ s.sched.cycle
/-- Transmits a request again, with its age restamped (18 R360). -/
def State.restamp (s : State) (r : Remote) : Remote := { r with busy := false, resends := r.resends + 1, age := (s.sched.cycle - r.first) / 2000 }
/-- A retained request is routed afresh (18 R358, R359); port 255 is none. -/
def State.reroute (s : State) (r : Remote) : Remote :=
  if r.port == 255 then r else { r with port := (s.rerouted r.index r.pa).getD 255, dev := s.peerDev r.index, busy := false }
/-- A request leaves after it has been routed afresh, where its port runs: for the first time, or a write again (18 R359, R360). -/
def State.goes (s : State) (r : Remote) : State × Remote :=
  if !r.sent then s.inject r
  else if r.kind == .load || r.port == 255 || s.portState r.port != 2 then (s, r)
  else (s, s.restamp r)
/-- Replaces the record of one identifier. -/
def State.putRemote (s : State) (id : DWord) (r : Remote) : State :=
  { s with peers := { s.peers with remotes := s.peers.remotes.map (fun (x : Remote) => if x.id == id then r else x) } }
/-- The retained requests of some ports are routed afresh and leave (18 R359; 19 R372). -/
def State.routeAfresh (s : State) (of : Nat → Bool) : State :=
  (s.peers.remotes.filter (fun r => of r.port)).foldl (fun (s : State) r => let f := s.goes (s.reroute r); f.1.putRemote r.id f.2) s
/-- What retraining or a loss of the port ends of a change of ECC mode (18 R359, R362). -/
def State.dropChange (s : State) (port : Nat) : State :=
  { s.setField (pctl port) 12 12 0 with peers := { s.peers with ends := s.peers.ends.filter (fun e => e.port != port) } }
/-- PEER_TRAINING_COMPLETE (18 R359, R360): the port runs in the mode learnt, requests are routed afresh and writes resent, and responses
for a peer that the port no longer reaches are dropped. -/
def execPeerTrainingComplete (port dev ecc : Nat) (s : State) : Host.Outcome State Fault Refusal :=
  if 8 ≤ port || s.portState port != 1 || 256 ≤ dev || 3 ≤ ecc then .fault .eventNotEnabled
  else
    let s := (((s.setPort port 2).setField (pctl port) 23 16 dev).setField (pctl port) 9 8 ecc).dropChange port
    let s := { s with peers := { s.peers with replies := s.peers.replies.filter (fun r => r.port != port || r.id.toNat / 2 ^ 56 == dev) } }
    .next (s.routeAfresh (fun _ => true))
/-- PEER_FLIT_RETRY (18 R362, 19 R368). -/
def execPeerFlitRetry (port : Nat) (s : State) : Host.Outcome State Fault Refusal :=
  if port < 8 && 1 ≤ s.portState port && s.portState port ≤ 3 then .next (s.count (telBlock (20 + port / 4) + 0x08) 1) else .fault .eventNotEnabled

/-! ECC mode changes (18 R362). -/

def State.eccMode (s : State) (p : Nat) : Nat := s.field (pctl p) 9 8
/-- One end of a port's mode changes; at rest it transmits and decodes in the mode in force. -/
def State.eccEnd (s : State) (p : Nat) : EccEnd := (s.peers.ends.find? (fun e => e.port == p)).getD ⟨p, none, false, none, none, s.eccMode p⟩
def State.setEnd (s : State) (e : EccEnd) : State :=
  { s with peers := { s.peers with ends := e :: s.peers.ends.filter (fun x => x.port != e.port) } }
/-- Sends a message of a mode change. -/
def State.sendEcc (s : State) (p : Nat) (m : EccMsg) : State := { s with peers := { s.peers with sent := s.peers.sent ++ [(p, m)] } }
/-- ECCPEND of a port. -/
def State.eccPend (s : State) (p : Nat) : Bool := s.field (pctl p) 12 12 == 1
def State.setPend (s : State) (p : Nat) (b : Bool) : State := s.setField (pctl p) 12 12 (bnat b)
/-- An end that has sent and received SM of one mode commits to it. -/
def State.eccCommit (s : State) (p : Nat) : State :=
  let e := s.eccEnd p
  match e.sentSM with
  | none => s
  | some n =>
    if e.recvSM == some n && s.eccPend p then
      ((s.setEnd ⟨p, none, false, none, none, n⟩).setField (pctl p) 9 8 n).setPend p false
    else s
/-- PEER_ECC_PROPOSE (18 R359, R362). -/
def execPeerEccPropose (port : Nat) (s : State) : Host.Outcome State Fault Refusal :=
  s.regAnswers <|
  if 8 ≤ port then .fault .eventNotEnabled
  else
    let n := s.field (pctl port) 11 10
    if s.portState port != 2 || s.eccPend port || n == 3 then .next s
    else .next (((s.setEnd ⟨port, some n, true, none, none, s.eccMode port⟩).setPend port true).sendEcc port (.propose n))
/-- ECC_PROPOSE_RECEIVED (18 R362): when proposals cross, the end with the higher DEVID abandons its own. -/
def execEccProposeReceived (port mode : Nat) (s : State) : Host.Outcome State Fault Refusal :=
  if 8 ≤ port || s.portState port != 2 || 3 ≤ mode then .fault .eventNotEnabled
  else
    let e := s.eccEnd port
    let open_ := e.sentSM == some mode && s.eccPend port
    if e.proposed.isSome && s.devid ≤ s.field (pctl port) 23 16 then .next s
    else if s.eccMode port == mode || open_ then
      let s := if e.proposed.isSome then (s.setEnd ⟨port, none, false, none, none, s.eccMode port⟩).setPend port false else s
      .next (s.sendEcc port (.ack mode))
    else
      .next ((((s.setEnd ⟨port, none, true, some mode, none, mode⟩).setPend port true).sendEcc port (.ack mode)).sendEcc port (.marker mode))
/-- ECC_ACK_RECEIVED (18 R362): an ACK that answers no open proposal has no effect. -/
def execEccAckReceived (port mode : Nat) (s : State) : Host.Outcome State Fault Refusal :=
  if 8 ≤ port || s.portState port != 2 then .fault .eventNotEnabled
  else
    let e := s.eccEnd port
    if e.proposed != some mode then .next s
    else .next (((s.setEnd { e with proposed := none, sentSM := some mode, tx := mode }).sendEcc port (.marker mode)).eccCommit port)
/-- ECC_PROPOSE_RESEND (18 R362). -/
def execEccProposeResend (port : Nat) (s : State) : Host.Outcome State Fault Refusal :=
  match (s.eccEnd port).proposed with
  | none => .fault .eventNotEnabled
  | some n => .next (s.sendEcc port (.propose n))
/-- ECC_SWITCH_MARKER (18 R362): an open end notes the marker and commits once it has sent one too; an end that returned to its old
mode stops decoding in the other. -/
def execEccSwitchMarker (port mode : Nat) (s : State) : Host.Outcome State Fault Refusal :=
  if 8 ≤ port || s.portState port != 2 || 3 ≤ mode then .fault .eventNotEnabled
  else
    let e := s.eccEnd port
    if s.eccPend port then .next ((s.setEnd { e with recvSM := some mode }).eccCommit port)
    else if e.window && mode == s.eccMode port then .next (s.setEnd ⟨port, none, false, none, none, mode⟩)
    else .next s
/-- ECC_WINDOW_EXPIRE (18 R362): the end returns to its old mode; a further window later it decodes in that mode only. -/
def execEccWindowExpire (port : Nat) (s : State) : Host.Outcome State Fault Refusal :=
  let e := s.eccEnd port
  let m := s.eccMode port
  if 8 ≤ port || !e.window then .fault .eventNotEnabled
  else if s.eccPend port then
    .next ((((s.setEnd ⟨port, none, true, some m, none, m⟩).setPend port false).setField (pctl port) 13 13 1).sendEcc port (.marker m))
  else .next (s.setEnd ⟨port, none, false, none, none, m⟩)

/-! Requests from peers (18 R358, R360; 03 R96). -/

/-- The home of a first- or second-tier byte. -/
def paTarget (pa : Nat) : Target := { space := .glob, addr := pa }
/-- The access is taken: source index admitted, every byte inside the inbound window and in memory (18 R358). -/
def State.inbound (s : State) (r : PeerReq) (n : Nat) : Bool :=
  let lo := s.regN 0x30800
  s.field (0x31000 + 8 * r.srcIndex) 16 16 == 1 && 1 ≤ r.srcIndex && r.srcIndex < 64 && s.peerDev r.srcIndex == r.id.toNat / 2 ^ 56 &&
  lo ≤ r.pa && r.pa + n ≤ lo + s.regN 0x30808 && (List.range n).all (fun i => populated (r.pa + i))
/-- Sends a response. -/
def State.respond (s : State) (port : Nat) (id : DWord) (st : PeerStatus) (bs : List Byte) : State :=
  { s with peers := { s.peers with replies := s.peers.replies ++ [(⟨port, id, st, bs⟩ : PeerReply)] } }
/-- Bytes that a request covers; a compare-and-swap carries two operands. -/
def peerSpan (r : PeerReq) : Nat := if r.kind == .atomic && r.opa == 16 then r.bytes.length / 2 else r.bytes.length
/-- The new bytes that an atomic of a peer leaves (08 R192, R193). -/
def peerAtomic (r : PeerReq) (old : Nat) : Nat :=
  let n := peerSpan r
  let o := ofBytes (r.bytes.take n)
  if r.opa == 16 then (if old == o then ofBytes (r.bytes.drop n) else old) else applyOp r.opa (match n with | 4 => 0 | 8 => 1 | _ => 2) o 1 old
/-- A write enters the completion table with its result and is answered (18 R360). -/
def State.enterTable (s : State) (port : Nat) (id : DWord) (bs : List Byte) : State :=
  ({ s with peers := { s.peers with table := s.peers.table ++ [(id, bs, s.sched.cycle)] } }).respond port id .ok bs
/-- A write of a peer performs as an access of the port's agent and enters the completion table (18 R360); an atomic at its home, where
its stages pass it in one step (log 77). -/
def State.peerWrite (s : State) (port : Nat) (r : PeerReq) : State :=
  let n := peerSpan r
  let k := 256 + port
  if r.kind == .store then
    let w := s.agentWrite 0 (s.portStamp k) r.pa r.bytes
    (w.1.setPortStamp k w.2).enterTable port r.id []
  else
    let w := s.atomicAt (paTarget r.pa) n (peerAtomic r) (s.portStamp k) 0 1
    (w.1.setPortStamp k w.2.2).enterTable port r.id (bytesOf n w.2.1)
/-- PEER_REQUEST_ARRIVE (18 R358, R360; 19 R376): a request that meets uncorrectable data, a failed home or a link chiplet that drains gets
no answer; the data read counts (19 R368). -/
def execPeerRequestArrive (port : Nat) (req : PeerReq) (s : State) : Host.Outcome State Fault Refusal :=
  let n := peerSpan req
  if 8 ≤ port || !(s.portState port == 2 || s.portState port == 3) || n == 0 || 128 < n || s.inS4 then .fault .eventNotEnabled
  else
    let s := s.awake
    let lc := telBlock (20 + port / 4)
    if req.dev != s.devid then .next (s.respond port req.id .unreachable [])
    else if !s.inbound req n then .next (s.respond port req.id .denied [])
    else if s.field 0x4A0 1 0 == 1 then .next ((s.respond port req.id .busy []).count (lc + 0x10) 1)
    else if s.hostWaits (20 + port / 4) req.pa n then .fault .eventNotEnabled
    else if req.kind == .load then
      if s.hostDead req.pa n || s.hostLate req.pa n then .next s
      else if 3 ≤ s.eccClass req.pa n then .next (s.countRead (paTarget req.pa) n)
      else
        let r := s.agentRead (s.portStamp (256 + port)) req.pa n
        .next ((r.1.setPortStamp (256 + port) r.2.2).respond port req.id .ok r.2.1)
    else
      match s.peers.table.find? (fun e => e.1 == req.id) with
      | some e => .next (s.respond port req.id .ok e.2.1)
      | none =>
        if 3500 < req.age then .next ((s.respond port req.id .expired []).count (lc + 0x18) 1)
        else if 262144 ≤ s.peers.table.length then .next ((s.respond port req.id .busy []).count (lc + 0x10) 1)
        else if s.hostDead req.pa n || s.hostLate req.pa n then .next s
        else if req.kind == .atomic && 3 ≤ s.eccClass req.pa n then .next (s.countRead (paTarget req.pa) n)
        else .next (s.peerWrite port req)
/-- COMPLETION_ENTRY_EXPIRE (18 R360): 4 ms after its write performed. -/
def execCompletionEntryExpire (id : DWord) (s : State) : Host.Outcome State Fault Refusal :=
  if s.peers.table.any (fun e => e.1 == id && s.passed e.2.2 4000) then
    .next { s with peers := { s.peers with table := s.peers.table.filter (fun e => e.1 != id) } }
  else .fault .eventNotEnabled

/-! This device's remote accesses (18 R360, R361; 03 R96). -/

/-- The remote access leaves. -/
def State.dropRemote (s : State) (id : DWord) : State := { s with peers := { s.peers with remotes := s.peers.remotes.filter (fun r => r.id != id) } }
/-- A thread that waits in WAITA or WAITC on a peer's word takes its value (09 R203, R206; log 20): WAITC asks again until its
target is reached. -/
def State.peerWaited (s : State) (r : Remote) (x : Nat) : State :=
  match (s.group r.gid).bind (fun g => match (g.thread r.part).wait with | some (.addr w) => some w | _ => none) with
  | none => s.updGroup r.gid (fun g => g.updThread r.part (fun t => match t.susp with | some (.addr _, _) => t.suspAgain | _ => t))
  | some w =>
    let n := if w.two then 8 else 4
    let v := BitVec.ofNat 64 (x % 2 ^ (8 * n))
    if w.counter then
      if w.cmp.toNat ≤ v.toNat then s.updGroup r.gid (fun g => (g.dstN w.d r.part (wordsOf 2 v.toNat)).updThread r.part Thread.leave)
      else s.sendRemote r.gid 0 r.part .load r.pa
    else s.updGroup r.gid (fun g => (g.dstN w.d r.part (wordsOf (n / 4) v.toNat)).updThread r.part
      (fun t => (t.setP w.pd.toNat (condHolds w.cond (8 * n) v w.cmp)).leave))
/-- The part of an access that a remote request stands for has its answer; REDM's lanes are counted in (03 R90). -/
def State.peerLand (s : State) (r : Remote) (x : Nat) : State :=
  match s.group r.gid with
  | none => s
  | some g =>
    if (g.load r.rid).isSome then
      s.updGroup r.gid (fun g => g.updLoad r.rid (fun q =>
        { q with parts := q.parts.mapIdx (fun i p => if i == r.part then { p with st := .done (bytesOf p.len x) q.base none } else p) }))
    else if (g.holdRec r.rid).isSome then
      s.updGroup r.gid (fun g => g.updHold r.rid (fun h =>
        { h with parts := h.parts.mapIdx (fun i p => if i == r.part then { p with st := .done (g.thread p.lane).pts (bytesOf p.data.length x) } else p) }))
    else
      s.updGroup r.gid (fun g => { g with ops := g.ops.map (fun (o : EngOp) =>
        if o.id == r.rid then { o with left := o.left - 1, done := o.left ≤ 1 } else o) })
/-- A remote access is answered with a result. -/
def State.peerDone (s : State) (r : Remote) (x : Nat) : Host.Outcome State Fault Refusal :=
  let s := s.dropRemote r.id
  if r.rid == 0 then .next (s.peerWaited r x) else (s.peerLand r x).settleHold r.gid r.rid
/-- A remote access fails (18 R361): SUB 0x07, and consumption of uncorrectable data at the source. An access that was never sent has no
port, and the port named is a free one (log 68). -/
def State.peerFail (s : State) (r : Remote) (aux : Nat) : Host.Outcome State Fault Refusal :=
  let s := ((s.dropRemote r.id).ras6 0x07 (if r.port == 255 then (Config.unsentPort r.pa).toNat else r.port) 0xFF aux r.pa 0).consume r.gid 0x31 4 (some (paTarget r.pa, 0))
  if r.rid == 0 then .next s
  else
    match (s.group r.gid).bind (fun g => g.load r.rid) with
    | some _ => .next s
    | none => (s.peerLand r 0).settleHold r.gid r.rid
/-- PEER_RESPONSE_ARRIVE (18 R360, R361): a response to no request in flight has no effect. -/
def execPeerResponseArrive (id : DWord) (status : PeerStatus) (value : BitVec 1024) (s : State) : Host.Outcome State Fault Refusal :=
  if s.inS4 then .fault .eventNotEnabled
  else
    let s := s.awake
    match s.peers.remotes.find? (fun r => r.id == id && r.sent) with
    | none => .next s
    | some r =>
      match status with
      | .ok => s.peerDone r value.toNat
      | .busy => .next (s.putRemote id { r with busy := true })
      | .unreachable => s.peerFail r 0
      | .denied => s.peerFail r 1
      | .expired => s.peerFail r 2
/-- Sends a request again on its port, which runs. -/
def State.resend (s : State) (r : Remote) : Host.Outcome State Fault Refusal :=
  if r.port == 255 || s.portState r.port != 2 then .fault .eventNotEnabled
  else .next (s.putRemote r.id (s.restamp r))
/-- PEER_RESEND_TIMEOUT (18 R360): 500 µs without a response; remote loads are resent alike. -/
def execPeerResendTimeout (id : DWord) (s : State) : Host.Outcome State Fault Refusal :=
  match s.peers.remotes.find? (fun r => r.id == id && r.sent && !r.busy && s.passed (r.first + 2000 * r.age) 500) with
  | none => .fault .eventNotEnabled
  | some r => s.resend r
/-- PEER_BUSY_RETRY (18 R360). -/
def execPeerBusyRetry (id : DWord) (s : State) : Host.Outcome State Fault Refusal :=
  match s.peers.remotes.find? (fun r => r.id == id && r.sent && r.busy) with
  | none => .fault .eventNotEnabled
  | some r => s.resend r
/-- PEER_ACCESS_TIMEOUT (18 R361): 50 ms after the first transmission. -/
def execPeerAccessTimeout (id : DWord) (s : State) : Host.Outcome State Fault Refusal :=
  match s.peers.remotes.find? (fun r => r.id == id && r.sent && s.passed r.first 50000) with
  | none => .fault .eventNotEnabled
  | some r => s.peerFail r 3
/-- A request that is never sent completes at once as an UNREACHABLE answer (18 R358). -/
def State.neverSent (s : State) (id : DWord) : Host.Outcome State Fault Refusal :=
  match s.peers.remotes.find? (fun r => r.id == id && r.port == 255) with
  | none => .fault .eventNotEnabled
  | some r => s.peerFail r 0

end Sys2Proof.Machine
end

