-- ==== Sys2Proof/Machine/RasEvents.lean ====
section
/-! DEFINITION. Device steps of reliability and repair (19 R363 to R377): the Gleaner and its policies, row alerts, draining and
reset of chiplets, failures, checkpoints and restores. -/

namespace Sys2Proof.Machine
open Sys2Proof

/-! The Gleaner (19 R364 to R366). -/

/-- CETH and BOFF of RASCFG, CLEAN of SCRUBCFG (19 R364). -/
def State.ceth (s : State) : Nat := s.field 0x488 47 32
def State.boff (s : State) : Nat := s.field 0x488 25 16
def State.cleanRuns (s : State) : Nat := max 1 (s.field 0x480 23 16)
/-- WATCHX (19 R364). -/
def watchx : Nat := 16
/-- The sectors of a row of a stack that are not clean. -/
def State.rowEcc (s : State) (mc row : Nat) : List (Nat × Nat) :=
  s.mem.ecc.filter (fun e => (match paKind e.1 with | .first => true | _ => false) && homeMc e.1 == mc && Config.rowOf e.1 == row)
/-- What the Gleaner does with one sector: corrected data is written back, class 3 and 4 are reported. -/
def State.gleanSector (s : State) (mc : Nat) (e : Nat × Nat) : State :=
  let s := s.countSector e.1
  if e.2 == 1 then { s with mem := { s.mem with ecc := s.mem.ecc.filter (fun x => x.1 != e.1) } }
  else if e.2 == 3 || e.2 == 4 then s.ras6 0x09 (8 + mc) 0xFF e.2 e.1 0
  else s
/-- A watched row after a visit that found only class 0: it leaves once it has been clean long enough. -/
def State.cleanVisit (s : State) (mc row : Nat) : State :=
  { s with ras := { s.ras with watch := s.ras.watch.filterMap (fun (w : Watch) =>
      if w.mc == mc && w.row == row then (if s.cleanRuns ≤ w.clean + 1 then none else some { w with clean := w.clean + 1 }) else some w) } }
/-- One of the visits that the host asked for is used up (19 R366). -/
def State.useAdded (s : State) (mc row : Nat) : State :=
  { s with ras := { s.ras with added := s.ras.added.filterMap (fun (x : Nat × Nat × Nat) =>
      if x.1 == mc && x.2.1 == row then (if x.2.2 ≤ 1 then none else some (mc, row, x.2.2 - 1)) else some x) } }
/-- GLEANER_VISIT (19 R365, R366). -/
def execGleanerVisit (mc row : Nat) (s : State) : Host.Outcome State Fault Refusal :=
  if 12 ≤ mc || s.chipState (8 + mc) == 4 then .fault .eventNotEnabled
  else
    let es := s.rowEcc mc row
    let s := (es.foldl (fun (s : State) e => s.gleanSector mc e) (s.count (telBlock (8 + mc) + 0x28) 1)).useAdded mc row
    if s.fsplit 6 then .next (if es.any (fun e => e.2 == 1) then s.ras6 0x08 (8 + mc) 0xFF 1 0 1 else s)
    else if es.any (fun e => e.2 == 1 || e.2 == 3 || e.2 == 4) then .next s
    else .next (s.cleanVisit mc row)
/-- The CETH of a stack's running second: a change counts from the next one (19 R364); 1024 at reset. -/
def State.cethNow (s : State) (mc : Nat) : Nat := (alGet s.ras.ceth mc).getD 1024
/-- CE_SECOND_EXPIRE (19 R363, R364): the next second has the CETH that the register holds. -/
def execCeSecondExpire (mc : Nat) (s : State) : Host.Outcome State Fault Refusal :=
  if 12 ≤ mc then .fault .eventNotEnabled
  else
    let n := (alGet s.ras.ce mc).getD 0
    let t := s.cethNow mc
    let s := { s with ras := { s.ras with ce := alDel s.ras.ce mc, ceth := alSet s.ras.ceth mc s.ceth } }
    .next (if t != 0 && t < n then s.ras6 0x08 (8 + mc) 0xFF 1 0 n else s)
/-- WATCHADD (19 R366): only in host-assisted mode, at most 4096 rows of a stack. -/
def execWatchadd (pa : DWord) (s : State) : Host.Outcome State Fault Refusal :=
  s.regAnswers <|
  let a := pa.toNat
  let mc := homeMc a
  if !s.fsplit 6 || 0x12000000000 ≤ a || 4096 ≤ (s.ras.added.filter (fun x => x.1 == mc)).length then .next s
  else .next { s with ras := { s.ras with added := s.ras.added ++ [(mc, Config.rowOf a, watchx)] } }

/-! Row activation (19 R367). -/

/-- ROW_ALERT (19 R367), which the activation that reached RHTH has raised: the bank starts no request for BOFF × 4 ns, eight cycles each. -/
def execRowAlert (mc row : Nat) (s : State) : Host.Outcome State Fault Refusal :=
  if !s.ras.raised.contains (mc, row) then .fault .eventNotEnabled
  else
    let n := (alGet s.ras.alerts mc).getD 0 + 1
    let b := (mc, Config.bankOf row)
    let s := { s with ras := { s.ras with raised := s.ras.raised.erase (mc, row), alerts := alSet s.ras.alerts mc n,
                                          backoff := if s.ras.backoff.contains b then s.ras.backoff else b :: s.ras.backoff } }
    let s := (s.count (telBlock (8 + mc) + 0x38) 1).count (telBlock (8 + mc) + 0x40) (8 * s.boff)
    .next (if n == 257 then s.ras6 0x0A (8 + mc) 0xFF 0 row n else s)
/-- BACKOFF_END (19 R367). -/
def execBackoffEnd (mc bank : Nat) (s : State) : Host.Outcome State Fault Refusal :=
  if s.ras.backoff.contains (mc, bank) then .next { s with ras := { s.ras with backoff := s.ras.backoff.erase (mc, bank) } }
  else .fault .eventNotEnabled
/-- REFRESH_WINDOW (19 R367): every activation counter of the stack is cleared. -/
def execRefreshWindow (mc : Nat) (s : State) : Host.Outcome State Fault Refusal :=
  if 12 ≤ mc then .fault .eventNotEnabled
  else .next { s with ras := { s.ras with acts := s.ras.acts.filter (fun a => a.1.1 != mc), alerts := alDel s.ras.alerts mc } }

/-! Evicting for a drain or a checkpoint (19 R371, R376). -/

/-- A plot whose eviction has not begun can be saved now, with those that go with it. -/
def State.stoppable (s : State) (p : Plot) : Option State :=
  let u := s.victimUnit p
  if (s.plotGroups p.pid).any (fun g => g.stopping) || !u.all s.evictable then none else State.stopPlots u s
/-- Starts the eviction of every plot that can be saved. -/
def State.stopSome (s : State) (here : Plot → Bool) : State :=
  (s.plots.filter (fun p => p.st == .resident && here p)).foldl (fun (s : State) p => (s.stoppable (s.plot p.pid)).getD s) s
/-- Some plot is left whose eviction could begin. -/
def State.moreToStop (s : State) (here : Plot → Bool) : Bool :=
  s.plots.any (fun p => p.st == .resident && here p && (s.stoppable p).isSome)

/-! Chiplets (19 R370 to R373). -/

/-- CHIPCTL of a port. -/
def chipctl (p : Nat) : Nat := 0x400 + 4 * p
/-- A chiplet changes state: SUB 0x0B. -/
def State.setChip (s : State) (p st : Nat) : State := (s.setField (chipctl p) 6 4 st).ras6 0x0B p 0xFF st 0 0
/-- A command is refused. -/
def State.refuseChip (s : State) (p : Nat) : State := s.setField (chipctl p) 7 7 1
/-- A checkpoint or restore is in progress. -/
def State.ckBusy (s : State) : Bool := s.field 0x4A0 1 0 == 1 || s.field 0x4A0 1 0 == 3
def onChiplet (port : Nat) (p : Plot) : Bool := chipletOf p.core == port
/-- The peer ports of a link chiplet go down, changes of ECC mode end, and requests are routed afresh (19 R372). -/
def State.portsDown (s : State) (lc : Nat) : State :=
  let ps := (List.range 4).map (fun i => 4 * lc + i)
  (ps.foldl (fun (s : State) p => if s.portState p == 0 then s else (s.setPort p 0).dropChange p) s).routeAfresh ps.contains
/-- The channels of a chiplet's copy engines that run. -/
def State.runningOn (s : State) (port : Nat) : List HwChan := s.chans.filter (fun c => c.st == 1 && Config.enginePort (c.h / 64) == port)
/-- A chain between two records halts (19 R372): CSTAT.STATE is 2 and the next record is still owned by the engine. -/
def State.haltIdle (s : State) (port : Nat) : State :=
  ((s.runningOn port).filter (fun c => c.record.isNone)).foldl (fun (s : State) c => s.chainHold c.h) s
/-- CHIP_DRAIN (19 R370 to R372). -/
def execChipDrain (port : Nat) (s : State) : Host.Outcome State Fault Refusal :=
  s.regAnswers <|
  if 22 ≤ port then .fault .eventNotEnabled
  else if s.chipState port != 0 || s.ckBusy || (8 ≤ port && port < 20) || (port == 20 && Config.isC) ||
      (port == 20 && s.chipState 21 != 0) || (port == 21 && s.chipState 20 != 0) then .next (s.refuseChip port)
  else
    let s := s.setChip port 1
    if port < 8 then .next (s.stopSome (onChiplet port)) else .next ((s.portsDown (port - 20)).haltIdle port)
/-- The windrow stages of a compute chiplet hold nothing: its cluster routers and its headland (19 R371). -/
def State.stagesIdle (s : State) (port : Nat) : Bool :=
  ((128 + port) :: (List.range 16).map (fun i => 16 * port + i)).all (fun n => let st := s.stage n; st.arriving.isEmpty && st.outq.isEmpty && st.wb.isEmpty)
/-- Work of a drain that goes on. -/
def State.drainGoesOn (s : State) (port : Nat) : Bool :=
  if port < 8 then s.moreToStop (onChiplet port) else (s.runningOn port).any (fun c => c.record.isNone)
/-- The work of a drain is done. -/
def State.drainDone (s : State) (port : Nat) : Bool :=
  if port < 8 then !s.plots.any (fun p => p.st == .resident && onChiplet port p) && s.stagesIdle port
  else (s.runningOn port).isEmpty
/-- The colours to and from a compute chiplet are gated, or open again (19 R371). -/
def State.setGate (s : State) (port : Nat) (on : Bool) : State :=
  { s with ras := { s.ras with gates := (if on then [port] else []) ++ s.ras.gates.filter (fun p => p != port) } }
/-- CHIP_DRAIN_COMPLETE (19 R370 to R372): what can go on of the drain goes on; once all of it is done the chiplet is DRAINED, a compute
chiplet with its colours gated. -/
def execChipDrainComplete (port : Nat) (s : State) : Host.Outcome State Fault Refusal :=
  if 22 ≤ port || s.chipState port != 1 then .fault .eventNotEnabled
  else if s.drainGoesOn port then .next (if port < 8 then s.stopSome (onChiplet port) else s.haltIdle port)
  else if s.drainDone port then .next ((s.setChip port 2).setGate port (port < 8))
  else .fault .eventNotEnabled
/-- The Granaries of a compute chiplet are cleared (19 R371). -/
def State.clearGranaries (s : State) (port : Nat) : State :=
  { s with clusters := s.clusters.map (fun (c : Cluster) => if c.id / 16 == port then { c with gran := [], gtie := [] } else c) }
/-- CHIP_RESET (19 R370, R371). -/
def execChipReset (port : Nat) (s : State) : Host.Outcome State Fault Refusal :=
  s.regAnswers <|
  if 22 ≤ port then .fault .eventNotEnabled
  else if (8 ≤ port && port < 20) || !(s.chipState port == 2 || s.chipState port == 4) || s.ckBusy then .next (s.refuseChip port)
  else .next ((s.setChip port 3).clearGranaries port)
/-- CHIP_SELFTEST_COMPLETE (19 R370). -/
def execChipSelftestComplete (port : Nat) (pass : Bool) (s : State) : Host.Outcome State Fault Refusal :=
  if 22 ≤ port || s.chipState port != 3 then .fault .eventNotEnabled else .next (s.setChip port (if pass then 2 else 4))
/-- CHIP_RETURN (19 R370). -/
def execChipReturn (port : Nat) (s : State) : Host.Outcome State Fault Refusal :=
  s.regAnswers <|
  if 22 ≤ port then .fault .eventNotEnabled
  else if s.chipState port != 2 || s.ckBusy then .next (s.refuseChip port)
  else .next ((s.setChip port 0).setGate port false)
/-- Every chain of a failed chiplet's engines halts with status DATA (19 R373): a record in progress ends with it, and a chain between
two records at its next one. -/
def State.failChains (s : State) (port : Nat) : State :=
  (s.runningOn port).foldl (fun (s : State) c => s.updChan c.h (fun (x : HwChan) =>
    { x with record := x.record.map (fun (r : CopyRec) => { r with status := 6, fva := none }) })) s
/-- The monitors of a failed memory chiplet wake, and the reloads of their waiters fail (19 R373). -/
def State.failMonitors (s : State) (mc : Nat) : State :=
  let ms := s.mem.monitors.filter (fun m => m.mc == mc)
  let s := { s with mem := { s.mem with monitors := s.mem.monitors.filter (fun m => m.mc != mc) } }
  ms.foldl (fun (s : State) m => match m.who with
    | .thread gid _ => s.consume gid 0x31 4 (some ({ space := if m.chip then .chip else .glob, addr := 8 * m.word }, 8))
    | .queue _ => s) s
/-- CHIPLET_FAIL (19 R370, R373). -/
def execChipletFail (port : Nat) (s : State) : Host.Outcome State Fault Refusal :=
  if 22 ≤ port || 2 ≤ s.chipState port then .fault .eventNotEnabled
  else
    let s := s.setChip port 4
    if port < 8 then
      .next ((s.plots.filter (fun p => p.st == .resident && onChiplet port p)).foldl (fun (s : State) p => s.kill p.lid 6) s)
    else if port < 20 then .next ((s.failMonitors (port - 8)).failChains port)
    else .next ((s.portsDown (port - 20)).failChains port)

/-! Accesses that have waited 50 ms for a link chiplet's memory (19 R372). -/

/-- The state as if both link chiplets served. -/
def State.tierUp (s : State) : State := (s.setField (chipctl 20) 6 4 0).setField (chipctl 21) 6 4 0
/-- A step waits for a link chiplet's memory: it could be taken if both served. -/
def State.tierHolds (s : State) (f : State → Host.Outcome State Fault Refusal) : Bool :=
  (match f s with | .next _ => false | _ => true) && (match f s.tierUp with | .next _ => true | _ => false)
/-- The head of a queue finishes with FETCH, since a read of the front end for it has waited too long; a CTRL that it cannot reach either
stays as it is. -/
def State.queueOverdue (s : State) (q : Nat) : Host.Outcome State Fault Refusal :=
  if s.tierHolds (execLaunchEntryFetch q) then .next (s.qadvance q)
  else if s.tierHolds (execLaunchAdmit q) then
    match s.fetched q with
    | some l => .next ((s.unfetch q).reject q l.ctrl 8 l.ctx)
    | none => .fault .eventNotEnabled
  else .fault .eventNotEnabled
/-- The end of a launch, whose completion add or CTRL has waited too long. -/
def State.completeOverdue (s : State) (lid : Nat) : Host.Outcome State Fault Refusal :=
  match s.launches.find? (fun l => l.lid == lid) with
  | none => .fault .eventNotEnabled
  | some l =>
    if !s.tierHolds (execLaunchComplete lid) then .fault .eventNotEnabled
    else
      let ts := tmax s.fe.stamp (l.maxStamp + 1)
      if l.failing != 0 then .next (s.finishLaunch l l.failing ts)
      else if l.caddr == 0 then .next (s.finishLaunch l 1 ts)
      else
        match s.completionAdd l ts with
        | .ok (s', some b) => .next ({ s' with fe := { s'.fe with stamp := b } }.finishLaunch l 1 (b + 1))
        | .ok (s', none) => .next (s'.finishLaunch l 10 ts)
        | _ => .next (s.finishLaunch l 10 ts)
/-- The targets of a group's accesses of one identifier that have not performed: loads, store-class words, operations, MMAs whose B is not
read, and for identifier 0 the reloads of its woken waits. -/
def State.unperformed (s : State) (g : Group) (rid : Nat) : List Target :=
  (match g.load rid with | some r => (r.parts.filter (fun (p : LPart) => p.st.isUnsent)).map (·.tgt) | none => []) ++
  (match g.holdRec rid with | some h => (h.parts.filter (fun (p : SPart) => p.st == .unsent)).map (·.tgt) | none => []) ++
  (g.ops.filter (fun o => o.id == rid && !o.done)).flatMap (fun o => o.pages.map (fun p => ({ space := .glob, addr := leafTranslate p.1 p.2.toNat } : Target))) ++
  ((s.clusters.flatMap (fun c => c.arrivals ++ c.dispatch ++ c.sheaves.flatMap (·.members))).filter (fun m => m.gid == g.gid && m.id == rid && m.global)).map (·.btgt) ++
  (if rid != 0 then [] else g.arch.threads.filterMap (fun t => match t.wait with | some (.addr w) => (if w.woken then some w.tgt else none) | _ => none))
/-- SECOND_TIER_ACCESS_TIMEOUT (19 R372): an access of a group consumes uncorrectable data. Group 0 stands for the other agents: the queue of an
entry below 512, a copy channel from 1024 on, and a launch that ends from 8192 on (log 70). -/
def execSecondTierAccessTimeout (gid rid : Nat) (s : State) : Host.Outcome State Fault Refusal :=
  if gid == 0 then
    (if rid < 512 then s.queueOverdue rid
     else if rid < 1024 then .fault .eventNotEnabled
     else if rid < 8192 then s.copyOverdue (rid - 1024)
     else s.completeOverdue (rid - 8192))
  else
    match s.group gid with
    | none => .fault .eventNotEnabled
    | some g =>
      match (s.unperformed g rid).find? (fun t => s.tierWaits t) with
      | some t => .next (s.consume gid 0x31 4 (some (t, 0)))
      | none => .fault .eventNotEnabled

/-! Checkpoints (19 R375 to R377). -/

/-- The halves of the retained region keep the rules of 19 R375. -/
def State.halvesOk (s : State) : Bool :=
  let n := 577 * 2 ^ 30
  let ok (a : Nat) : Bool := a % 2 ^ 30 == 0 && (match paKind a, paKind (a + n - 1) with
    | .second i, .second j => i == j && (List.range 2308).all (fun k => populated (a + k * 2 ^ 28))
    | _, _ => false)
  let a := s.regN 0x490
  let b := s.regN 0x498
  a != 0 && ok a && ok b && (a + n ≤ b || b + n ≤ a)
def State.setCk (s : State) (st : Nat) : State := s.setField 0x4A0 1 0 st
/-- CKPT (19 R376): admission stops and every resident plot is evicted. -/
def execCkpt (s : State) : Host.Outcome State Fault Refusal :=
  let c := s.takeCmd
  let s := c.2
  if !s.halvesOk || s.ckBusy || (List.range 22).any (fun p => s.chipState p == 1 || s.chipState p == 3) then .next (s.reply c.1 1 [])
  else
    let s := { s with fe := { s.fe with stopAdmit := true }, ckpt := { s.ckpt with replyTo := c.1 } }
    .next ((s.setCk 1).stopSome (fun _ => true))
/-- Work in flight that a checkpoint waits for (19 R376). -/
def State.ckWaits (s : State) : Bool :=
  s.plots.any (fun p => p.st == .resident) || s.chans.any (fun c => c.st == 1) || s.streams.any (fun x => !x.boundary.isEmpty || x.owed.isSome) ||
  s.peers.remotes.any (fun r => r.kind != .load) || !s.mem.stages.all (fun x => x.arriving.isEmpty && x.outq.isEmpty && x.wb.isEmpty)
/-- What a half of the image holds of the first tier, and of the chip scratchpad behind it (19 R375). -/
def imageTier : Nat := 576 * 2 ^ 30
def imageChip : Nat := 192 * 2 ^ 20
/-- The parity of h of an address's granule: the half in which the image keeps it (19 R375, 02 R69). -/
def imageHalf (pa : Nat) : Nat := let g := pa >>> 8; (g ^^^ (g >>> 11) ^^^ (g >>> 22)) % 2
/-- RETBASE of a half. -/
def State.retbase (s : State) (half : Nat) : Nat := s.regN (0x490 + 8 * half)
/-- Where the image keeps a byte of the first tier: of two granules that follow each other each half keeps one (19 R375; log 71). -/
def State.imageAt (s : State) (pa : Nat) : Nat := s.retbase (imageHalf pa) + pa / 512 * 256 + pa % 256
/-- Where it keeps a byte of the chip scratchpad (log 71). -/
def State.chipImageAt (s : State) (a : Nat) : Nat := s.retbase (a / imageChip) + imageTier + a % imageChip
/-- The address lies in the bytes of the two memory spaces in a half. -/
def State.inImage (s : State) (pa : Nat) : Bool := [0, 1].any (fun h => s.retbase h ≤ pa && pa < s.retbase h + imageTier + imageChip)
/-- Writes both memory spaces into the halves (19 R375, R376): what stood there is gone, with its L1 copies. -/
def State.writeImage (s : State) : State :=
  let m : Memory := ⟨s.mem.glob.cells.filter (fun c => !s.inImage c.1)⟩
  let m := (s.mem.glob.cells.filter (fun c => c.1 < 0x12000000000)).foldl (fun (m : Memory) c => m.write (s.imageAt c.1) c.2) m
  let m := s.mem.chip.cells.foldl (fun (m : Memory) c => m.write (s.chipImageAt c.1) c.2) m
  { s with mem := { s.mem with glob := m, ecc := s.mem.ecc.filter (fun e => !s.inImage e.1), poison := s.mem.poison.filter (fun a => !s.inImage a),
                               l1 := s.mem.l1.filter (fun c => !s.inImage (128 * c.line)) } }
/-- The state of the launch front end that the image holds: admitted launches with their plots and groups, QHEAD of the queues that have
one, and AHEAD of the streams (19 R376). -/
def State.imageState (s : State) : Ckpt :=
  let ls := s.launches.filter (fun l => l.st == .admitted)
  let lids := ls.map (·.lid)
  let qs := (List.range 512).filter (fun q => s.qhead q != 0)
  ⟨qs.map (fun q => (q, s.reg (qBlock q + 16))), (List.range 64).map (fun n => s.mem.glob.num (s.regN 0x28 + 128 * n + 44) 4), ls,
   s.plots.filter (fun p => lids.contains p.lid), s.groups.filter (fun g => lids.contains g.lid), [], [], s.ckpt.replyTo, none⟩
/-- CHECKPOINT_WRITE_COMPLETE (19 R376): evictions that can begin begin; once nothing is in flight the image is taken, the dirty map
is cleared and admission resumes. -/
def execCheckpointWriteComplete (s : State) : Host.Outcome State Fault Refusal :=
  if s.field 0x4A0 1 0 != 1 then .fault .eventNotEnabled
  else if s.moreToStop (fun _ => true) then .next (s.stopSome (fun _ => true))
  else if s.ckWaits then .fault .eventNotEnabled
  else
    let s := s.flush
    let k := s.imageState
    let s := { s.writeImage with ckpt := k, fe := { s.fe with stopAdmit := false } }
    let s := (s.setCk 2).setField 0x4A0 63 32 ((s.field 0x4A0 63 32 + 1) % 2 ^ 32)
    .next (s.reply k.replyTo 0 [])
/-- The launch of an entry in the image. -/
def State.imaged (s : State) (q entry : Nat) : Option Launch := s.ckpt.launches.find? (fun l => l.queue == q && l.entry == entry)
/-- A range of a restore lies in first tier, in whole granules of 2 MiB. -/
def rangeFits (r : Nat × Nat) : Bool := r.1 % 2 ^ 21 == 0 && r.2 % 2 ^ 21 == 0 && r.1 + r.2 ≤ 0x12000000000
/-- RESTORE (19 R377): refused unless the entry's launch was admitted at the image and has since FAILED or FAULTED. -/
def execRestore (q entry : Nat) (ranges : List (Nat × Nat)) (s : State) : Host.Outcome State Fault Refusal :=
  let c := s.takeCmd
  let s := c.2
  let failed := s.ckpt.ended.any (fun e => e.1 == q && e.2.1 == entry && (e.2.2 == 6 || e.2.2 == 9))
  let running := s.launches.any (fun l => l.queue == q && l.entry == entry)
  if s.field 0x4A0 1 0 != 2 || (s.imaged q entry).isNone || !failed || running || 4096 < ranges.length ||
      !ranges.all rangeFits then .next (s.reply c.1 1 [])
  else .next ({ s with ckpt := { s.ckpt with replyTo := c.1, restore := some (q, entry, ranges) } }.setCk 3)
/-- A granule is copied back from the image as agent writes of the front end (19 R377, 03 R96). -/
def State.restoreGranule (s : State) (g : Nat) : State :=
  let w := s.agentWrite 0 s.fe.stamp (g * 2 ^ 21) ((List.range (2 ^ 21)).map (fun i => s.mem.glob.read (s.imageAt (g * 2 ^ 21 + i))))
  { w.1 with fe := { w.1.fe with stamp := w.2 } }
/-- The launch returns with its plots and groups as they were saved (19 R377). -/
def State.readmit (s : State) (l : Launch) : State :=
  let ctrl := l.ctrl - bits l.ctrl 4 0 + 1
  let s := if populated (s.entryPa l.queue l.entry) then
      let w := s.agentWrite l.ctx s.fe.stamp (s.entryPa l.queue l.entry) (bytesOf 4 ctrl)
      { w.1 with fe := { w.1.fe with stamp := w.2 } }
    else s
  let s := { s with launches := s.launches ++ [l], plots := s.plots ++ s.ckpt.plots.filter (fun (p : Plot) => p.lid == l.lid),
                    groups := s.groups ++ s.ckpt.groups.filter (fun (g : Group) => g.lid == l.lid) }
  s.setField (qBlock l.queue + 20) 2 2 1
/-- RESTORE_COMPLETE (19 R377). -/
def execRestoreComplete (s : State) : Host.Outcome State Fault Refusal :=
  match s.ckpt.restore with
  | none => .fault .eventNotEnabled
  | some (q, entry, rs) =>
    match s.imaged q entry with
    | none => .fault .eventNotEnabled
    | some l =>
      let listed (g : Nat) : Bool := rs.any (fun r => r.1 ≤ g * 2 ^ 21 && g * 2 ^ 21 < r.1 + r.2)
      let due := s.ckpt.dirty.filter listed
      let s := due.foldl State.restoreGranule s
      let s := { s with ckpt := { s.ckpt with dirty := s.ckpt.dirty.filter (fun g => !listed g), restore := none,
                                              ended := s.ckpt.ended.filter (fun e => !(e.1 == q && e.2.1 == entry)) } }
      .next (((s.readmit l).setCk 2).reply s.ckpt.replyTo 0 [])

end Sys2Proof.Machine
end

