-- ==== Sys2Proof/Machine/Registers.lean ====
section
/-! DEFINITION. REGISTER_WRITE (00 R8): the host's aligned 4- and 8-byte writes of the device register block (16 R299). A register
with a behaviour of its own acts as the device step of that behaviour. -/

namespace Sys2Proof.Machine
open Sys2Proof

/-- The registers of 64 bits, by offset (16 R299, R304; 17 R325, R328; 18 R346, R358; 19 R364, R366, R368, R375; 10 R231). -/
def wideReg (off : Nat) : Bool :=
  off == 0x8 || off == 0x18 || off == 0x28 || off == 0x30 || (0x40 ≤ off && off < 0x80) || off == 0x300 || off == 0x308 || off == 0x488 ||
  off == 0x490 || off == 0x498 || off == 0x4A0 || off == 0x4B0 || (0x800 ≤ off && off < 0xA00) ||
  (0x10000 ≤ off && off < 0x14000 && off % 32 == 0) || off == 0x30800 || off == 0x30808 || (0x31000 ≤ off && off < 0x31200) ||
  (0x21000 ≤ off && off < 0x22E40 && off % 16 == 0) || (0x40000 ≤ off && off < 0x40000 + 0x400 * 22) ||
  (0x80000 ≤ off && off < 0xA0000 && (off % 32 == 0 || off % 32 == 16))
/-- Writes the bits of a mask. -/
def State.setMask (s : State) (off mask v : Nat) : State :=
  s.setReg off (BitVec.ofNat 64 ((s.regN off &&& (2 ^ 64 - 1 - mask)) ||| (v &&& mask)))
/-- A write of 1 clears the bit (00 R8). -/
def State.clearOnes (s : State) (off b v : Nat) : State := if bit v b then s.setField off b b 0 else s
/-- Another device step that the write is. -/
def State.via (s : State) (r : State → Host.Outcome State Fault Refusal) : State :=
  match r s with
  | .next s' => s'
  | _ => s
/-- QBASE and QCFG take a write only while the queue is disabled and idle (16 R304). -/
def State.queueOpen (s : State) (q : Nat) : Bool := !s.qen q && !s.qbusy q

/-- What a register reads as (00 R8): its bits, with those that stand elsewhere in the state: the poison list (17 R328), the copy channels
(10 R231), the least values of SCRUBCFG and RASCFG (19 R364), and zeros for what is write-only. The flits that a port retains are a free
number, none while it is DOWN (18 R359; log 93). -/
def State.regRead (s : State) (off : Nat) : DWord :=
  if off == 0x20 || off == 0x4B0 then 0
  else if off == 0x80 then BitVec.ofNat 64 (s.mem.poison.length % 128 + s.field 0x80 7 7 * 128)
  else if off == 0x480 then
    let raised (lo hi v : Nat) (x : Nat) : Nat := if bits x hi lo == 0 then x + v * 2 ^ lo else x
    BitVec.ofNat 64 (raised 16 23 1 (raised 0 7 1 (s.regN off)))
  else if off == 0x488 then BitVec.ofNat 64 (s.regN off - bits (s.regN off) 15 0 + s.rhth)
  else if 0x30000 ≤ off && off < 0x30200 && off % 64 == 8 then
    (if s.portState ((off - 0x30000) / 64) == 0 then 0
     else BitVec.ofNat 64 (min 4096 (Config.retryFlits ((off - 0x30000) / 64) s.sched.free).toNat))
  else if 0x800 ≤ off && off < 0xA00 then BitVec.ofNat 64 (s.mem.poison.getD ((off - 0x800) / 8) 0)
  else if 0x80000 ≤ off && off < 0xA0000 then
    let c := s.chan ((off - 0x80000) / 32)
    (match off % 32 with
     | 8 => BitVec.ofNat 64 c.cstat
     | 16 => c.last
     | _ => 0)
  else s.reg off

/-- CLWIN of a chiplet: every field of those written is a write of its own (16 R299, R300). -/
def State.writeClwin (s : State) (c v : Nat) (fields : List Nat) : State :=
  fields.foldl (fun (s : State) m => s.via (execClwinWrite (16 * c + m) (bits v (4 * m + 3) (4 * m)))) s
/-- A write of a register of 64 bits. -/
def State.write64 (s : State) (off v : Nat) : State :=
  let put : State := s.setReg off (BitVec.ofNat 64 v)
  if off == 0x8 || off == 0x28 || off == 0x30800 || off == 0x30808 then put
  else if off == 0x18 then s.via (execHsenWrite (BitVec.ofNat 64 v))
  else if off == 0x30 then s.setReg off (BitVec.ofNat 64 (v % 2 ^ 56))
  else if 0x40 ≤ off && off < 0x80 then s.writeClwin ((off - 0x40) / 8) v (List.range 16)
  else if off == 0x300 || off == 0x308 then (if bit (s.regN 0x310) 31 then s else put)
  else if off == 0x488 then s.setMask off 0xFFFF_03FF_FFFF v
  else if off == 0x490 || off == 0x498 then (if s.ckBusy then s else put)
  else if off == 0x4B0 then s.via (execWatchadd (BitVec.ofNat 64 v))
  else if 0x10000 ≤ off && off < 0x14000 then (if s.queueOpen ((off - 0x10000) / 32) then put else s)
  else if 0x31000 < off && off < 0x31200 then s.setMask off 0x1FFFF v
  else if 0x80000 ≤ off && off < 0xA0000 && off % 32 == 0 then s.via (execCheadWrite ((off - 0x80000) / 32) (BitVec.ofNat 64 v))
  else s

/-- CTXSYNC (16 R299, R301). -/
def State.writeCtxsync (s : State) (v : Nat) : State :=
  let s := (s.setMask 0x10 0x2FFF v).clearOnes 0x10 14 v
  if !bit v 12 then s
  else if bit v 13 then s.via (execContextLoadInvg (v % 4096)) else s.via (execContextLoad (v % 4096))
/-- TLBCMD (17 R325): SCOPE 3 is refused; a write that sets GO while GO reads 1 is ignored. ERR goes by a write of 1 alone (log 88). -/
def State.writeTlbcmd (s : State) (v : Nat) : State :=
  let go := bit v 16
  if go && bit (s.regN 0x38) 16 then s
  else
    let s := (s.setMask 0x38 0x3FFF v).clearOnes 0x38 17 v
    if !go then s
    else if bits v 13 12 == 3 then s.setField 0x38 17 17 1
    else s.shootdown (bits v 13 12) (v % 4096) (s.regN 0x30)
/-- CHIPCTL (19 R370). -/
def State.writeChipctl (s : State) (port v : Nat) : State :=
  let s := s.clearOnes (chipctl port) 7 v
  match v % 8 with
  | 1 => s.via (execChipDrain port)
  | 2 => s.via (execChipReset port)
  | 3 => s.via (execChipReturn port)
  | _ => s
/-- PCTL (18 R359). -/
def State.writePctl (s : State) (port v : Nat) : State :=
  let s := (s.setMask (pctl port) 0xC00 v).clearOnes (pctl port) 13 v
  match v % 8 with
  | 1 => s.via (execPeerQuiesce port)
  | 2 => s.via (execPeerResume port)
  | 3 => s.via (execPeerEccPropose port)
  | _ => s
/-- CMAP (18 R353, R354): ERR is W1C; a reserved bit that is set refuses the write like MODE 3 does. -/
def State.writeCmap (s : State) (off v : Nat) : State :=
  let i := (off - 0x20000) / 4
  let a := i / 22
  let b := i % 22
  if !isPair a b then s
  else
    let s := s.clearOnes off 19 v
    if bit v 3 || bits v 15 9 != 0 || bits v 31 20 != 0 then s.setField off 19 19 1 else s.cmapWrite a b (v % 4) (bit v 2) (bits v 8 4)
/-- The registers of a queue block after QBASE (16 R304). -/
def State.writeQueue (s : State) (off v : Nat) : State :=
  let q := (off - 0x10000) / 32
  match off % 32 with
  | 8 =>
    -- a SIZE outside 4 to 16 reads as 4
    let v := if 4 ≤ v % 32 && v % 32 ≤ 16 then v else v - v % 32 + 4
    if s.queueOpen q then s.setMask off 0xFFFF001F v else s
  | 12 => s.via (execQtailDoorbell q (BitVec.ofNat 32 v))
  | 20 =>
    let s := s.via (execQueueEnable q (bit v 0))
    if bit v 1 then s.via (execQueueCancel q) else s
  | _ => s
/-- With FSPLIT.SCRUB set the hardware keeps no watch set (19 R366). -/
def State.keepWatch (s : State) : State := if s.fsplit 6 then { s with ras := { s.ras with watch := [] } } else s
/-- A write waits: a context load whose tables, or a cancel whose entries, the front end does not reach (02 R71; log 91). -/
def State.writeWaits (s : State) (off v : Nat) : Bool :=
  (off == 0x10 && bit v 12 && !s.contextServes (v % 4096)) ||
  (0x10000 ≤ off && off < 0x14000 && off % 32 == 20 && bit v 1 && !s.cancelServes ((off - 0x10000) / 32))
/-- A write of a register of 32 bits. -/
def State.write32 (s : State) (off v : Nat) : State :=
  if off == 0 then (s.setMask 0 0x7F v).keepWatch
  else if off == 0x10 then s.writeCtxsync v
  else if off == 0x20 then s.via (execHskick (v % 64))
  else if off == 0x38 then s.writeTlbcmd v
  else if off == 0x80 then s.clearOnes 0x80 7 v
  else if 0x100 ≤ off && off < 0x140 then s.setMask off 0xFFFF v
  else if off == 0x200 then s.setMask off 0x1FE0 v
  else if off == 0x208 then s.setMask off 0xFFFFFFFF v
  else if off == 0x218 then s.setMask off 0xF v
  else if off == 0x310 then (if bit (s.regN 0x310) 31 then s else s.setMask off 0x87FF1F1F v)
  else if off == 0x31C then s.via (execEvheadWrite (BitVec.ofNat 32 v))
  else if off == 0x320 then s.via (execMailboxDoorbell (BitVec.ofNat 32 v) [])
  else if 0x400 ≤ off && off < 0x458 then s.writeChipctl ((off - 0x400) / 4) v
  else if off == 0x480 then s.setMask off 0xFF00FF v
  else if off == 0x4A8 then (if bit v 0 then s.via execTelsnap else s)
  else if 0x10000 ≤ off && off < 0x14000 then s.writeQueue off v
  else if 0x20000 ≤ off && off < 0x20790 then s.writeCmap off v
  else if 0x30000 ≤ off && off < 0x30200 && off % 64 == 0 then s.writePctl ((off - 0x30000) / 64) v
  else if 0x80000 ≤ off && off < 0xA0000 then
    let h := (off - 0x80000) / 32
    (match off % 32 with
     | 8 => if bit v 5 then s.updChan h (fun c => { c with refused := false }) else s
     | 12 => if bit v 0 then s.cctlGo h else s
     | _ => s)
  else s
/-- REGISTER_WRITE (00 R8, 16 R299): an access of 4 bytes to a register of 64 bits replaces that half, one of 8 bytes to two registers
of 32 bits writes both, lower first. A write of CMTAIL that would take records is MAILBOX_DOORBELL, which brings them. With
DEVSTAT.SECFAIL = 1 only the mailbox answers (18 R348). -/
def execRegisterWrite (off width : Nat) (value : DWord) (s : State) : Host.Outcome State Fault Refusal :=
  let v := value.toNat
  if !(width == 4 || width == 8) || off % width != 0 || 2 ^ 24 < off + width || s.inS4 || (width == 4 && 2 ^ 32 ≤ v) ||
      (off == 0x320 && bit (s.regN 0x310) 31) then .fault .eventNotEnabled
  else if bit (s.regN 0x200) 1 && !(0x300 ≤ off && off < 0x328) then .next s
  else if s.writeWaits off (v % 2 ^ 32) || (width == 8 && s.writeWaits (off + 4) (v / 2 ^ 32)) then .fault .eventNotEnabled
  else
    let base := off / 8 * 8
    if width == 4 && 0x40 ≤ off && off < 0x80 then
      let hi := off % 8 != 0
      .next (s.writeClwin ((off - 0x40) / 8) (if hi then v * 2 ^ 32 else v) ((List.range 8).map (fun m => if hi then m + 8 else m)))
    else if wideReg base then
      if width == 8 then .next (s.write64 base v)
      else
        let old := if base == 0x4B0 || 0x80000 ≤ base then 0 else s.regN base
        .next (s.write64 base (if off % 8 == 0 then old / 2 ^ 32 * 2 ^ 32 + v else old % 2 ^ 32 + v * 2 ^ 32))
    else if width == 4 then .next (s.write32 off v)
    else .next ((s.write32 off (v % 2 ^ 32)).write32 (off + 4) (v / 2 ^ 32))

end Sys2Proof.Machine
end

