-- ==== Sys2Proof/Machine/Cycle.lean ====
section
/-! DEFINITION. The model's schedule (log 2): the device steps that the device takes of itself, which of them comes next, the turns
of a cycle, and a state in which one given instruction is fetched next (log 12). -/

namespace Sys2Proof.Machine
open Sys2Proof

/-! Device steps that are due. -/

/-- What a due step does. -/
def DevStep.run (d : DevStep) (s : State) : Host.Outcome State Fault Refusal :=
  match d with
  | .tbaseAdvance => execTbaseAdvance s
  | .resume gid => execResume gid s
  | .handler gid => execHandler gid s
  | .kill gid => execKill gid s
  | .translationReply ctx va reply => execTranslationReply ctx va reply s
  | .victimReply pids => execVictimReply pids s
  | .quote nonce => execQuote nonce s
  | .fwstage image ok => execFwstage image ok s
  | .enterS4 => execEnterS4 s
  | .ckpt => execCkpt s
  | .restore q entry ranges => execRestore q entry ranges s
  | .park gid => execPark gid s
  | .stallRecheck core => execStallRecheck core s
  | .wakeQueueSeat core => execWakeQueueSeat core s
  | .wakeQueueAging gid => execWakeQueueAging gid s
  | .streamDeadlock gid => execStreamDeadlock gid s
  | .groupEnd gid => execGroupEnd gid s
  | .homeLoad gid rid part => execHomeLoad gid rid part s
  | .homeStore gid rid part => execHomeStore gid rid part s
  | .homeAtomic mc => execHomeAtomic mc s
  | .discardSliceComplete id mc => execDiscardSliceComplete id mc s
  | .loadReply gid rid part => execLoadReply gid rid part s
  | .loadValidation gid rid => execLoadValidation gid rid s
  | .storeStampReturn gid rid part => execStoreStampReturn gid rid part s
  | .windrowArrival stage port => execWindrowArrival stage port s
  | .winnowSplit stage => execWinnowSplit stage s
  | .drillLoadValidation gid rid => execDrillLoadValidation gid rid s
  | .gatherEntryFill gid rid => execGatherEntryFill gid rid s
  | .engineOpRetire gid cls => execEngineOpRetire gid cls s
  | .engineTake cluster => execEngineTake cluster s
  | .sheafDeadline cluster sheaf => execSheafDeadline cluster sheaf s
  | .sheafOperandsRead cluster sheaf => execSheafOperandsRead cluster sheaf s
  | .groupEvict gid => execGroupEvict gid s
  | .plotPlace => execPlotPlace s
  | .plotResume pid => execPlotResume pid s
  | .uncorrectableConsumption gid rid => execUncorrectableConsumption gid rid s
  | .rollback pid => execRollback pid s
  | .channelSlotArrive lid ch => execChannelSlotArrive lid ch s
  | .channelCreditArrive lid ch => execChannelCreditArrive lid ch s
  | .copyRecordFetch h => execCopyRecordFetch h s
  | .copyRecordComplete h => execCopyRecordComplete h s
  | .copyRecordFail h => execCopyRecordFail h s
  | .launchEntryFetch q => execLaunchEntryFetch q s
  | .launchAdmit q => execLaunchAdmit q s
  | .launchComplete lid => execLaunchComplete lid s
  | .clwinApply cluster => execClwinApply cluster s
  | .haywardStepBoundary stream => execHaywardStepBoundary stream s
  | .tlbShootdownComplete => execTlbShootdownComplete s
  | .checkpointWriteComplete => execCheckpointWriteComplete s
  | .restoreComplete => execRestoreComplete s
  | .cmapChangeComplete src dst => execCmapChangeComplete src dst s
  | .chipDrainComplete port => execChipDrainComplete port s
  | .peerUnreachable id => s.neverSent id
  | .rowAlert mc row => execRowAlert mc row s

/-- The indices of a list. -/
def indices {α : Type} (l : List α) : List Nat := List.range l.length
/-- Steps of a group's loads. -/
def LoadRec.steps (r : LoadRec) (gid : Nat) : List DevStep :=
  (indices r.parts).flatMap (fun i => ([.homeLoad gid r.id i, .loadReply gid r.id i] : List DevStep)) ++
    ([.loadValidation gid r.id, .drillLoadValidation gid r.id, .gatherEntryFill gid r.op, .uncorrectableConsumption gid r.id] : List DevStep)
/-- Steps of a store-class word. -/
def HoldRec.steps (h : HoldRec) (gid : Nat) : List DevStep :=
  (if h.parts.isEmpty then [DevStep.storeStampReturn gid h.id 0] else []) ++
  (indices h.parts).flatMap (fun i => ([.homeStore gid h.id i, .storeStampReturn gid h.id i] : List DevStep)) ++
    ([.uncorrectableConsumption gid h.id] : List DevStep)
/-- Steps of the waits of a group that have been woken (09 R203, R206). -/
def Group.wakeSteps (g : Group) : List DevStep :=
  (indices g.arch.threads).flatMap (fun l => match (g.thread l).wait with
    | some (.addr w) => if w.woken then [DevStep.homeLoad g.gid 0 l, DevStep.uncorrectableConsumption g.gid 0] else []
    | some (.kb _ _ _) => [DevStep.uncorrectableConsumption g.gid 0]
    | _ => [])
/-- Steps of a group. -/
def Group.steps (g : Group) : List DevStep :=
  ([.wakeQueueSeat g.core, .stallRecheck g.core, .wakeQueueAging g.gid, .park g.gid, .groupEnd g.gid, .groupEvict g.gid, .streamDeadlock g.gid] : List DevStep) ++
    g.wakeSteps ++ (g.loads ++ g.dloads).flatMap (fun r => r.steps g.gid) ++ g.holds.flatMap (fun h => h.steps g.gid) ++
    g.ops.flatMap (fun o => ([.engineOpRetire g.gid o.cls.num, .uncorrectableConsumption g.gid o.id] : List DevStep))
/-- Steps of a windrow stage: what arrives at it, what leaves it for the next one, and the home at the last. -/
def Stage.steps (st : Stage) : List DevStep :=
  st.arriving.map (fun r => DevStep.windrowArrival st.id r.port) ++ ([.winnowSplit st.id] : List DevStep) ++
    (if st.outq.isEmpty then []
     else if st.id < 128 then [DevStep.windrowArrival (128 + st.id / 16) (st.id % 16)]
     else if st.id < 136 then st.outq.map (fun r => DevStep.windrowArrival (136 + r.mc) (st.id - 128))
     else [DevStep.homeAtomic (st.id - 136)])
/-- Steps of a cluster. -/
def Cluster.steps (c : Cluster) : List DevStep :=
  (if c.dispatch.isEmpty && c.arrivals.isEmpty && c.sheaves.all (fun x => x.st == .free) then []
   else DevStep.engineTake c.id :: (indices c.sheaves).flatMap (fun i => ([.sheafDeadline c.id i, .sheafOperandsRead c.id i] : List DevStep))) ++
  (if c.winPending.isSome then [DevStep.clwinApply c.id] else [])
/-- Steps of a launch. -/
def Launch.steps (l : Launch) : List DevStep :=
  DevStep.launchComplete l.lid ::
    ((l.chans.mapIdx (fun i c => (i, c))).flatMap (fun p =>
      (if p.2.flight.isEmpty then [] else [DevStep.channelSlotArrive l.lid p.1]) ++ (if p.2.returning.isEmpty then [] else [DevStep.channelCreditArrive l.lid p.1])))
/-- Steps of the plots. -/
def State.plotSteps (s : State) : List DevStep :=
  s.plots.flatMap (fun p => (if p.st == .saved then [DevStep.plotResume p.pid] else []) ++ (if p.rolling then [DevStep.rollback p.pid] else []))
/-- Steps of the launch queues. -/
def State.queueSteps (s : State) : List DevStep :=
  ((List.range 512).filter s.qen).flatMap (fun q => ([.launchEntryFetch q, .launchAdmit q] : List DevStep))
/-- Steps of copy channels. -/
def HwChan.steps (c : HwChan) : List DevStep :=
  if c.st != 1 then [] else if c.record.isNone then [.copyRecordFetch c.h] else [.copyRecordComplete c.h, .copyRecordFail c.h]
/-- Steps of the fabric, the chiplets and the ports. -/
def State.moduleSteps (s : State) : List DevStep :=
  (s.regs.filterMap (fun r =>
    if 0x20000 ≤ r.1 && r.1 < 0x20790 && r.2.getLsbD 18 then some (DevStep.cmapChangeComplete ((r.1 - 0x20000) / 4 / 22) ((r.1 - 0x20000) / 4 % 22))
    else if 0x400 ≤ r.1 && r.1 < 0x458 && bits r.2.toNat 6 4 == 1 then some (DevStep.chipDrainComplete ((r.1 - 0x400) / 4))
    else none)) ++
  (s.peers.remotes.filterMap (fun r => if r.port == 255 then some (DevStep.peerUnreachable r.id) else none)) ++
  s.ras.raised.map (fun r => DevStep.rowAlert r.1 r.2) ++
  s.streams.filterMap (fun x => if !x.boundary.isEmpty || x.owed.isSome then some (DevStep.haywardStepBoundary x.id) else none) ++
  (if s.fe.shoot.isSome then [DevStep.tlbShootdownComplete] else []) ++
  (match s.field 0x4A0 1 0 with | 1 => [DevStep.checkpointWriteComplete] | 3 => [DevStep.restoreComplete] | _ => [])
/-- The device steps that may be due (log 2). -/
def State.candidates (s : State) : List DevStep :=
  s.groups.flatMap Group.steps ++ s.mem.stages.flatMap Stage.steps ++
    s.mem.discs.flatMap (fun d => d.left.map (fun m => DevStep.discardSliceComplete d.id m)) ++ s.clusters.flatMap Cluster.steps ++
    s.launches.flatMap Launch.steps ++ (DevStep.plotPlace :: s.plotSteps) ++ s.queueSteps ++ s.chans.flatMap HwChan.steps ++ s.moduleSteps
/-- Takes the first step of a list that can be taken, if there is one: the state after it, and the steps behind it. -/
def takeFirst : List DevStep → State → Option (State × List DevStep)
  | [], _ => none
  | d :: ds, s => match d.run s with | .next s' => some (s', ds) | _ => takeFirst ds s
/-- The turn of the device's own steps: the first one of a list that can be taken is taken, and the turn stays for those behind it. -/
def State.deviceTurn (s : State) (due : List DevStep) : State :=
  match takeFirst due s with
  | none => s
  | some (t, rest) => { t with sched := { t.sched with turn := .events rest :: t.sched.turn } }

/-! A cycle. -/

/-- Telemetry of a cycle (19 R368): Fallow occupancy and stalled slots. -/
def State.countCycle (s : State) : State :=
  ((s.groups.map (·.core)).eraseDups).foldl (fun (s : State) core =>
    let n := s.fallow core
    let b := telBlock (chipletOf core)
    let s := if n == 0 then s else s.count (b + 0x10) n
    let s := if n < 56 then s else s.count (b + 0x18) 1
    let k := (s.groups.filter (fun g => g.core == core && g.stalled)).length
    if k == 0 then s else s.count (b + 0x20) k) s
/-- Threads whose EXIT was held back exit once nothing holds them (05 R120, 08 R184). -/
def State.sweepExits (s : State) : State :=
  (s.groups.map (·.gid)).foldl (fun (s : State) gid =>
    match s.group gid with
    | none => s
    | some g =>
      if g.live.any (fun l => (g.thread l).leaving && (g.thread l).hold == 0 && (g.thread l).wait.isNone) then
        (match s.exitNow gid g.liveMask with | .ok s' => s' | _ => s)
      else s) s
/-- The turns of a cycle: the Plough and the Drill stage of each core that holds a group, then the device's steps that may be due as
the cycle begins, from a place that moves with the cycle. -/
def State.turns (s : State) : List Turn :=
  ((s.groups.map (·.core)).eraseDups).flatMap (fun c => ([.plough c, .drill c] : List Turn)) ++ [.events (s.candidates.rotate s.sched.cycle)]
/-- A new cycle: TBASE's advance is due every 64 cycles (03 R83), and WAITING groups with a ready thread become WOKEN (01 R21). -/
def State.newCycle (s : State) : State :=
  let s := { s with sched := { s.sched with cycle := s.sched.cycle + 1 } }
  let s := s.countCycle.sweepExits
  let s := (s.groups.map (·.gid)).foldl State.wakeIfReady s
  { s with sched := { s.sched with turn := s.turns, agenda := if s.sched.ticked + 64 ≤ s.sched.cycle then [DevStep.tbaseAdvance] else [] } }
/-- Between steps no word is issuing (01 R14): the issue state is idle. -/
def State.settled (s : State) : State := { s with cur := Group.idle, issue := Issue.idle }
/-- What a step answers, with no word issuing after it. -/
def settle (o : Host.Outcome State Fault Refusal) : Host.Outcome State Fault Refusal :=
  match o with
  | .next s => .next s.settled
  | .fault f => .fault f
  | .refused r => .refused r
/-- The turn of a schedule: a core's Plough stage, a core's Drill stage, or the device. -/
def Turn.run (ex : Instr → State → Host.Outcome State Fault Refusal) (t : Turn) (s : State) : Host.Outcome State Fault Refusal :=
  match t with
  | .plough c => issuePlough ex s c
  | .drill c => issueDrill ex s c
  | .events due => .next (s.deviceTurn due)
/-- The step that is due: the head of the agenda, which falls away if it can no longer be taken, the next turn, or a new cycle. -/
def State.due (ex : Instr → State → Host.Outcome State Fault Refusal) (s : State) : Host.Outcome State Fault Refusal :=
  match s.sched.agenda with
  | d :: ds =>
    let s' := { s with sched := { s.sched with agenda := ds } }
    (match d.run s' with
     | .next t => .next t
     | _ => .next s')
  | [] =>
    match s.sched.turn with
    | [] => .next s.newCycle
    | t :: ts => t.run ex { s with sched := { s.sched with turn := ts } }
/-- One step of the schedule. -/
def State.advance (ex : Instr → State → Host.Outcome State Fault Refusal) (s : State) : Host.Outcome State Fault Refusal := settle (s.due ex)

/-! A state that fetches one given instruction next (log 12). -/

/-- A leaf that maps the lowest 1 GiB to physical address 0 with every permission. -/
def codeLeaf : BitVec 128 := BitVec.ofNat 128 0xFB
/-- A loaded context that translates through its TLB entry alone. -/
def codeCtx : Ctx := { Ctx.none 0 with valid := true, bw := 1, chpage := 2 ^ 55 }
/-- An admitted launch of one plot, group and thread, with both streams entered at packet 0. -/
def codeLaunch : Launch := { Launch.none with lid := 3, st := .admitted }
def codePlot : Plot := { Plot.none with pid := 2, lid := 3, st := .resident }
/-- Its group, in slot 0 of core 0; its Drill stream has ended unless the instruction is a Drill word. -/
def codeGroup (drill : Bool) : Group :=
  { Group.idle with
    gid := 1, pid := 2, lid := 3, width := 1, place := .slot 0,
    arch := { GArch.start with threads := GArch.start.threads.set 0 { Thread.start with live := true },
                               drill := { DrillSt.start with ended := !drill } } }
/-- The bytes of an instruction and of the words after it, to the end of its packet: zeros. -/
def State.withWord (s : State) (nbits w : Nat) : State :=
  let v := w % 2 ^ nbits
  let drill := drillShaped (BitVec.ofNat 32 v) (some (BitVec.ofNat 32 (v / 2 ^ 32)))
  { s with
    sched := { s.sched with agenda := [], turn := [if drill then .drill 0 else .plough 0], nextId := max s.sched.nextId 8 },
    groups := [codeGroup drill], plots := [codePlot], launches := [codeLaunch], ctxs := [codeCtx],
    mem := { s.mem with glob := s.mem.glob.writeN 0 (bytesOf 12 v), tlb := [⟨.core 0, 0, 0, codeLeaf⟩] } }

end Sys2Proof.Machine
end

