-- ==== Sys2Proof/Machine/IntOps.lean ====
section
/-! DEFINITION. Integer and address arithmetic, compare, select and move (06 R156 to R163), and the packed dot products
(07 R181). -/

namespace Sys2Proof.Machine
open Sys2Proof

/-- A two-operand word on registers or pairs (06 R156). -/
def runInt2 (i : Instr) (s : State) (w : PW) (f : DWord → DWord → DWord) : Host.Outcome State Fault Refusal :=
  runLanes i s (fun a lanes s => s.writeLanesX w.x w.d lanes (fun l => f (a.srcX w.x w.a l) (a.srcX w.x w.b l)))
/-- A two-operand word on 32-bit registers. -/
def runInt1 (i : Instr) (s : State) (w : PW) (f : Word → Word → Word) : Host.Outcome State Fault Refusal :=
  runLanes i s (fun a lanes s => s.writeLanes1 w.d lanes (fun l => f (a.src w.a l) (a.src w.b l)))

/-- Shifts by a whole unsigned amount (06 R156): left, logical right, arithmetic right. -/
def shiftVal (kind : Nat) (w64 : Bool) (v : DWord) (n : Nat) : DWord :=
  match kind, w64 with
  | 0, true => v <<< n
  | 0, false => ((v.setWidth 32) <<< n).setWidth 64
  | 1, true => v >>> n
  | 1, false => ((v.setWidth 32) >>> n).setWidth 64
  | _, true => v.sshiftRight n
  | _, false => ((v.setWidth 32).sshiftRight n).setWidth 64
/-- A shift by a register (06 R156). -/
def runShift (i : Instr) (s : State) (w : PW) (kind : Nat) : Host.Outcome State Fault Refusal :=
  runLanes i s (fun a lanes s => s.writeLanesX w.x w.d lanes (fun l => shiftVal kind w.x (a.srcX w.x w.a l) (a.src w.b l).toNat))
/-- A shift by an immediate, W64 in bit 6 (06 R158). -/
def runShiftImm (i : Instr) (s : State) (w : PW) (kind : Nat) : Host.Outcome State Fault Refusal :=
  let w64 := w.imm8.getLsbD 6
  runLanes i s (fun a lanes s => s.writeLanesX w64 w.d lanes (fun l => shiftVal kind w64 (a.srcX w64 w.a l) (w.imm8.toNat % 64)))

/-- IADD (06 R156). -/
def execIadd (w : PW) (s : State) : Host.Outcome State Fault Refusal := runInt2 (.iadd w) s w (fun x y => x + y)
/-- ISUB (06 R156). -/
def execIsub (w : PW) (s : State) : Host.Outcome State Fault Refusal := runInt2 (.isub w) s w (fun x y => x - y)
/-- IMUL (06 R156). -/
def execImul (w : PW) (s : State) : Host.Outcome State Fault Refusal := runInt2 (.imul w) s w (fun x y => x * y)
/-- IMULH (06 R156): X = 1 is signed. -/
def execImulh (w : PW) (s : State) : Host.Outcome State Fault Refusal :=
  runInt1 (.imulh w) s w (fun x y =>
    if w.x then ((x.signExtend 64 * y.signExtend 64) >>> 32).setWidth 32 else ((x.setWidth 64 * y.setWidth 64) >>> 32).setWidth 32)
/-- IMIN (06 R156): X = 0 is signed. -/
def execImin (w : PW) (s : State) : Host.Outcome State Fault Refusal :=
  runInt1 (.imin w) s w (fun x y => if w.x then (if x.ule y then x else y) else (if x.sle y then x else y))
/-- IMAX (06 R156): X = 0 is signed. -/
def execImax (w : PW) (s : State) : Host.Outcome State Fault Refusal :=
  runInt1 (.imax w) s w (fun x y => if w.x then (if x.ule y then y else x) else (if x.sle y then y else x))
/-- AND (06 R156). -/
def execAnd (w : PW) (s : State) : Host.Outcome State Fault Refusal := runInt1 (.and w) s w (fun x y => x &&& y)
/-- OR (06 R156). -/
def execOr (w : PW) (s : State) : Host.Outcome State Fault Refusal := runInt1 (.or w) s w (fun x y => x ||| y)
/-- XOR (06 R156). -/
def execXor (w : PW) (s : State) : Host.Outcome State Fault Refusal := runInt1 (.xor w) s w (fun x y => x ^^^ y)
/-- SHL (06 R156). -/
def execShl (w : PW) (s : State) : Host.Outcome State Fault Refusal := runShift (.shl w) s w 0
/-- SHR (06 R156). -/
def execShr (w : PW) (s : State) : Host.Outcome State Fault Refusal := runShift (.shr w) s w 1
/-- SAR (06 R156). -/
def execSar (w : PW) (s : State) : Host.Outcome State Fault Refusal := runShift (.sar w) s w 2
/-- SHLI (06 R158). -/
def execShli (w : PW) (s : State) : Host.Outcome State Fault Refusal := runShiftImm (.shli w) s w 0
/-- SHRI (06 R158). -/
def execShri (w : PW) (s : State) : Host.Outcome State Fault Refusal := runShiftImm (.shri w) s w 1
/-- SARI (06 R158). -/
def execSari (w : PW) (s : State) : Host.Outcome State Fault Refusal := runShiftImm (.sari w) s w 2

/-- IMAD's forms (06 R157). -/
def imadVal (form : Nat) (x y : Word) (c : DWord) : DWord :=
  match form with
  | 0 => ((x * y) + c.setWidth 32).setWidth 64
  | 1 => (wordOfInt (clampInt (x.toInt * y.toInt + (c.setWidth 32).toInt) (-(2 ^ 31)) (2 ^ 31 - 1))).setWidth 64
  | 2 => BitVec.ofNat 64 (min (x.toNat * y.toNat + (c.setWidth 32).toNat) (2 ^ 32 - 1))
  | 4 => x.setWidth 64 * y.setWidth 64 + c
  | _ => x.signExtend 64 * y.signExtend 64 + c
/-- IMAD (06 R157). -/
def execImad (w : PW) (x : PX) (s : State) : Host.Outcome State Fault Refusal :=
  let f := x.m 2 0
  runLanes (.imad w x) s (fun a lanes s => s.writeLanesX (4 ≤ f) w.d lanes (fun l =>
    imadVal f (a.src w.a l) (a.src w.b l) (a.srcX (4 ≤ f) x.vc l)))

/-- The 32-bit immediate of an XI pair (05 R123). -/
def immWide (w : PW) (x : PX) : Word := x.body ++ w.imm8
/-- IADDI, one word (06 R158). -/
def execIaddi (w : PW) (s : State) : Host.Outcome State Fault Refusal :=
  runLanes (.iaddi w) s (fun a lanes s => s.writeLanes1 w.d lanes (fun l => a.src w.a l + w.imm8.signExtend 32))
/-- IADDI, wide (06 R158). -/
def execIaddiWide (w : PW) (x : PX) (s : State) : Host.Outcome State Fault Refusal :=
  runLanes (.iaddiWide w x) s (fun a lanes s => s.writeLanes1 w.d lanes (fun l => a.src w.a l + immWide w x))
/-- MOVI, one word (06 R158). -/
def execMovi (w : PW) (s : State) : Host.Outcome State Fault Refusal :=
  runLanes (.movi w) s (fun _ lanes s => s.writeLanes1 w.d lanes (fun _ => w.imm8.signExtend 32))
/-- MOVI, wide (06 R158). -/
def execMoviWide (w : PW) (x : PX) (s : State) : Host.Outcome State Fault Refusal :=
  runLanes (.moviWide w x) s (fun _ lanes s => s.writeLanes1 w.d lanes (fun _ => immWide w x))

/-- BITC's operations on an n-bit value (06 R159). -/
def bitcVal (op n v : Nat) : Nat :=
  match op with
  | 0 => popcountN n v
  | 1 => clzN n v
  | 2 => ctzN n v
  | _ => brevN n v
/-- BITC (06 R159). -/
def execBitc (w : PW) (x : PX) (s : State) : Host.Outcome State Fault Refusal :=
  let w64 := x.m 2 2 == 1
  runLanes (.bitc w x) s (fun a lanes s => s.writeLanesX (w64 && x.m 1 0 == 3) w.d lanes (fun l =>
    BitVec.ofNat 64 (bitcVal (x.m 1 0) (if w64 then 64 else 32) (a.srcX w64 w.a l).toNat)))

/-- BFX's field (06 R160). -/
def bfxVal (pos len : Nat) (sgn : Bool) (v : Word) : Word :=
  let f := (v.toNat >>> pos) % 2 ^ len
  if sgn then wordOfInt (toSigned len f) else BitVec.ofNat 32 f
/-- BFX (06 R160). -/
def execBfx (w : PW) (x : PX) (s : State) : Host.Outcome State Fault Refusal :=
  runLanes (.bfx w x) s (fun a lanes s => s.writeLanes1 w.d lanes (fun l =>
    bfxVal (x.m 4 0) (x.m 10 5) (x.m 11 11 == 1) (a.src w.a l)))
/-- BFI's insertion (06 R160). -/
def bfiVal (pos len : Nat) (v b : Word) : Word :=
  let mask : Word := BitVec.ofNat 32 (2 ^ len - 1)
  (v &&& ~~~(mask <<< pos)) ||| ((b &&& mask) <<< pos)
/-- BFI (06 R160). -/
def execBfi (w : PW) (x : PX) (s : State) : Host.Outcome State Fault Refusal :=
  runLanes (.bfi w x) s (fun a lanes s => s.writeLanes1 w.d lanes (fun l =>
    bfiVal (x.m 4 0) (x.m 10 5) (a.src w.a l) (a.src w.b l)))

/-- COMB and NEG of ICMP and FCMP (06 R161). -/
def combine (comb : Nat) (neg c p : Bool) : Bool :=
  let r := match comb with | 0 => c | 1 => c && p | 2 => c || p | _ => c != p
  if neg then !r else r
/-- ICMP (06 R161). -/
def execIcmp (w : PW) (x : PX) (s : State) : Host.Outcome State Fault Refusal :=
  runLanes (.icmp w x) s (fun a lanes s => s.writePreds w.d lanes (fun l =>
    combine (x.m 5 4) (x.m 6 6 == 1) (condHolds (x.m 3 0) (if w.x then 64 else 32) (a.srcX w.x w.a l) (a.srcX w.x w.b l)) (a.pred x.vc l)))
/-- SEL (06 R162). -/
def execSel (w : PW) (x : PX) (s : State) : Host.Outcome State Fault Refusal :=
  runLanes (.sel w x) s (fun a lanes s => s.writeLanesX w.x w.d lanes (fun l =>
    if a.pred x.vc l != (x.m 0 0 == 1) then a.srcX w.x w.a l else a.srcX w.x w.b l))

/-- XMOV's source value (06 R163), as the chain finds it (05 R120): `first` is the first identifier of the chain. -/
def xmovSrc (g : Group) (first : Nat) (a : GArch) (sk : Nat) (f : BitVec 6) (lane : Nat) : Word :=
  match sk with
  | 0 => a.src f lane
  | 1 => a.scalar f.toNat
  | 2 => bword (a.pred f lane)
  | 3 => (a.conv.getD f.toNat Conv.clear).decl
  | 4 => (a.conv.getD f.toNat Conv.clear).sign
  | _ => BitVec.ofNat 32 (g.counterBefore first (clsOf f.toNat))
/-- XMOV (06 R163): a scalar takes the value of the lowest active lane (05 R131). -/
def execXmov (w : PW) (x : PX) (s : State) : Host.Outcome State Fault Refusal :=
  let v (s : State) (a : GArch) (l : Nat) : Word := xmovSrc s.cur s.issue.firstId a (x.m 3 0) w.a l
  runLanes (.xmov w x) s (fun a lanes s =>
    match x.m 7 4 with
    | 0 => s.writeLanes1 w.d lanes (v s a)
    | 1 => if lanes.isEmpty then s else s.writeScalar w.d.toNat (v s a (lowestOf lanes))
    | _ => s.writePreds w.d lanes (fun l => v s a l != 0))

/-- The exact sum of a packed dot product over n elements of `bitsPer` bits (07 R181). -/
def idpSum (n bitsPer : Nat) (sa sb : Bool) (x y : Word) (t : Int) : Int :=
  let el (v : Word) (sg : Bool) (i : Nat) : Int :=
    let e := (v.toNat >>> (bitsPer * i)) % 2 ^ bitsPer
    if sg then toSigned bitsPer e else (e : Int)
  (List.range n).foldl (fun t i => t + el x sa i * el y sb i) t
/-- IDP4 and IDP8's result (07 R181). -/
def idpVal (n bitsPer : Nat) (sat sa sb : Bool) (x y c : Word) : Word :=
  let sg := sa || sb
  let t := idpSum n bitsPer sa sb x y (if sg then c.toInt else (c.toNat : Int))
  wordOfInt (if sat then (if sg then clampInt t (-(2 ^ 31)) (2 ^ 31 - 1) else clampInt t 0 (2 ^ 32 - 1)) else t)
/-- A packed dot product (07 R181). -/
def runIdp (i : Instr) (n bitsPer : Nat) (w : PW) (x : PX) (s : State) : Host.Outcome State Fault Refusal :=
  runLanes i s (fun a lanes s => s.writeLanes1 w.d lanes (fun l =>
    idpVal n bitsPer w.x (x.m 0 0 == 1) (x.m 1 1 == 1) (a.src w.a l) (a.src w.b l) (a.src x.vc l)))
/-- IDP4 (07 R181). -/
def execIdp4 (w : PW) (x : PX) (s : State) : Host.Outcome State Fault Refusal := runIdp (.idp4 w x) 4 8 w x s
/-- IDP8 (07 R181). -/
def execIdp8 (w : PW) (x : PX) (s : State) : Host.Outcome State Fault Refusal := runIdp (.idp8 w x) 8 4 w x s

end Sys2Proof.Machine
end

