-- ==== Sys2Proof/Machine/FloatOps.lean ====
section
/-! DEFINITION. Floating-point arithmetic, conversions and special functions (07 R169 to R180). -/

namespace Sys2Proof.Machine
open Sys2Proof

/-- The bits of a 32-bit source. -/
def GArch.bits (a : GArch) (f : BitVec 6) (l : Nat) : Nat := (a.src f l).toNat

/-- A two-operand FP32 word (07 R171). -/
def runFp2 (i : Instr) (s : State) (w : PW) (rnd : Nat) (f : Nat → Nat → Nat → FRes) : Host.Outcome State Fault Refusal :=
  runFp i s w.d (fun a l => f (a.rmode rnd) (a.bits w.a l) (a.bits w.b l))
/-- FADD (07 R171). -/
def execFadd (w : PW) (s : State) : Host.Outcome State Fault Refusal := runFp2 (.fadd w) s w 0 Fmt.f32.add
/-- FADD, wide (07 R171). -/
def execFaddWide (w : PW) (x : PX) (s : State) : Host.Outcome State Fault Refusal := runFp2 (.faddWide w x) s w x.rnd Fmt.f32.add
/-- FSUB (07 R171). -/
def execFsub (w : PW) (s : State) : Host.Outcome State Fault Refusal := runFp2 (.fsub w) s w 0 Fmt.f32.sub
/-- FSUB, wide (07 R171). -/
def execFsubWide (w : PW) (x : PX) (s : State) : Host.Outcome State Fault Refusal := runFp2 (.fsubWide w x) s w x.rnd Fmt.f32.sub
/-- FMUL (07 R171). -/
def execFmul (w : PW) (s : State) : Host.Outcome State Fault Refusal := runFp2 (.fmul w) s w 0 Fmt.f32.mul
/-- FMUL, wide (07 R171). -/
def execFmulWide (w : PW) (x : PX) (s : State) : Host.Outcome State Fault Refusal := runFp2 (.fmulWide w x) s w x.rnd Fmt.f32.mul
/-- FFMA (07 R172). -/
def execFfma (w : PW) (x : PX) (s : State) : Host.Outcome State Fault Refusal :=
  runFp (.ffma w x) s w.d (fun a l =>
    Fmt.f32.fma (a.rmode x.rnd) (x.m 0 0 == 1) (x.m 1 1 == 1) (a.bits w.a l) (a.bits w.b l) (a.bits x.vc l))
/-- FMIN (07 R173). -/
def execFmin (w : PW) (s : State) : Host.Outcome State Fault Refusal :=
  runFp2 (.fmin w) s w 0 (fun _ x y => Fmt.f32.minmax false w.x x y)
/-- FMAX (07 R173). -/
def execFmax (w : PW) (s : State) : Host.Outcome State Fault Refusal :=
  runFp2 (.fmax w) s w 0 (fun _ x y => Fmt.f32.minmax true w.x x y)
/-- FCMP (07 R174). -/
def execFcmp (w : PW) (x : PX) (s : State) : Host.Outcome State Fault Refusal :=
  runLanes (.fcmp w x) s (fun a lanes s =>
    let c (l : Nat) : Bool × Bool := fcmpCond (x.m 3 0) (a.bits w.a l) (a.bits w.b l)
    (s.writePreds w.d lanes (fun l => combine (x.m 5 4) (x.m 6 6 == 1) (c l).1 (a.pred x.vc l))).addFlags
      (flagsOf lanes (fun l => if (c l).2 then fNV else 0)))
/-- FSGN's result with sign bits `m` (07 R175). -/
def fsgnVal (op : Nat) (m v b : Word) : Word :=
  match op with
  | 0 => (v &&& ~~~m) ||| (b &&& m)
  | 1 => v ^^^ m
  | 2 => v &&& ~~~m
  | _ => v ^^^ (b &&& m)
/-- FSGN (07 R175). -/
def execFsgn (w : PW) (x : PX) (s : State) : Host.Outcome State Fault Refusal :=
  runLanes (.fsgn w x) s (fun a lanes s => s.writeLanes1 w.d lanes (fun l =>
    fsgnVal (x.m 1 0) (if w.x then 0x8000_8000 else 0x8000_0000) (a.src w.a l) (a.src w.b l)))

/-! Packed 16-bit arithmetic (07 R176). -/

/-- The format of X. -/
def halfFmt (x : Bool) : Fmt := if x then .bf16 else .f16
/-- Two elements packed into a register, with the flags of both. -/
def packed (f : Nat → FRes) : FRes := ⟨(f 0).val + (f 1).val * 2 ^ 16, (f 0).flags ||| (f 1).flags⟩
/-- Element e of a packed register. -/
def half (v e : Nat) : Nat := (v >>> (16 * e)) % 2 ^ 16
/-- A two-operand packed word. -/
def runHalf2 (i : Instr) (s : State) (w : PW) (rnd : Nat) (f : Fmt → Nat → Nat → Nat → FRes) : Host.Outcome State Fault Refusal :=
  runFp2 i s w rnd (fun md x y => packed (fun e => f (halfFmt w.x) md (half x e) (half y e)))
/-- HADD (07 R176). -/
def execHadd (w : PW) (s : State) : Host.Outcome State Fault Refusal := runHalf2 (.hadd w) s w 0 Fmt.add
/-- HADD, wide (07 R176). -/
def execHaddWide (w : PW) (x : PX) (s : State) : Host.Outcome State Fault Refusal := runHalf2 (.haddWide w x) s w x.rnd Fmt.add
/-- HSUB (07 R176). -/
def execHsub (w : PW) (s : State) : Host.Outcome State Fault Refusal := runHalf2 (.hsub w) s w 0 Fmt.sub
/-- HSUB, wide (07 R176). -/
def execHsubWide (w : PW) (x : PX) (s : State) : Host.Outcome State Fault Refusal := runHalf2 (.hsubWide w x) s w x.rnd Fmt.sub
/-- HMUL (07 R176). -/
def execHmul (w : PW) (s : State) : Host.Outcome State Fault Refusal := runHalf2 (.hmul w) s w 0 Fmt.mul
/-- HMUL, wide (07 R176). -/
def execHmulWide (w : PW) (x : PX) (s : State) : Host.Outcome State Fault Refusal := runHalf2 (.hmulWide w x) s w x.rnd Fmt.mul
/-- HFMA (07 R176). -/
def execHfma (w : PW) (x : PX) (s : State) : Host.Outcome State Fault Refusal :=
  runFp (.hfma w x) s w.d (fun a l => packed (fun e =>
    (halfFmt w.x).fma (a.rmode x.rnd) (x.m 0 0 == 1) (x.m 1 1 == 1) (half (a.bits w.a l) e) (half (a.bits w.b l) e) (half (a.bits x.vc l) e)))
/-- HMIN (07 R176). -/
def execHmin (w : PW) (s : State) : Host.Outcome State Fault Refusal :=
  runHalf2 (.hmin w) s w 0 (fun f _ x y => f.minmax false false x y)
/-- HMAX (07 R176). -/
def execHmax (w : PW) (s : State) : Host.Outcome State Fault Refusal :=
  runHalf2 (.hmax w) s w 0 (fun f _ x y => f.minmax true false x y)

/-! Conversions. -/

/-- FCVT's result from the 64 bits of each source (07 R177). -/
def fcvtVal (md src dst sel : Nat) (sat : Bool) (x y : Nat) : FRes :=
  let sf := Fmt.ofType src; let df := Fmt.ofType dst
  if src == 8 && dst == 8 then roundIntegral md (x % 2 ^ 32)
  else if src == 8 && df.width == 16 then packed (fun e => convert sf df md false ((if e == 0 then x else y) % 2 ^ 32))
  else if src == 8 then
    let r (e : Nat) : FRes := convert sf df md sat (((if e < 2 then x else y) >>> (32 * (e % 2))) % 2 ^ 32)
    ⟨(r 0).val + (r 1).val * 2 ^ 8 + (r 2).val * 2 ^ 16 + (r 3).val * 2 ^ 24,
      (r 0).flags ||| (r 1).flags ||| (r 2).flags ||| (r 3).flags⟩
  else if dst == 8 then convert sf df md false ((x >>> (sf.width * sel)) % 2 ^ sf.width)
  else packed (fun e => convert sf df md false (half x e))
/-- FCVT (07 R177). -/
def execFcvt (w : PW) (x : PX) (s : State) : Host.Outcome State Fault Refusal :=
  let pair := x.m 3 0 == 8 && (x.m 7 4 == 13 || x.m 7 4 == 14)
  runFp (.fcvt w x) s w.d (fun a l =>
    fcvtVal (a.rmode x.rnd) (x.m 3 0) (x.m 7 4) (x.m 9 8) w.x (a.srcX pair w.a l).toNat (a.srcX pair w.b l).toNat)
/-- ICVT's result (07 R178). -/
def icvtVal (md src dst : Nat) (v : Nat) : FRes :=
  if src == 8 then f32ToInt md (if 6 ≤ dst then 64 else 32) (dst % 2 == 1) (v % 2 ^ 32)
  else
    let n := if 6 ≤ src then 64 else 32
    intToF32 md (if src % 2 == 1 then toSigned n v else (v % 2 ^ n : Nat))
/-- ICVT (07 R178). -/
def execIcvt (w : PW) (x : PX) (s : State) : Host.Outcome State Fault Refusal :=
  let sp := x.m 3 0 == 6 || x.m 3 0 == 7
  let dp := x.m 7 4 == 6 || x.m 7 4 == 7
  let r (a : GArch) (l : Nat) : FRes := icvtVal (a.rmode x.rnd) (x.m 3 0) (x.m 7 4) (a.srcX sp w.a l).toNat
  runLanes (.icvt w x) s (fun a lanes s =>
    (s.writeLanesX dp w.d lanes (fun l => BitVec.ofNat 64 (r a l).val)).addFlags (flagsOf lanes (fun l => (r a l).flags)))

/-! Special functions (07 R179). -/

/-- A special function, grade in X. -/
def runSf (i : Instr) (fn : Nat) (w : PW) (rnd : Nat) (s : State) : Host.Outcome State Fault Refusal :=
  runFp i s w.d (fun a l => specialFn fn w.x (a.rmode rnd) (a.bits w.a l))
/-- RCP (07 R179). -/
def execRcp (w : PW) (s : State) : Host.Outcome State Fault Refusal := runSf (.rcp w) 0 w 0 s
/-- RCP, wide (07 R179). -/
def execRcpWide (w : PW) (x : PX) (s : State) : Host.Outcome State Fault Refusal := runSf (.rcpWide w x) 0 w x.rnd s
/-- RSQ (07 R179). -/
def execRsq (w : PW) (s : State) : Host.Outcome State Fault Refusal := runSf (.rsq w) 1 w 0 s
/-- RSQ, wide (07 R179). -/
def execRsqWide (w : PW) (x : PX) (s : State) : Host.Outcome State Fault Refusal := runSf (.rsqWide w x) 1 w x.rnd s
/-- SQRT (07 R179). -/
def execSqrt (w : PW) (s : State) : Host.Outcome State Fault Refusal := runSf (.sqrt w) 2 w 0 s
/-- SQRT, wide (07 R179). -/
def execSqrtWide (w : PW) (x : PX) (s : State) : Host.Outcome State Fault Refusal := runSf (.sqrtWide w x) 2 w x.rnd s
/-- EX2 (07 R179). -/
def execEx2 (w : PW) (s : State) : Host.Outcome State Fault Refusal := runSf (.ex2 w) 3 w 0 s
/-- EX2, wide (07 R179). -/
def execEx2Wide (w : PW) (x : PX) (s : State) : Host.Outcome State Fault Refusal := runSf (.ex2Wide w x) 3 w x.rnd s
/-- LG2 (07 R179). -/
def execLg2 (w : PW) (s : State) : Host.Outcome State Fault Refusal := runSf (.lg2 w) 4 w 0 s
/-- LG2, wide (07 R179). -/
def execLg2Wide (w : PW) (x : PX) (s : State) : Host.Outcome State Fault Refusal := runSf (.lg2Wide w x) 4 w x.rnd s
/-- SINP (07 R179). -/
def execSinp (w : PW) (s : State) : Host.Outcome State Fault Refusal := runSf (.sinp w) 5 w 0 s
/-- SINP, wide (07 R179). -/
def execSinpWide (w : PW) (x : PX) (s : State) : Host.Outcome State Fault Refusal := runSf (.sinpWide w x) 5 w x.rnd s
/-- COSP (07 R179). -/
def execCosp (w : PW) (s : State) : Host.Outcome State Fault Refusal := runSf (.cosp w) 6 w 0 s
/-- COSP, wide (07 R179). -/
def execCospWide (w : PW) (x : PX) (s : State) : Host.Outcome State Fault Refusal := runSf (.cospWide w x) 6 w x.rnd s
/-- TANH (07 R179). -/
def execTanh (w : PW) (s : State) : Host.Outcome State Fault Refusal := runSf (.tanh w) 7 w 0 s
/-- TANH, wide (07 R179). -/
def execTanhWide (w : PW) (x : PX) (s : State) : Host.Outcome State Fault Refusal := runSf (.tanhWide w x) 7 w x.rnd s

end Sys2Proof.Machine
end

