-- ==== Sys2Proof/Machine/LaneOps.lean ====
section
/-! DEFINITION. Lane operations: votes, ballots, match, elect, shuffles, scans and reductions (06 R164 to R168). -/

namespace Sys2Proof.Machine
open Sys2Proof

/-- VANY (06 R165). -/
def execVany (w : PW) (s : State) : Host.Outcome State Fault Refusal :=
  runLanes (.vany w) s (fun a lanes s => s.writePreds w.d lanes (fun l => (a.tileLanes lanes l).any (fun j => a.pred w.a j)))
/-- VALL (06 R165). -/
def execVall (w : PW) (s : State) : Host.Outcome State Fault Refusal :=
  runLanes (.vall w) s (fun a lanes s => s.writePreds w.d lanes (fun l => (a.tileLanes lanes l).all (fun j => a.pred w.a j)))
/-- VBAL (06 R165). -/
def execVbal (w : PW) (s : State) : Host.Outcome State Fault Refusal :=
  runLanes (.vbal w) s (fun a lanes s => s.writeLanes1 w.d lanes (fun l =>
    maskOfList ((a.tileLanes lanes l).filter (fun j => a.pred w.a j))))
/-- MATCH (06 R165). -/
def execMatchv (w : PW) (s : State) : Host.Outcome State Fault Refusal :=
  runLanes (.matchv w) s (fun a lanes s => s.writeLanes1 w.d lanes (fun l =>
    maskOfList ((a.tileLanes lanes l).filter (fun j => a.srcX w.x w.a j == a.srcX w.x w.a l))))
/-- ELECT (06 R165). -/
def execElect (w : PW) (s : State) : Host.Outcome State Fault Refusal :=
  runLanes (.elect w) s (fun a lanes s => s.writePreds w.d lanes (fun l => (a.tileLanes lanes l).head? == some l))

/-- The source lane of a shuffle (06 R166); none where the lane keeps its own value. -/
def shuffleFrom (kind t b i d : Nat) : Option Nat :=
  match kind with
  | 0 => some (b + d % t)
  | 1 => if t ≤ d || i < b + d then none else some (i - d)
  | 2 => if t ≤ d || b + t ≤ i + d then none else some (i + d)
  | _ => some (b + ((i - b) ^^^ (d % t)))
/-- A shuffle (06 R166). -/
def runShuffle (i : Instr) (kind : Nat) (w : PW) (s : State) : Host.Outcome State Fault Refusal :=
  runLanes i s (fun a lanes s => s.writeLanesX w.x w.d lanes (fun l =>
    match shuffleFrom kind a.tile (a.tileBase l) l (a.src w.b l).toNat with
    | some j => if lanes.contains j then a.srcX w.x w.a j else a.srcX w.x w.a l
    | none => a.srcX w.x w.a l))
/-- SHFL (06 R166). -/
def execShfl (w : PW) (s : State) : Host.Outcome State Fault Refusal := runShuffle (.shfl w) 0 w s
/-- SHUP (06 R166). -/
def execShup (w : PW) (s : State) : Host.Outcome State Fault Refusal := runShuffle (.shup w) 1 w s
/-- SHDN (06 R166). -/
def execShdn (w : PW) (s : State) : Host.Outcome State Fault Refusal := runShuffle (.shdn w) 2 w s
/-- SHXR (06 R166). -/
def execShxr (w : PW) (s : State) : Host.Outcome State Fault Refusal := runShuffle (.shxr w) 3 w s

/-! Scans and reductions. -/

/-- A tree value: none, or 32 bits, with the flags of its additions. -/
structure TreeVal where
  val : Option Nat
  flags : Nat

/-- The identity of an operation for EXCL (06 R167). -/
def opnIdentity (o : Nat) : Nat :=
  match o with
  | 1 => 0x7FFF_FFFF
  | 2 => 0x8000_0000
  | 3 => 0xFFFF_FFFF
  | 5 => 0xFFFF_FFFF
  | 8 => 0x8000_0000
  | 9 => 0x7F80_0000
  | 10 => 0xFF80_0000
  | _ => 0
/-- The combination of two 32-bit values (06 R167). -/
def opnCombine (o md x y : Nat) : FRes :=
  let pick (c : Bool) : FRes := ⟨if c then x else y, 0⟩
  match o with
  | 0 => ⟨(x + y) % 2 ^ 32, 0⟩
  | 1 => pick (decide (toSigned 32 x ≤ toSigned 32 y))
  | 2 => pick (decide (toSigned 32 y ≤ toSigned 32 x))
  | 3 => pick (decide (x ≤ y))
  | 4 => pick (decide (y ≤ x))
  | 5 => ⟨x &&& y, 0⟩
  | 6 => ⟨x ||| y, 0⟩
  | 7 => ⟨x ^^^ y, 0⟩
  | 8 => Fmt.f32.add md x y
  | 9 => Fmt.f32.minmax false false x y
  | _ => Fmt.f32.minmax true false x y
/-- op of 06 R168, with its treatment of none. -/
def treeOp (o md : Nat) (p q : TreeVal) : TreeVal :=
  let f := p.flags ||| q.flags
  if o == 8 then
    let r := opnCombine o md (p.val.getD 0x8000_0000) (q.val.getD 0x8000_0000)
    ⟨some r.val, f ||| r.flags⟩
  else
    match p.val, q.val with
    | none, v => ⟨v, f⟩
    | v, none => ⟨v, f⟩
    | some x, some y => let r := opnCombine o md x y; ⟨some r.val, f ||| r.flags⟩
/-- node(l, k) of 06 R168. -/
def treeNode (o md : Nat) (x : Nat → Option Nat) : Nat → Nat → TreeVal
  | 0, k => ⟨x k, 0⟩
  | l + 1, k => treeOp o md (treeNode o md x l k) (treeNode o md x l (k + 2 ^ l))
/-- prefix(n) of 06 R168 from level l downwards; none while the accumulator is empty. -/
def treePrefix (o md : Nat) (x : Nat → Option Nat) (n : Nat) : Nat → Nat → Option TreeVal → Option TreeVal
  | 0, start, acc =>
    if n % 2 == 1 then
      let v := treeNode o md x 0 start
      some (match acc with | none => v | some p => treeOp o md p v)
    else acc
  | l + 1, start, acc =>
    if n.testBit (l + 1) then
      let v := treeNode o md x (l + 1) start
      treePrefix o md x n l (start + 2 ^ (l + 1)) (some (match acc with | none => v | some p => treeOp o md p v))
    else treePrefix o md x n l start acc

/-- The operands of a lane's tile: those of its participants. -/
def tileVals (a : GArch) (lanes : List Nat) (f : BitVec 6) (lane k : Nat) : Option Nat :=
  let j := a.tileBase lane + k
  if lanes.contains j then some (a.src f j).toNat else none
/-- RED's tree value for a lane. -/
def redVal (a : GArch) (lanes : List Nat) (w : PW) (x : PX) (lane : Nat) : TreeVal :=
  treeNode (x.m 3 0) (a.rmode x.rnd) (tileVals a lanes w.a lane) (a.tile.log2) 0
/-- SCAN's tree value for a lane. -/
def scanVal (a : GArch) (lanes : List Nat) (w : PW) (x : PX) (lane : Nat) : TreeVal :=
  let n := (lane - a.tileBase lane) + (if x.m 4 4 == 1 then 0 else 1)
  (treePrefix (x.m 3 0) (a.rmode x.rnd) (tileVals a lanes w.a lane) n a.tile.log2 0 none).getD ⟨none, 0⟩

/-- RED (06 R167, R168). -/
def execRed (w : PW) (x : PX) (s : State) : Host.Outcome State Fault Refusal :=
  runLanes (.red w x) s (fun a lanes s =>
    (s.writeLanes1 w.d lanes (fun l => BitVec.ofNat 32 (((redVal a lanes w x l).val).getD (opnIdentity (x.m 3 0))))).addFlags
      (flagsOf lanes (fun l => (redVal a lanes w x l).flags)))
/-- SCAN (06 R167, R168): every node of the tree raises its flags, and so does every combination of a prefix. -/
def execScan (w : PW) (x : PX) (s : State) : Host.Outcome State Fault Refusal :=
  runLanes (.scan w x) s (fun a lanes s =>
    (s.writeLanes1 w.d lanes (fun l => BitVec.ofNat 32 (((scanVal a lanes w x l).val).getD (opnIdentity (x.m 3 0))))).addFlags
      (flagsOf lanes (fun l => (redVal a lanes w x l).flags ||| (scanVal a lanes w x l).flags)))

end Sys2Proof.Machine
end

