-- ==== Sys2Proof/Machine/Dispatch.lean ====
section
/-! DEFINITION. One arm for each instruction, in the order of the opcode table. -/

namespace Sys2Proof.Machine
open Sys2Proof

/-- Executes an instruction: a Plough or Drill word in an issue turn, or one step of the device. -/
def exec (i : Instr) (s : State) : Host.Outcome State Fault Refusal :=
  match i with
  | .nop w => Sys2Proof.Machine.execNop w s
  | .bra w => Sys2Proof.Machine.execBra w s
  | .call w => Sys2Proof.Machine.execCall w s
  | .jmpi w => Sys2Proof.Machine.execJmpi w s
  | .calli w => Sys2Proof.Machine.execCalli w s
  | .ret w => Sys2Proof.Machine.execRet w s
  | .exit w => Sys2Proof.Machine.execExit w s
  | .yield w => Sys2Proof.Machine.execYield w s
  | .trap w => Sys2Proof.Machine.execTrap w s
  | .eret w => Sys2Proof.Machine.execEret w s
  | .cinit w => Sys2Proof.Machine.execCinit w s
  | .csign w => Sys2Proof.Machine.execCsign w s
  | .cwait w => Sys2Proof.Machine.execCwait w s
  | .csrr w => Sys2Proof.Machine.execCsrr w s
  | .csrw w => Sys2Proof.Machine.execCsrw w s
  | .qent w => Sys2Proof.Machine.execQent w s
  | .iadd w => Sys2Proof.Machine.execIadd w s
  | .isub w => Sys2Proof.Machine.execIsub w s
  | .imul w => Sys2Proof.Machine.execImul w s
  | .imulh w => Sys2Proof.Machine.execImulh w s
  | .imad w x => Sys2Proof.Machine.execImad w x s
  | .imin w => Sys2Proof.Machine.execImin w s
  | .imax w => Sys2Proof.Machine.execImax w s
  | .xmov w x => Sys2Proof.Machine.execXmov w x s
  | .iaddi w => Sys2Proof.Machine.execIaddi w s
  | .iaddiWide w x => Sys2Proof.Machine.execIaddiWide w x s
  | .shli w => Sys2Proof.Machine.execShli w s
  | .shri w => Sys2Proof.Machine.execShri w s
  | .sari w => Sys2Proof.Machine.execSari w s
  | .bitc w x => Sys2Proof.Machine.execBitc w x s
  | .movi w => Sys2Proof.Machine.execMovi w s
  | .moviWide w x => Sys2Proof.Machine.execMoviWide w x s
  | .icmp w x => Sys2Proof.Machine.execIcmp w x s
  | .sel w x => Sys2Proof.Machine.execSel w x s
  | .and w => Sys2Proof.Machine.execAnd w s
  | .or w => Sys2Proof.Machine.execOr w s
  | .xor w => Sys2Proof.Machine.execXor w s
  | .shl w => Sys2Proof.Machine.execShl w s
  | .shr w => Sys2Proof.Machine.execShr w s
  | .sar w => Sys2Proof.Machine.execSar w s
  | .bfx w x => Sys2Proof.Machine.execBfx w x s
  | .bfi w x => Sys2Proof.Machine.execBfi w x s
  | .fadd w => Sys2Proof.Machine.execFadd w s
  | .faddWide w x => Sys2Proof.Machine.execFaddWide w x s
  | .fsub w => Sys2Proof.Machine.execFsub w s
  | .fsubWide w x => Sys2Proof.Machine.execFsubWide w x s
  | .fmul w => Sys2Proof.Machine.execFmul w s
  | .fmulWide w x => Sys2Proof.Machine.execFmulWide w x s
  | .ffma w x => Sys2Proof.Machine.execFfma w x s
  | .fmin w => Sys2Proof.Machine.execFmin w s
  | .fmax w => Sys2Proof.Machine.execFmax w s
  | .fcmp w x => Sys2Proof.Machine.execFcmp w x s
  | .fsgn w x => Sys2Proof.Machine.execFsgn w x s
  | .hadd w => Sys2Proof.Machine.execHadd w s
  | .haddWide w x => Sys2Proof.Machine.execHaddWide w x s
  | .hsub w => Sys2Proof.Machine.execHsub w s
  | .hsubWide w x => Sys2Proof.Machine.execHsubWide w x s
  | .hmul w => Sys2Proof.Machine.execHmul w s
  | .hmulWide w x => Sys2Proof.Machine.execHmulWide w x s
  | .hfma w x => Sys2Proof.Machine.execHfma w x s
  | .hmin w => Sys2Proof.Machine.execHmin w s
  | .hmax w => Sys2Proof.Machine.execHmax w s
  | .fcvt w x => Sys2Proof.Machine.execFcvt w x s
  | .icvt w x => Sys2Proof.Machine.execIcvt w x s
  | .rcp w => Sys2Proof.Machine.execRcp w s
  | .rcpWide w x => Sys2Proof.Machine.execRcpWide w x s
  | .rsq w => Sys2Proof.Machine.execRsq w s
  | .rsqWide w x => Sys2Proof.Machine.execRsqWide w x s
  | .sqrt w => Sys2Proof.Machine.execSqrt w s
  | .sqrtWide w x => Sys2Proof.Machine.execSqrtWide w x s
  | .ex2 w => Sys2Proof.Machine.execEx2 w s
  | .ex2Wide w x => Sys2Proof.Machine.execEx2Wide w x s
  | .lg2 w => Sys2Proof.Machine.execLg2 w s
  | .lg2Wide w x => Sys2Proof.Machine.execLg2Wide w x s
  | .sinp w => Sys2Proof.Machine.execSinp w s
  | .sinpWide w x => Sys2Proof.Machine.execSinpWide w x s
  | .cosp w => Sys2Proof.Machine.execCosp w s
  | .cospWide w x => Sys2Proof.Machine.execCospWide w x s
  | .tanh w => Sys2Proof.Machine.execTanh w s
  | .tanhWide w x => Sys2Proof.Machine.execTanhWide w x s
  | .vany w => Sys2Proof.Machine.execVany w s
  | .vall w => Sys2Proof.Machine.execVall w s
  | .vbal w => Sys2Proof.Machine.execVbal w s
  | .shfl w => Sys2Proof.Machine.execShfl w s
  | .shup w => Sys2Proof.Machine.execShup w s
  | .shdn w => Sys2Proof.Machine.execShdn w s
  | .shxr w => Sys2Proof.Machine.execShxr w s
  | .scan w x => Sys2Proof.Machine.execScan w x s
  | .red w x => Sys2Proof.Machine.execRed w x s
  | .matchv w => Sys2Proof.Machine.execMatchv w s
  | .elect w => Sys2Proof.Machine.execElect w s
  | .idp4 w x => Sys2Proof.Machine.execIdp4 w x s
  | .idp8 w x => Sys2Proof.Machine.execIdp8 w x s
  | .ldp w => Sys2Proof.Machine.execLdp w s
  | .ldpWide w x => Sys2Proof.Machine.execLdpWide w x s
  | .stp w => Sys2Proof.Machine.execStp w s
  | .stpWide w x => Sys2Proof.Machine.execStpWide w x s
  | .lds w => Sys2Proof.Machine.execLds w s
  | .ldsWide w x => Sys2Proof.Machine.execLdsWide w x s
  | .sts w => Sys2Proof.Machine.execSts w s
  | .stsWide w x => Sys2Proof.Machine.execStsWide w x s
  | .ldc w => Sys2Proof.Machine.execLdc w s
  | .ldcWide w x => Sys2Proof.Machine.execLdcWide w x s
  | .stc w => Sys2Proof.Machine.execStc w s
  | .stcWide w x => Sys2Proof.Machine.execStcWide w x s
  | .ldx w => Sys2Proof.Machine.execLdx w s
  | .ldxWide w x => Sys2Proof.Machine.execLdxWide w x s
  | .stx w => Sys2Proof.Machine.execStx w s
  | .stxWide w x => Sys2Proof.Machine.execStxWide w x s
  | .ld w => Sys2Proof.Machine.execLd w s
  | .ldWide w x => Sys2Proof.Machine.execLdWide w x s
  | .st w => Sys2Proof.Machine.execSt w s
  | .stWide w x => Sys2Proof.Machine.execStWide w x s
  | .pref w => Sys2Proof.Machine.execPref w s
  | .prefWide w x => Sys2Proof.Machine.execPrefWide w x s
  | .discard w => Sys2Proof.Machine.execDiscard w s
  | .tagset w => Sys2Proof.Machine.execTagset w s
  | .tagsetWide w x => Sys2Proof.Machine.execTagsetWide w x s
  | .redm w x => Sys2Proof.Machine.execRedm w x s
  | .hld w => Sys2Proof.Machine.execHld w s
  | .hldWide w x => Sys2Proof.Machine.execHldWide w x s
  | .hst w => Sys2Proof.Machine.execHst w s
  | .hstWide w x => Sys2Proof.Machine.execHstWide w x s
  | .atom w x => Sys2Proof.Machine.execAtom w x s
  | .atomx w x => Sys2Proof.Machine.execAtomx w x s
  | .cas w x => Sys2Proof.Machine.execCas w x s
  | .casx w x => Sys2Proof.Machine.execCasx w x s
  | .waita w x => Sys2Proof.Machine.execWaita w x s
  | .waitc w x => Sys2Proof.Machine.execWaitc w x s
  | .waito w => Sys2Proof.Machine.execWaito w s
  | .sbar w => Sys2Proof.Machine.execSbar w s
  | .pbar w => Sys2Proof.Machine.execPbar w s
  | .msync w => Sys2Proof.Machine.execMsync w s
  | .kbinit w => Sys2Proof.Machine.execKbinit w s
  | .kbarr w => Sys2Proof.Machine.execKbarr w s
  | .kbwait w => Sys2Proof.Machine.execKbwait w s
  | .kbinv w => Sys2Proof.Machine.execKbinv w s
  | .send w => Sys2Proof.Machine.execSend w s
  | .recv w => Sys2Proof.Machine.execRecv w s
  | .plane w x => Sys2Proof.Machine.execPlane w x s
  | .unplane w x => Sys2Proof.Machine.execUnplane w x s
  | .mma w x => Sys2Proof.Machine.execMma w x s
  | .nanr w => Sys2Proof.Machine.execNanr w s
  | .hbind w => Sys2Proof.Machine.execHbind w s
  | .hperm w => Sys2Proof.Machine.execHperm w s
  | .hseed w => Sys2Proof.Machine.execHseed w s
  | .hbund w => Sys2Proof.Machine.execHbund w s
  | .hthr w => Sys2Proof.Machine.execHthr w s
  | .hdist w => Sys2Proof.Machine.execHdist w s
  | .hgwr w => Sys2Proof.Machine.execHgwr w s
  | .hqry w x => Sys2Proof.Machine.execHqry w x s
  | .stopt w => Sys2Proof.Machine.execStopt w s
  | .sret w => Sys2Proof.Machine.execSret w s
  | .dnop w => Sys2Proof.Machine.execDnop w s
  | .dbra w => Sys2Proof.Machine.execDbra w s
  | .dend w => Sys2Proof.Machine.execDend w s
  | .dloop w x => Sys2Proof.Machine.execDloop w x s
  | .dnext w => Sys2Proof.Machine.execDnext w s
  | .dwaito w => Sys2Proof.Machine.execDwaito w s
  | .aadd w => Sys2Proof.Machine.execAadd w s
  | .aaddi w => Sys2Proof.Machine.execAaddi w s
  | .aaddiWide w x => Sys2Proof.Machine.execAaddiWide w x s
  | .amovi w => Sys2Proof.Machine.execAmovi w s
  | .amoviWide w x => Sys2Proof.Machine.execAmoviWide w x s
  | .ashli w => Sys2Proof.Machine.execAshli w s
  | .amul w => Sys2Proof.Machine.execAmul w s
  | .dld w => Sys2Proof.Machine.execDld w s
  | .dldWide w x => Sys2Proof.Machine.execDldWide w x s
  | .dldx w => Sys2Proof.Machine.execDldx w s
  | .dldxWide w x => Sys2Proof.Machine.execDldxWide w x s
  | .dlds w => Sys2Proof.Machine.execDlds w s
  | .dldsWide w x => Sys2Proof.Machine.execDldsWide w x s
  | .dldc w => Sys2Proof.Machine.execDldc w s
  | .dldcWide w x => Sys2Proof.Machine.execDldcWide w x s
  | .dgath w x => Sys2Proof.Machine.execDgath w x s
  | .dpush w => Sys2Proof.Machine.execDpush w s
  | .dqbr w => Sys2Proof.Machine.execDqbr w s
  | .dcopy w => Sys2Proof.Machine.execDcopy w s
  | .dpref w => Sys2Proof.Machine.execDpref w s
  | .dprefWide w x => Sys2Proof.Machine.execDprefWide w x s
  | .park gid => Sys2Proof.Machine.execPark gid s
  | .stallRecheck core => Sys2Proof.Machine.execStallRecheck core s
  | .wakeQueueSeat core => Sys2Proof.Machine.execWakeQueueSeat core s
  | .wakeQueueAging gid => Sys2Proof.Machine.execWakeQueueAging gid s
  | .streamDeadlock gid => Sys2Proof.Machine.execStreamDeadlock gid s
  | .groupEnd gid => Sys2Proof.Machine.execGroupEnd gid s
  | .tbaseAdvance => Sys2Proof.Machine.execTbaseAdvance s
  | .stampSweep => Sys2Proof.Machine.execStampSweep s
  | .homeLoad gid rid part => Sys2Proof.Machine.execHomeLoad gid rid part s
  | .homeStore gid rid part => Sys2Proof.Machine.execHomeStore gid rid part s
  | .homeAtomic mc => Sys2Proof.Machine.execHomeAtomic mc s
  | .syncEngineRelease line => Sys2Proof.Machine.execSyncEngineRelease line s
  | .l2Fill line => Sys2Proof.Machine.execL2Fill line s
  | .l2Evict line => Sys2Proof.Machine.execL2Evict line s
  | .discardSliceComplete id mc => Sys2Proof.Machine.execDiscardSliceComplete id mc s
  | .loadReply gid rid part => Sys2Proof.Machine.execLoadReply gid rid part s
  | .loadValidation gid rid => Sys2Proof.Machine.execLoadValidation gid rid s
  | .storeStampReturn gid rid part => Sys2Proof.Machine.execStoreStampReturn gid rid part s
  | .windrowArrival stage port => Sys2Proof.Machine.execWindrowArrival stage port s
  | .winnowSplit stage => Sys2Proof.Machine.execWinnowSplit stage s
  | .drillLoadValidation gid rid => Sys2Proof.Machine.execDrillLoadValidation gid rid s
  | .gatherEntryFill gid rid => Sys2Proof.Machine.execGatherEntryFill gid rid s
  | .engineOpRetire gid cls => Sys2Proof.Machine.execEngineOpRetire gid cls s
  | .engineTake cluster => Sys2Proof.Machine.execEngineTake cluster s
  | .sheafDeadline cluster sheaf => Sys2Proof.Machine.execSheafDeadline cluster sheaf s
  | .sheafOperandsRead cluster sheaf => Sys2Proof.Machine.execSheafOperandsRead cluster sheaf s
  | .groupEvict gid => Sys2Proof.Machine.execGroupEvict gid s
  | .plotResume pid => Sys2Proof.Machine.execPlotResume pid s
  | .uncorrectableConsumption gid rid => Sys2Proof.Machine.execUncorrectableConsumption gid rid s
  | .shadowDivergence gid => Sys2Proof.Machine.execShadowDivergence gid s
  | .rollback pid => Sys2Proof.Machine.execRollback pid s
  | .networkDeadlockDetect routers => Sys2Proof.Machine.execNetworkDeadlockDetect routers s
  | .networkDeadlockRecover routers => Sys2Proof.Machine.execNetworkDeadlockRecover routers s
  | .channelSlotArrive lid ch => Sys2Proof.Machine.execChannelSlotArrive lid ch s
  | .cheadWrite h addr => Sys2Proof.Machine.execCheadWrite h addr s
  | .cctlGo h => Sys2Proof.Machine.execCctlGo h s
  | .copyRecordFetch h => Sys2Proof.Machine.execCopyRecordFetch h s
  | .copyRecordComplete h => Sys2Proof.Machine.execCopyRecordComplete h s
  | .copyRecordFail h => Sys2Proof.Machine.execCopyRecordFail h s
  | .qtailDoorbell q value => Sys2Proof.Machine.execQtailDoorbell q value s
  | .queueEnable q en => Sys2Proof.Machine.execQueueEnable q en s
  | .queueCancel q => Sys2Proof.Machine.execQueueCancel q s
  | .launchEntryFetch q => Sys2Proof.Machine.execLaunchEntryFetch q s
  | .launchAdmit q => Sys2Proof.Machine.execLaunchAdmit q s
  | .plotPlace => Sys2Proof.Machine.execPlotPlace s
  | .launchComplete lid => Sys2Proof.Machine.execLaunchComplete lid s
  | .contextLoad ctx => Sys2Proof.Machine.execContextLoad ctx s
  | .contextLoadInvg ctx => Sys2Proof.Machine.execContextLoadInvg ctx s
  | .clwinWrite cluster code => Sys2Proof.Machine.execClwinWrite cluster code s
  | .clwinApply cluster => Sys2Proof.Machine.execClwinApply cluster s
  | .hsenWrite value => Sys2Proof.Machine.execHsenWrite value s
  | .hskick stream => Sys2Proof.Machine.execHskick stream s
  | .haywardStepBoundary stream => Sys2Proof.Machine.execHaywardStepBoundary stream s
  | .tlbShootdownPage ctx va => Sys2Proof.Machine.execTlbShootdownPage ctx va s
  | .tlbShootdownContext ctx => Sys2Proof.Machine.execTlbShootdownContext ctx s
  | .tlbShootdownAll => Sys2Proof.Machine.execTlbShootdownAll s
  | .tlbShootdownComplete => Sys2Proof.Machine.execTlbShootdownComplete s
  | .pageWalk core ctx va => Sys2Proof.Machine.execPageWalk core ctx va s
  | .mailboxDoorbell tail recs => Sys2Proof.Machine.execMailboxDoorbell tail recs s
  | .evheadWrite value => Sys2Proof.Machine.execEvheadWrite value s
  | .resume gid => Sys2Proof.Machine.execResume gid s
  | .handler gid => Sys2Proof.Machine.execHandler gid s
  | .kill gid => Sys2Proof.Machine.execKill gid s
  | .translationReply ctx va reply => Sys2Proof.Machine.execTranslationReply ctx va reply s
  | .victimReply pids => Sys2Proof.Machine.execVictimReply pids s
  | .quote nonce => Sys2Proof.Machine.execQuote nonce s
  | .fwstage image ok => Sys2Proof.Machine.execFwstage image ok s
  | .enterS4 => Sys2Proof.Machine.execEnterS4 s
  | .ckpt => Sys2Proof.Machine.execCkpt s
  | .checkpointWriteComplete => Sys2Proof.Machine.execCheckpointWriteComplete s
  | .restore q entry ranges => Sys2Proof.Machine.execRestore q entry ranges s
  | .restoreComplete => Sys2Proof.Machine.execRestoreComplete s
  | .deviceReset => Sys2Proof.Machine.execDeviceReset s
  | .bootStageComplete digest ok => Sys2Proof.Machine.execBootStageComplete digest ok s
  | .powerStateEntry level unit => Sys2Proof.Machine.execPowerStateEntry level unit s
  | .powerWake => Sys2Proof.Machine.execPowerWake s
  | .hostWrite port pa bytes => Sys2Proof.Machine.execHostWrite port pa bytes s
  | .hostRead port pa n => Sys2Proof.Machine.execHostRead port pa n s
  | .cmapSetBoth src dst => Sys2Proof.Machine.execCmapSetBoth src dst s
  | .cmapSetHalf src dst sel => Sys2Proof.Machine.execCmapSetHalf src dst sel s
  | .cmapSetRelay src dst k => Sys2Proof.Machine.execCmapSetRelay src dst k s
  | .cmapChangeComplete src dst => Sys2Proof.Machine.execCmapChangeComplete src dst s
  | .colourFail src dst colour => Sys2Proof.Machine.execColourFail src dst colour s
  | .colourRetry src dst colour locks => Sys2Proof.Machine.execColourRetry src dst colour locks s
  | .heaterMargin src dst colour => Sys2Proof.Machine.execHeaterMargin src dst colour s
  | .recentreTimeout src dst colour => Sys2Proof.Machine.execRecentreTimeout src dst colour s
  | .peerQuiesce port => Sys2Proof.Machine.execPeerQuiesce port s
  | .peerQuiesced port => Sys2Proof.Machine.execPeerQuiesced port s
  | .peerResume port => Sys2Proof.Machine.execPeerResume port s
  | .peerTrainingComplete port dev ecc => Sys2Proof.Machine.execPeerTrainingComplete port dev ecc s
  | .peerEccPropose port => Sys2Proof.Machine.execPeerEccPropose port s
  | .eccProposeReceived port mode => Sys2Proof.Machine.execEccProposeReceived port mode s
  | .eccAckReceived port mode => Sys2Proof.Machine.execEccAckReceived port mode s
  | .eccProposeResend port => Sys2Proof.Machine.execEccProposeResend port s
  | .eccSwitchMarker port mode => Sys2Proof.Machine.execEccSwitchMarker port mode s
  | .eccWindowExpire port => Sys2Proof.Machine.execEccWindowExpire port s
  | .peerRequestArrive port req => Sys2Proof.Machine.execPeerRequestArrive port req s
  | .peerResponseArrive id status value => Sys2Proof.Machine.execPeerResponseArrive id status value s
  | .peerResendTimeout id => Sys2Proof.Machine.execPeerResendTimeout id s
  | .peerBusyRetry id => Sys2Proof.Machine.execPeerBusyRetry id s
  | .peerAccessTimeout id => Sys2Proof.Machine.execPeerAccessTimeout id s
  | .completionEntryExpire id => Sys2Proof.Machine.execCompletionEntryExpire id s
  | .gleanerVisit mc row => Sys2Proof.Machine.execGleanerVisit mc row s
  | .ceSecondExpire mc => Sys2Proof.Machine.execCeSecondExpire mc s
  | .watchadd pa => Sys2Proof.Machine.execWatchadd pa s
  | .rowAlert mc row => Sys2Proof.Machine.execRowAlert mc row s
  | .backoffEnd mc bank => Sys2Proof.Machine.execBackoffEnd mc bank s
  | .refreshWindow mc => Sys2Proof.Machine.execRefreshWindow mc s
  | .telsnap => Sys2Proof.Machine.execTelsnap s
  | .chipDrain port => Sys2Proof.Machine.execChipDrain port s
  | .chipDrainComplete port => Sys2Proof.Machine.execChipDrainComplete port s
  | .chipReset port => Sys2Proof.Machine.execChipReset port s
  | .chipSelftestComplete port pass => Sys2Proof.Machine.execChipSelftestComplete port pass s
  | .chipReturn port => Sys2Proof.Machine.execChipReturn port s
  | .chipletFail port => Sys2Proof.Machine.execChipletFail port s
  | .registerWrite off width value => Sys2Proof.Machine.execRegisterWrite off width value s
  | .l2Flush => Sys2Proof.Machine.execL2Flush s
  | .secondTierAccessTimeout gid rid => Sys2Proof.Machine.execSecondTierAccessTimeout gid rid s
  | .channelCreditArrive lid ch => Sys2Proof.Machine.execChannelCreditArrive lid ch s
  | .ringRelockComplete src dst colour => Sys2Proof.Machine.execRingRelockComplete src dst colour s
  | .peerFlitRetry port => Sys2Proof.Machine.execPeerFlitRetry port s
  | .fabricLinkRetry src dst => Sys2Proof.Machine.execFabricLinkRetry src dst s

end Sys2Proof.Machine
end

