-- ==== Sys2Proof/Safety.lean ====
section
/-! DEFINITION. The terms in which the statements speak of a step: when it is safe, when a word executes to its own effect, and
what words of one shape leave as it was. -/

namespace Sys2Proof.Machine
open Sys2Proof

/-! Safe steps and states. -/

/-- A step is safe: the machine goes on. -/
def State.safe (s : State) : Prop := ∃ t, step s = .next t
/-- Between steps no word is issuing (01 R14). -/
def State.resting (s : State) : Prop := s.issue = Issue.idle ∧ s.cur = Group.idle
/-- The memories of the homes and the tags are in canonical form. -/
def State.memoryWf (s : State) : Prop :=
  s.mem.glob.wf = true ∧ s.mem.chip.wf = true ∧ s.mem.scratch.wf = true ∧ s.mem.tags.wf = true

/-- The lane slices of a group's registers are in canonical form. -/
def GArch.slicesWf (a : GArch) : Bool := a.threads.all (fun t => t.slice.wf)
/-- Those of a group: as it stands, at its last plot barrier, and as kept with its store-class words. -/
def Group.slicesWf (g : Group) : Bool :=
  g.arch.slicesWf && (match g.shadow with | some a => a.slicesWf | none => true) && g.holds.all (fun h => h.snap.slicesWf)
/-- Every lane slice and every saved image of a plot is in canonical form, in the machine and in a checkpoint (01 R40, R42; 19 R376). -/
def State.imagesWf (s : State) : Prop :=
  (∀ g ∈ s.groups ++ s.ckpt.groups, g.slicesWf = true) ∧ ∀ p ∈ s.plots ++ s.ckpt.plots, p.image.wf = true

/-! When a word executes. -/

/-- The state in which the effect of a word begins: the threads of the issuing set stand after it, and the active threads have read
their queues (05 R118, R125). -/
def State.entry (s : State) (i : Instr) : State := s.enterWord s.snap i (s.lanes i)

/-- Where a thread of the issuing set goes: to the position after the word, or, where only the wait of its chain executes again, to
where that chain had taken it (05 R118; 09 R201). -/
def State.onward (s : State) (i : Instr) : Nat → Pos :=
  fun l => ((s.cur.thread l).redoAt s.issue.chainPos).getD (s.issue.pos.after i.width)
/-- A Plough word may execute: its group is issuing it, it is legal where it stands (05 R138), every active lane is ready (01 R14), no
source traps (05 R129, 08 R185, 12 R277), and every thread of the issuing set goes to a packet within the limits of 17 R329. -/
def State.mayIssue (s : State) (i : Instr) : Bool :=
  s.issue.active && !s.issue.drill && !s.illegalHere i && (s.lanes i).all (fun l => s.laneReady s.snap i l) &&
  (srcTrap s.snap i (s.lanes i)).isNone && (tieTrap s.snap i (s.lanes i)).isNone &&
  (lanesOf s.issue.set).all (fun l => inRange s.rangeBase (s.onward i l).pc)
/-- A Plough word executes to its own effect: it may execute, and its effect does not wait for the accesses of its chain (05 R120, 08
R184). -/
def State.canIssue (s : State) (i : Instr) : Bool := s.mayIssue i && !(Instr.isLate i && s.issue.defers)
/-- A Drill word executes to its own effect: its group's Drill stream issues it, it is legal where it stands, and the packet after it
is within the limits. -/
def State.canDrill (s : State) (i : Instr) : Bool :=
  s.issue.active && s.issue.drill && !s.illegalHere i && inRange (s.launch s.cur.lid).dentry (s.issue.pos.after i.width).pc

/-! Frames of words. -/

/-- What a word that works lane by lane leaves as it was, where `dest` is where the threads of the issuing set go: memory, other
groups and every register of the machine outside the group; in the group all but threads, qb and FPMODE; of a thread all but
registers, predicates, pts, queue positions and the position; everything of threads that do not issue; the registers of inactive
threads; and queue positions and pts when no field names a queue. What a thread reads of its queues is what entering the word reads. -/
structure LaneWord (s t : State) (i : Instr) (dest : Nat → Pos) : Prop where
  outside : t = { s with cur := t.cur, issue := t.issue }
  chain : t.issue = { s.issue with chain := s.issue.chain ++ [i] }
  group : t.cur = { s.cur with arch := t.cur.arch }
  arch : t.cur.arch = { s.cur.arch with threads := t.cur.arch.threads, qb := t.cur.arch.qb, fpmode := t.cur.arch.fpmode }
  thread : ∀ l, t.cur.thread l =
    { s.cur.thread l with v := (t.cur.thread l).v, p := (t.cur.thread l).p, pts := (t.cur.thread l).pts, qh := (t.cur.thread l).qh,
                          kept := (t.cur.thread l).kept, qbw := (t.cur.thread l).qbw, pos := (t.cur.thread l).pos, wnext := (t.cur.thread l).wnext }
  others : ∀ l, s.issue.set.getLsbD l = false → t.cur.thread l = s.cur.thread l
  moved : ∀ l, l < s.cur.arch.threads.length → s.issue.set.getLsbD l = true → (t.cur.thread l).target = dest l
  inactive : ∀ l, l ∉ s.lanes i → (t.cur.thread l).v = (s.cur.thread l).v ∧ (t.cur.thread l).p = (s.cur.thread l).p ∧
    (t.cur.thread l).pts = (s.cur.thread l).pts ∧ (t.cur.thread l).qh = (s.cur.thread l).qh ∧ (t.cur.thread l).qbw = (s.cur.thread l).qbw
  reads : ∀ l, (t.cur.thread l).pts = ((s.entry i).cur.thread l).pts ∧ (t.cur.thread l).qh = ((s.entry i).cur.thread l).qh ∧
    (t.cur.thread l).kept = ((s.entry i).cur.thread l).kept
  queues : (∀ x ∈ Instr.fields i, x.queue = none) → ∀ l, (t.cur.thread l).pts = (s.cur.thread l).pts ∧ (t.cur.thread l).qh = (s.cur.thread l).qh

/-- A word whose active lanes write the words `val l` to the registers from `d` on, full and without producer or mark (05 R128), and
whose flags join FPMODE; no other register, no predicate and, unless the field names qb, no back-queue entry changes; a word for qb is
pushed lane by lane (01 R32, 05 R124). -/
structure RegWord (s t : State) (i : Instr) (dest : Nat → Pos) (d : BitVec 6) (flags : Nat) (val : Nat → List Word) : Prop where
  lane : LaneWord s t i dest
  regs : ∀ l n, l < s.cur.arch.threads.length → n < 56 → n < (s.cur.thread l).v.length →
    (t.cur.thread l).getV n =
      if l ∈ s.lanes i ∧ d.toNat ≤ n ∧ n < d.toNat + (val l).length then ⟨(val l).getD (n - d.toNat) 0, true, 0, none⟩
      else (s.cur.thread l).getV n
  preds : ∀ l, (t.cur.thread l).p = (s.cur.thread l).p
  back : d.toNat ≠ 56 → t.cur.arch.qb = s.cur.arch.qb ∧ ∀ l, (t.cur.thread l).qbw = (s.cur.thread l).qbw
  pushed : d.toNat = 56 → (∀ l ∈ s.lanes i, (val l).length = 1) → t.cur.arch.qb =
    ((s.lanes i).foldl (fun g l => g.pushQb l ((val l).getD 0 0)) (s.entry i).cur).arch.qb
  flagged : t.cur.arch.fpmode = s.cur.arch.fpmode ||| BitVec.ofNat 32 flags

/-- A word whose active lanes write the predicate of its destination field, and whose flags join FPMODE; no register and no other
predicate changes. -/
structure PredWord (s t : State) (i : Instr) (d : BitVec 6) (flags : Nat) (val : Nat → Bool) : Prop where
  lane : LaneWord s t i (s.onward i)
  preds : ∀ l n, l < s.cur.arch.threads.length → n < 7 →
    (t.cur.thread l).getP n = if l ∈ s.lanes i ∧ n = d.toNat then val l else (s.cur.thread l).getP n
  regs : ∀ l, (t.cur.thread l).v = (s.cur.thread l).v
  back : t.cur.arch.qb = s.cur.arch.qb ∧ ∀ l, (t.cur.thread l).qbw = (s.cur.thread l).qbw
  flagged : t.cur.arch.fpmode = s.cur.arch.fpmode ||| BitVec.ofNat 32 flags

/-- A word that leaves every register and predicate of its threads as it was, moves them to `dest`, and changes the group's other
state to what `f` makes of it; nothing outside the group changes. -/
structure ArchWord (s t : State) (i : Instr) (dest : Nat → Pos) (f : GArch → GArch) : Prop where
  state : t = { s with
    cur := { s.cur with arch := { f s.cur.arch with threads := t.cur.arch.threads } },
    issue := { s.issue with chain := s.issue.chain ++ [i] } }
  thread : ∀ l, t.cur.thread l =
    { s.cur.thread l with pts := (t.cur.thread l).pts, qh := (t.cur.thread l).qh, kept := (t.cur.thread l).kept,
                          pos := (t.cur.thread l).pos, wnext := (t.cur.thread l).wnext }
  others : ∀ l, s.issue.set.getLsbD l = false → t.cur.thread l = s.cur.thread l
  moved : ∀ l, l < s.cur.arch.threads.length → s.issue.set.getLsbD l = true → (t.cur.thread l).target = dest l
  inactive : ∀ l, l ∉ s.lanes i → (t.cur.thread l).pts = (s.cur.thread l).pts ∧ (t.cur.thread l).qh = (s.cur.thread l).qh
  reads : ∀ l, (t.cur.thread l).pts = ((s.entry i).cur.thread l).pts ∧ (t.cur.thread l).qh = ((s.entry i).cur.thread l).qh ∧
    (t.cur.thread l).kept = ((s.entry i).cur.thread l).kept
  queues : (∀ x ∈ Instr.fields i, x.queue = none) → ∀ l, (t.cur.thread l).pts = (s.cur.thread l).pts ∧ (t.cur.thread l).qh = (s.cur.thread l).qh

/-! The terms of the statements. -/

/-- A lane's source as a number: a pair when `x`, else one register (05 R127). -/
def State.num (s : State) (x : Bool) (f : BitVec 6) (l : Nat) : Nat := (s.snap.srcX x f l).toNat
/-- The same read as two's complement. -/
def State.int (s : State) (x : Bool) (f : BitVec 6) (l : Nat) : Int := toSigned (if x then 64 else 32) (s.num x f l)
/-- The registers that take a number: one, or a pair when `x`, modulo their width. -/
def regsOf (x : Bool) (n : Nat) : List Word := if x then [BitVec.ofNat 32 n, BitVec.ofNat 32 (n / 2 ^ 32)] else [BitVec.ofNat 32 n]
/-- The registers that take an integer, as two's complement. -/
def regsOfInt (x : Bool) (i : Int) : List Word := regsOf x (i % 2 ^ 64).toNat
/-- The lanes of a word in the tile of lane `l`: tiles of 2^PART lanes (01 R37, 06 R164). -/
def State.tileOf (s : State) (i : Instr) (l : Nat) : List Nat :=
  (s.lanes i).filter (fun j => j / 2 ^ (s.snap.part.toNat % 8) == l / 2 ^ (s.snap.part.toNat % 8))
/-- The state after a word whose effect leaves `t`: the word joins its chain (05 R119). -/
def State.issued (s : State) (i : Instr) (t : State) : State := { t with issue := { t.issue with chain := s.issue.chain ++ [i] } }
/-- A word that can issue runs and writes registers. -/
def Writes (i : Instr) (d : BitVec 6) (flags : State → Nat) (val : State → Nat → List Word) : Prop :=
  ∀ s : State, s.canIssue i = true → ∃ t, exec i s = .next t ∧ RegWord s t i (s.onward i) d (flags s) (val s)
/-- A word that can issue runs and writes a predicate. -/
def Decides (i : Instr) (d : BitVec 6) (flags : State → Nat) (val : State → Nat → Bool) : Prop :=
  ∀ s : State, s.canIssue i = true → ∃ t, exec i s = .next t ∧ PredWord s t i d (flags s) (val s)
/-- A word that can issue runs and changes the group's state outside its threads. -/
def Sets (i : Instr) (f : State → GArch → GArch) : Prop :=
  ∀ s : State, s.canIssue i = true → ∃ t, exec i s = .next t ∧ ArchWord s t i (s.onward i) (f s)
/-- A word that raises no flag. -/
def noFlags : State → Nat := fun _ => 0
/-- The flags that the active lanes of a word raise (04 R102). -/
def laneFlags (i : Instr) (f : State → Nat → FRes) : State → Nat := fun s => flagsOf (s.lanes i) (fun l => (f s l).flags)
/-- A floating-point word that can issue writes the value and raises the flags of its lanes. -/
def Rounds (i : Instr) (d : BitVec 6) (f : State → Nat → FRes) : Prop :=
  Writes i d (laneFlags i f) (fun s l => [BitVec.ofNat 32 (f s l).val])
/-- A word that acts late, in a chain whose accesses are still to come, is kept for their end and has no effect yet (05 R120, 08 R184). -/
def Defers (i : Instr) (ok : State → Prop) : Prop := ∀ s : State, s.mayIssue i = true → s.issue.defers = true → s.lanes i ≠ [] → ok s →
  exec i s = .next (s.issued i { s.entry i with issue := { s.issue with late := s.issue.late ++ [(s.issue.pos.slot, i)] } })
/-- The bits of a lane's 32-bit source. -/
def State.bits32 (s : State) (f : BitVec 6) (l : Nat) : Nat := (s.snap.src f l).toNat
/-- The rounding mode of a word (04 R101). -/
def State.mode (s : State) (rnd : Nat) : Nat := s.snap.rmode rnd

/-- Where the threads of the issuing set go when the active ones jump. -/
def State.jumps (s : State) (i : Instr) (f : Nat → Pos) : Nat → Pos := fun l => if l ∈ s.lanes i then f l else s.onward i l
/-- The position after the word, as a position value (06 R147). -/
def State.returnValue (s : State) (i : Instr) : Nat := 4 * (s.issue.pos.after i.width).pc.toNat + (s.issue.pos.after i.width).slot

/-- The bytes of every memory and the allocation tags are those of another state. -/
def State.sameMemory (s t : State) : Prop :=
  t.mem.glob = s.mem.glob ∧ t.mem.chip = s.mem.chip ∧ t.mem.scratch = s.mem.scratch ∧ t.mem.tags = s.mem.tags
/-- A word that can issue and first checks its accesses, which `check` makes in the entered state: its effect `f` when they pass; the
trap of the check that fails; or nothing, with the request for a translation, while one is missing. -/
def Accesses {α : Type} (i : Instr) (check : State → State → Res α) (f : State → State → α → State) : Prop :=
  ∀ s : State, s.canIssue i = true →
    (∀ x, check s (s.entry i) = .ok x → exec i s = .next (s.issued i (f s (s.entry i) x))) ∧
    (∀ t, check s (s.entry i) = .trap t → exec i s = .next (s.trapWord t)) ∧
    (∀ m, check s (s.entry i) = .wait m → exec i s = .next (({ s with issue := { s.issue with blocked := true } } : State).askHost m))
/-- A load word: every active lane sends its load; one into qb holds its threads until the loads have performed (08 R184, R185). -/
def Loads (i : Instr) (w : PW) (x : Option PX) (sp : Space) : Prop :=
  let typ := memTyp x
  let off := memOff w x (typeSize typ)
  Accesses i
    (fun s e => e.targets s.snap sp w.a (s.lanes i) off (fun l => e.loadSize sp typ (s.snap.ea sp w.a l off))
      (if sp != .glob && typ == 12 then 16 else 1) (fun l => loadNeedAt typ w.d (s.snap.ea sp w.a l off)))
    (fun s e ts => ts.foldl (fun e p => e.sendLoad p.1 w.d typ (memHint x) (s.snap.ea sp w.a p.1 off) (loadParts s.snap p.1 p.2))
      (if w.d.toNat == 56 && !ts.isEmpty then e.startHold s.snap (s.lanes i) .qload (memHint x)
        (ts.map (fun p => ⟨p.1, (p.2.headD ({ space := sp, addr := 0 }, 0)).1, s.snap.ea sp w.a p.1 off, [], .unsent⟩)) else e))
/-- A store word to a space with homes: the accesses of its active lanes are issued. -/
def Stores (i : Instr) (w : PW) (x : Option PX) (sp : Space) : Prop :=
  let typ := memTyp x
  let off := memOff w x (typeSize typ)
  Accesses i
    (fun s e => e.targets s.snap sp w.a (s.lanes i) off (fun _ => typeSize typ) (if sp != .glob && typ == 12 then 16 else 1) (fun _ => storeNeed typ))
    (fun s e ts => e.issueStores s.snap (s.lanes i) .store (memHint x) (sp != .scratch)
      (ts.flatMap (fun p => storeParts p.1 (s.snap.ea sp w.a p.1 off) (s.snap.storeData w.d p.1 typ) p.2)))
/-- A store word to the lane slices: the bytes of each active lane's slice change at once. -/
def SliceStores (i : Instr) (w : PW) (x : Option PX) : Prop :=
  let typ := memTyp x
  let off := memOff w x (typeSize typ)
  Accesses i
    (fun s e => e.targets s.snap .slice w.a (s.lanes i) off (fun _ => typeSize typ) (if typ == 12 then 16 else 1) (fun _ => storeNeed typ))
    (fun s e _ => e.updLanes (s.lanes i) (fun l t =>
      { t with slice := t.slice.writeN ((s.num false w.a l : Int) + off).toNat (s.snap.storeData w.d l typ) }))
/-- TAGSET: the word's accesses to whole sectors, with the tag of each lane. -/
def SetsTags (i : Instr) (w : PW) (x : Option PX) : Prop :=
  Accesses i
    (fun s e => e.targets s.snap .glob w.a (s.lanes i) (memOff w x 32) (fun _ => 32) 32 (fun _ => { r := false, w := true, tagged := false }))
    (fun s e ts => e.issueStores s.snap (s.lanes i) .tagset 0 true (ts.flatMap (fun p =>
      storeParts p.1 (s.snap.eaGlobal w.a p.1 (memOff w x 32)) (List.replicate 32 (BitVec.ofNat 8 (s.num false w.d p.1 % 16))) p.2)))
/-- The line of a prefetch waits for no translation, and its home can be reached. -/
def State.prefetchGoes (s : State) (core ctx : Nat) (handler : Bool) (ea : DWord) : Prop :=
  let check := s.checkGlobal (holdersOf core) ctx handler 0 ea 1 { r := true, w := false }
  (∀ m, check ≠ .wait m) ∧ ∀ t n, check = .ok [(t, n)] → s.portServes (chipletOf core) (x4Line t) = true
/-- PREF: the fault of the lowest lane in the copy-channel page (10 R232); else each active lane's line is prefetched, and registers,
predicates and the bytes of memory stay; or nothing, with the request for a translation, while one is missing or a home cannot be
reached. -/
def Prefetches (i : Instr) (w : PW) (x : Option PX) : Prop := ∀ s : State, s.canIssue i = true →
  let ea (l : Nat) : DWord := s.snap.eaGlobal w.a l (memOff w x 4)
  let chan (l : Nat) : Bool := decide ((ea l).toNat < 2 ^ 60) && (s.ctx s.cur.ctx).inChan ((ea l).toNat % 2 ^ 56)
  let e := s.entry i
  let r := e.prefetches s.cur.core s.cur.ctx s.inHandler (memHint x) ((s.lanes i).map (fun l => (ea l, (e.cur.thread l).pts)))
  (∀ l, (s.lanes i).find? chan = some l → exec i s = .next (s.trapWord
    { Trap.access 0x0C l (ea l) false (((ea l).toNat % 2 ^ 56 - (s.ctx s.cur.ctx).chpage) / 32 % 256) with faddr := 0 })) ∧
  ((s.lanes i).find? chan = none →
    (∀ t, r = .ok t → exec i s = .next (s.issued i t) ∧ t.cur = e.cur ∧ s.sameMemory t) ∧
    (∀ m, r = .wait m → exec i s = .next (({ s with issue := { s.issue with blocked := true } } : State).askHost m)) ∧
    (∀ l, s.lanes i = [l] → e.prefetchGoes s.cur.core s.cur.ctx s.inHandler (ea l) → ∃ t, r = .ok t))

/-- The requests that an atomic word sends: those of the lanes that have not performed before (08 R185), merged (08 R196). -/
def atomicRequests (las : List LaneAtom) (gid rid ctx opa wid : Nat) (ra : Bool) : List AReq :=
  mergeWord ((las.filter (fun q => !q.peer)).map (fun q => q.req gid rid ctx opa wid ra))
/-- Requests stand at their core's port of its cluster's stage, after those that were there. -/
def State.sentTo (s t : State) (core : Nat) (rs : List AReq) : Prop :=
  (t.stage (clusterOf core)).arriving = (s.stage (clusterOf core)).arriving ++
    rs.map (fun r => { r with stage := clusterOf core, port := core % 8 }) ∧
  ∀ n, n ≠ clusterOf core → t.stage n = s.stage n
/-- ATOM, ATOMX, CAS or CASX of operation `opa`: when the accesses pass their checks and some lane has still to perform, the threads of
the issuing set are held, the destinations of those lanes are empty until the replies come, and the requests go to the cluster's
windrow stage; no byte of memory and no other register or predicate changes yet. -/
def Atomics (i : Instr) (w : PW) (x : PX) (sp : Space) (opa : Nat) : Prop :=
  let wid := x.m 5 4
  ∀ s : State, s.canIssue i = true →
    (∀ las, (s.entry i).laneAtoms s.snap sp w.a w.b x.vc (s.lanes i) opa wid = .ok las →
      let rid := s.sched.nextId
      ∃ t, exec i s = .next t ∧ s.sameMemory t ∧ (∀ l, (t.cur.thread l).p = (s.cur.thread l).p) ∧
        (las = [] → ∀ l, (t.cur.thread l).v = (s.cur.thread l).v ∧ (t.cur.thread l).hold = (s.cur.thread l).hold) ∧
        (las ≠ [] → t.issue = { s.issue with holdId := rid, chain := s.issue.chain ++ [i] } ∧
          s.sentTo t s.cur.core (atomicRequests las s.cur.gid rid s.cur.ctx opa wid w.x) ∧
          ∀ l, l < s.cur.arch.threads.length →
            (t.cur.thread l).hold = (if s.issue.set.getLsbD l then rid else (s.cur.thread l).hold) ∧
            ∀ n, n < 56 → n < (s.cur.thread l).v.length → (t.cur.thread l).getV n =
              if l ∈ las.map (·.lane) ∧ w.d.toNat < 56 ∧ w.d.toNat ≤ n ∧ n < w.d.toNat + widRegs wid then
                ⟨((s.cur.thread l).getV n).val, false, rid, none⟩ else (s.cur.thread l).getV n)) ∧
    (∀ t, (s.entry i).laneAtoms s.snap sp w.a w.b x.vc (s.lanes i) opa wid = .trap t → exec i s = .next (s.trapWord t))

/-- The state in which the effect of a Drill word begins: its stream stands after it. -/
def State.drillEntry (s : State) (i : Instr) : State := s.updDrill (fun d => { d with pos := s.issue.pos.after i.width })
/-- A Drill word that can issue runs, and changes the stream's own state and nothing else. -/
def Drills (i : Instr) (f : State → DrillSt → DrillSt) : Prop := ∀ s : State, s.canDrill i = true →
  exec i s = .next (s.issued i (s.updDrill (fun d => f s { d with pos := s.issue.pos.after i.width })))
/-- A load word of the Drill stream: a lane's check that fails traps; while its queue is full the stream waits; else the tail entry of
the queue is reserved, filled at once if no thread is live, and each Drill lane's load is in flight for it, with dts as its stamp. -/
def FillsQueue (i : Instr) (w : PW) (x : Option PX) (sp : Space) : Prop := ∀ s : State, s.canDrill i = true →
  let typ := memTyp x
  let off := memOff w x (typeSize typ)
  let q := w.d.toNat - 56
  let lanes := (List.range 32).filter (fun l => l < s.cur.width && (s.cur.thread l).live)
  let ea (l : Nat) : DWord := s.avec w.a l + BitVec.ofInt 64 off
  let check := s.drillTargets sp lanes typ ea (fun l => (s.avec w.a l).toInt + off)
  let u := s.cur.arch.q.getD q Queue.empty
  let e := s.drillEntry i
  (∀ t, check = .trap t → exec i s = .next (s.trapWord t)) ∧
  (8 ≤ u.ents.length → ∀ ts, check = .ok ts → exec i s = .next { s with issue := { s.issue with blocked := true } }) ∧
  (u.ents.length < 8 → ∀ ts, check = .ok ts →
    let ent : QEnt := { QEnt.blank with filled := lanes.isEmpty, stamp := s.dts }
    let recs := ts.mapIdx (fun k p => (⟨s.sched.nextId + k, p.1, 0, .queue q (u.base + u.ents.length), typ, memHint x, s.cur.ctx, ea p.1,
      p.2.map (fun r => ⟨r.1, r.2, .unsent⟩), s.dts, 0, []⟩ : LoadRec))
    exec i s = .next (s.issued i { e with
      sched := { s.sched with nextId := s.sched.nextId + ts.length },
      cur := { e.cur with arch := { e.cur.arch with q := e.cur.arch.q.modify q (fun u => { u with ents := u.ents ++ [ent] }) },
                          dloads := s.cur.dloads ++ recs } }))

end Sys2Proof.Machine
end

