-- ==== Sys2Proof/Certificates/Slice0/Obligations.lean ====
section
/-! DEFINITION. The statements. -/

open Sys2Proof Sys2Proof.Machine

/-! Decoding and the step. -/

/-- Words written out from the encodings of 06, 07, 09 and 10 decode to the instructions they stand for, and an unassigned opcode
is refused (05 R139, R140). -/
def Obligations.DecodedWords : Prop := decodePlough 0x36E40411 (some 0x7F0000D8) = .ok (.fcvt ⟨false, 7, 8, 2, false, 4, false, true⟩ ⟨false, 0x0000D8⟩, 2) ∧
  decodePlough 0x4BE5040D (some 0x7F100003) = .ok (.idp4 ⟨false, 7, 10, 2, false, 3, false, true⟩ ⟨false, 0x100003⟩, 2) ∧
  decodePlough 0x47630400 (some 0x7F000018) = .ok (.scan ⟨false, 3, 6, 2, false, 0, false, false⟩ ⟨false, 0x000018⟩, 2) ∧
  decodePlough 0x10E18404 none = .ok (.iadd ⟨false, 7, 3, 2, false, 1, false, false⟩, 1) ∧
  decodeDrill 0x00E00000 none = .ok (.dnop ⟨false, 7, 0, 0, false, 0, false, false⟩, 1) ∧
  decodePlough 0x7E000000 none = .error .unassigned ∧ decodePlough 0x7F000000 none = .error .strayExtension ∧
  decodePlough 0x14000000 none = .error .missingExtension

/-- Decoding the words of an instruction, by the map of its stream, gives the instruction, for every value of every field. -/
def Obligations.DecodeOfEncode : Prop := ∀ i : Instr, encode i ≠ [] → decodeWords i.isDrill (encode i) = some i

/-- A Plough turn of a core issues, for the ready threads at the chosen position of the first group that has any, the word that the
bytes there decode to: the step executes that instruction, ends the issue turn and counts the chain, with the reads of its fetch and of
the walks of its accesses (17 R337). A Drill turn does the same for the word at the position of the first Drill stream that may issue. -/
def Obligations.StepRunsTheWord : Prop :=
  (∀ (s : State) (c : Nat) (ts : List Turn) (g : Group) (gs : List Group) (i : Instr),
    s.sched.agenda = [] → s.sched.turn = .plough c :: ts →
    let s1 := { s with sched := { s.sched with turn := ts } }
    s1.ploughOrder c = g :: gs → s1.readyLanes g ≠ [] →
    let ready := s1.readyLanes g
    let p := choosePos g ready
    let issued := ready.filter (fun l => (g.thread l).pos == p)
    let g1 := { g.skips ready issued with lastSel := s.sched.cycle, stalled := false, resumed := false }
    let s2 := s1.issueState g1 false (maskOfList issued) p
    let s3 := { s2 with issue := { s2.issue with words := [(p.slot, i)] } }
    s2.fetchInstr g1 false p = .ok i → i.chainBit = false →
    ∀ t : State, exec i s3 = .next t → t.issue.trapped = false → t.issue.blocked = false →
      let u := (t.endIssue exec s2.cur.arch).count (telBlock (chipletOf g.core) + 8) 1
      step s = .next ((u.countFetch g1 p [p.slot]).countWalks g.gid s.sched.nextId (maskOfList issued)).settled) ∧
  (∀ (s : State) (c : Nat) (ts : List Turn) (g : Group) (gs : List Group) (i : Instr),
    s.sched.agenda = [] → s.sched.turn = .drill c :: ts →
    let s1 := { s with sched := { s.sched with turn := ts } }
    s1.drillOrder c = g :: gs →
    let g1 := { g with dlastSel := s.sched.cycle }
    let s2 := s1.issueState g1 true 0 g.arch.drill.pos
    s2.fetchInstr g1 true g.arch.drill.pos = .ok i →
    ∀ t : State, exec i s2 = .next t → t.issue.trapped = false → t.issue.blocked = false →
      let u := t.endIssue exec g1.arch
      step s = .next ((u.countFetch g1 g.arch.drill.pos [g.arch.drill.pos.slot]).countWalks g.gid s.sched.nextId 0).settled)

/-- The machine never stops: from every state a step answers a next state. That a turn of the device takes only events that answer one is
the model's schedule (log 22). -/
def Obligations.StepAlwaysSafe : Prop := ∀ s : State, s.safe

/-- Every step keeps three invariants: between steps no word is issuing; the bytes of the homes and the allocation tags have their
canonical form; and so have every lane slice and every saved image of a plot, in the machine and in a checkpoint. -/
def Obligations.InvariantsKept : Prop := ∀ s t : State, step s = .next t →
  (s.resting → t.resting) ∧ (s.memoryWf → t.memoryWf) ∧ (s.imagesWf → t.imagesWf)

/-- After reset no word is issuing, no group, plot or launch is resident, so that there is no lane slice and no saved image, TBASE is 0, and
every byte of global memory, of the chip scratchpads and of the cores' scratchpads, and every allocation tag, reads 0. That memory reads 0
there is the model's choice (log 6). -/
def Obligations.ResetState : Prop := State.reset.resting ∧ State.reset.groups = [] ∧ State.reset.plots = [] ∧ State.reset.launches = [] ∧ State.reset.tbase = 0 ∧
  State.reset.ckpt.groups = [] ∧ State.reset.ckpt.plots = [] ∧ State.reset.memoryWf ∧ State.reset.imagesWf ∧
  ∀ a, State.reset.mem.glob.read a = 0 ∧ State.reset.mem.chip.read a = 0 ∧ State.reset.mem.scratch.read a = 0 ∧ State.reset.mem.tags.read a = 0

/-! Integer words. -/

/-- IADD, ISUB and IMUL wrap at 32 or 64 bits; IMULH gives bits 63:32 of the product; IMIN and IMAX choose; IMAD multiplies and adds in
its five forms. -/
def Obligations.IntegerArithmetic : Prop :=
  (∀ w : PW,
    Writes (.iadd w) w.d noFlags (fun s l => regsOf w.x (s.num w.x w.a l + s.num w.x w.b l)) ∧
    Writes (.isub w) w.d noFlags (fun s l => regsOfInt w.x ((s.num w.x w.a l : Int) - s.num w.x w.b l)) ∧
    Writes (.imul w) w.d noFlags (fun s l => regsOf w.x (s.num w.x w.a l * s.num w.x w.b l)) ∧
    Writes (.imulh w) w.d noFlags (fun s l =>
      if w.x then regsOfInt false (s.int false w.a l * s.int false w.b l / 2 ^ 32) else regsOf false (s.num false w.a l * s.num false w.b l / 2 ^ 32)) ∧
    Writes (.imin w) w.d noFlags (fun s l =>
      if w.x then regsOf false (min (s.num false w.a l) (s.num false w.b l)) else regsOfInt false (min (s.int false w.a l) (s.int false w.b l))) ∧
    Writes (.imax w) w.d noFlags (fun s l =>
      if w.x then regsOf false (max (s.num false w.a l) (s.num false w.b l)) else regsOfInt false (max (s.int false w.a l) (s.int false w.b l)))) ∧
  (∀ (w : PW) (x : PX),
    (x.m 2 0 = 0 → Writes (.imad w x) w.d noFlags (fun s l => regsOf false (s.num false w.a l * s.num false w.b l + s.num false x.vc l))) ∧
    (x.m 2 0 = 1 → Writes (.imad w x) w.d noFlags (fun s l =>
      regsOfInt false (max (-(2 ^ 31)) (min (2 ^ 31 - 1) (s.int false w.a l * s.int false w.b l + s.int false x.vc l))))) ∧
    (x.m 2 0 = 2 → Writes (.imad w x) w.d noFlags (fun s l =>
      regsOf false (min (2 ^ 32 - 1) (s.num false w.a l * s.num false w.b l + s.num false x.vc l)))) ∧
    (x.m 2 0 = 4 → Writes (.imad w x) w.d noFlags (fun s l => regsOf true (s.num false w.a l * s.num false w.b l + s.num true x.vc l))) ∧
    (x.m 2 0 = 5 → Writes (.imad w x) w.d noFlags (fun s l => regsOfInt true (s.int false w.a l * s.int false w.b l + s.int true x.vc l))))

/-- AND, OR and XOR act bit by bit; the shifts take the whole of vb as their amount, so that a shift by the width or more leaves zeros
or copies of the sign; IADDI and MOVI take 8-bit and 32-bit immediates, and the immediate shifts their width from W64 in bit 6. BITC
counts one bits, leading zeros or trailing zeros of 32 or 64 bits, or reverses them; BFX extracts a field with or without its sign, and
BFI inserts one. -/
def Obligations.LogicShiftsAndFields : Prop :=
  (∀ w : PW,
    Writes (.and w) w.d noFlags (fun s l => [s.snap.src w.a l &&& s.snap.src w.b l]) ∧
    Writes (.or w) w.d noFlags (fun s l => [s.snap.src w.a l ||| s.snap.src w.b l]) ∧
    Writes (.xor w) w.d noFlags (fun s l => [s.snap.src w.a l ^^^ s.snap.src w.b l]) ∧
    Writes (.shl w) w.d noFlags (fun s l => regsOf w.x (s.num w.x w.a l * 2 ^ s.num false w.b l)) ∧
    Writes (.shr w) w.d noFlags (fun s l => regsOf w.x (s.num w.x w.a l / 2 ^ s.num false w.b l)) ∧
    Writes (.sar w) w.d noFlags (fun s l => regsOfInt w.x (s.int w.x w.a l / 2 ^ s.num false w.b l))) ∧
  (∀ (w : PW) (x : PX),
    Writes (.iaddi w) w.d noFlags (fun s l => regsOfInt false ((s.num false w.a l : Int) + w.imm8.toInt)) ∧
    Writes (.iaddiWide w x) w.d noFlags (fun s l => regsOf false (s.num false w.a l + (x.body.toNat * 256 + w.imm8.toNat))) ∧
    Writes (.movi w) w.d noFlags (fun _ _ => regsOfInt false w.imm8.toInt) ∧
    Writes (.moviWide w x) w.d noFlags (fun _ _ => regsOf false (x.body.toNat * 256 + w.imm8.toNat)) ∧
    Writes (.shli w) w.d noFlags (fun s l => regsOf (w.imm8.getLsbD 6) (s.num (w.imm8.getLsbD 6) w.a l * 2 ^ (w.imm8.toNat % 64))) ∧
    Writes (.shri w) w.d noFlags (fun s l => regsOf (w.imm8.getLsbD 6) (s.num (w.imm8.getLsbD 6) w.a l / 2 ^ (w.imm8.toNat % 64))) ∧
    Writes (.sari w) w.d noFlags (fun s l => regsOfInt (w.imm8.getLsbD 6) (s.int (w.imm8.getLsbD 6) w.a l / 2 ^ (w.imm8.toNat % 64)))) ∧
  (∀ (w : PW) (x : PX),
    let n := if x.m 2 2 = 1 then 64 else 32
    let v (s : State) (l : Nat) : Nat := s.num (x.m 2 2 == 1) w.a l
    (x.m 1 0 = 0 → Writes (.bitc w x) w.d noFlags (fun s l => regsOf false ((List.range n).countP (fun i => (v s l).testBit i)))) ∧
    (x.m 1 0 = 1 → Writes (.bitc w x) w.d noFlags (fun s l => regsOf false (if v s l = 0 then n else n - 1 - (v s l).log2))) ∧
    (x.m 1 0 = 2 → Writes (.bitc w x) w.d noFlags (fun s l => regsOf false (((List.range n).find? (fun i => (v s l).testBit i)).getD n))) ∧
    (x.m 1 0 = 3 → Writes (.bitc w x) w.d noFlags (fun s l =>
      regsOf (x.m 2 2 == 1) (((List.range n).map (fun i => if (v s l).testBit i then 2 ^ (n - 1 - i) else 0)).sum)))) ∧
  (∀ (w : PW) (x : PX),
    let pos := x.m 4 0
    let len := x.m 10 5
    (x.m 11 11 = 0 → Writes (.bfx w x) w.d noFlags (fun s l => regsOf false (s.num false w.a l / 2 ^ pos % 2 ^ len))) ∧
    (x.m 11 11 = 1 → Writes (.bfx w x) w.d noFlags (fun s l => regsOfInt false (toSigned len (s.num false w.a l / 2 ^ pos)))) ∧
    Writes (.bfi w x) w.d noFlags (fun s l =>
      let mask : Word := BitVec.ofNat 32 (2 ^ len - 1)
      [(s.snap.src w.a l &&& ~~~(mask <<< pos)) ||| ((s.snap.src w.b l &&& mask) <<< pos)]))

/-- ICMP combines its comparison with a predicate, and negates; SEL chooses by a predicate; XMOV moves between register classes, a
scalar taking the value of the lowest active lane; a counter is read as it stood before the chain. -/
def Obligations.ComparesAndMoves : Prop :=
  (∀ (w : PW) (x : PX),
    let c (s : State) (l : Nat) : Bool :=
      let a := s.num w.x w.a l; let b := s.num w.x w.b l; let i := s.int w.x w.a l; let j := s.int w.x w.b l
      match x.m 3 0 with
      | 0 => a == b
      | 1 => a != b
      | 2 => decide (i < j)
      | 3 => decide (i ≤ j)
      | 4 => decide (j < i)
      | 5 => decide (j ≤ i)
      | 6 => decide (a < b)
      | 7 => decide (a ≤ b)
      | 8 => decide (b < a)
      | _ => decide (b ≤ a)
    Decides (.icmp w x) w.d noFlags (fun s l =>
      let p := s.snap.pred x.vc l
      (match x.m 5 4 with | 0 => c s l | 1 => c s l && p | 2 => c s l || p | _ => c s l != p) != (x.m 6 6 == 1))) ∧
  (∀ (w : PW) (x : PX),
    let v (s : State) (l : Nat) : Word :=
      match x.m 3 0 with
      | 0 => s.snap.src w.a l
      | 1 => s.snap.scalar w.a.toNat
      | 2 => if s.snap.pred w.a l then 1 else 0
      | 3 => (s.snap.cv w.a.toNat).decl
      | 4 => (s.snap.cv w.a.toNat).sign
      | _ => BitVec.ofNat 32 (s.cur.counterBefore s.issue.firstId (clsOf w.a.toNat))
    Writes (.sel w x) w.d noFlags (fun s l => regsOf w.x (if s.snap.pred x.vc l != (x.m 0 0 == 1) then s.num w.x w.a l else s.num w.x w.b l)) ∧
    (x.m 7 4 = 0 → Writes (.xmov w x) w.d noFlags (fun s l => [v s l])) ∧
    (x.m 7 4 = 1 → Sets (.xmov w x) (fun s a =>
      if s.lanes (.xmov w x) = [] then a
      else { a with s := a.s.set w.d.toNat (v s (lowestOf (s.lanes (.xmov w x)))) })) ∧
    (x.m 7 4 = 2 → Decides (.xmov w x) w.d noFlags (fun s l => v s l != 0)))

/-! Lane operations. -/

/-- The votes, ballots, MATCH and ELECT work on the participants of each tile; in the shuffles each lane takes va of its source lane
where that lane participates, and else its own. -/
def Obligations.VotesAndShuffles : Prop :=
  (∀ w : PW,
    Decides (.vany w) w.d noFlags (fun s l => (s.tileOf (.vany w) l).any (fun j => s.snap.pred w.a j)) ∧
    Decides (.vall w) w.d noFlags (fun s l => (s.tileOf (.vall w) l).all (fun j => s.snap.pred w.a j)) ∧
    Writes (.vbal w) w.d noFlags (fun s l => [maskOf (fun j => (s.tileOf (.vbal w) l).contains j && s.snap.pred w.a j)]) ∧
    Writes (.matchv w) w.d noFlags (fun s l => [maskOf (fun j => (s.tileOf (.matchv w) l).contains j && s.num w.x w.a j == s.num w.x w.a l)]) ∧
    Decides (.elect w) w.d noFlags (fun s l => (s.tileOf (.elect w) l).all (fun j => decide (l ≤ j)))) ∧
  (∀ w : PW,
    let t (s : State) : Nat := 2 ^ (s.snap.part.toNat % 8)
    let b (s : State) (l : Nat) : Nat := l / t s * t s
    let d (s : State) (l : Nat) : Nat := s.num false w.b l
    let take (s : State) (i : Instr) (l j : Nat) (own : Bool) : List Word :=
      regsOf w.x (if own || !(s.lanes i).contains j then s.num w.x w.a l else s.num w.x w.a j)
    Writes (.shfl w) w.d noFlags (fun s l => take s (.shfl w) l (b s l + d s l % t s) false) ∧
    Writes (.shup w) w.d noFlags (fun s l => take s (.shup w) l (l - d s l) (decide (t s ≤ d s l) || decide (l < b s l + d s l))) ∧
    Writes (.shdn w) w.d noFlags (fun s l => take s (.shdn w) l (l + d s l) (decide (t s ≤ d s l) || decide (b s l + t s ≤ l + d s l))) ∧
    Writes (.shxr w) w.d noFlags (fun s l => take s (.shxr w) l (b s l + ((l - b s l) ^^^ (d s l % t s))) false))

/-- RED gives every participant the tree's root, SCAN the combination of the prefix, and `.fadd` raises the flags of its additions. Of an
integer operation, RED combines the participants of the tile, and SCAN those up to the lane, or before it. Of `.fadd`, a node adds its
halves with a rounding of its own, a missing one as −0.0; a prefix of 2^b lanes is the node over them, and one of 2^b lanes more than a
multiple n of 2^(b+1) is the prefix of n combined with the node at n. -/
def Obligations.ScansAndReductions : Prop :=
  (∀ (w : PW) (x : PX),
    Writes (.red w x) w.d (fun s => flagsOf (s.lanes (.red w x)) (fun l => (redVal s.snap (s.lanes (.red w x)) w x l).flags))
      (fun s l => [BitVec.ofNat 32 ((redVal s.snap (s.lanes (.red w x)) w x l).val.getD (opnIdentity (x.m 3 0)))]) ∧
    Writes (.scan w x) w.d (fun s => flagsOf (s.lanes (.scan w x)) (fun l =>
        (redVal s.snap (s.lanes (.scan w x)) w x l).flags ||| (scanVal s.snap (s.lanes (.scan w x)) w x l).flags))
      (fun s l => [BitVec.ofNat 32 ((scanVal s.snap (s.lanes (.scan w x)) w x l).val.getD (opnIdentity (x.m 3 0)))])) ∧
  (∀ (w : PW) (x : PX),
    let o := x.m 3 0
    let op (a b : Nat) : Nat :=
      match o with
      | 0 => a + b
      | 1 => if toSigned 32 a ≤ toSigned 32 b then a else b
      | 2 => if toSigned 32 a ≤ toSigned 32 b then b else a
      | 3 => min a b
      | 4 => max a b
      | 5 => a &&& b
      | 6 => a ||| b
      | _ => a ^^^ b
    let start : Nat := match o with | 1 => 0x7FFF_FFFF | 2 => 0x8000_0000 | 3 => 0xFFFF_FFFF | 5 => 0xFFFF_FFFF | _ => 0
    let all (s : State) (js : List Nat) : List Word := regsOf false (js.foldl (fun acc j => op acc (s.num false w.a j)) start)
    o ≤ 7 →
      Writes (.red w x) w.d noFlags (fun s l => all s (s.tileOf (.red w x) l)) ∧
      (x.m 4 4 = 0 → Writes (.scan w x) w.d noFlags (fun s l => all s ((s.tileOf (.scan w x) l).filter (fun j => decide (j ≤ l))))) ∧
      (x.m 4 4 = 1 → Writes (.scan w x) w.d noFlags (fun s l => all s ((s.tileOf (.scan w x) l).filter (fun j => decide (j < l)))))) ∧
  (∀ (md : Nat) (v : Nat → Option Nat) (l k : Nat),
    let node := treeNode 8 md v
    let neg0 := 0x8000_0000
    let add (p q : TreeVal) : TreeVal :=
      let r := Fmt.f32.add md (p.val.getD neg0) (q.val.getD neg0)
      ⟨some r.val, p.flags ||| q.flags ||| r.flags⟩
    node 0 k = ⟨v k, 0⟩ ∧ node (l + 1) k = add (node l k) (node l (k + 2 ^ l)) ∧
    (let prefix_ (n : Nat) : Option TreeVal := treePrefix 8 md v n l 0 none
     prefix_ 0 = none ∧ (∀ b, b ≤ l → prefix_ (2 ^ b) = some (node b 0)) ∧
     ∀ b n, n ≠ 0 → 2 ^ (b + 1) ∣ n → n + 2 ^ b < 2 ^ (l + 1) → prefix_ (n + 2 ^ b) = (prefix_ n).map (fun p => add p (node b n))))

/-- IDP4 and IDP8: the exact total of the products and vc, clamped by `.sat` at the end, and else taken modulo 2^32. -/
def Obligations.PackedDotProducts : Prop := ∀ (w : PW) (x : PX),
  let sa := x.m 0 0 == 1
  let sb := x.m 1 1 == 1
  let el (sg : Bool) (bits i v : Nat) : Int := if sg then toSigned bits (v / 2 ^ (bits * i)) else ((v / 2 ^ (bits * i) % 2 ^ bits : Nat) : Int)
  let total (n bits : Nat) (s : State) (l : Nat) : Int :=
    (if sa || sb then s.int false x.vc l else s.num false x.vc l) +
      ((List.range n).map (fun i => el sa bits i (s.num false w.a l) * el sb bits i (s.num false w.b l))).sum
  let clamp (t : Int) : Int :=
    if !w.x then t else if sa || sb then max (-(2 ^ 31)) (min (2 ^ 31 - 1) t) else max 0 (min (2 ^ 32 - 1) t)
  Writes (.idp4 w x) w.d noFlags (fun s l => regsOfInt false (clamp (total 4 8 s l))) ∧
  Writes (.idp8 w x) w.d noFlags (fun s l => regsOfInt false (clamp (total 8 4 s l)))

/-! Floating point. -/

/-- FADD, FSUB, FMUL, FFMA, FMIN and FMAX compute on FP32 in the word's rounding mode and join their flags to FPMODE; the 16-bit words
do the same to each half of a register, in FP16 or, with X, in BF16. -/
def Obligations.FloatArithmetic : Prop :=
  (∀ (w : PW) (x : PX),
    Rounds (.fadd w) w.d (fun s l => Fmt.f32.add (s.mode 0) (s.bits32 w.a l) (s.bits32 w.b l)) ∧
    Rounds (.faddWide w x) w.d (fun s l => Fmt.f32.add (s.mode x.rnd) (s.bits32 w.a l) (s.bits32 w.b l)) ∧
    Rounds (.fsub w) w.d (fun s l => Fmt.f32.sub (s.mode 0) (s.bits32 w.a l) (s.bits32 w.b l)) ∧
    Rounds (.fsubWide w x) w.d (fun s l => Fmt.f32.sub (s.mode x.rnd) (s.bits32 w.a l) (s.bits32 w.b l)) ∧
    Rounds (.fmul w) w.d (fun s l => Fmt.f32.mul (s.mode 0) (s.bits32 w.a l) (s.bits32 w.b l)) ∧
    Rounds (.fmulWide w x) w.d (fun s l => Fmt.f32.mul (s.mode x.rnd) (s.bits32 w.a l) (s.bits32 w.b l)) ∧
    Rounds (.ffma w x) w.d (fun s l =>
      Fmt.f32.fma (s.mode x.rnd) (x.m 0 0 == 1) (x.m 1 1 == 1) (s.bits32 w.a l) (s.bits32 w.b l) (s.bits32 x.vc l)) ∧
    Rounds (.fmin w) w.d (fun s l => Fmt.f32.minmax false w.x (s.bits32 w.a l) (s.bits32 w.b l)) ∧
    Rounds (.fmax w) w.d (fun s l => Fmt.f32.minmax true w.x (s.bits32 w.a l) (s.bits32 w.b l))) ∧
  (∀ (w : PW) (x : PX),
    let f : Fmt := if w.x then .bf16 else .f16
    let el (s : State) (r : BitVec 6) (l e : Nat) : Nat := s.bits32 r l / 2 ^ (16 * e) % 2 ^ 16
    let both (g : Nat → FRes) : FRes := ⟨(g 0).val + (g 1).val * 2 ^ 16, (g 0).flags ||| (g 1).flags⟩
    Rounds (.hadd w) w.d (fun s l => both (fun e => f.add (s.mode 0) (el s w.a l e) (el s w.b l e))) ∧
    Rounds (.haddWide w x) w.d (fun s l => both (fun e => f.add (s.mode x.rnd) (el s w.a l e) (el s w.b l e))) ∧
    Rounds (.hsub w) w.d (fun s l => both (fun e => f.sub (s.mode 0) (el s w.a l e) (el s w.b l e))) ∧
    Rounds (.hsubWide w x) w.d (fun s l => both (fun e => f.sub (s.mode x.rnd) (el s w.a l e) (el s w.b l e))) ∧
    Rounds (.hmul w) w.d (fun s l => both (fun e => f.mul (s.mode 0) (el s w.a l e) (el s w.b l e))) ∧
    Rounds (.hmulWide w x) w.d (fun s l => both (fun e => f.mul (s.mode x.rnd) (el s w.a l e) (el s w.b l e))) ∧
    Rounds (.hfma w x) w.d (fun s l => both (fun e =>
      f.fma (s.mode x.rnd) (x.m 0 0 == 1) (x.m 1 1 == 1) (el s w.a l e) (el s w.b l e) (el s x.vc l e))) ∧
    Rounds (.hmin w) w.d (fun s l => both (fun e => f.minmax false false (el s w.a l e) (el s w.b l e))) ∧
    Rounds (.hmax w) w.d (fun s l => both (fun e => f.minmax true false (el s w.a l e) (el s w.b l e))))

/-- Rounding to a multiple of 2^q: to the nearest with ties to even, toward zero, up, or down; inexact exactly when something is cut
off. A number rounded to a format is the multiple of the last place at its magnitude, or below the least normal of the subnormals' place,
with NX where something was cut off and UF where besides the value rounded without bound on the exponent is below the least normal; above
the range it is an infinity or the largest finite number, as the mode and the sign say, with OF and NX. A number that a format represents
is rounded to itself without a flag. Addition, subtraction, multiplication and fused multiply-add of finite numbers round the exact result
once, with the sign of a zero sum as 04 R101 has it; infinities and invalid operations, and NaN operands, give what 07 R171 and R172 say.
FMIN and FMAX choose between their operands. -/
def Obligations.RoundingAndNans : Prop :=
  (∀ (md : Nat) (neg : Bool) (m : Nat) (e q : Int), q ≤ e → roundTo md neg m e q false = (m * 2 ^ (e - q).toNat, false)) ∧
  (∀ (f : Fmt) (md : Nat) (neg : Bool) (m : Nat) (e : Int), f ∈ [Fmt.f32, Fmt.f16, Fmt.bf16, Fmt.e5m2] → 0 < m → md < 4 →
    let place (i : Int) : Int := i - (f.fb : Int)
    let q := place (max (expOf m e) f.emin)
    let r := roundTo md neg m e q false
    let free := roundTo md neg m e (place (expOf m e)) false
    let top : Int := (2 ^ f.eb : Int) - 2 - f.bias
    let out := f.round md neg m e
    (r.1 = 0 ∨ expOf r.1 q ≤ top →
      (∃ k h, f.unpack out.val = .fin neg k h ∧ k * 2 ^ (h - min h q).toNat = r.1 * 2 ^ (q - min h q).toNat) ∧
      out.flags = (if r.2 then fNX else 0) + (if r.2 && decide (expOf free.1 (place (expOf m e)) < f.emin) then fUF else 0)) ∧
    (r.1 ≠ 0 → top < expOf r.1 q → out.flags = fOF + fNX ∧ f.unpack out.val =
      if md = 0 ∨ (md = 2 ∧ neg = false) ∨ (md = 3 ∧ neg = true) then .inf neg else f.unpack (f.signed neg f.maxFin))) ∧
  (∀ (f : Fmt) (md a b c : Nat) (np nc : Bool), f ∈ [Fmt.f32, Fmt.f16, Fmt.bf16] →
    let signed (flip s : Bool) (m : Nat) (e q : Int) : Int := if flip then -(scaled s m e q) else scaled s m e q
    -- an exact sum in units of 2^q, rounded once; a zero keeps the sign of two zeros of one sign
    let sum (v q : Int) (alike sign : Bool) : FRes :=
      if v = 0 then ⟨f.signed (if alike then sign else decide (md = 3)) 0, 0⟩ else f.round md (decide (v < 0)) v.natAbs q
    let invalid : FRes := ⟨f.nan, fNV⟩
    let big (s : Bool) : FRes := ⟨f.signed s f.inf, 0⟩
    (∀ s m e t n h, f.unpack a = .fin s m e → f.unpack b = .fin t n h →
      let q := min e h
      let zeros := m = 0 ∧ n = 0
      f.add md a b = sum (scaled s m e q + scaled t n h q) q (decide (zeros ∧ s = t)) s ∧
      f.sub md a b = sum (scaled s m e q - scaled t n h q) q (decide (zeros ∧ s ≠ t)) s ∧
      f.mul md a b = (if m * n = 0 then ⟨f.signed (s != t) 0, 0⟩ else f.round md (s != t) (m * n) (e + h)) ∧
      (∀ u k j, f.unpack c = .fin u k j →
        let q := min (e + h) j
        f.fma md np nc a b c = sum (signed np (s != t) (m * n) (e + h) q + signed nc u k j q) q
          (decide (m * n = 0 ∧ k = 0 ∧ ((s != t) != np) = (u != nc))) ((s != t) != np)) ∧
      (∀ u, f.unpack c = .inf u → f.fma md np nc a b c = big (u != nc)) ∧
      ((f.unpack c).isNan = true → f.fma md np nc a b c = ⟨f.nan, if (f.unpack c).isSig then fNV else 0⟩)) ∧
    (∀ s t n h, f.unpack a = .inf s → f.unpack b = .fin t n h →
      f.add md a b = big s ∧ f.add md b a = big s ∧ f.sub md a b = big s ∧ f.sub md b a = big (!s) ∧
      f.mul md a b = (if n = 0 then invalid else big (s != t)) ∧ f.mul md b a = (if n = 0 then invalid else big (s != t)) ∧
      (n = 0 → f.fma md np nc a b c = invalid)) ∧
    (∀ s t, f.unpack a = .inf s → f.unpack b = .inf t →
      f.add md a b = (if s = t then big s else invalid) ∧ f.sub md a b = (if s = t then invalid else big s) ∧ f.mul md a b = big (s != t))) ∧
  (∀ (f : Fmt) (mx x : Bool) (a b : Nat), f ∈ [Fmt.f32, Fmt.f16, Fmt.bf16] → a < 2 ^ f.width → b < 2 ^ f.width →
    let out := f.minmax mx x a b
    let sig := (f.unpack a).isSig || (f.unpack b).isSig
    (∀ s m e t n h, f.unpack a = .fin s m e → f.unpack b = .fin t n h →
      let q := min e h
      let less := scaled s m e q < scaled t n h q ∨ (scaled s m e q = scaled t n h q ∧ s = true)
      (less → out = ⟨if mx then b else a, 0⟩) ∧ (¬ less → out = ⟨if mx then a else b, 0⟩)) ∧
    (∀ s, f.unpack a = .inf s → (f.unpack b).isNan = false → out = ⟨if s = mx then b else a, 0⟩) ∧
    (∀ s m e t, f.unpack a = .fin s m e → f.unpack b = .inf t → out = ⟨if t = mx then a else b, 0⟩) ∧
    ((f.unpack a).isNan = true → (f.unpack b).isNan = true → out = ⟨f.nan, if sig then fNV else 0⟩) ∧
    ((f.unpack a).isNan = true → (f.unpack b).isNan = false → out = ⟨if x then f.nan else b, if sig then fNV else 0⟩) ∧
    ((f.unpack a).isNan = false → (f.unpack b).isNan = true → out = ⟨if x then f.nan else a, if sig then fNV else 0⟩)) ∧
  (∀ (md : Nat) (neg : Bool) (m : Nat) (e q : Int), e < q →
    let d := 2 ^ (q - e).toNat
    let r := roundTo md neg m e q false
    let down := m / d
    let up := (m + d - 1) / d
    (md = 0 → 2 * (r.1 * d) ≤ 2 * m + d ∧ 2 * m ≤ 2 * (r.1 * d) + d ∧ (2 * (m % d) = d → r.1 % 2 = 0)) ∧
    (md = 1 → r.1 = down) ∧
    (md = 2 → r.1 = if neg then down else up) ∧
    (md = 3 → r.1 = if neg then up else down) ∧
    (r.2 = true ↔ m % d ≠ 0)) ∧
  (∀ (f : Fmt) (md x : Nat) (neg : Bool) (m : Nat) (e : Int),
    f ∈ [Fmt.f32, Fmt.f16, Fmt.bf16, Fmt.e5m2] → x < 2 ^ f.width → f.unpack x = .fin neg m e → f.round md neg m e = ⟨x, 0⟩) ∧
  (∀ (f : Fmt) (md a b c : Nat) (np nc : Bool), f ∈ [Fmt.f32, Fmt.f16, Fmt.bf16] →
    let sig2 := (f.unpack a).isSig || (f.unpack b).isSig
    ((f.unpack a).isNan || (f.unpack b).isNan) = true →
      f.add md a b = ⟨f.nan, if sig2 then fNV else 0⟩ ∧ f.sub md a b = ⟨f.nan, if sig2 then fNV else 0⟩ ∧
      f.mul md a b = ⟨f.nan, if sig2 then fNV else 0⟩ ∧
      f.fma md np nc a b c = ⟨f.nan, if sig2 || (f.unpack c).isSig then fNV else 0⟩)

/-- FCMP combines an FP32 comparison with a predicate and negates; the ordered comparisons raise NV for any NaN, the others for a
signalling one. FSGN acts on sign bits. -/
def Obligations.FloatCompareAndSign : Prop := ∀ (w : PW) (x : PX),
  let u (s : State) (l : Nat) : FVal := Fmt.f32.unpack (s.bits32 w.a l)
  let v (s : State) (l : Nat) : FVal := Fmt.f32.unpack (s.bits32 w.b l)
  let un (s : State) (l : Nat) : Bool := (u s l).isNan || (v s l).isNan
  let c (s : State) (l : Nat) : Int := (u s l).cmp (v s l)
  let truth (s : State) (l : Nat) : Bool :=
    match x.m 3 0 with
    | 0 => !un s l && c s l == 0
    | 1 => un s l || c s l != 0
    | 2 => !un s l && decide (c s l < 0)
    | 3 => !un s l && decide (c s l ≤ 0)
    | 4 => !un s l && decide (0 < c s l)
    | 5 => !un s l && decide (0 ≤ c s l)
    | 6 => un s l
    | _ => !un s l
  let nv (s : State) (l : Nat) : Bool :=
    if 2 ≤ x.m 3 0 && x.m 3 0 ≤ 5 then un s l else (u s l).isSig || (v s l).isSig
  let signs : Word := if w.x then 0x8000_8000 else 0x8000_0000
  Decides (.fcmp w x) w.d (fun s => flagsOf (s.lanes (.fcmp w x)) (fun l => if nv s l then fNV else 0)) (fun s l =>
    let p := s.snap.pred x.vc l
    (match x.m 5 4 with | 0 => truth s l | 1 => truth s l && p | 2 => truth s l || p | _ => truth s l != p) != (x.m 6 6 == 1)) ∧
  (x.m 1 0 = 0 → Writes (.fsgn w x) w.d noFlags (fun s l => [(s.snap.src w.a l &&& ~~~signs) ||| (s.snap.src w.b l &&& signs)])) ∧
  (x.m 1 0 = 1 → Writes (.fsgn w x) w.d noFlags (fun s l => [s.snap.src w.a l ^^^ signs])) ∧
  (x.m 1 0 = 2 → Writes (.fsgn w x) w.d noFlags (fun s l => [s.snap.src w.a l &&& ~~~signs])) ∧
  (x.m 1 0 = 3 → Writes (.fsgn w x) w.d noFlags (fun s l => [s.snap.src w.a l ^^^ (s.snap.src w.b l &&& signs)]))

/-- FCVT: to and from FP32, between the 16-bit formats, packing two or four elements, and rounding to an integral value. ICVT: between
FP32 and integers of 32 or 64 bits. Widening is exact and narrowing rounds once; an FP8 conversion does with results beyond its range, and
with infinities, what the table of 04 R104 says; a NaN gives the default NaN with its sign. An integer is rounded once; a number becomes
the integer that it rounds to, or the end of the target's range with NV alone, and a NaN 0 (07 R177, R178). -/
def Obligations.Conversions : Prop :=
  (∀ (src dst : Fmt) (md x : Nat) (sat s : Bool), src ∈ [Fmt.f32, Fmt.f16, Fmt.bf16, Fmt.e4m3, Fmt.e5m2] →
    dst ∈ [Fmt.f32, Fmt.f16, Fmt.bf16, Fmt.e4m3, Fmt.e5m2] → md < 4 →
    let out := convert src dst md sat x
    let byte := dst.width = 8
    let bits (y : Nat) : Nat := dst.signed s y
    (∀ g, src.unpack x = .nan s g → out = ⟨bits dst.nan, if g then fNV else 0⟩) ∧
    (src.unpack x = .inf s → out =
      if ¬ byte then ⟨bits dst.inf, 0⟩
      else if dst = .e4m3 then (if sat then ⟨bits 0x7E, fNX⟩ else ⟨bits 0x7F, fNV⟩)
      else if sat then ⟨bits 0x7B, fNX⟩ else ⟨bits 0x7C, 0⟩) ∧
    (∀ m e, src.unpack x = .fin s m e →
      (dst = .f32 → out.flags = 0 ∧ ∃ k h, Fmt.f32.unpack out.val = .fin s k h ∧ k * 2 ^ (h - min h e).toNat = m * 2 ^ (e - min h e).toNat) ∧
      (¬ byte → out = dst.round md s m e) ∧
      (byte → m = 0 → out = ⟨bits 0, 0⟩) ∧
      (byte → 0 < m →
        let q := max (expOf m e) dst.emin - (dst.fb : Int)
        let r := roundTo md s m e q false
        let largest : Nat := if dst = .e4m3 then 448 else 57344
        let away := largest * 2 ^ 16 < r.1 * 2 ^ (q + 16).toNat
        (¬ away → (∃ k h, dst.unpack out.val = .fin s k h ∧ k * 2 ^ (h - min h q).toNat = r.1 * 2 ^ (q - min h q).toNat) ∧ (out.flags &&& fNX = 0 ↔ r.2 = false)) ∧
        (away → out =
          if dst = .e4m3 then (if sat then ⟨bits 0x7E, fNX⟩ else ⟨bits 0x7F, fNV⟩)
          else if sat then ⟨bits 0x7B, fNX⟩
          else ⟨bits (if md = 0 ∨ (md = 2 ∧ s = false) ∨ (md = 3 ∧ s = true) then 0x7C else 0x7B), fOF + fNX⟩)))) ∧
  (∀ (md x : Nat), x < 2 ^ 32 →
    (∀ s g, Fmt.f32.unpack x = .nan s g → roundIntegral md x = ⟨0x7FC0_0000, if g then fNV else 0⟩) ∧
    (∀ s, Fmt.f32.unpack x = .inf s → roundIntegral md x = ⟨x, 0⟩) ∧
    (∀ s m e, Fmt.f32.unpack x = .fin s m e → (roundIntegral md x).flags = 0 ∧ ∃ k h,
      Fmt.f32.unpack (roundIntegral md x).val = .fin s k h ∧ k * 2 ^ (h - min h 0).toNat = (roundTo md s m e 0 false).1 * 2 ^ (0 - min h 0).toNat)) ∧
  (∀ (md : Nat) (i : Int), intToF32 md i = if i = 0 then ⟨0, 0⟩ else Fmt.f32.round md (decide (i < 0)) i.natAbs 0) ∧
  (∀ (md n x : Nat) (sg : Bool), n = 32 ∨ n = 64 →
    let lo : Int := if sg then -(2 ^ (n - 1)) else 0
    let hi : Int := if sg then 2 ^ (n - 1) - 1 else 2 ^ n - 1
    let gives (i : Int) (fl : Nat) : Prop := (f32ToInt md n sg x).flags = fl ∧ (f32ToInt md n sg x).val < 2 ^ n ∧
      ((f32ToInt md n sg x).val : Int) = i % 2 ^ n
    (∀ s g, Fmt.f32.unpack x = .nan s g → gives 0 fNV) ∧
    (∀ s, Fmt.f32.unpack x = .inf s → gives (if s then lo else hi) fNV) ∧
    (∀ s m e, Fmt.f32.unpack x = .fin s m e →
      let r := roundTo md s m e 0 false
      let i : Int := if s then -(r.1 : Int) else r.1
      (i < lo → gives lo fNV) ∧ (hi < i → gives hi fNV) ∧ (lo ≤ i → i ≤ hi → gives i (if r.2 then fNX else 0)))) ∧
  (∀ (w : PW) (x : PX), (Instr.fcvt w x).wf = true →
    let src := Fmt.ofType (x.m 3 0)
    let dst := Fmt.ofType (x.m 7 4)
    let a (s : State) (l : Nat) : Nat := s.bits32 w.a l
    let b (s : State) (l : Nat) : Nat := s.bits32 w.b l
    let two (g : Nat → FRes) : FRes := ⟨(g 0).val + (g 1).val * 2 ^ 16, (g 0).flags ||| (g 1).flags⟩
    (x.m 3 0 = 8 → x.m 7 4 = 8 → Rounds (.fcvt w x) w.d (fun s l => roundIntegral (s.mode x.rnd) (a s l))) ∧
    (x.m 3 0 = 8 → x.m 7 4 = 9 ∨ x.m 7 4 = 10 → Rounds (.fcvt w x) w.d (fun s l =>
      two (fun e => convert src dst (s.mode x.rnd) false (if e = 0 then a s l else b s l)))) ∧
    (x.m 3 0 = 8 → x.m 7 4 = 13 ∨ x.m 7 4 = 14 → Rounds (.fcvt w x) w.d (fun s l =>
      let el (e : Nat) : Nat := (if e < 2 then s.num true w.a l else s.num true w.b l) / 2 ^ (32 * (e % 2)) % 2 ^ 32
      let r (e : Nat) : FRes := convert src dst (s.mode x.rnd) w.x (el e)
      ⟨(r 0).val + (r 1).val * 2 ^ 8 + (r 2).val * 2 ^ 16 + (r 3).val * 2 ^ 24, (r 0).flags ||| (r 1).flags ||| (r 2).flags ||| (r 3).flags⟩)) ∧
    (x.m 3 0 ≠ 8 → x.m 7 4 = 8 → Rounds (.fcvt w x) w.d (fun s l =>
      convert src dst (s.mode x.rnd) false (a s l / 2 ^ (src.width * x.m 9 8) % 2 ^ src.width))) ∧
    (x.m 3 0 ≠ 8 → x.m 7 4 ≠ 8 → Rounds (.fcvt w x) w.d (fun s l =>
      two (fun e => convert src dst (s.mode x.rnd) false (a s l / 2 ^ (16 * e) % 2 ^ 16))))) ∧
  (∀ (w : PW) (x : PX), (Instr.icvt w x).wf = true →
    let wide (t : Nat) : Bool := t == 6 || t == 7
    (x.m 3 0 = 8 → Writes (.icvt w x) w.d
      (laneFlags (.icvt w x) (fun s l => f32ToInt (s.mode x.rnd) (if wide (x.m 7 4) then 64 else 32) (x.m 7 4 % 2 == 1) (s.bits32 w.a l)))
      (fun s l => regsOf (wide (x.m 7 4))
        (f32ToInt (s.mode x.rnd) (if wide (x.m 7 4) then 64 else 32) (x.m 7 4 % 2 == 1) (s.bits32 w.a l)).val)) ∧
    (x.m 3 0 ≠ 8 → Rounds (.icvt w x) w.d (fun s l =>
      intToF32 (s.mode x.rnd) (if x.m 3 0 % 2 == 1 then s.int (wide (x.m 3 0)) w.a l else s.num (wide (x.m 3 0)) w.a l))))

/-- The special functions write and flag what the function's result is in their grade and mode, whose bits are the model's free value
where the spec gives only a bound (log 13). Stated of that result: the special values of 04 R106 at NaNs, zeros, infinities and negative
arguments in both grades; in the accurate grade RCP of powers of two, SQRT of even powers of two, EX2 of integers with a normal result,
exact and without a flag; RSQ of even powers of two and LG2 of normal powers of two likewise, SINP of 0.5 and COSP of 1, which is the
model's choice where the spec gives only a bound on the error (log 13); in the fast grade, and in the accurate
grade under RNE or RTZ, RCP, SINP and TANH odd and COSP even on numbers; and no flag but NV and DZ from the fast grade. -/
def Obligations.SpecialFunctions : Prop :=
  (∀ (w : PW) (x : PX),
    let f (fn : Nat) (s : State) (l : Nat) : FRes := specialFn fn w.x (s.mode 0) (s.bits32 w.a l)
    let g (fn : Nat) (s : State) (l : Nat) : FRes := specialFn fn w.x (s.mode x.rnd) (s.bits32 w.a l)
    Rounds (.rcp w) w.d (f 0) ∧ Rounds (.rcpWide w x) w.d (g 0) ∧ Rounds (.rsq w) w.d (f 1) ∧ Rounds (.rsqWide w x) w.d (g 1) ∧
    Rounds (.sqrt w) w.d (f 2) ∧ Rounds (.sqrtWide w x) w.d (g 2) ∧ Rounds (.ex2 w) w.d (f 3) ∧ Rounds (.ex2Wide w x) w.d (g 3) ∧
    Rounds (.lg2 w) w.d (f 4) ∧ Rounds (.lg2Wide w x) w.d (g 4) ∧ Rounds (.sinp w) w.d (f 5) ∧ Rounds (.sinpWide w x) w.d (g 5) ∧
    Rounds (.cosp w) w.d (f 6) ∧ Rounds (.cospWide w x) w.d (g 6) ∧ Rounds (.tanh w) w.d (f 7) ∧ Rounds (.tanhWide w x) w.d (g 7)) ∧
  (∀ (acc : Bool) (md : Nat),
    let at_ (x : Nat) : List FRes := [0, 1, 2, 3, 4, 5, 6, 7].map (fun fn => specialFn fn acc md x)
    let inf := 0x7F800000
    let neg := 2 ^ 31
    let one := 0x3F800000
    let nan : FRes := ⟨0x7FC00000, fNV⟩
    at_ 0 = [⟨inf, fDZ⟩, ⟨inf, fDZ⟩, ⟨0, 0⟩, ⟨one, 0⟩, ⟨neg + inf, fDZ⟩, ⟨0, 0⟩, ⟨one, 0⟩, ⟨0, 0⟩] ∧
    at_ neg = [⟨neg + inf, fDZ⟩, ⟨neg + inf, fDZ⟩, ⟨neg, 0⟩, ⟨one, 0⟩, ⟨neg + inf, fDZ⟩, ⟨neg, 0⟩, ⟨one, 0⟩, ⟨neg, 0⟩] ∧
    at_ inf = [⟨0, 0⟩, ⟨0, 0⟩, ⟨inf, 0⟩, ⟨inf, 0⟩, ⟨inf, 0⟩, nan, nan, ⟨one, 0⟩] ∧
    at_ (neg + inf) = [⟨neg, 0⟩, nan, nan, ⟨0, 0⟩, nan, nan, nan, ⟨neg + one, 0⟩] ∧
    (∀ x, x < 2 ^ 32 → inf < x % 2 ^ 31 → ∀ r ∈ at_ x, r = ⟨0x7FC00000, if x.testBit 22 then 0 else fNV⟩) ∧
    (∀ x fn, 2 ^ 23 ≤ x → x < inf → fn = 1 ∨ fn = 2 ∨ fn = 4 → specialFn fn acc md (neg + x) = nan)) ∧
  (∀ md k : Nat, md < 4 → 1 ≤ k → k ≤ 254 →
    let pow2 := k * 2 ^ 23
    (k ≤ 253 → specialFn 0 true md pow2 = ⟨(254 - k) * 2 ^ 23, 0⟩) ∧
    (k % 2 = 1 → specialFn 1 true md pow2 = ⟨(381 - k) / 2 * 2 ^ 23, 0⟩ ∧ specialFn 2 true md pow2 = ⟨(k + 127) / 2 * 2 ^ 23, 0⟩) ∧
    specialFn 3 true md (intToF32 0 ((k : Int) - 127)).val = ⟨k * 2 ^ 23, 0⟩ ∧
    specialFn 4 true md pow2 = ⟨(intToF32 0 ((k : Int) - 127)).val, 0⟩ ∧
    specialFn 5 true md 0x3F000000 = ⟨0x3F800000, 0⟩ ∧ specialFn 6 true md 0x3F800000 = ⟨0xBF800000, 0⟩) ∧
  (∀ (acc : Bool) (md x : Nat), x < 2 ^ 31 → (Fmt.f32.unpack x).isNan = false →
    (acc = false ∨ md ≤ 1) →
    (∀ fn ∈ [0, 5, 7], (Fmt.f32.unpack (specialFn fn acc md x).val).isNan = false →
      (specialFn fn acc md (x + 2 ^ 31)).val = (specialFn fn acc md x).val ^^^ 2 ^ 31) ∧
    (specialFn 6 acc md (x + 2 ^ 31)).val = (specialFn 6 acc md x).val ∧
    (∀ fn, (specialFn fn false md x).flags ∈ [0, fNV, fDZ]))

/-! What every word shares. -/

/-- Entering a word moves the threads of the issuing set past it, or, where only the wait of its chain executes again, to where that
chain had taken them; the active ones read their queues, which changes their pts and queue heads when a field names a queue; nothing
else changes. A field that reads a queue takes the lane's word of the entry at the thread's head; the stamp of the entry joins the
thread's pts, and a pop moves the head on, or uses up the entry that a trap has given back, where a peek leaves it. A push into qb appends
an entry, or fills the lane's word of one that other lanes have begun. A word that is illegal where it stands raises the
illegal-instruction trap, whatever its opcode. A Plough word one of whose active lanes is not ready leaves everything as it was. A source
that is an empty register read with mode 1, or holds a fault mark, traps a ready Plough word: the first in order of lanes, then fields
(the model's reading, log 26); else a marked tie register does so. HGWR, HQRY, STOPT, SRET, ERET, YIELD, NANR.x, a CSRR of GTIE and a CSRW
of GTIE or of the trap state, in a chain whose accesses are still to come and with operands that do not trap, are kept for the end of
those accesses and have no effect yet (the model's reading, log 29). -/
def Obligations.EnteringAWord : Prop :=
  (∀ (w : PW) (x : PX),
    let low (s : State) (f : BitVec 6) (i : Instr) : Nat := s.num false f (lowestOf (s.lanes i))
    Defers (.hgwr w) (fun s => let v := low s w.b (.hgwr w)
      v < 2 ^ 18 ∧ (v / 1024 % 256 = 0 ∨ (w.x = false ∧ s.granted s.cur.ctx (v / 1024 % 256) = true)) ∧
      ∀ o, (s.cluster (clusterOf s.cur.core)).gran.find? (fun g => g.index == v % 1024) = some o → s.visible o s.cur.ctx = true) ∧
    Defers (.hqry w x) (fun s => let v := low s w.b (.hqry w x)
      v < 2 ^ 21 ∧ 1 ≤ v / 1024 % 2048 ∧ v / 1024 % 2048 ≤ 1024 ∧ v % 1024 + v / 1024 % 2048 ≤ 1024) ∧
    (let marks (i : Instr) (slot : BitVec 6) (s : State) : Prop := let l := s.launch s.cur.lid
       l.step = true ∧ s.streamBroken l.hstream = false ∧ ∀ k ∈ s.lanes i, l.batch.contains (s.num false slot k) = true ∧
         let t : Target := { space := .glob, addr := s.seqEntry l.hstream (s.num false slot k) }
         s.portServes (chipletOf s.cur.core) t = true ∧ s.bad t 16 = false
     Defers (.stopt w) (marks (.stopt w) w.b) ∧
     Defers (.sret w) (fun s => marks (.sret w) w.a s ∧ ∀ k ∈ s.lanes (.sret w), 16 ≤ s.num false w.b k ∧ s.num false w.b k ≤ 255)) ∧
    Defers (.eret w) (fun s => s.cur.trap.handler = true) ∧ Defers (.yield w) (fun _ => True) ∧
    (w.imm8.toNat = 0x13 → Defers (.csrr w) (fun _ => True)) ∧
    (w.x = true → Defers (.nanr w) (fun s => ∀ k ∈ s.lanes (.nanr w), s.num false w.a k ≤ 31)) ∧
    (w.imm8.toNat = 0x13 → Defers (.csrw w) (fun s => low s w.a (.csrw w) < 1024)) ∧
    (0x30 ≤ w.imm8.toNat → Defers (.csrw w) (fun _ => True))) ∧
  (∀ (s : State) (i : Instr),
    let t := s.entry i
    t = { s with cur := { s.cur with arch := { s.cur.arch with threads := t.cur.arch.threads } } } ∧
    t.cur.arch.threads.length = s.cur.arch.threads.length ∧
    (∀ l, let u := t.cur.thread l; u = { s.cur.thread l with pts := u.pts, qh := u.qh, kept := u.kept, pos := u.pos, wnext := u.wnext }) ∧
    (∀ l, s.issue.set.getLsbD l = false → t.cur.thread l = s.cur.thread l) ∧
    (∀ l, l < s.cur.arch.threads.length → s.issue.set.getLsbD l = true → (t.cur.thread l).target = s.onward i l) ∧
    (∀ l, l ∉ s.lanes i → (t.cur.thread l).pts = (s.cur.thread l).pts ∧ (t.cur.thread l).qh = (s.cur.thread l).qh) ∧
    ((∀ x ∈ Instr.fields i, x.queue = none) →
      ∀ l, (t.cur.thread l).pts = (s.cur.thread l).pts ∧ (t.cur.thread l).qh = (s.cur.thread l).qh) ∧
    (∀ (l : Nat) (x : Fld) (q : Nat), l ∈ s.lanes i → l < s.cur.arch.threads.length →
      (Instr.fields i).filter (fun y => y.queue.isSome) = [x] → x.queue = some q →
      let th := s.cur.thread l
      let u := t.cur.thread l
      let was := s.snap.thread l
      let back (th : Thread) : List (Nat × QEnt) := th.kept.filter (fun e => e.1 == q)
      u.pts = tmax th.pts ((s.snap.head q l).getD QEnt.blank).stamp ∧
      (x.m = true ∨ (th.redoAt s.issue.chainPos).isSome = true → u.qh = th.qh ∧ u.kept = th.kept) ∧
      (x.m = false → th.redoAt s.issue.chainPos = none →
        (back was = [] → u.qh = th.qh.set q (was.qh.getD q 0 + 1) ∧ u.kept = th.kept) ∧
        (back was ≠ [] → u.qh = th.qh ∧ ((back th).length = (back was).length → back u = (back th).drop 1))))) ∧
  (∀ (a : GArch) (f : BitVec 6) (l : Nat), 56 ≤ f.toNat →
    let q := f.toNat - 56
    let th := a.thread l
    let u := a.q.getD q Queue.empty
    let i := th.qh.getD q 0
    a.src f l = ((a.head q l).getD QEnt.blank).vals.getD l 0 ∧
    (th.kept.find? (fun e => e.1 == q) = none → u.base ≤ i → a.head q l = u.ents[i - u.base]?) ∧
    ∀ e, th.kept.find? (fun e => e.1 == q) = some e → a.head q l = some e.2) ∧
  (∀ (g : Group) (l : Nat) (x : Word), l < g.arch.threads.length → g.arch.qb.base ≤ (g.thread l).qbw →
    let t := g.pushQb l x
    let i := (g.thread l).qbw - g.arch.qb.base
    let old := g.arch.qb.ents.getD i QEnt.blank
    t = { g with arch := { g.arch with threads := t.arch.threads, qb := { g.arch.qb with ents := t.arch.qb.ents } } } ∧
    t.thread l = { g.thread l with qbw := (g.thread l).qbw + 1 } ∧ (∀ k, k ≠ l → t.thread k = g.thread k) ∧
    t.arch.qb.ents[i]? = some { old with vals := old.vals.set l x, written := old.written ||| BitVec.ofNat 32 (2 ^ l),
                                         stamp := if old.written = 0 then (g.thread l).pts else tmax old.stamp (g.thread l).pts } ∧
    t.arch.qb.ents.length = max g.arch.qb.ents.length (i + 1) ∧
    ∀ j, j ≠ i → j < g.arch.qb.ents.length → t.arch.qb.ents[j]? = g.arch.qb.ents[j]?) ∧
  (∀ (i : Instr) (s : State), i.words.isSome = true → s.issue.active = true →
    s.issue.drill = i.isDrill → s.illegalHere i = true → exec i s = .next (s.trapWord (Trap.of 0x01))) ∧
  (∀ (i : Instr) (s : State), i.words.isSome = true → i.isDrill = false → s.issue.active = true →
    s.issue.drill = false → s.illegalHere i = false → (∃ l ∈ s.lanes i, s.laneReady s.snap i l = false) →
    exec i s = .next { s with issue := { s.issue with blocked := true } }) ∧
  (∀ (i : Instr) (s : State) (t : Trap), i.words.isSome = true → i.isDrill = false →
    s.issue.active = true → s.issue.drill = false → s.illegalHere i = false → (∀ l ∈ s.lanes i, s.laneReady s.snap i l = true) →
    let sources := ((s.lanes i).flatMap (fun l => (Instr.fields i).filterMap (fun x => x.trap s.snap l))).head?
    (sources = some t ∨ sources = none ∧ tieTrap s.snap i (s.lanes i) = some t) →
    exec i s = .next (s.trapWord t))

/-- Taking a Plough trap outside handler mode: EPC, CAUSE, FADDR and DONE are written, DONE with the lanes that an earlier execution of the
chain's store-class word has performed; the issuing set becomes the handler set, each of its threads keeps the chain's position as its
return position and stands at slot 0 of packet TRAPH; a wait is kept for the return. -/
def Obligations.TakingATrap : Prop := ∀ (s : State) (t : Trap), s.issue.active = true → s.issue.drill = false →
  s.cur.trap.handler = false → (s.ctx s.cur.ctx).traph ≠ 0 → s.fsplit 2 = false → routeDriver t.code = false → s.issue.set ≠ 0 →
  t.poison = none →
  let u := s.trapWord t
  let entry := (s.launch s.cur.lid).pentry
  u.cur.arch = { s.cur.arch with threads := u.cur.arch.threads, trap := u.cur.trap } ∧
  u.cur.trap = { s.cur.trap with epc := epcOf entry s.issue.chainPos, cause := causeOf t s.issue.pos.slot false, faddr := t.faddr,
                                 done := t.done ||| s.cur.arch.replayed s.issue.set s.issue.chainPos, handler := true, hset := s.issue.set,
                                 kind := .plough } ∧
  u.cur = { s.cur with arch := u.cur.arch } ∧
  (∀ l, l < s.cur.arch.threads.length → u.cur.thread l =
    let th := s.cur.thread l
    if s.issue.set.getLsbD l then { th with
      ret := s.issue.chainPos, pos := ⟨(s.ctx s.cur.ctx).traph, 0⟩, wait := none, replayAt := none,
      susp := th.wait.map (fun w => (w, th.wnext, th.src)) } else th) ∧
  u.mem = s.mem ∧ u.groups = s.groups ∧ u.regs = s.regs ∧ u.issue = { s.issue with trapped := true }

/-- A trap with no handler (TRAPH 0), of a context whose traps the host takes, or of a code that always goes to the driver, posts an
escalation record, and the group waits for the driver with its threads where they stood. A trap in handler mode is a double trap: code
0x3F with the trap's own code in INFO goes to the driver, and EPC, the handler set and the return positions stay. The codes that always
go to the driver are 0x18 to 0x1A, 0x20 and 0x3F (17 R330). -/
def Obligations.TrapsForTheDriver : Prop :=
  (∀ code : Nat, routeDriver code = true ↔ code = 0x18 ∨ code = 0x19 ∨ code = 0x1A ∨ code = 0x20 ∨ code = 0x3F) ∧
  (∀ (s : State) (t : Trap), s.issue.active = true → s.issue.drill = false →
    s.cur.trap.handler = false → (s.ctx s.cur.ctx).traph = 0 ∨ s.fsplit 2 = true ∨ routeDriver t.code = true → t.poison = none →
    let u := s.trapWord t
    let done := t.done ||| s.cur.arch.replayed s.issue.set s.issue.chainPos
    u.cur.esc = some ⟨{ t with done := done }, s.issue.chainPos, .plough, false, false, s.issue.pos.slot, s.issue.set⟩ ∧
    u.cur.trap = { s.cur.trap with epc := epcOf (s.launch s.cur.lid).pentry s.issue.chainPos, cause := causeOf t s.issue.pos.slot false,
                                   faddr := t.faddr, done := done, hset := s.issue.set, kind := .plough } ∧ Pending.esc s.cur.gid ∈ u.mbox.pending ∧
    (∀ l, (u.cur.thread l).pos = (s.cur.thread l).pos ∧ (u.cur.thread l).v = (s.cur.thread l).v ∧ (u.cur.thread l).p = (s.cur.thread l).p) ∧
    u.mem = s.mem ∧ u.groups = s.groups) ∧
  (∀ (s : State) (t : Trap), s.issue.active = true → s.issue.drill = false →
    s.cur.trap.handler = true → t.poison = none →
    let u := s.trapWord t
    u.cur.trap = { s.cur.trap with cause := causeOf { t with code := 0x3F, info := t.code } s.issue.pos.slot false, faddr := t.faddr,
                                   done := t.done ||| s.cur.arch.replayed s.issue.set s.issue.chainPos } ∧
    u.cur.esc.isSome = true ∧ u.mem = s.mem ∧ (∀ l, l < s.cur.arch.threads.length → u.cur.thread l =
      if s.issue.set.getLsbD l then { s.cur.thread l with replayAt := none } else s.cur.thread l))

/-! Control words. -/

/-- NOP and CWAIT only move on; BRA moves the active threads to slot 0 of its target packet, and CALL does so with the position after
it in v54:v55. JMPI, CALLI and RET take each active thread to the position that its pair names, CALLI with the position after it in a
pair; a value that is no position, or for JMPI and CALLI not slot 0, raises the jump-target trap for the lowest such lane. -/
def Obligations.BranchesAndJumps : Prop :=
  (∀ w : PW,
    Sets (.nop w) (fun _ a => a) ∧ Sets (.cwait w) (fun _ a => a) ∧
    (∀ s : State, let target : Pos := ⟨((s.issue.pos.pc + w.off21.signExtend 64).setWidth 52).setWidth 64, 0⟩
      inRange s.rangeBase target.pc = true →
      (s.canIssue (.bra w) = true → ∃ t, exec (.bra w) s = .next t ∧ ArchWord s t (.bra w) (s.jumps (.bra w) (fun _ => target)) id) ∧
      (s.canIssue (.call w) = true → ∃ t, exec (.call w) s = .next t ∧
        RegWord s t (.call w) (s.jumps (.call w) (fun _ => target)) 54 0 (fun _ => regsOf true (s.returnValue (.call w)))))) ∧
  (∀ (w : PW) (s : State),
    let v (l : Nat) : Nat := s.num true w.a l
    let dest (l : Nat) : Pos := ⟨BitVec.ofNat 64 (v l / 4), v l % 4⟩
    let whole (l : Nat) : Prop := v l < 2 ^ 54 ∧ v l % 4 = 0
    let place (l : Nat) : Prop := v l < 2 ^ 54 ∧ v l % 4 ≠ 3
    let near (l : Nat) : Prop := inRange s.rangeBase (dest l).pc = true
    (s.canIssue (.jmpi w) = true → (∀ l ∈ s.lanes (.jmpi w), whole l ∧ near l) →
      ∃ t, exec (.jmpi w) s = .next t ∧ ArchWord s t (.jmpi w) (s.jumps (.jmpi w) dest) id) ∧
    (s.canIssue (.calli w) = true → (∀ l ∈ s.lanes (.calli w), whole l ∧ near l) →
      ∃ t, exec (.calli w) s = .next t ∧ RegWord s t (.calli w) (s.jumps (.calli w) dest) w.d 0 (fun _ => regsOf true (s.returnValue (.calli w)))) ∧
    (s.canIssue (.ret w) = true → (∀ l ∈ s.lanes (.ret w), place l ∧ near l) →
      ∃ t, exec (.ret w) s = .next t ∧ ArchWord s t (.ret w) (s.jumps (.ret w) dest) id) ∧
    (∀ l ∈ s.lanes (.jmpi w), s.canIssue (.jmpi w) = true → ¬ whole l → (∀ k ∈ s.lanes (.jmpi w), k < l → whole k) →
      exec (.jmpi w) s = .next (s.trapWord { code := 0x04, faddr := s.snap.src64 w.a l })) ∧
    (∀ l ∈ s.lanes (.calli w), s.canIssue (.calli w) = true → ¬ whole l → (∀ k ∈ s.lanes (.calli w), k < l → whole k) →
      exec (.calli w) s = .next (s.trapWord { code := 0x04, faddr := s.snap.src64 w.a l })) ∧
    (∀ l ∈ s.lanes (.ret w), s.canIssue (.ret w) = true → ¬ place l → (∀ k ∈ s.lanes (.ret w), k < l → place k) →
      exec (.ret w) s = .next (s.trapWord { code := 0x04, faddr := s.snap.src64 w.a l })))

/-- EXIT, in a chain whose earlier words hold nothing back and with no matrix round in progress: its active threads stop being live, and
their bits leave every convergence register, which completes a round that they leave complete. -/
def Obligations.ExitOfThreads : Prop := ∀ (w : PW) (s : State), s.canIssue (.exit w) = true → s.issue.holdId = 0 →
  (∀ l ∈ s.lanes (.exit w), (s.cur.thread l).wait = none) → (∀ c ∈ s.cur.arch.conv, c.matrix = false) →
  ∃ t, exec (.exit w) s = .next t ∧ t.issue = { s.issue with chain := s.issue.chain ++ [.exit w] } ∧
    (∀ l, l < s.cur.arch.threads.length →
      ((t.cur.thread l).live = true ↔ (s.cur.thread l).live = true ∧ l ∉ s.lanes (.exit w)) ∧
      ((s.cur.thread l).wait = none → (t.cur.thread l).v = (s.cur.thread l).v ∧ (t.cur.thread l).p = (s.cur.thread l).p)) ∧
    (∀ n, n < 16 → let gone := maskOfList (s.lanes (.exit w)); let c := s.cur.arch.cv n; let d := c.decl &&& ~~~gone; let g := c.sign &&& ~~~gone
      (t.cur.arch.cv n).decl = d ∧ (t.cur.arch.cv n).sign = if s.lanes (.exit w) ≠ [] ∧ g = d then 0 else g)

/-- YIELD with an active lane and a woken group at the head of the core's wake queue exchanges the two; else it only moves on. -/
def Obligations.YieldExchanges : Prop := ∀ (w : PW) (s : State), s.canIssue (.yield w) = true →
  (∀ (h : Group) (hs : List Group) (n : Nat), s.lanes (.yield w) ≠ [] → s.wakeQueue s.cur.core = h :: hs → s.cur.place = .slot n → h.gid ≠ s.cur.gid →
    exec (.yield w) s = .next (s.issued (.yield w) { s.entry (.yield w) with
      cur := { (s.entry (.yield w)).cur with place := .woken s.sched.cycle false },
      groups := s.groups.map (fun g => if g.gid == h.gid then { g with place := .slot n, seated := s.sched.cycle, readyAt := s.sched.cycle + 2, stalled := false } else g) })) ∧
  (s.lanes (.yield w) = [] ∨ s.wakeQueue s.cur.core = [] → ∃ t, exec (.yield w) s = .next t ∧ ArchWord s t (.yield w) (s.onward (.yield w)) id)

/-- TRAP with an active lane raises the trap of code 0x03 with INFO its immediate. ERET in handler mode ends it: the threads of the
handler set stand at EPC, or where they had been for a trap that was not the Plough's, a wait that the trap took from them going on,
and DONE is cleared. Elsewhere ERET is illegal. -/
def Obligations.TrapAndReturn : Prop := ∀ (w : PW) (s : State),
  (s.canIssue (.trap w) = true → s.lanes (.trap w) ≠ [] → exec (.trap w) s = .next (s.trapWord { code := 0x03, info := w.imm8.toNat })) ∧
  (s.canIssue (.eret w) = true → s.lanes (.eret w) ≠ [] → s.cur.trap.handler = false → exec (.eret w) s = .next (s.trapWord (Trap.of 0x01))) ∧
  (s.canIssue (.eret w) = true → s.lanes (.eret w) ≠ [] → s.cur.trap.handler = true → s.cur.trap.pending = none →
    let tr := s.cur.trap
    let entry := (s.launch s.cur.lid).pentry
    let p := epcPos entry tr.epc
    let dest (l : Nat) : Pos := if tr.kind = .plough then p else (s.cur.thread l).ret
    -- of a store-class word at EPC, the lanes that DONE names are not repeated where every thread of the set returns to it (08 R185)
    let skip (l : Nat) : Option Pos := if (∀ k ∈ lanesOf tr.hset, (s.cur.thread k).ret = p) ∧ tr.done.getLsbD l = true then some p else none
    let back (l : Nat) : Thread := let u := (s.cur.thread l).returnTo (dest l)
      if tr.kind = .plough then { u with replayAt := skip l } else u
    (∀ l, tr.hset.getLsbD l = true → (s.cur.thread l).wait = none) →
    (∀ l, s.issue.set.getLsbD l = true → tr.hset.getLsbD l = true) →
    ∃ t, exec (.eret w) s = .next t ∧
      t = { s with cur := { s.cur with arch := { s.cur.arch with threads := t.cur.arch.threads, trap := t.cur.arch.trap, drill := t.cur.arch.drill } },
                   issue := { s.issue with chain := s.issue.chain ++ [.eret w] } } ∧
      (∀ l, l < s.cur.arch.threads.length → t.cur.thread l =
        if tr.hset.getLsbD l then back l else s.cur.thread l) ∧
      (∀ l, (back l).pos = dest l ∧ (back l).v = (s.cur.thread l).v ∧ (back l).p = (s.cur.thread l).p ∧
        ((s.cur.thread l).susp = none → (back l).wait = none ∧ (back l).qh = (s.cur.thread l).qh)) ∧
      t.cur.arch.trap = { tr with handler := false, hset := 0, done := 0 } ∧
      t.cur.arch.drill = if tr.kind = .drill then
        { s.cur.arch.drill with pos := epcPos (s.launch s.cur.lid).dentry tr.epc, halted := false } else s.cur.arch.drill)

/-- CINIT declares, from the lowest active lane, the live lanes of a round; CSIGN signs for the active lanes, and completes the round when
every declared lane has signed; either raises the convergence trap where the round does not allow it. -/
def Obligations.ConvergenceRounds : Prop := ∀ (w : PW) (s : State), s.issue.holdId = 0 →
  let n := w.d.toNat
  let c := s.cur.arch.cv n
  let m (i : Instr) : Word := maskOfList (s.lanes i)
  let free (i : Instr) : Prop := m i &&& ~~~c.decl = 0 ∧ m i &&& c.sign = 0 ∧ ¬ (c.sign ≠ 0 ∧ c.matrix = true)
  (s.canIssue (.cinit w) = true → s.lanes (.cinit w) = [] ∨ c.sign = 0 → ∃ t, exec (.cinit w) s = .next t ∧
    ArchWord s t (.cinit w) (s.onward (.cinit w)) (fun a => if s.lanes (.cinit w) = [] then a else
      { a with conv := a.conv.set n { c with decl := s.snap.src w.a (lowestOf (s.lanes (.cinit w))) &&& s.cur.liveMask, sign := 0 } })) ∧
  (s.canIssue (.csign w) = true → s.lanes (.csign w) = [] ∨ free (.csign w) → ∃ t, exec (.csign w) s = .next t ∧
    ArchWord s t (.csign w) (s.onward (.csign w)) (fun a => if s.lanes (.csign w) = [] then a else
      { a with conv := a.conv.set n { c with sign := if c.sign ||| m (.csign w) = c.decl then 0 else c.sign ||| m (.csign w), matrix := false } })) ∧
  (s.canIssue (.cinit w) = true → s.lanes (.cinit w) ≠ [] → c.sign ≠ 0 → exec (.cinit w) s = .next (s.trapWord { code := 0x05, info := n })) ∧
  (s.canIssue (.csign w) = true → s.lanes (.csign w) ≠ [] → ¬ free (.csign w) → exec (.csign w) s = .next (s.trapWord { code := 0x05, info := n }))

/-- CSRR of every state register but GTIE writes the register's value; of GTIE it reads the cluster's Granary. CSRW writes the state
register from the lowest active lane: PART takes 1 to 5, a 1 clears an FPMODE flag, TIEH names one of 16, the trap registers take what
a handler gives them, and GTIE moves the cursor. QENT gives a word of the launch's batch descriptor, and NANR a NaN count, which with X
it clears. -/
def Obligations.StateRegisters : Prop :=
  (∀ w : PW,
    let value (s : State) (l : Nat) : Word :=
      let g := s.cur
      let n := w.imm8.toNat
      if n = 0x00 then BitVec.ofNat 32 l
      else if n = 0x01 then BitVec.ofNat 32 (g.idx + (g.width - 1) * 256)
      else if n = 0x02 then BitVec.ofNat 32 ((s.launch g.lid).groupCount - 1)
      else if n = 0x03 then BitVec.ofNat 32 (s.plot g.pid).index
      else if n = 0x04 then BitVec.ofNat 32 ((s.launch g.lid).plotCount - 1)
      else if n = 0x05 then BitVec.ofNat 32 g.core
      else if n = 0x06 then BitVec.ofNat 32 g.ctx
      else if n = 0x07 then BitVec.ofNat 32 g.prio
      else if n = 0x08 then BitVec.ofNat 32 (s.plot g.pid).rbcnt
      else if n = 0x10 then s.snap.part
      else if n = 0x11 then s.snap.fpmode
      else if n = 0x12 then s.snap.tieh
      else if n = 0x20 then (s.snap.thread l).pts
      else if n = 0x21 then s.tbase
      else if n = 0x22 then 0x0014_A00A
      else if n = 0x30 then s.snap.trap.epc
      else if n = 0x31 then s.snap.trap.cause
      else if n = 0x32 then s.snap.trap.faddr.extractLsb' 0 32
      else if n = 0x33 then s.snap.trap.faddr.extractLsb' 32 32
      else s.snap.trap.done
    (w.imm8.toNat ≠ 0x13 → Writes (.csrr w) w.d noFlags (fun s l => [value s l])) ∧
    (w.imm8.toNat = 0x13 → ∀ s : State, s.canIssue (.csrr w) = true → s.lanes (.csrr w) ≠ [] →
      exec (.csrr w) s = .next (s.issued (.csrr w) (((s.entry (.csrr w)).granHere (s.lanes (.csrr w)) false).writeLanes1 w.d (s.lanes (.csrr w))
        (fun _ => BitVec.ofNat 32 ((s.cluster (clusterOf s.cur.core)).cursor s.cur.ctx)))))) ∧
  (∀ (w : PW) (s : State), s.canIssue (.csrw w) = true → s.lanes (.csrw w) ≠ [] →
    let n := w.imm8.toNat
    let i : Instr := .csrw w
    let v := s.snap.src w.a (lowestOf (s.lanes i))
    let sets (f : GArch → GArch) : Prop := ∃ t, exec i s = .next t ∧ ArchWord s t i (s.onward i) f
    (n = 0x10 → 1 ≤ v.toNat → v.toNat ≤ 5 → sets (fun a => { a with part := v })) ∧
    (n = 0x11 → v &&& 0xFFFF_E0FC = 0 → sets (fun a => { a with fpmode := (a.fpmode &&& 0x1F00 &&& ~~~v) ||| (v &&& 3) })) ∧
    (n = 0x12 → v.toNat < 16 → sets (fun a => { a with tieh := v })) ∧
    (n = 0x30 → sets (fun a => { a with trap := { a.trap with epc := v } })) ∧
    (n = 0x31 → sets (fun a => { a with trap := { a.trap with cause := v &&& 0xFF0F_FFFF } })) ∧
    (n = 0x32 → sets (fun a => { a with trap := { a.trap with faddr := a.trap.faddr.extractLsb' 32 32 ++ v } })) ∧
    (n = 0x33 → sets (fun a => { a with trap := { a.trap with faddr := v ++ a.trap.faddr.extractLsb' 0 32 } })) ∧
    (n = 0x34 → sets (fun a => { a with trap := { a.trap with done := v } })) ∧
    (n = 0x13 → v.toNat < 1024 → exec i s = .next (s.issued i (((s.entry i).granHere (s.lanes i) true).updCluster (clusterOf s.cur.core)
      (fun c => { c with gtie := alSet c.gtie s.cur.ctx v.toNat }))))) ∧
  (∀ (w : PW) (s : State) (l : Nat) (ls : List Nat), s.issue.active = true → s.issue.drill = false →
    s.snap.active s.issue.set w.g = l :: ls →
    let n := w.imm8.toNat
    let v := s.snap.src w.a l
    let source : Fld := ⟨.src 1, w.a, w.am, true⟩
    source.holds s.snap l = false → source.trap s.snap l = none →
    (n = 0x10 ∧ (v.toNat = 0 ∨ 5 < v.toNat)) ∨ (n = 0x11 ∧ v &&& 0xFFFF_E0FC ≠ 0) ∨ (n = 0x12 ∧ 16 ≤ v.toNat) ∨ (n = 0x13 ∧ 1024 ≤ v.toNat) →
    exec (.csrw w) s = .next (s.trapWord (Trap.of 0x01))) ∧
  (∀ (w : PW) (s : State), s.canIssue (.qent w) = true →
    let b := (s.launch s.cur.lid).bdesc
    let k (l : Nat) : Nat := s.num false w.a l + w.imm8.toNat
    ((∀ l ∈ s.lanes (.qent w), k l < b.length) → ∃ t, exec (.qent w) s = .next t ∧
      RegWord s t (.qent w) (s.onward (.qent w)) w.d 0 (fun l => [b.getD (k l) 0])) ∧
    ((∃ l ∈ s.lanes (.qent w), b.length ≤ k l) → exec (.qent w) s = .next (s.trapWord (Trap.of 0x08)))) ∧
  (∀ (w : PW) (s : State), s.canIssue (.nanr w) = true →
    let i : Instr := .nanr w
    let k (l : Nat) : Nat := s.num false w.a l
    ((∃ l ∈ s.lanes i, 31 < k l) → exec i s = .next (s.trapWord (Trap.of 0x08))) ∧
    ((∀ l ∈ s.lanes i, k l ≤ 31) →
      let u := (s.entry i).writeLanes1 w.d (s.lanes i) (fun l => s.snap.nan.getD (k l) 0)
      exec i s = .next (s.issued i (if w.x then
        let ns := (s.lanes i).foldl (fun b l => b.set (k l) 0) u.cur.arch.nan
        { u with cur := { u.cur with arch := { u.cur.arch with nan := ns } } }
      else u))))

/-! Memory words as they issue. -/

/-- An access to a space other than global memory is checked against the bounds of its group, launch or context, then for alignment;
one that passes covers its bytes from their home byte on, cut at home lines. The checks of an access to global memory stand in the
order of 02 R67: address form, translation, permission, lease class, format, alignment; one that passes all and lies in one line goes
to its physical address, with its TAG where the page checks tags. -/
def Obligations.AccessChecks : Prop :=
  (∀ (s : State) (g : Group) (sp : Space) (lane n align : Nat) (o : Int) (wr : Bool), 0 < n → n ≤ 64 →
    let b := s.spaceBound g sp
    let ea : DWord := BitVec.ofInt 64 o
    (o < 0 ∨ b.1 < o + n → s.checkLocal g sp lane o n align wr = .trap (Trap.access b.2 lane ea wr)) ∧
    (0 ≤ o → o + n ≤ b.1 → o % align ≠ 0 → s.checkLocal g sp lane o n align wr = .trap (Trap.access 0x1E lane ea wr)) ∧
    (0 ≤ o → o + n ≤ b.1 → o % align = 0 → ∃ ts, s.checkLocal g sp lane o n align wr = .ok ts ∧
      (ts.map (·.2)).sum = n ∧ (ts.head?.map (fun p => p.1.addr)) = some (s.localByte g sp o.toNat) ∧
      ∀ p ∈ ts, p.1.space = sp ∧ 0 < p.2 ∧ p.1.tag = none)) ∧
  (∀ (s : State) (hs : List Holder) (x lane n : Nat) (handler : Bool) (ea : DWord) (need : Need),
    let a := ea.toNat
    let va := a % 2 ^ 56
    let check := s.checkGlobal hs x handler lane ea n need
    let fault (code : Nat) : Prop := check = .trap (Trap.access code lane ea need.w)
    let away : Prop := va + n ≤ (s.ctx x).chpage ∨ (s.ctx x).chpage + 8192 ≤ va
    (2 ^ 60 ≤ a → fault 0x10) ∧
    (a < 2 ^ 60 → 0 < n → va % 128 + n ≤ 128 → away →
      (∀ code level p, s.translate hs x va = .fault code level p →
        check = .trap { Trap.access code lane ea need.w level with poison := p }) ∧
      (∀ e, s.translate hs x va = .leaf e →
        let perm : Prop := (need.r = true → leafR e = true) ∧ (need.w = true → leafW e = true) ∧ (need.x = true → leafX e = true) ∧
          (handler = true ∨ leafU e = true)
        let lease : Prop := need.w = true → leafLc e ≠ 2
        let format : Prop := need.fmt (leafFmt e) = true
        let aligned : Prop := a % need.align (leafFmt e) = 0
        (¬ perm → fault 0x1B) ∧ (perm → ¬ lease → fault 0x1C) ∧ (perm → lease → ¬ format → fault 0x1D) ∧
        (perm → lease → format → ¬ aligned → fault 0x1E) ∧
        let tag : Option Nat := if need.tagged && leafTce e then some (a / 2 ^ 56) else none
        (perm → lease → format → aligned → check = .ok [(⟨.glob, leafPa e + va % leafSize e, e, tag⟩, n)]))))

/-- The load words of every space send the loads of their active lanes. Sending a load empties its destination registers, with the load
as their producer, and records it in flight with the thread's pts; loads to qb hold the threads of the issuing set, which is the model's
reading of 08 R185 (logs 18 and 44); nothing else changes, and no byte of memory. -/
def Obligations.LoadWords : Prop :=
  (∀ (w : PW) (x : PX),
    Loads (.ldp w) w none .slice ∧ Loads (.ldpWide w x) w (some x) .slice ∧ Loads (.lds w) w none .scratch ∧ Loads (.ldsWide w x) w (some x) .scratch ∧
    Loads (.ldc w) w none .cluster ∧ Loads (.ldcWide w x) w (some x) .cluster ∧ Loads (.ldx w) w none .chip ∧ Loads (.ldxWide w x) w (some x) .chip ∧
    Loads (.ld w) w none .glob ∧ Loads (.ldWide w x) w (some x) .glob) ∧
  (∀ (s : State) (lane typ hint : Nat) (d : BitVec 6) (ea : DWord) (parts : List LPart),
    lane < s.cur.arch.threads.length →
    let t := s.sendLoad lane d typ hint ea parts
    let th := s.cur.thread lane
    let id := s.sched.nextId
    let r : LoadRec := ⟨id, lane, 0, if d.toNat = 56 then .qb s.issue.holdId else .reg d, typ, hint, s.cur.ctx, ea, parts, th.pts, 0, if d.toNat < 56 then th.regs d.toNat (typeRegs typ) else []⟩
    let g : Group := { s.cur with arch := { s.cur.arch with threads := t.cur.arch.threads }, loads := s.cur.loads ++ [r] }
    t = { s with sched := { s.sched with nextId := id + 1 }, cur := g } ∧
    (∀ k, k ≠ lane → t.cur.thread k = s.cur.thread k) ∧
    (∀ n, n < th.v.length → (t.cur.thread lane).getV n =
      if d.toNat < 56 ∧ d.toNat ≤ n ∧ n < d.toNat + typeRegs typ then ⟨(th.getV n).val, false, id, none⟩ else th.getV n) ∧
    t.cur.thread lane = { th with v := (t.cur.thread lane).v })

/-- The store words store into a lane slice at once, and to the other spaces as accesses to the homes of their bytes. Issuing stores
changes no byte of memory: the accesses are recorded, the issuing core loses its L1 copies
of the lines, every thread of the issuing set is held (the model's reading of 08 R184, log 18), and a store beyond the plot ends its
interval's eligibility. -/
def Obligations.StoreWords : Prop :=
  (∀ (w : PW) (x : PX),
    SliceStores (.stp w) w none ∧ SliceStores (.stpWide w x) w (some x) ∧ Stores (.sts w) w none .scratch ∧ Stores (.stsWide w x) w (some x) .scratch ∧
    Stores (.stc w) w none .cluster ∧ Stores (.stcWide w x) w (some x) .cluster ∧ Stores (.stx w) w none .chip ∧ Stores (.stxWide w x) w (some x) .chip ∧
    Stores (.st w) w none .glob ∧ Stores (.stWide w x) w (some x) .glob ∧ SetsTags (.tagset w) w none ∧ SetsTags (.tagsetWide w x) w (some x)) ∧
  (∀ (s : State) (a : GArch) (lanes : List Nat) (kind : SKind) (hint : Nat) (beyond : Bool) (parts : List SPart),
    let t := s.issueStores a lanes kind hint beyond parts
    let id := s.sched.nextId
    s.sameMemory t ∧
    (parts = [] → t.cur = s.cur ∧ t.issue = s.issue) ∧
    (parts ≠ [] → t.issue = { s.issue with holdId := id } ∧
      (∀ l, l < s.cur.arch.threads.length → t.cur.thread l = if s.issue.set.getLsbD l then { s.cur.thread l with hold := id } else s.cur.thread l) ∧
      (∃ h, t.cur.holds = s.cur.holds ++ [h] ∧ h.id = id ∧ h.parts = parts ∧ h.kind = kind ∧ h.pos = s.issue.chainPos ∧ h.lanes = maskOfList lanes ∧ h.set = s.issue.set ∧
        h.words = s.issue.words) ∧
      (∀ p ∈ parts, p.tgt.space = .glob → ∀ c ∈ t.mem.l1, ¬ (c.core = s.cur.core ∧ c.line = p.tgt.addr / 128))) ∧
    (beyond = true → lanes ≠ [] → ∀ p ∈ t.plots, p.pid = s.cur.pid → p.eligible = false))

/-- PREF prefetches, or raises the fault of a lane in the copy-channel page; that it waits for a translation that the host has to give, and
for a home that a colour-map change holds back, is the model's choice (log 31). DISCARD sends its tensor to the twelve slices as an engine
operation; a tensor that DISCARD cannot name is an operand fault. -/
def Obligations.PrefetchAndDiscard : Prop := ∀ (w : PW) (x : PX), Prefetches (.pref w) w none ∧ Prefetches (.prefWide w x) w (some x) ∧
  ∀ s : State, s.canIssue (.discard w) = true →
    let lanes := s.lanes (.discard w)
    let n := s.num false w.a (lowestOf lanes)
    let e := s.entry (.discard w)
    (lanes ≠ [] → 1 ≤ n → n ≤ 4095 → ∃ t, exec (.discard w) s = .next t ∧ s.sameMemory t ∧ t.cur.arch = e.cur.arch ∧
      t.mem.discs = s.mem.discs ++ [⟨s.sched.nextId, s.cur.gid, s.cur.ctx, n, e.cur.latestPts lanes, List.range 12⟩] ∧
      t.cur.ops = s.cur.ops ++ [⟨s.sched.nextId, .ocp, e.cur.latestPts lanes, false, 12, [], [], []⟩] ∧
      ∀ p ∈ t.plots, p.pid = s.cur.pid → p.eligible = false) ∧
    (lanes ≠ [] → (n = 0 ∨ 4095 < n) → exec (.discard w) s = .next (s.trapWord (Trap.of 0x08))) ∧
    (lanes = [] → exec (.discard w) s = .next (s.issued (.discard w) e))

/-- ATOM, ATOMX, CAS and CASX send their requests and hold the threads of the issuing set (the model's reading of 08 R184, log 18). REDM sends its requests as an engine operation and holds
nothing: no register, predicate or byte of memory changes. -/
def Obligations.AtomicWords : Prop :=
  (∀ (w : PW) (x : PX), Atomics (.atom w x) w x .glob (x.m 3 0) ∧ Atomics (.atomx w x) w x .chip (x.m 3 0) ∧
    Atomics (.cas w x) w x .glob 16 ∧ Atomics (.casx w x) w x .chip 16) ∧
  (∀ (w : PW) (x : PX) (s : State) (las : List LaneAtom), s.canIssue (.redm w x) = true →
    let i : Instr := .redm w x
    let e := s.entry i
    let sp : Space := if x.m 6 6 = 1 then .chip else .glob
    e.laneAtoms s.snap sp w.a w.b w.b (s.lanes i) (x.m 3 0) (x.m 5 4) = .ok las →
    (las = [] → exec i s = .next (s.issued i e)) ∧
    (las ≠ [] → ∃ t, exec i s = .next t ∧ s.sameMemory t ∧ t.cur.arch = e.cur.arch ∧ t.issue = { s.issue with chain := s.issue.chain ++ [i] } ∧
      t.cur.ops = s.cur.ops ++ [⟨s.sched.nextId, .ord, e.cur.latestPts (s.lanes i), false, las.length, [], [], las.map (fun q => (q.tgt.leaf, q.ea))⟩] ∧
      s.sentTo t s.cur.core (mergeWord ((las.filter (fun q => !q.peer)).map (fun q =>
        { q.req s.cur.gid s.sched.nextId s.cur.ctx (x.m 3 0) (x.m 5 4) w.x with pts := e.cur.latestPts (s.lanes i) })))))

/-! Waits, barriers and channels. -/

/-- WAITO with its counter low enough joins the class's completion stamp to the active threads' pts, or raises the class's deferred fault
once. -/
def Obligations.WaitOnCounters : Prop := ∀ (w : PW) (s : State), s.canIssue (.waito w) = true →
  let i : Instr := .waito w
  let c := clsOf w.d.toNat
  (s.lanes i ≠ [] → s.cur.counter c ≤ w.imm8.toNat) ∧
  (s.lanes i = [] ∨ s.cur.deferredOf c = none → exec i s = .next (s.issued i ((s.entry i).updLanes (s.lanes i) (fun _ th =>
    { th with pts := tmax th.pts (s.cur.retired.getD c.num th.pts) })))) ∧
  (∀ tr, s.lanes i ≠ [] → s.cur.deferredOf c = some tr →
    let u : Group := { s.cur with deferred := dropDeferred c s.cur.deferred }
    exec i s = .next (s.issued i (({ s with cur := u } : State).trapWord { tr with defer := true })))

/-- WAITA and WAITC make the first load of each active lane, once the homes of their words can be reached; WAITC first raises the copy-error
trap of a notice that has woken the lane, or that stands at its counter's home, and a WAITA into qb the tag fault of a lane. One lane's
first load, where no tag differs: reached, it writes the value and, for WAITA, its predicate; else it arms a monitor on the word
and the thread waits at its chain. -/
def Obligations.WaitOnMemory : Prop :=
  (∀ (w : PW) (x : PX),
    let two := x.m 4 4 == 1
    let n := if two then 8 else 4
    let sp : Space := if x.m 5 5 = 1 then .chip else .glob
    Accesses (.waita w x) (fun s e => (e.waitTargets s.snap sp w (s.lanes (.waita w x)) n).bind fun ts =>
        if ts.all (fun p => e.portServes (chipletOf s.cur.core) p.2) then
          match e.waitQbTrap w.d n (fun l => s.snap.ea sp w.a l 0) ts with | some t => .trap t | none => .ok ts
        else .wait none)
      (fun s e ts => (e.waitAll n (fun l t => ⟨t, s.snap.ea sp w.a l 0, false, two, x.m 3 0, s.snap.srcX two w.b l, w.d, x.vc, s.issue.pos.slot, false,
          e.viaTo (chipletOf s.cur.core) t⟩) ts).keepHeads
        s.snap (.waita w x) (s.lanes (.waita w x))) ∧
    ∀ (s : State) (ts : List (Nat × Target)), s.canIssue (.waitc w x) = true →
      s.waitTargets s.snap .glob w (s.lanes (.waitc w x)) 8 = .ok ts →
      let notice (p : Nat × Target) : Option Notice :=
        match (s.cur.thread p.1).told with
        | some n => if n.1 = s.issue.chainPos ∧ n.2.counter = p.2.addr then some n.2 else s.noticeFor s.cur.gid p.2.addr
        | none => s.noticeFor s.cur.gid p.2.addr
      ((∀ p ∈ ts, notice p = none) → (∀ p ∈ ts, s.portServes (chipletOf s.cur.core) p.2 = true) → exec (.waitc w x) s = .next (s.issued (.waitc w x)
        (((s.entry (.waitc w x)).waitAll 8 (fun l t => ⟨t, s.snap.ea .glob w.a l 0, true, true, 0, s.snap.src64 w.b l, w.d, 0, s.issue.pos.slot, false,
            s.viaTo (chipletOf s.cur.core) t⟩) ts).keepHeads
          s.snap (.waitc w x) (s.lanes (.waitc w x))))) ∧
      (∀ nt, (ts.filterMap notice).head? = some nt →
        exec (.waitc w x) s = .next (s.issued (.waitc w x)
          ((s.dropNotice nt).trapWord { code := 0x0D, info := nt.status, faddr := nt.record })))) ∧
  (∀ (s : State) (lane : Nat) (w : AddrWait) (chain : Pos), lane < s.cur.arch.threads.length →
    s.tagMismatch w.tgt (if w.two then 8 else 4) = none →
    let n := if w.two then 8 else 4
    let v := ofBytes (s.peek w.tgt n)
    let reached : Bool := if w.counter then decide (w.cmp.toNat ≤ v) else condHolds w.cond (8 * n) (BitVec.ofNat 64 v) w.cmp
    let t := s.waitLane lane w chain
    let th := s.cur.thread lane
    let u := t.cur.thread lane
    s.sameMemory t ∧ (∀ k, k ≠ lane → t.cur.thread k = s.cur.thread k) ∧
    (reached = true → u.wait = th.wait ∧ u.pos = th.pos ∧ t.mem.monitors = s.mem.monitors ∧
      (w.counter = false → w.pd.toNat < 7 → u.getP w.pd.toNat = true) ∧
      (∀ k, k < 56 → k < th.v.length → w.d.toNat + (if w.counter then 2 else n / 4) ≤ 56 → u.getV k =
        if w.d.toNat ≤ k ∧ k < w.d.toNat + (if w.counter then 2 else n / 4) then ⟨BitVec.ofNat 32 (v / 2 ^ (32 * (k - w.d.toNat))), true, 0, none⟩
        else th.getV k)) ∧
    (reached = false → u.wait = some (.addr w) ∧ u.pos = chain ∧ u.wnext = th.target ∧ u.v = th.v ∧ u.p = th.p ∧
      ∃ b o, t.mem.monitors = s.mem.monitors ++ [⟨w.tgt.mc, w.tgt.space == .chip, w.tgt.addr / 8, b, o, .thread s.cur.gid lane⟩]))

/-- PBAR, SBAR and MSYNC have their active threads arrive, and complete what their arrival completes; SBAR outside its set is an
operand fault, and a mask that MSYNC cannot join a sync-mask fault: one without the lane itself, or beyond the group's width, or that
overlaps an open record without being its mask. Else the lane arrives in the record of its mask, which it opens if there is none, and the
threads of a record leave when its mask has wholly arrived or exited. Of the plot barrier: nothing happens while a live thread of the plot
has not arrived; then every arrived thread leaves, a shadow copy is taken, and a new rollback interval begins with empty logs. Of a set
barrier: when every plot of its set has ended or has all its live threads there, they leave; until then nobody does. -/
def Obligations.BarrierWords : Prop :=
  (∀ (w : PW) (s : State),
    let arrive (e : State) (i : Instr) (x : Wait) : State := e.updLanes (s.lanes i) (fun _ th =>
      { th with wait := some x, wnext := th.target, pos := s.issue.chainPos, arr := th.pts, src := WSrc.none })
    let k := w.imm8.toNat
    (s.canIssue (.pbar w) = true →
      exec (.pbar w) s = .next (s.issued (.pbar w) ((arrive (s.entry (.pbar w)) (.pbar w) .pbar).settlePbar s.cur.pid))) ∧
    (s.canIssue (.sbar w) = true → s.lanes (.sbar w) = [] → exec (.sbar w) s = .next (s.issued (.sbar w) (s.entry (.sbar w)))) ∧
    (s.canIssue (.sbar w) = true → s.lanes (.sbar w) ≠ [] → (s.launch s.cur.lid).inSet k (s.plot s.cur.pid).index = true →
      exec (.sbar w) s = .next (s.issued (.sbar w)
        ((arrive (s.entry (.sbar w)) (.sbar w) (.sbar k (s.cur.sbarCount k + 1))).settleBar s.cur.lid k))) ∧
    (s.canIssue (.sbar w) = true → s.lanes (.sbar w) ≠ [] → (s.launch s.cur.lid).inSet k (s.plot s.cur.pid).index = false →
      exec (.sbar w) s = .next (s.trapWord (Trap.of 0x08))) ∧
    (s.canIssue (.msync w) = true →
      let e := s.entry (.msync w)
      match (s.lanes (.msync w)).foldl (fun (acc : Option (List MRec)) l => acc.bind (fun rs => msyncArrive s.cur.width l (s.snap.src w.a l) rs))
          (some s.cur.arch.msync) with
      | none => exec (.msync w) s = .next (s.trapWord (Trap.of 0x07))
      | some rs =>
        let u := arrive { e with cur := { e.cur with arch := { e.cur.arch with msync := rs } } } (.msync w) .msync
        exec (.msync w) s = .next (s.issued (.msync w) { u with cur := u.cur.settleMsync }))) ∧
  (∀ (width lane : Nat) (m : Word) (rs : List MRec), lane < 32 →
    (m.getLsbD lane = false → msyncArrive width lane m rs = none) ∧
    (2 ^ width ≤ m.toNat → msyncArrive width lane m rs = none) ∧
    (m.getLsbD lane = true → m.toNat < 2 ^ width → (∀ r ∈ rs, r.mask &&& m = 0) →
      msyncArrive width lane m rs = some (rs ++ [⟨m, BitVec.ofNat 32 (2 ^ lane)⟩])) ∧
    (∀ r ∈ rs, m.getLsbD lane = true → m.toNat < 2 ^ width → r.mask = m → (∀ q ∈ rs, q.mask = m ∨ q.mask &&& m = 0) →
      msyncArrive width lane m rs = some (rs.map (fun q => if q.mask = m then { q with arrived := q.arrived ||| BitVec.ofNat 32 (2 ^ lane) } else q)))) ∧
  (∀ (s : State) (pid : Nat), s.issue.active = true → s.cur.pid = pid → s.cur.place ≠ .gone →
    let here (g : Group) : Prop := g.pid = pid ∧ g.place ≠ .gone
    let t := s.settlePbar pid
    ((∃ g ∈ s.allGroups, here g ∧ ∃ th ∈ g.arch.threads, th.live = true ∧ th.atPbar = false) → t = s) ∧
    ((∃ th ∈ s.cur.arch.threads, th.live = true) → (∀ g ∈ s.allGroups, here g → ∀ th ∈ g.arch.threads, th.live = true → th.atPbar = true) →
      (∀ l, (s.cur.thread l).live = true → (t.cur.thread l).atPbar = false ∧ (t.cur.thread l).live = true ∧ (t.cur.thread l).v = (s.cur.thread l).v ∧
        ((s.cur.thread l).wait = some .pbar → (t.cur.thread l).wait = none ∧ (t.cur.thread l).pos = (s.cur.thread l).wnext)) ∧
      t.cur.shadow.isSome = true ∧ ∀ p ∈ t.plots, p.pid = pid → p.log = [] ∧ p.recvLog = [] ∧ p.eligible = p.shadowOk)) ∧
  (∀ (s : State) (e : Nat), s.issue.active = true →
    let lid := s.cur.lid
    let bar := (s.launch lid).bar e
    let at_ (g : Group) : Prop := g.lid = lid ∧ (∃ th ∈ g.arch.threads, th.live = true) ∧ ∀ th ∈ g.arch.threads, th.live = true → th.atSbar e = true
    let came (i : Nat) : Prop := ∃ p ∈ s.plots, p.lid = lid ∧ p.index = i ∧ (p.st = .ended ∨ p.st = .killed ∨
      ∀ g ∈ s.allGroups, g.pid = p.pid → g.place = .gone ∨ (∀ th ∈ g.arch.threads, th.live = false) ∨ at_ g)
    (∀ g ∈ s.allGroups, g.arch.threads.length = 32 ∧ (at_ g → g.sbarCount e = bar.gens)) →
    (s.allGroups.map (·.gid)).Nodup → (∀ x ∈ bar.arrived, ∃ g ∈ s.allGroups, g.gid = x ∧ at_ g) → at_ s.cur →
    let t := s.settleBar lid e
    ((∀ i ∈ (s.launch lid).setPlots e, came i) → ∀ l, (s.cur.thread l).live = true →
      (t.cur.thread l).atSbar e = false ∧ ((s.cur.thread l).wait.any (fun w => w.isSbar e) = true →
        (t.cur.thread l).wait = none ∧ (t.cur.thread l).pos = (s.cur.thread l).wnext)) ∧
    ((∃ i ∈ (s.launch lid).setPlots e, ¬ came i) → t.cur = s.cur ∧ t.groups = s.groups)) ∧
  (∀ g : Group, g.arch.msync.Pairwise (fun a b => a.mask &&& b.mask = 0) → (∀ r ∈ g.arch.msync, r.arrived &&& ~~~r.mask = 0) →
    let t := g.settleMsync
    ∀ r ∈ g.arch.msync,
      let wholly := r.arrived ||| (r.mask &&& ~~~g.liveMask) = r.mask
      (wholly → r ∉ t.arch.msync ∧ ∀ l, l < g.arch.threads.length → r.arrived.getLsbD l = true → (g.thread l).wait = some .msync →
        (t.thread l).wait = none ∧ (t.thread l).pos = (g.thread l).wnext) ∧
      (¬ wholly → r ∈ t.arch.msync ∧ ∀ l, r.mask.getLsbD l = true → t.thread l = g.thread l))

/-- The barrier objects: KBINIT starts generation 0 in a new epoch, KBARR takes one arrival and adds the bytes that it awaits in its
direction, completing the phase when nothing is left, and KBINV invalidates; each faults on an object that does not allow it. The words
have their lanes act in ascending order; KBWAIT has each lane wait, while the object is valid, not dead and of the lane's generation, or
read; operands out of range are an operand fault. One lane's act changes the sixteen bytes of its object, to the fields that 09 R211 lays out,
and KBARR gives it the generation before; an object that does not allow it changes nothing. When an object has become dead or has left a
waiting thread's generation, the thread leaves with its status; the threads of other objects stay. -/
def Obligations.BarrierObjects : Prop :=
  (∀ (x : Nat), x < 2 ^ 128 →
    let o := KObj.of x
    o = ⟨x % 16, x.testBit 4, x.testBit 5, x / 64 % 4, x / 2 ^ 8 % 2 ^ 8, x / 2 ^ 16 % 2 ^ 16, x / 2 ^ 32 % 2 ^ 16, x / 2 ^ 48 % 2 ^ 16,
      x / 2 ^ 64 % 2 ^ 32, x / 2 ^ 96⟩ ∧ o.num = x) ∧
  (∀ (w : PW) (s : State) (op l : Nat) (ls : List Nat), l < s.cur.arch.threads.length → s.memoryWf → s.cur.arch.threads.length = 32 →
    let a := s.snap
    let base := s.plotBase s.cur + (a.src w.a l).toNat
    let o := KObj.of (s.mem.scratch.num base 16)
    let r := State.kbStep a w op (s, ls) l
    match o.act op w.x (a.src w.b l).toNat with
    | none => r = (s, ls ++ [l])
    | some o' => r.2 = ls ∧ r.1.mem.glob = s.mem.glob ∧ r.1.mem.chip = s.mem.chip ∧ r.1.mem.tags = s.mem.tags ∧
      ((∀ g ∈ s.allGroups, ∀ t ∈ g.arch.threads, ∀ off gen d, t.wait ≠ some (.kb off gen d) ∧ t.susp.map (·.1) ≠ some (.kb off gen d)) →
        r.1.mem.scratch.num base 16 = o'.num ∧
        (∀ b, b < base ∨ base + 16 ≤ b → r.1.mem.scratch.read b = s.mem.scratch.read b) ∧
        ∀ k n, n < 56 → n < (s.cur.thread k).v.length → k < s.cur.arch.threads.length → (r.1.cur.thread k).getV n =
          if op = 1 ∧ k = l ∧ n = w.d.toNat then ⟨BitVec.ofNat 32 o.gen, true, 0, none⟩ else (s.cur.thread k).getV n)) ∧
  (∀ (s : State) (base l off gen : Nat) (d : BitVec 6), s.issue.active = true → l < 32 → s.cur.arch.threads.length = 32 → s.cur.place ≠ .saved →
    (s.allGroups.map (·.gid)).Nodup → (s.cur.thread l).wait = some (.kb off gen d) → s.bad { space := .scratch, addr := base } 16 = false →
    let o := KObj.of (s.mem.scratch.num base 16)
    let t := s.kbWake base
    let leaves : Prop := s.plotBase s.cur + off = base ∧ (o.dead = true ∨ o.gen ≠ gen)
    (leaves → (t.cur.thread l).wait = none ∧ (t.cur.thread l).pos = (s.cur.thread l).wnext ∧
      (d.toNat < 56 → d.toNat < (s.cur.thread l).v.length → (t.cur.thread l).getV d.toNat = ⟨if o.dead then 1 else 0, true, 0, none⟩)) ∧
    (¬ leaves → t.cur.thread l = s.cur.thread l)) ∧
  (∀ (o : KObj) (out : Bool) (n : Nat),
    let sound : Prop := o.rsv = 0 ∧ (o.valid = true → o.expect ≠ 0)
    (¬ sound → ∀ op, o.act op out n = none) ∧
    (sound → o.act 0 out n = if o.wcnt = 0 then some ⟨0, true, false, 0, (o.epoch + 1) % 256, n, n, 0, 0, 0⟩ else none) ∧
    (sound → o.valid = false ∨ o.pend = 0 → o.act 1 out n = none) ∧
    (sound → o.valid = true → 0 < o.pend →
      let inb := if out then o.inb else (o.inb + n) % 2 ^ 32
      let outb := if out then (o.outb + n) % 2 ^ 32 else o.outb
      o.act 1 out n = some (if o.pend = 1 ∧ inb = 0 ∧ outb = 0 then { o with gen := (o.gen + 1) % 16, pend := o.expect, inb := 0, outb := 0 }
        else { o with pend := o.pend - 1, inb := inb, outb := outb })) ∧
    (sound → o.act 3 out n = if o.valid then some { o with valid := false, dead := true } else none)) ∧
  (∀ (w : PW) (s : State),
    let check (i : Instr) (wr : Bool) : Res (List (Nat × List (Target × Nat))) :=
      (s.entry i).targets s.snap .scratch w.a (s.lanes i) 0 (fun _ => 16) 16 (fun _ => { r := true, w := wr })
    let clear (ts : List (Nat × List (Target × Nat))) : Prop := ∀ p ∈ ts, ∀ t ∈ p.2, s.boarded t.1 16 true = false ∧ s.bad t.1 16 = false
    let acts (i : Instr) (op : Nat) : Prop := ∀ ts, s.canIssue i = true → check i true = .ok ts → clear ts →
      let r := (s.lanes i).foldl (State.kbStep s.snap w op) (s.entry i, [])
      (op = 0 → ∀ l ∈ s.lanes i, 1 ≤ s.num false w.b l ∧ s.num false w.b l ≤ 65535) → r.2 = [] → exec i s = .next (s.issued i r.1)
    acts (.kbinit w) 0 ∧ acts (.kbarr w) 1 ∧ acts (.kbinv w) 3 ∧
    (∀ ts, s.canIssue (.kbinit w) = true → check (.kbinit w) true = .ok ts →
      (∃ l ∈ s.lanes (.kbinit w), s.num false w.b l = 0 ∨ 65535 < s.num false w.b l) → exec (.kbinit w) s = .next (s.trapWord (Trap.of 0x08))) ∧
    (∀ ts, s.canIssue (.kbwait w) = true → check (.kbwait w) false = .ok ts →
      let i : Instr := .kbwait w
      let obj (l : Nat) : KObj := KObj.of (s.mem.scratch.num (s.plotBase s.cur + s.num false w.a l) 16)
      ((∃ l ∈ s.lanes i, 15 < s.num false w.b l) → exec i s = .next (s.trapWord (Trap.of 0x08))) ∧
      ((∀ l ∈ s.lanes i, s.num false w.b l ≤ 15) → clear ts → (∀ l ∈ s.lanes i, (obj l).broken = false ∧ ((obj l).valid = true ∨ (obj l).dead = true)) →
        exec i s = .next (s.issued i (((s.lanes i).foldl (State.kbWaitLane s.snap w) (s.entry i)).keepHeads s.snap i (s.lanes i)))))) ∧
  (∀ (a : GArch) (w : PW) (s : State) (l : Nat), l < s.cur.arch.threads.length →
    let off := (a.src w.a l).toNat
    let o := KObj.of (s.mem.scratch.num (s.plotBase s.cur + off) 16)
    let waits : Prop := o.valid = true ∧ o.dead = false ∧ o.gen = (a.src w.b l).toNat
    let t := s.kbWaitLane a w l
    (waits → (t.cur.thread l).wait = some (.kb off o.gen w.d)) ∧
    (¬ waits → (t.cur.thread l).wait = (s.cur.thread l).wait ∧ (w.d.toNat < (s.cur.thread l).v.length → w.d.toNat < 56 →
      (t.cur.thread l).getV w.d.toNat = ⟨if o.dead then 1 else 0, true, 0, none⟩)))

/-- SEND puts its slot into flight with the latest pts of its threads, or the tick after the free slot's stamp, and uses a credit; RECV
takes the oldest slot, or one that a rollback presents again, and writes a word of it to each active lane. A channel that the launch has
not, or that the plot does not produce for or consume from, is a channel fault, and so is one whose consumer has ended, for SEND, or whose
producers have all ended with nothing left to take, for RECV. That the slot leaves at the latest of the active threads' points, that its
stamp joins through the credit, and when a stopped plot counts as ended, are the model's choices (logs 17, 37, 78). -/
def Obligations.DataflowChannels : Prop := ∀ (w : PW) (s : State),
  let ch := w.b.toNat
  let l := s.launch s.cur.lid
  let c := l.chans.getD ch ⟨0, 0, 0, [], [], [], []⟩
  let p := s.plot s.cur.pid
  let ended (i : Nat) : Bool := s.plots.any (fun q => q.lid == s.cur.lid && q.index == i && (q.st == .ended || q.st == .killed))
  let fault : Trap := { code := 0x0B, info := ch }
  let sends : Prop := ch < l.chans.length ∧ l.inSet c.producers p.index = true ∧ ended c.consumer = false
  let takes : Prop := ch < l.chans.length ∧ p.index = c.consumer ∧ (p.represent.any (fun r => r.1 == ch) = true ∨ c.pending ≠ [] ∨ c.flight ≠ [] ∨
    ∃ i ∈ l.setPlots c.producers, ended i = false)
  (s.canIssue (.send w) = true → s.lanes (.send w) ≠ [] →
    let i : Instr := .send w
    let e := s.entry i
    let ts := tmax (e.cur.latestPts (s.lanes i)) (c.credits.headD 0 + 1)
    let slot : List Byte := (List.range 32).flatMap (fun k => bytesOf 4 (if (s.lanes i).contains k then s.num false w.a k else 0))
    (¬ sends → exec i s = .next (s.trapWord fault)) ∧
    (sends → ∃ t, exec i s = .next t ∧ s.sameMemory t ∧
      (t.launch s.cur.lid).chans = l.chans.modify ch (fun c => { c with credits := c.credits.drop 1, flight := c.flight ++ [⟨s.cur.gid, chipletOf s.cur.core, slot, ts⟩] }) ∧
      ∀ k, k < s.cur.arch.threads.length → (t.cur.thread k).v = (s.cur.thread k).v ∧ (t.cur.thread k).p = (s.cur.thread k).p ∧
        (k ∈ s.lanes i → (t.cur.thread k).pts = ts))) ∧
  (s.canIssue (.recv w) = true → s.lanes (.recv w) ≠ [] → (s.plot s.cur.pid).pid = s.cur.pid →
    let i : Instr := .recv w
    let e := s.entry i
    let again := (s.plot s.cur.pid).represent.find? (fun r => r.1 == ch)
    let slot : List Byte × Word := match again with | some r => r.2 | none => c.pending.headD ([], 0)
    (¬ takes → exec i s = .next (s.trapWord fault)) ∧
    (takes → ∃ t, exec i s = .next t ∧ s.sameMemory t ∧
      (again = none → (t.launch s.cur.lid).chans = l.chans.modify ch (fun c => { c with pending := c.pending.drop 1, returning := c.returning ++ [(s.lanes i).foldl (fun m k => tmax m (e.cur.thread k).pts) slot.2] })) ∧
      (again ≠ none → t.launches = s.launches) ∧
      (∀ k n, k < s.cur.arch.threads.length → n < 56 → n < (s.cur.thread k).v.length → (t.cur.thread k).getV n =
        if k ∈ s.lanes i ∧ n = w.d.toNat then ⟨BitVec.ofNat 32 (ofBytes ((slot.1.drop (4 * k)).take 4)), true, 0, none⟩ else (s.cur.thread k).getV n) ∧
      ∀ p ∈ t.plots, p.pid = s.cur.pid → p.recvLog.getLast? = some (ch, slot.1, slot.2)))

/-! Matrix and hypervector words. -/

/-- PLANE, UNPLANE and MMA sign a round of their convergence register, and wait; the last signature has the operation accepted. A
signature that the round does not allow is a convergence trap. Accepting a matrix operation: an item with the operation's word and
lanes arrives at its cluster, its scratchpad ranges enter the core's scoreboard, and the round's signatures clear. -/
def Obligations.MatrixRounds : Prop :=
  (∀ (w : PW) (x : PX) (s : State) (i : Instr), i ∈ [Instr.plane w x, .unplane w x, .mma w x] →
    s.canIssue i = true →
    let n := x.m 3 0
    let c := s.cur.arch.cv n
    let m := maskOfList (s.lanes i)
    let e := s.entry i
    let pos := s.issue.chainPos
    let signed : State := ({ e with cur := { e.cur with arch := { e.cur.arch with
      conv := e.cur.arch.conv.set n ⟨c.decl, c.sign ||| m, true, pos, some i⟩ } } } : State).updLanes (s.lanes i) (fun _ th =>
        { th with wait := some (.matrix n), wnext := th.target, pos := pos, arr := th.pts, src := WSrc.none })
    let free : Prop := m &&& ~~~c.decl = 0 ∧ m &&& c.sign = 0 ∧ (c.sign = 0 ∨ (c.matrix = true ∧ c.pos = pos))
    (s.lanes i = [] → exec i s = .next (s.issued i e)) ∧
    (s.lanes i ≠ [] → ¬ free → exec i s = .next (s.trapWord { code := 0x05, info := n })) ∧
    (s.lanes i ≠ [] → free → c.sign ||| m ≠ c.decl → exec i s = .next (s.issued i signed)) ∧
    (∀ acc u, s.lanes i ≠ [] → free → c.sign ||| m = c.decl → signed.acceptChecks signed.cur i = .ok acc →
      signed.acceptRound s.cur.gid n i c.decl pos s.issue.set = .ok u → exec i s = .next (s.issued i u))) ∧
  (∀ (s : State) (i : Instr) (n : Nat) (lanes set : Word) (pos : Pos) (acc : Accepted),
    s.issue.active = true → s.acceptChecks s.cur i = .ok acc → n < s.cur.arch.conv.length →
    ∃ u, s.acceptRound s.cur.gid n i lanes pos set = .ok u ∧
      (u.cur.arch.conv.getD n Conv.clear).sign = 0 ∧ s.sameMemory u ∧ u.cur.arch.threads = s.cur.arch.threads ∧
      (∃ rs, u.mem.sboard = s.mem.sboard ++ rs ∧ rs.length = (acc.ops.map (fun o =>
        match i with | .mma _ x => if o.wr && mxAddc x then 2 else 1 | _ => 1)).sum ∧ ∀ r ∈ rs, r.core = s.cur.core ∧ r.owner = s.sched.nextId) ∧
      (let k := u.cluster (clusterOf s.cur.core)
       ∃ m ∈ k.dispatch ++ k.arrivals ++ k.sheaves.flatMap (·.members), m.id = s.sched.nextId ∧ m.gid = s.cur.gid ∧ m.word = i ∧ m.lanes = lanes))

/-- HDIST is format A with D a scalar and A and B hypervectors, and sets the scalar to the number of bits in which they differ, at most
8192. -/
def Obligations.HypervectorDistance : Prop := (∀ w : PW, (Instr.hdist w).wf = true ↔ w.d.toNat < 32 ∧ w.a.toNat < 16 ∧ w.b.toNat < 16 ∧ w.am = false ∧ w.bm = false ∧ w.x = false) ∧
  (∀ w : PW, decodePlough (w.toWord 0x79) none = .ok (.hdist w, 1)) ∧
  ∀ w : PW,
    let n (s : State) : Nat := (List.range 8192).countP (fun b => (s.snap.hyp w.a ^^^ s.snap.hyp w.b).getLsbD b)
    (∀ s, n s ≤ 8192) ∧
    Sets (.hdist w) (fun s a => if s.lanes (.hdist w) = [] then a else { a with s := a.s.set w.d.toNat (BitVec.ofNat 32 (n s)) })

/-- HBIND, HSEED, HTHR, HPERM and HBUND compute one hypervector, or one step of a bundle, when a lane is active. The 64-bit words of a
seeded hypervector are those of 12 R273's mix. A step of a bundle
moves each counter by one, up where the bit is 1 and down where it is 0, or the other way with `neg`, and keeps it within its width's
limits; a threshold gives 1 where the counter is positive, 0 where it is negative, and the tie register's bit where it is 0. HLD sends the eight lines of a hypervector as one load of its active threads, and HST stores them, for the lowest active lane's
address. -/
def Obligations.HypervectorWords : Prop :=
  (∀ w : PW,
    let reg (v : HVec) : HReg := ⟨v, 0, none⟩
    Sets (.hbind w) (fun s a => if s.lanes (.hbind w) = [] then a else { a with h := a.h.set w.d.toNat (reg (s.snap.hyp w.a ^^^ s.snap.hyp w.b)) }) ∧
    Sets (.hseed w) (fun s a => if s.lanes (.hseed w) = [] then a else
      { a with h := a.h.set w.d.toNat (reg (seedHyp (s.snap.src64 w.a (lowestOf (s.lanes (.hseed w)))))) }) ∧
    Sets (.hthr w) (fun s a => if s.lanes (.hthr w) = [] then a else
      let k := s.snap.bundle w.a
      { a with h := a.h.set w.d.toNat (reg (k.threshold (s.snap.h.getD (s.snap.tieh.toNat % 16) HReg.zero).val)),
               k := if w.x then a.k.set w.a.toNat { Bundle.zero with wide := k.wide } else a.k }) ∧
    (∀ s : State, s.canIssue (.hperm w) = true →
      let n := s.num false w.b (lowestOf (s.lanes (.hperm w)))
      (s.lanes (.hperm w) = [] ∨ n ≤ 8191 → ∃ t, exec (.hperm w) s = .next t ∧ ArchWord s t (.hperm w) (s.onward (.hperm w)) (fun a =>
        if s.lanes (.hperm w) = [] then a
        else { a with h := a.h.set w.d.toNat (reg (if w.x then (s.snap.hyp w.a).rotateRight n else (s.snap.hyp w.a).rotateLeft n)) })) ∧
      (s.lanes (.hperm w) ≠ [] → 8191 < n → exec (.hperm w) s = .next (s.trapWord (Trap.of 0x08)))) ∧
    (∀ s : State, s.canIssue (.hbund w) = true →
      let clr := w.b.getLsbD 0
      let k := s.snap.bundle w.d
      (s.lanes (.hbund w) = [] ∨ clr = true ∨ w.x = k.wide → ∃ t, exec (.hbund w) s = .next t ∧ ArchWord s t (.hbund w) (s.onward (.hbund w)) (fun a =>
        if s.lanes (.hbund w) = [] then a
        else { a with k := a.k.set w.d.toNat ((if clr then { Bundle.zero with wide := w.x } else k).step (s.snap.hyp w.a) (w.b.getLsbD 1)) })) ∧
      (s.lanes (.hbund w) ≠ [] → clr = false → w.x ≠ k.wide → exec (.hbund w) s = .next (s.trapWord (Trap.of 0x08))))) ∧
  (∀ (seed : DWord) (w : Nat), w < 128 →
    let x := seed + BitVec.ofNat 64 (w + 1) * 0x9E37_79B9_7F4A_7C15
    let y := (x ^^^ (x >>> 30)) * 0xBF58_476D_1CE4_E5B9
    let z := (y ^^^ (y >>> 27)) * 0x94D0_49BB_1331_11EB
    (seedHyp seed).extractLsb' (64 * w) 64 = z ^^^ (z >>> 31)) ∧
  (∀ (b : Bundle) (v : HVec) (neg : Bool) (j : Nat), b.planes.length = 8 → j < 8192 →
    let count (b : Bundle) : Int := toSigned 8 (((List.range 8).map (fun i => if (b.planes.getD i 0).getLsbD j then 2 ^ i else 0)).sum)
    let lim : Int := if b.wide then 127 else 7
    ((b.threshold v).getLsbD j = if 0 < count b then true else if count b < 0 then false else v.getLsbD j) ∧
    (count b ≤ lim → -lim ≤ count b →
      count (b.step v neg) = (if v.getLsbD j != neg then min lim (count b + 1) else max (-lim) (count b - 1)) ∧
      (b.step v neg).wide = b.wide ∧ (b.step v neg).planes.length = 8)) ∧
  (∀ (w : PW) (x : PX),
    let check (s e : State) (i : Instr) (x : Option PX) (wr : Bool) : Res (List (Target × Nat)) :=
      if s.lanes i = [] then .ok [] else e.hypTargets s.snap w x (lowestOf (s.lanes i)) wr
    let ea (s : State) (i : Instr) (x : Option PX) : DWord := s.snap.eaGlobal w.a (lowestOf (s.lanes i)) (memOff w x 1024)
    let load (i : Instr) (x : Option PX) (s e : State) (ts : List (Target × Nat)) : State :=
      if s.lanes i = [] then e
      else
        let id := s.sched.nextId
        let r : LoadRec := ⟨id, 32, maskOfList (s.lanes i), .hyp w.d.toNat, 4, memHint x, s.cur.ctx, ea s i x, ts.map (fun p => ⟨p.1, p.2, .unsent⟩),
          e.cur.latestPts (s.lanes i), 0, []⟩
        let a := { e.cur.arch with h := e.cur.arch.h.modify w.d.toNat (fun h => { h with load := id }) }
        { e with sched := { e.sched with nextId := id + 1 }, cur := { e.cur with arch := a, loads := e.cur.loads ++ [r] } }
    let store (i : Instr) (x : Option PX) (s e : State) (ts : List (Target × Nat)) : State :=
      if s.lanes i = [] then e
      else
        let parts := storeParts (lowestOf (s.lanes i)) (ea s i x) (bytesOf 1024 (s.snap.hyp w.d).toNat) ts
        ((e.endEligible s.cur.pid).dropL1s s.cur.core parts).startHold s.snap (s.lanes i) .hst (memHint x) parts
    Accesses (.hld w) (fun s e => check s e (.hld w) none false) (load (.hld w) none) ∧
    Accesses (.hldWide w x) (fun s e => check s e (.hldWide w x) (some x) false) (load (.hldWide w x) (some x)) ∧
    Accesses (.hst w) (fun s e => check s e (.hst w) none true) (store (.hst w) none) ∧
    Accesses (.hstWide w x) (fun s e => check s e (.hstWide w x) (some x) true) (store (.hstWide w x) (some x)))

/-- HGWR enters, or with X removes, an entry of the cluster's Granary, and HQRY searches it; operands that they do not accept are
operand faults. The answer to a search: a candidate at the least distance; without rotation the one of lowest index. -/
def Obligations.GranaryWords : Prop :=
  (∀ (w : PW) (x : PX) (s : State),
    let cl := clusterOf s.cur.core
    let me := s.cur.ctx
    (s.canIssue (.hgwr w) = true → s.lanes (.hgwr w) ≠ [] →
      let i : Instr := .hgwr w
      let v := s.num false w.b (lowestOf (s.lanes i))
      let idx := v % 1024
      let dom := v / 1024 % 256
      let good : Prop := v < 2 ^ 18 ∧ (dom = 0 ∨ (w.x = false ∧ s.granted me dom = true)) ∧
        ∀ o, (s.cluster cl).gran.find? (fun g => g.index == idx) = some o → s.visible o me = true
      (good → exec i s = .next (s.issued i (((s.entry i).granHere (s.lanes i) true).updCluster cl (fun c =>
        { c with gran := c.gran.filter (fun g => g.index != idx) ++ (if w.x then [] else [⟨idx, me, dom, s.snap.hyp w.a⟩]) })))) ∧
      (¬ good → exec i s = .next (s.trapWord (Trap.of 0x08)))) ∧
    (s.canIssue (.hqry w x) = true → s.lanes (.hqry w x) ≠ [] →
      let i : Instr := .hqry w x
      let v := s.num false w.b (lowestOf (s.lanes i))
      let first := v % 1024
      let count := v / 1024 % 2048
      let good : Prop := v < 2 ^ 21 ∧ 1 ≤ count ∧ count ≤ 1024 ∧ first + count ≤ 1024
      let cands := ((s.cluster cl).gran.filter (fun e => first ≤ e.index && e.index < first + count && s.visible e me)).map
        (fun e => (e.index, popcount2 13 (s.snap.hyp w.a ^^^ e.bits).toNat))
      let u := (s.entry i).granHere (s.lanes i) w.x
      (¬ good → exec i s = .next (s.trapWord (Trap.of 0x08))) ∧
      (good → granQuery cands w.x ((s.cluster cl).cursor me) = none →
        exec i s = .next (s.issued i ((u.writeScalar w.d.toNat 0xFFFF_FFFF).writeScalar x.vc.toNat 0xFFFF_FFFF))) ∧
      (∀ win d, good → granQuery cands w.x ((s.cluster cl).cursor me) = some (win, d, none) →
        exec i s = .next (s.issued i ((u.writeScalar w.d.toNat (BitVec.ofNat 32 win)).writeScalar x.vc.toNat (BitVec.ofNat 32 d)))) ∧
      (∀ win d n, good → granQuery cands w.x ((s.cluster cl).cursor me) = some (win, d, some n) →
        exec i s = .next (s.issued i (((u.updCluster cl (fun k => { k with gtie := alSet k.gtie me n })).writeScalar w.d.toNat
          (BitVec.ofNat 32 win)).writeScalar x.vc.toNat (BitVec.ofNat 32 d)))))) ∧
  (∀ (cands : List (Nat × Nat)) (rot : Bool) (g : Nat), (∀ c ∈ cands, c.1 < 1024) →
    (granQuery cands rot g = none ↔ cands = []) ∧
    ∀ win d n, granQuery cands rot g = some (win, d, n) → (win, d) ∈ cands ∧ (∀ c ∈ cands, d ≤ c.2) ∧
      (rot = false → n = none ∧ ∀ c ∈ cands, c.2 = d → win ≤ c.1) ∧
      (∀ m, n = some m → m = (win + 1) % 1024 ∧ ∀ c ∈ cands, c.2 = d → (win + 1024 - g % 1024) % 1024 ≤ (c.1 + 1024 - g % 1024) % 1024))

/-- STOPT and SRET mark the sequences of their lanes in a decode stream; outside one, or for a slot that is not in the batch, they are
operand faults. From a descriptor with a reserved bit set they write nothing (the model's reading of 00 R7, log 83). A mark retires the sequence
with its reason if it was not retired, where STOPT's token is one of the entry's stop tokens; STOPT also records its token; no other bit
of memory changes. -/
def Obligations.SequenceMarks : Prop := (∀ (s : State) (e reason : Nat) (tok : Option Nat) (pts : Word) (ctx : Nat), s.memoryWf → reason < 256 →
    (∀ t, tok = some t → t < 2 ^ 32) →
    let at_ (u : State) (o : Nat) : Nat := u.mem.glob.num (e + o) 4
    let r := s.markSeq e tok reason pts ctx
    let u := r.1
    let hit : Prop := ∀ t, tok = some t → ∃ i, i < at_ s 16 ∧ i < 8 ∧ t = at_ s (20 + 4 * i)
    let retires : Prop := hit ∧ (at_ s 0).testBit 8 = false
    (r.2.2 = true ↔ hit) ∧
    (∀ i, i < 32 → (at_ u 0).testBit i = true ↔ (retires ∧ (i = 8 ∨ 16 ≤ i ∧ i < 24 ∧ (if tok.isSome then 1 else reason).testBit (i - 16) = true)) ∨
      (¬ (retires ∧ 16 ≤ i ∧ i < 24) ∧ (at_ s 0).testBit i = true)) ∧
    at_ u 12 = tok.getD (at_ s 12) ∧
    (∀ b, b < e ∨ e + 16 ≤ b ∨ (e + 4 ≤ b ∧ b < e + 12) → u.mem.glob.read b = s.mem.glob.read b) ∧
    u.mem.chip = s.mem.chip ∧ u.mem.scratch = s.mem.scratch ∧ u.mem.tags = s.mem.tags) ∧
  ∀ (w : PW) (s : State),
  let l := s.launch s.cur.lid
  let entry (k : Nat) : Nat := s.seqEntry l.hstream k
  let mark (i : Instr) (stop : Bool) (slot val : Nat → Nat) (e : State) : State := (s.lanes i).foldl (fun u k =>
    let q := u.markSeq (u.seqEntry l.hstream (slot k)) (if stop then some (val k) else none) (val k) (u.cur.thread k).pts u.cur.ctx
    { q.1 with cur := q.1.cur.updThread k (fun th =>
      let th := { th with pts := q.2.1 }
      if stop then th.setP w.d.toNat q.2.2 else th) }) (e.endEligible s.cur.pid)
  let good (i : Instr) (slot : Nat → Nat) : Prop := l.step = true ∧ ∀ k ∈ s.lanes i, l.batch.contains (slot k) = true
  let clean (i : Instr) (slot : Nat → Nat) : Prop := ∀ k ∈ s.lanes i, s.bad { space := .glob, addr := entry (slot k) } 16 = false ∧
    s.portServes (chipletOf s.cur.core) { space := .glob, addr := entry (slot k) } = true
  let broken : Prop := s.streamBroken l.hstream = true
  let a (k : Nat) : Nat := s.num false w.a k
  let b (k : Nat) : Nat := s.num false w.b k
  (s.canIssue (.stopt w) = true → s.lanes (.stopt w) ≠ [] →
    (¬ good (.stopt w) b → exec (.stopt w) s = .next (s.trapWord (Trap.of 0x08))) ∧
    (good (.stopt w) b → broken → exec (.stopt w) s = .next (s.issued (.stopt w) (s.entry (.stopt w)))) ∧
    (good (.stopt w) b → ¬ broken → clean (.stopt w) b → ∃ t, exec (.stopt w) s = .next (s.issued (.stopt w) t) ∧
      ((s.lanes (.stopt w)).length = 1 → t = mark (.stopt w) true b a (s.entry (.stopt w))))) ∧
  (s.canIssue (.sret w) = true → s.lanes (.sret w) ≠ [] →
    ((¬ good (.sret w) a ∨ ∃ k ∈ s.lanes (.sret w), b k < 16 ∨ 255 < b k) → exec (.sret w) s = .next (s.trapWord (Trap.of 0x08))) ∧
    (good (.sret w) a → (∀ k ∈ s.lanes (.sret w), 16 ≤ b k ∧ b k ≤ 255) → broken → exec (.sret w) s = .next (s.issued (.sret w) (s.entry (.sret w)))) ∧
    (good (.sret w) a → (∀ k ∈ s.lanes (.sret w), 16 ≤ b k ∧ b k ≤ 255) → ¬ broken → clean (.sret w) a →
      ∃ t, exec (.sret w) s = .next (s.issued (.sret w) t) ∧
      ((s.lanes (.sret w)).length = 1 → t = mark (.sret w) false a b (s.entry (.sret w)))))

/-! The Drill stream. -/

/-- DNOP, the word 0x00E0_0000, does nothing; DBRA takes the stream to slot 0 of its target packet; DEND, the word 0x02E0_0000, ends the
stream for good, and leaves reserved entries, gathers and copies as they are. -/
def Obligations.DrillControl : Prop :=
  (∀ w : PW, (Instr.dnop w).wf = true ↔ w.toWord 0x00 = 0x00E0_0000) ∧ (∀ w : PW, (Instr.dend w).wf = true ↔ w.toWord 0x02 = 0x02E0_0000) ∧
  (∀ w : PW, decodeDrill (w.toWord 0x00) none = .ok (.dnop w, 1) ∧ decodeDrill (w.toWord 0x01) none = .ok (.dbra w, 1) ∧
    decodeDrill (w.toWord 0x02) none = .ok (.dend w, 1)) ∧
  ∀ w : PW, Drills (.dnop w) (fun _ d => d) ∧
    (∀ s : State, let target : Pos := ⟨((s.issue.pos.pc + w.off21.signExtend 64).setWidth 52).setWidth 64, 0⟩
      s.canDrill (.dbra w) = true → inRange (s.launch s.cur.lid).dentry target.pc = true →
      exec (.dbra w) s = .next (s.issued (.dbra w) (s.updDrill (fun d => { d with pos := target })))) ∧
    (∀ s : State, s.canDrill (.dend w) = true → inRange (s.launch s.cur.lid).dentry s.issue.pos.pc = true →
      exec (.dend w) s = .next (s.issued (.dend w) (s.updDrill (fun d => { d with pos := s.issue.pos, ended := true })))) ∧
    ∀ (s : State) (g : Group), g.arch.drill.ended = true → s.drillMay g = false

/-- Address arithmetic is modulo 2^64 and changes nothing but the destination register; the fields of its words are as 10 R220 has
them. -/
def Obligations.DrillArithmetic : Prop := ∀ (w : PW) (x : PX),
  let da : Bool := !w.c && w.g == 7 && w.d.toNat < 16 && w.a.toNat < 16 && !w.am
  let imm (wide : Bool) : DWord := BitVec.ofInt 64 (if wide then (x.body ++ w.imm8).toInt else w.imm8.toInt)
  let n := w.imm8.toNat % 64
  let writes (i : Instr) (f : DWord → DWord → DWord) : Prop := Drills i (fun s d => { d with a := d.a.set w.d.toNat (f (s.areg w.a) (s.areg w.b)) })
  decodeDrill (w.toWord 0x08) none = .ok (.aadd w, 1) ∧ decodeDrill (w.toWord 0x0C) none = .ok (.amul w, 1) ∧
  decodeDrill (w.toWord 0x09) none = .ok (.aaddi w, 1) ∧ decodeDrill (w.toWord 0x09) (some x.toWord) = .ok (.aaddiWide w x, 2) ∧
  decodeDrill (w.toWord 0x0A) none = .ok (.amovi w, 1) ∧ decodeDrill (w.toWord 0x0A) (some x.toWord) = .ok (.amoviWide w x, 2) ∧
  decodeDrill (w.toWord 0x0B) none = .ok (.ashli w, 1) ∧
  (Instr.aadd w).wf = (da && w.b.toNat < 16 && !w.bm) ∧ (Instr.amul w).wf = (da && w.b.toNat < 16 && !w.bm && !w.x) ∧
  (Instr.aaddi w).wf = da ∧ (Instr.aaddiWide w x).wf = (da && !x.c) ∧
  (Instr.amovi w).wf = (da && w.a == 0) ∧ (Instr.amoviWide w x).wf = (da && w.a == 0 && !x.c) ∧ (Instr.ashli w).wf = (da && w.imm8.toNat / 64 != 3) ∧
  writes (.aadd w) (fun a b => if w.x then a - b else a + b) ∧ writes (.amul w) (fun a b => a * b) ∧
  writes (.aaddi w) (fun a _ => a + imm false) ∧ writes (.aaddiWide w x) (fun a _ => a + imm true) ∧
  writes (.amovi w) (fun _ _ => imm false) ∧ writes (.amoviWide w x) (fun _ _ => imm true) ∧
  writes (.ashli w) (fun a _ => match w.imm8.toNat / 64 with
    | 0 => BitVec.ofNat 64 (a.toNat * 2 ^ n)
    | 1 => BitVec.ofNat 64 (a.toNat / 2 ^ n)
    | _ => BitVec.ofInt 64 (a.toInt / 2 ^ n))

/-- DLOOP opens a level with its trip count, and a count of 0 is an operand fault; DNEXT goes back to the loop's first packet, advancing
its register, until the count is used up, and then rewinds the register; at a level that is not active it is an operand fault. DWAITO
waits for its counter, joins dts to the class's completion stamp, or raises the class's deferred fault. -/
def Obligations.DrillLoops : Prop := ∀ (w : PW) (x : PX) (s : State),
  let p := s.issue.pos
  let operand : State := s.trapWord (Trap.of 0x08)
  (s.canDrill (.dloop w x) = true →
    let t : Word := if w.x then (s.areg w.a).setWidth 32 else x.body.setWidth 32
    (t ≠ 0 → exec (.dloop w x) s = .next (s.issued (.dloop w x) (s.updDrill (fun d =>
      { d with pos := p.after 2, loops := d.loops.set w.d.toNat ⟨t, t, ((p.pc + 1).setWidth 52).setWidth 64⟩ })))) ∧
    (t = 0 → exec (.dloop w x) s = .next operand)) ∧
  (s.canDrill (.dnext w) = true →
    let i : Instr := .dnext w
    let l := s.cur.arch.drill.loops.getD w.d.toNat ⟨0, 0, 0⟩
    let stride := s.cur.arch.drill.a.getD (w.imm8.toNat % 16) 0
    let a (d : DrillSt) (v : DWord) : List DWord := if w.imm8.getLsbD 4 then d.a.set w.a.toNat v else d.a
    (l.count = 0 → exec i s = .next operand) ∧
    (l.count = 1 → exec i s = .next (s.issued i (s.updDrill (fun d =>
      { d with pos := p.after 1, loops := d.loops.set w.d.toNat { l with count := 0 },
               a := a d (s.areg w.a - (l.trip - 1).setWidth 64 * stride) })))) ∧
    (2 ≤ l.count.toNat → inRange (s.launch s.cur.lid).dentry l.start = true →
      exec i s = .next (s.issued i (s.updDrill (fun d =>
        { d with pos := ⟨l.start, 0⟩, loops := d.loops.set w.d.toNat { l with count := l.count - 1 }, a := a d (s.areg w.a + stride) }))))) ∧
  (s.canDrill (.dwaito w) = true →
    let i : Instr := .dwaito w
    let c := clsOf w.d.toNat
    let e := s.drillEntry i
    (w.imm8.toNat < s.cur.counter c → exec i s = .next { s with issue := { s.issue with blocked := true } }) ∧
    (s.cur.counter c ≤ w.imm8.toNat → s.cur.deferredOf c = none →
      exec i s = .next (s.issued i { e with cur := e.cur.raiseDts (s.cur.retired.getD c.num s.dts) })) ∧
    (∀ t, s.cur.counter c ≤ w.imm8.toNat → s.cur.deferredOf c = some t →
      let u := ({ s with cur := { s.cur with deferred := dropDeferred c s.cur.deferred } } : State).trapWord
        { t with defer := true }
      inRange (s.launch s.cur.lid).dentry s.cur.arch.drill.pos.pc = true → exec i s = .next (s.issued i u)))

/-- DLD, DLDX, DLDS and DLDC send the loads of the Drill lanes into a queue entry; DPREF prefetches their lines; that it waits for a
translation that the host has to give, and for a home that a colour-map change holds back, is the model's choice (log 31). -/
def Obligations.DrillLoads : Prop := ∀ (w : PW) (x : PX),
  FillsQueue (.dld w) w none .glob ∧ FillsQueue (.dldWide w x) w (some x) .glob ∧ FillsQueue (.dldx w) w none .chip ∧
  FillsQueue (.dldxWide w x) w (some x) .chip ∧ FillsQueue (.dlds w) w none .scratch ∧ FillsQueue (.dldsWide w x) w (some x) .scratch ∧
  FillsQueue (.dldc w) w none .cluster ∧ FillsQueue (.dldcWide w x) w (some x) .cluster ∧
  ∀ (i : Instr) (x : Option PX), (i = .dpref w ∧ x = none) ∨ (∃ y, i = .dprefWide w y ∧ x = some y) → ∀ s : State, s.canDrill i = true →
    let e := s.drillEntry i
    let r := e.prefetches s.cur.core s.cur.ctx s.inHandler (memHint x)
      (s.cur.drillLanes.map (fun l => (s.avec w.a l + BitVec.ofInt 64 (memOff w x 4), s.dts)))
    (∀ t, r = .ok t → exec i s = .next (s.issued i t) ∧ t.cur = e.cur ∧ s.sameMemory t) ∧
    (∀ m, r = .wait m → exec i s = .next (({ s with issue := { s.issue with blocked := true } } : State).askHost m)) ∧
    (∀ l, s.cur.drillLanes = [l] →
      e.prefetchGoes s.cur.core s.cur.ctx s.inHandler (s.avec w.a l + BitVec.ofInt 64 (memOff w x 4)) → ∃ t, r = .ok t)

/-- DPUSH reserves and fills the tail entry of its queue; DQBR reads a lane of qb's head entry into an address register; DGATH sends
loads at the indices that the head holds, as one engine operation; each waits while it has no entry to read or to reserve. DCOPY
stores a head to its channel. -/
def Obligations.DrillQueues : Prop := ∀ (w : PW) (x : PX) (s : State),
  let q := w.d.toNat - 56
  let u := s.cur.arch.q.getD q Queue.empty
  let lanes := (List.range 32).filter (fun l => l < s.cur.width && (s.cur.thread l).live)
  let waits (i : Instr) : Prop := exec i s = .next { s with issue := { s.issue with blocked := true } }
  (s.canDrill (.dpush w) = true →
    let i : Instr := .dpush w
    let e := s.drillEntry i
    let v (l : Nat) : DWord := s.areg w.a + BitVec.ofNat 64 l * s.cur.arch.drill.a.getD (w.a.toNat + 1) 0
    let ent : QEnt := ⟨(List.range 32).map (fun l => if lanes.contains l then BitVec.ofNat 32 (if w.x then (v l).toNat / 2 ^ 32 else (v l).toNat) else 0),
      true, s.dts, [], 0⟩
    (8 ≤ u.ents.length → waits i) ∧
    (u.ents.length < 8 → exec i s = .next (s.issued i { e with cur := { e.cur with arch :=
      { e.cur.arch with q := e.cur.arch.q.modify q (fun u => { u with ents := u.ents ++ [ent] }) } } }))) ∧
  (s.canDrill (.dqbr w) = true →
    let i : Instr := .dqbr w
    (s.qbHead = none → waits i) ∧
    (∀ h, s.qbHead = some h →
      let v := h.vals.getD w.b.toNat 0
      exec i s = .next (s.issued i (((s.drillEntry i).setAreg w.d.toNat (if w.x then v.signExtend 64 else v.setWidth 64)).takeQb h w.am)))) ∧
  (s.canDrill (.dgath w x) = true →
    let i : Instr := .dgath w x
    let size := typeSize x.typ
    (s.qbHead = none ∨ 8 ≤ u.ents.length ∨ 255 ≤ s.cur.counter .ogt → waits i) ∧
    (∀ h, s.qbHead = some h → u.ents.length < 8 → s.cur.counter .ogt < 255 →
      let idx (l : Nat) : Int := if w.x then (h.vals.getD l 0).toInt else (h.vals.getD l 0).toNat
      let ea (l : Nat) : DWord := s.areg w.a + BitVec.ofInt 64 (idx l * size + x.offh.toInt * size)
      let check := s.drillTargets .glob lanes x.typ ea (fun _ => 0)
      (∀ t, check = .trap t → exec i s = .next (s.trapWord t)) ∧
      (∀ ts, check = .ok ts →
        let id := s.sched.nextId
        let b := (s.drillEntry i).takeQb h w.bm
        let ent : QEnt := { QEnt.blank with filled := lanes.isEmpty, stamp := b.dts }
        let recs := ts.mapIdx (fun k p => (⟨id + 1 + k, p.1, 0, .queue q (u.base + u.ents.length), x.typ, x.hint, s.cur.ctx, ea p.1,
          p.2.map (fun r => ⟨r.1, r.2, .unsent⟩), b.dts, id, []⟩ : LoadRec))
        exec i s = .next (s.issued i { b with
          sched := { s.sched with nextId := id + 1 + ts.length },
          cur := { b.cur with arch := { b.cur.arch with q := b.cur.arch.q.modify q (fun u => { u with ents := u.ents ++ [ent] }) },
                              dloads := b.cur.dloads ++ recs,
                              ops := s.cur.ops ++ [⟨id, .ogt, b.dts, lanes.isEmpty, lanes.length, [], [], []⟩] } })))) ∧
  (s.canDrill (.dcopy w) = true →
    let i : Instr := .dcopy w
    let k := (s.areg w.b).toNat
    let a := (s.areg w.a).toNat
    let halted (h : Nat) : Prop := (s.chan h).st = 2 ∧ 4 ≤ (s.chan h).heads.length
    (∀ h, (s.ctx s.cur.ctx).channel (k % 256) = some h → k < 256 → ¬ halted h → a % 128 = 0 →
      (((s.chan h).st = 1 ∧ 4 ≤ (s.chan h).heads.length ∧ a ≠ 0) ∨ (w.x = true ∧ 255 ≤ s.cur.counter .ocp) → waits i) ∧
      ((s.chan h).st = 0 → (w.x = true → s.cur.counter .ocp < 255) → a ≠ 0 → ∃ t ts, exec i s = .next t ∧ s.sameMemory t ∧
        t.cur.arch.threads = s.cur.arch.threads ∧ t.dts = tmax s.dts ts ∧
        (let own : Init := ⟨false, s.cur.gid, s.cur.lid, s.cur.pid, s.cur.ctx, if w.x then s.sched.nextId else 0⟩
         t.chan h = { s.chan h with st := 1, next := a, stamp := tmax (s.chan h).stamp (ts + 1), init := own }) ∧
        t.cur.ops = s.cur.ops ++ if w.x then [⟨s.sched.nextId, .ocp, s.dts, false, 1, [], [], []⟩] else [])) ∧
    ((∀ h, (s.ctx s.cur.ctx).channel (k % 256) = some h → 256 ≤ k ∨ halted h) → exec i s = .next (s.trapWord { code := 0x0C, info := k % 256 })) ∧
    (∀ h, (s.ctx s.cur.ctx).channel (k % 256) = some h → k < 256 → ¬ halted h → a % 128 ≠ 0 → exec i s = .next (s.trapWord (Trap.of 0x08))))

/-! Device steps. -/

/-- HOME_LOAD gives a part of a load the bytes that stand at its home, or those of a covering L1 copy, and LOAD_REPLY brings them back;
of a woken WAITA or WAITC it performs the load. LOAD_VALIDATION sends the load again where a stamp has passed an interval, and else lands its
value in the registers that still name it. HOME_STORE changes the bytes of its part and no other, in global memory, chip scratchpad, or a
core's scratchpad or window; of TAGSET it changes the sector's tag; and a head stored to an idle copy channel starts it.
STORE_STAMP_RETURN ends the hold of the thread with the last answer of its accesses where none of the word's can meet a tag mismatch, and
else of every thread with the last answer of all (the model's reading of 08 R184 and R185, log 18); a fault traps the word's threads. A
Drill load or a gather fills its queue entry. That a load's point is its thread's or stream's as it stands, with drift, is the model's
reading of 03 R86 (log 33). -/
def Obligations.HomeLoadsAndStores : Prop := ∀ (s : State) (gid rid part : Nat) (g : Group), s.group gid = some g →
  (∀ (p : Word) (t : Target) (n : Nat) (d : List Byte) (w e : Word) (m : Option FMark),
    validate false p [⟨t, n, .arrived d w e m⟩] = if tle p e then some (tmax p w) else none) ∧
  (∀ r p, g.load rid = some r → r.parts[part]? = some p → s.canSend g r p = true → s.remoteOut gid rid part = false →
    (s.l1Serves g r p = true ∨ s.behind g rid part p.tgt = false) →
    let i : Instr := .homeLoad gid rid part
    let peer : Bool := p.tgt.space == .glob && isPeer p.tgt.addr
    let near : Bool := p.tgt.space == .glob && !r.isHld && r.op == 0
    let hit := s.l1Hit g.core (p.tgt.addr / 128) (g.loadStamp r)
    let put (x : LSt) : Group := g.updLoad rid (fun q => { q.setPart part x with base := g.loadStamp r })
    (peer = true → exec i s = .next (s.sendRemote gid rid part .load p.tgt.addr)) ∧
    (∀ c, peer = false → near = true → hit = some c → s.loadBad g r p = false → r.typ ≠ 11 → ∃ t m, exec i s = .next t ∧ s.sameMemory t ∧
      t.group gid = some (put (.arrived ((c.data.drop (p.tgt.addr % 128)).take p.len) c.wts c.rts m)) ∧ (p.tgt.tag = none → m = none)) ∧
    (peer = false → s.loadBad g r p = false → s.reachable g.core p.tgt = true → near = false ∨ hit = none → r.typ ≠ 11 →
      p.tgt.addr % 128 + p.len ≤ 128 → ∃ t w e m, exec i s = .next t ∧ s.sameMemory t ∧
      t.group gid = some (put (.sent (s.peek p.tgt p.len) w e m ⟨s.sched.nextId, s.viaTo (chipletOf g.core) p.tgt⟩)) ∧ (p.tgt.tag = none → m = none))) ∧
  (∀ w, g.load rid = none → rid = 0 → s.reloadMay g part = true → (g.thread part).wait = some (.addr w) → part < g.arch.threads.length →
    let n := if w.two then 8 else 4
    let v := ofBytes (s.peek w.tgt n)
    let k := if w.counter then 2 else n / 4
    let th := g.thread part
    s.tagMismatch w.tgt n = none → ∃ t g', exec (.homeLoad gid rid part) s = .next t ∧ s.sameMemory t ∧ t.group gid = some g' ∧
      (∀ l, l ≠ part → g'.thread l = g.thread l) ∧
      (let u := g'.thread part
       let reached : Prop := w.counter = true → w.cmp.toNat ≤ v
       (¬ reached → u.wait = some (.addr { w with woken := false }) ∧ u.pos = th.pos ∧ u.v = th.v ∧ u.p = th.p ∧ t.mem.monitors ≠ []) ∧
       (reached → u.wait = none ∧ u.pos = th.wnext ∧
         (w.counter = false → w.pd.toNat < 7 → u.getP w.pd.toNat = condHolds w.cond (8 * n) (BitVec.ofNat 64 v) w.cmp) ∧
         (w.d.toNat + k ≤ 56 → ∀ j, j < 56 → j < th.v.length → u.getV j =
           if w.d.toNat ≤ j ∧ j < w.d.toNat + k then ⟨BitVec.ofNat 32 (v / 2 ^ (32 * (j - w.d.toNat))), true, 0, none⟩ else th.getV j)))) ∧
  (∀ r tgt n d w e m b, g.load rid = some r → r.parts[part]? = some ⟨tgt, n, .sent d w e m b⟩ → g.place ≠ .saved →
    s.answersVia (chipletOf g.core) tgt b.via = true → s.dataBehind (chipletOf g.core) tgt b = false →
    exec (.loadReply gid rid part) s = .next (s.updGroup gid (fun g => g.updLoad rid (fun x => x.setPart part (.arrived d w e m))))) ∧
  (∀ r, g.loads.find? (fun r => r.id == rid) = some r → r.isHld = false → r.op = 0 → g.isDload rid = false → g.place ≠ .saved →
    r.parts.all (fun p => p.st.isArrived) = true → g.olderDone r.lane rid = true → (∀ h ∈ g.holds, h.kind ≠ .qload) →
    let i : Instr := .loadValidation gid rid
    let point := (g.thread r.lane).pts
    (validate false point r.parts = none → exec i s = .next (s.updGroup gid (fun g => g.updLoad rid LoadRec.resend))) ∧
    (∀ ts d vals, validate false point r.parts = some ts → r.dst = .reg d → d.toNat < 56 → r.result = (vals, none) → r.lane < g.arch.threads.length →
      ∃ t g', exec i s = .next t ∧ s.sameMemory t ∧ t.group gid = some g' ∧ g'.load rid = none ∧
        (g'.thread r.lane).pts = tmax (g.thread r.lane).pts ts ∧ (∀ l, l ≠ r.lane → g'.thread l = g.thread l) ∧
        ∀ n, n < (g.thread r.lane).v.length →
          let v := (g.thread r.lane).getV n
          (g'.thread r.lane).getV n = if d.toNat ≤ n ∧ n < d.toNat + vals.length ∧ v.tag = rid ∧ v.full = false then
            ⟨vals.getD (n - d.toNat) 0, true, 0, none⟩ else v)) ∧
  (∀ h p, g.holdRec rid = some h → (h.kind = .store ∨ h.kind = .tagset ∨ h.kind = .hst) → h.parts[part]? = some p → p.st = .unsent →
    g.partMay h part p = true → s.remoteOut gid rid part = false → s.boarded p.tgt p.data.length true = false → s.homeDead p.tgt = false →
    s.tierWaits p.tgt = false → s.reachable g.core p.tgt = true → s.behind g rid part p.tgt = false →
    let i : Instr := .homeStore gid rid part
    let back : Back := ⟨s.sched.nextId, s.viaTo (chipletOf g.core) p.tgt⟩
    let put (t : State) (x : SSt) : Prop := (t.group gid).bind (fun g => g.holdRec rid) = some (h.setPart part x)
    let peer : Prop := p.tgt.space = .glob ∧ isPeer p.tgt.addr = true
    let local_ : Prop := p.tgt.space = .scratch ∨ p.tgt.space = .cluster
    let quiet : Prop := ∀ x ∈ s.allGroups, ∀ t ∈ x.arch.threads, ∀ off gen d, t.wait ≠ some (.kb off gen d) ∧ t.susp.map (·.1) ≠ some (.kb off gen d)
    let read (t : State) (a : Nat) : Byte :=
      if p.tgt.space = .glob then t.mem.glob.read a else if p.tgt.space = .chip then t.mem.chip.read a else t.mem.scratch.read a
    (peer → exec i s = .next (s.sendRemote gid rid part .store p.tgt.addr)) ∧
    (∀ v, ¬ peer → s.tagMismatch p.tgt p.data.length = some v → ∃ t, exec i s = .next t ∧ s.sameMemory t ∧ put t (.faulted v back)) ∧
    (¬ peer → s.tagMismatch p.tgt p.data.length = none → h.kind ≠ .tagset → (p.tgt.space = .glob ∨ p.tgt.space = .chip ∨ (local_ ∧ quiet)) → p.data ≠ [] →
      s.memoryWf → ∃ t ts, exec i s = .next t ∧ put t (.performed ts [] back) ∧ t.mem.tags = s.mem.tags ∧
      (p.tgt.space ≠ .glob → t.mem.glob = s.mem.glob) ∧ (p.tgt.space ≠ .chip → t.mem.chip = s.mem.chip) ∧ (¬ local_ → t.mem.scratch = s.mem.scratch) ∧
      ∀ a, read t a = if p.tgt.addr ≤ a ∧ a < p.tgt.addr + p.data.length then p.data.getD (a - p.tgt.addr) 0 else read s a) ∧
    (¬ peer → s.tagMismatch p.tgt p.data.length = none → h.kind = .tagset → p.tgt.space = .glob → s.memoryWf →
      ∃ t ts, exec i s = .next t ∧ put t (.performed ts [] back) ∧ t.mem.glob = s.mem.glob ∧ t.mem.chip = s.mem.chip ∧ t.mem.scratch = s.mem.scratch ∧
        ∀ a, t.mem.tags.read a = if a = p.tgt.addr / 32 then p.data.headD 0 else s.mem.tags.read a) ∧
    (let k := p.tgt.addr / 32
     let a := ofBytes p.data
     s.tagMismatch p.tgt p.data.length = none → p.tgt.space = .chan → p.tgt.addr % 32 = 0 → (s.chan k).st = 0 → a ≠ 0 → a % 128 = 0 → a < 2 ^ 64 →
       ∃ t ts, exec i s = .next t ∧ put t (.performed ts [] back) ∧ s.sameMemory t ∧
         t.chan k = { s.chan k with st := 1, next := a, stamp := tmax (s.chan k).stamp (ts + 1), init := ⟨false, gid, g.lid, g.pid, g.ctx, 0⟩ })) ∧
  (∀ h p, g.holdRec rid = some h → h.kind = .store → h.parts[part]? = some p →
    let i : Instr := .storeStampReturn gid rid part
    let others (f : SSt → Bool) : Prop := ∀ (k : Nat) (q : SPart), k ≠ part → h.parts[k]? = some q → f q.st = true
    let comes (b : Back) : Prop := s.answersVia (chipletOf g.core) p.tgt b.via = true ∧ s.stampBehind (chipletOf g.core) p.tgt b = false
    let sure : Prop := h.held.late = [] ∧ ∀ q ∈ h.parts, q.tgt.tag = none ∧ ¬ (q.tgt.space = .glob ∧ isPeer q.tgt.addr = true)
    let mine (l : Nat) : Prop := ∀ (k : Nat) (q : SPart), k ≠ part → h.parts[k]? = some q → q.lane = l → q.st.answered = true
    (∀ ts old b, p.st = .performed ts old b → comes b → ¬ others SSt.answered → ∃ t g', exec i s = .next t ∧ s.sameMemory t ∧ t.group gid = some g' ∧
      g'.holdRec rid = some (h.setPart part (.done ts old)) ∧
      ∀ l, l < g.arch.threads.length →
        let th := g.thread l
        let u := if l = p.lane then { th with pts := tmax th.pts ts } else th
        let free : Prop := th.hold = rid ∧ sure ∧ (h.set.getLsbD l = true → mine l)
        (free → g'.thread l = { u with hold := 0, undo := [] }) ∧ (¬ free → g'.thread l = u)) ∧
    (∀ ts old b, p.st = .performed ts old b → comes b → others (fun x => x.answered && !x.isFailed) → (s.launch g.lid).failing = 0 →
      (s.plot g.pid).rolling = false → (∀ l, (g.thread l).exiting = false) → h.held.late = [] → ∃ t g', exec i s = .next t ∧ s.sameMemory t ∧
        t.group gid = some g' ∧ g'.holdRec rid = none ∧ ∀ l, (g'.thread l).hold ≠ rid ∨ rid = 0) ∧
    (∀ v b, p.st = .faulted v b → comes b → others (fun x => x.answered && !x.isFailed) → (s.launch g.lid).failing = 0 → (s.plot g.pid).rolling = false →
      g.esc = none → g.trap.handler = false → (s.ctx g.ctx).traph ≠ 0 → s.fsplit 2 = false → ∃ t g', exec i s = .next t ∧ s.sameMemory t ∧
        t.group gid = some g' ∧ g'.holdRec rid = none ∧ g'.trap.handler = true ∧ g'.trap.hset = h.set ∧
        g'.trap.epc = epcOf (s.launch g.lid).pentry h.pos ∧ g'.trap.faddr = p.ea ∧
        g'.trap.cause = causeOf { code := 0x1F, info := v, faddr := p.ea, lane := some p.lane, wr := true } h.slot false ∧
        g'.trap.done = h.skipped ||| maskOf (fun l => h.lanes.getLsbD l && l != p.lane))) ∧
  (∀ r q e, g.dloads.find? (fun r => r.id == rid && r.op == 0) = some r → r.dst = .queue q e → g.place ≠ .saved → r.parts.all (fun p => p.st.isArrived) = true →
    (∀ q ∈ g.dloads, q.op = 0 → q.id < rid → q.dst = r.dst) →
    (validate false g.arch.drill.dts r.parts = none → exec (.drillLoadValidation gid rid) s = .next (s.updGroup gid (fun g => g.updLoad rid LoadRec.resend))) ∧
    (∀ ts, validate false g.arch.drill.dts r.parts = some ts →
      exec (.drillLoadValidation gid rid) s = .next (s.updGroup gid (fun g => g.landDrill r q e ts)))) ∧
  (let ls := g.dloads.filter (fun r => r.op == rid && rid != 0)
   ls ≠ [] → g.place ≠ .saved → (∀ r ∈ ls, r.parts.all (fun p => p.st.isArrived) = true) →
     ∃ t g', exec (.gatherEntryFill gid rid) s = .next t ∧ s.sameMemory t ∧ t.group gid = some g' ∧ ∀ o ∈ g'.ops, o.id = rid → o.done = true)

/-- HOME_ATOMIC performs the head request of a chiplet's stage in one step: its bytes become the operation's result, no others change, and
the reply carries the old value. The operations are those of 08 R192, and a composite of two does what they do one after the other, a
counted one being applied as often as it counts. WINDROW_ARRIVAL moves a request on: it joins the last queued request with which it may combine
while the stage has a wait-buffer entry, and else stands behind all; WINNOW_SPLIT splits the reply of a combined one, and each reply goes back
the way its request came. ENGINE_OP_RETIRE retires the oldest operation of its class once it is complete. The slices take, write and drop
lines: the first victims leave before other lines, where which line leaves, and that a slice is one set, is the model's choice (log 86). -/
def Obligations.AtomicsAndSlices : Prop := ∀ s : State,
  (∀ wid x a : Nat, wid ≤ 1 →
    let n := if wid = 0 then 32 else 64
    x < 2 ^ n → a < 2 ^ n →
    fetchOp 0 wid x a = (x + a) % 2 ^ n ∧ fetchOp 1 wid x a = x &&& a ∧ fetchOp 2 wid x a = x ||| a ∧ fetchOp 3 wid x a = x ^^^ a ∧
    toSigned n (fetchOp 4 wid x a) = min (toSigned n x) (toSigned n a) ∧ toSigned n (fetchOp 5 wid x a) = max (toSigned n x) (toSigned n a) ∧
    (fetchOp 4 wid x a = x ∨ fetchOp 4 wid x a = a) ∧ (fetchOp 5 wid x a = x ∨ fetchOp 5 wid x a = a) ∧
    fetchOp 6 wid x a = min x a ∧ fetchOp 7 wid x a = max x a ∧
    fetchOp 9 wid x a = (if a ≤ x then 0 else x + 1) ∧ fetchOp 10 wid x a = (if x = 0 ∨ a < x then a else x - 1)) ∧
  (∀ wid x a : Nat, fetchOp 8 wid x a = a ∧ fetchOp 11 wid x a = (Fmt.f32.add 0 x a).val) ∧
  (∀ opa wid x a b c d : Nat, (opa ≤ 8 → wid ≤ 1 → x < 2 ^ widBits wid → a < 2 ^ widBits wid → b < 2 ^ widBits wid →
      applyOp opa wid (combineOp opa wid a b) 1 x = fetchOp opa wid (fetchOp opa wid x a) b) ∧
    (opa = 11 → combineOp opa wid a b = (Fmt.f32.add 0 a b).val) ∧
    (opa = 9 ∨ opa = 10 → combineOp opa wid a a = a ∧ applyOp opa wid a 0 x = x ∧ applyOp opa wid a (c + 1) x = applyOp opa wid a c (fetchOp opa wid x a) ∧
      applyOp opa wid a (c + d) x = applyOp opa wid a d (applyOp opa wid a c x)) ∧
    (opa ≠ 9 → opa ≠ 10 → applyOp opa wid a (c + 1) x = fetchOp opa wid x a)) ∧
  (∀ r : AReq, ∀ x, r.opa = 16 → r.result x = if x = r.o.toNat then r.swap.toNat else x) ∧
  (∀ r : AReq, ∀ x, r.opa ≠ 16 → r.result x = applyOp r.opa r.wid r.o.toNat r.count x) ∧
  (∀ q r : AReq, combinable q r = true ↔ q.chip = r.chip ∧ q.addr = r.addr ∧ q.opa = r.opa ∧ q.wid = r.wid ∧ r.opa ≤ 11 ∧
    (r.opa = 11 → q.ra = true ∧ r.ra = true) ∧ q.ea.extractLsb' 56 8 = r.ea.extractLsb' 56 8 ∧ (r.opa = 9 ∨ r.opa = 10 → q.o = r.o)) ∧
  (∀ (n : Nat) (r : AReq),
    let st := s.stage n
    let u := (s.windrow n r).stage n
    let last : AReq := { r with cycle := s.sched.cycle }
    (64 ≤ st.wb.length ∨ (∀ q ∈ st.outq, combinable q r = false) → u = { st with outq := st.outq ++ [last] }) ∧
    (∀ fore q aft, st.wb.length < 64 → r.opa ≠ 9 → r.opa ≠ 10 → st.outq = fore ++ q :: aft → combinable q r = true → (∀ z ∈ aft, combinable z r = false) →
      u = { st with
        outq := fore ++ { q with o := BitVec.ofNat 128 (combineOp r.opa r.wid q.o.toNat r.o.toNat), count := q.count + r.count, m := q.m + r.m,
                                 pts := tmax q.pts r.pts, src := .entry n s.sched.nextId, tag := q.tag.orElse (fun _ => r.tag), via := none } :: aft
        wb := st.wb ++ [⟨s.sched.nextId, q.src, r.src, q.o, q.count, q.m, (q.via, r.via)⟩] })) ∧
  (∀ (mc : Nat) (r : AReq) (rest : List AReq), mc < 12 → (s.stage (136 + mc)).outq = r :: rest → s.tierWaits r.target = false →
    s.dramOpen r.target = true →
    let n := if r.wid = 0 then 4 else if r.wid = 1 then 8 else 16
    let x := ofBytes (s.peek r.target n)
    let poisoned := s.homeDead r.target || s.bad r.target n
    let answer (x : Nat) (b : Word) (bad : Option Nat) : AReply := ⟨r.src, r.opa, r.wid, r.count, BitVec.ofNat 128 x, b, bad, r.addr, mc, r.chip, ⟨s.sched.nextId, r.via⟩⟩
    (poisoned = true → ∃ t, exec (.homeAtomic mc) s = .next t ∧ s.sameMemory t ∧ t.mem.replies = s.mem.replies ++ [answer 0 r.pts (some 255)]) ∧
    (∀ v, poisoned = false → s.tagMismatch r.target n = some v →
      ∃ t, exec (.homeAtomic mc) s = .next t ∧ s.sameMemory t ∧ t.mem.replies = s.mem.replies ++ [answer 0 r.pts (some v)]) ∧
    (poisoned = false → s.tagMismatch r.target n = none → s.memoryWf → ∃ t b, exec (.homeAtomic mc) s = .next t ∧
      (t.stage (136 + mc)).outq = rest ∧ t.mem.replies = s.mem.replies ++ [answer x b none] ∧
      t.peek r.target n = bytesOf n (r.result x) ∧
      (let was := if r.chip then s.mem.chip else s.mem.glob
       let now := if r.chip then t.mem.chip else t.mem.glob
       (if r.chip then t.mem.glob = s.mem.glob else t.mem.chip = s.mem.chip) ∧ t.mem.scratch = s.mem.scratch ∧ t.mem.tags = s.mem.tags ∧
       ∀ a, a < r.addr ∨ r.addr + n ≤ a → now.read a = was.read a))) ∧
  (∀ (n port : Nat) (r : AReq), n < 128 → (s.stage n).arriving.find? (fun q => q.port == port) = some r → ∀ pts, s.coreStamp r = some pts →
    (∀ q, q < port → s.arrivalAt n q = none) →
    exec (.windrowArrival n port) s = .next ((s.updStage n (fun st => { st with arriving := st.arriving.erase r })).windrowCount n { r with pts := pts })) ∧
  (∀ (n u port : Nat) (r : AReq), 128 ≤ n → n < 148 → s.nextArrival n port = some (u, r) → (136 ≤ n → s.accessesBefore port (n - 136) r = false) →
    (∀ q, q < port → s.arrivalAt n q = none) →
    exec (.windrowArrival n port) s =
      .next ((s.updStage u (fun st => { st with outq := st.outq.erase r })).windrowCount n { r with stage := n, port := port, via := if 136 ≤ n then s.viaOf port (8 + (n - 136)) else none })) ∧
  (∀ (n : Nat) (r : AReply) (id : Nat) (e : WbEnt),
    s.mem.replies.find? (fun r => match r.src with
      | .entry k _ => k == n && (decide (136 ≤ n) || s.replyMay (if n < 128 then n / 16 else n - 128) r)
      | .core _ _ _ _ => false) = some r → r.src = .entry n id →
    (s.stage n).wb.find? (fun e => e.id == id) = some e → ∃ t, exec (.winnowSplit n) s = .next t ∧ s.sameMemory t ∧
      t.mem.replies = s.mem.replies.erase r ++ [{ r with src := e.first, back := { r.back with via := e.vias.1.orElse (fun _ => r.back.via) } },
        { r with src := e.second, back := { r.back with via := e.vias.2.orElse (fun _ => r.back.via) }, x := BitVec.ofNat 128 (applyOp r.opa r.wid e.oFirst.toNat e.cFirst r.x.toNat), b := r.b + BitVec.ofNat 32 e.mFirst }] ∧
      ∀ x ∈ (t.stage n).wb, x.id ≠ id) ∧
  (∀ (gid c : Nat) (g : Group) (o : EngOp), s.group gid = some g → g.ops.find? (fun o => o.cls == clsOf c) = some o → o.done = true →
    let fs := if (s.launch g.lid).failing = 0 then o.faults.map (fun f => (clsOf c, f)) else []
    let count (a : GArch) : GArch := { a with nan := addNans a.nan o.nans }
    ∃ t, exec (.engineOpRetire gid c) s = .next t ∧ s.sameMemory t ∧ t.group gid = some { g with
      ops := g.ops.filter (fun x => x.id != o.id), retired := g.retired.modify (clsOf c).num (fun m => tmax m o.stamp),
      deferred := g.deferred ++ fs, owed := if o.id < g.barrier then g.owed ++ fs else g.owed, arch := count g.arch,
      shadow := if o.id < g.barrier then g.shadow.map count else g.shadow }) ∧
  (∀ k : LineKey, s.hasLine k = true → (s.line k).held ≠ [] → exec (.syncEngineRelease k) s = .next (s.setLine (s.line k).release)) ∧
  (∀ (n : Nat) (a : Target) (ctx hint : Nat), populated (128 * n) = true → s.hasLine (.glob n) = false → s.fillFor n = some (a, ctx, hint) →
    ∃ t, exec (.l2Fill n) s = .next t ∧ s.sameMemory t ∧ t.hasLine (.glob n) = true ∧
      (let l := s.line (.glob n)
       let tags : Prop := leafTid a.leaf ≠ 0 ∧ leafW a.leaf = true
       (tags → t.line (.glob n) = { l with present := 15, tctx := ctx, tid := leafTid a.leaf, first := effHint a.leaf hint == 1 }) ∧
       (¬ tags → t.line (.glob n) = { l with present := 15, first := effHint a.leaf hint == 1 }))) ∧
  (∀ n : Nat, s.hasLine (.glob n) = true →
    ((s.line (.glob n)).first = true ∨ ∀ l ∈ s.mem.lines, ∀ m, l.key = .glob m → homeMc (128 * m) = homeMc (128 * n) → l.first = false) → ∃ t, exec (.l2Evict n) s = .next t ∧ s.sameMemory t ∧ t.hasLine (.glob n) = false) ∧
  (∀ (id mc : Nat) (d : Disc), s.mem.discs.find? (fun d => d.id == id && d.left.contains mc) = some d →
    (∀ g, s.group d.gid = some g → let port := chipletOf g.core
      s.pairOpen port (8 + mc) = true ∧ ∀ lane, lane < 8 → s.returnOpen (s.viaOf port (8 + mc)) lane (8 + mc) port = true) →
    ∃ t, exec (.discardSliceComplete id mc) s = .next t ∧
      (s.mem.monitors = [] → ∀ n, (∃ l ∈ s.mem.lines, l.key = .glob n ∧ homeMc (128 * n) = mc ∧ l.tctx = d.ctx ∧ l.tid = d.tid) → t.hasLine (.glob n) = false) ∧
      (d.left.erase mc = [] → ∀ x ∈ t.mem.discs, x.id ≠ id) ∧
      (d.left.erase mc ≠ [] → ∀ x ∈ t.mem.discs, x.id = id → x.left = d.left.erase mc)) ∧
  (let u := unstale s.tbase
   exec .stampSweep s = .next { s with mem := { s.mem with mst := s.mem.mst.map u, rest := u s.mem.rest, lines := s.mem.lines.map (fun (l : LineSt) =>
     { l with wts := u l.wts, rts := u l.rts, held := l.held.map (fun w => (u w.1, u w.2)) }) } })

/-- ENGINE_TAKE gives the first queued entry that may go to the lowest free engine: a sheaf begins to be read, and an item performs, so
that its results stand at the permuted units of its records and nowhere else, its threads pass their word and its operation is complete.
SHEAF_DEADLINE closes an open sheaf, and SHEAF_OPERANDS_READ takes a read one's members, each of which performs, and frees it. No engine
writes global memory or chip scratchpad. Of an MMA each element is the one rounding of its terms (04 R114), or what 04 R116 says of NaNs and
infinities (with NAN.ZERO an old C of infinity beside a NaN gives that infinity, the model's choice, log 81); PLANE writes the planes, the
exponents and the NaN marks of 04 R112 and R113, and UNPLANE rounds each value once. -/
def Obligations.MatrixEngines : Prop :=
  (∀ (s : State) (cl : Nat),
    let c := s.cluster cl
    let order := sortBy (fun (a b : (Nat ⊕ Nat) × Nat × Nat) => b.2.1 < a.2.1 || (a.2.1 == b.2.1 && a.2.2 < b.2.2)) c.queued
    let isMma (m : MItem) : Bool := match m.word with | .mma _ _ => true | _ => false
    let quiet : Prop := ∀ x ∈ s.allGroups, ∀ t ∈ x.arch.threads, ∀ off gen d, t.wait ≠ some (.kb off gen d) ∧ t.susp.map (·.1) ≠ some (.kb off gen d)
    -- the group's part of a member that performs: its operation stands complete, its threads pass the word
    let performs (m : MItem) (g g' : Group) : Prop := (∃ o ∈ g'.ops, o.id = m.id ∧ o.cls = .omx ∧ o.done = true ∧ o.faults = []) ∧
      ∀ l, l < g.arch.threads.length → m.lanes.getLsbD l = true → (g.thread l).wait = some (.matrix m.c) → (g.thread l).susp = none →
        g'.thread l = { g.thread l with wait := none, pos := (g.thread l).wnext }
    (∀ q e, order.find? (fun q => s.itemsMay (c.itemsOf q.1)) = some q → (List.range 4).find? (fun e => !c.busy.contains e) = some e →
      (∀ i, q.1 = .inl i → ∃ t, exec (.engineTake cl) s = .next t ∧ s.sameMemory t ∧ t.groups = s.groups ∧
        (t.cluster cl).sheaves = c.sheaves.modify i (fun h => { h with st := .reading, engine := e })) ∧
      (∀ i m g ws p nans, q.1 = .inr i → c.dispatch[i]? = some m → s.group m.gid = some g → (s.launch g.lid).failing = 0 →
        (isMma m = true → s.badB m (s.plotBase g) = none) → s.clashB m = none → (∀ r ∈ m.ownRecs, s.badRecs r.1 (s.plotBase g) r.2 = none) →
        s.computeItem m (s.plotBase g) (if isMma m then s.rowsB m (s.plotBase g) else none) = .ok ws p nans →
        ∃ t g' o, exec (.engineTake cl) s = .next t ∧ t.mem.glob = s.mem.glob ∧ t.mem.chip = s.mem.chip ∧ (t.cluster cl).dispatch = c.dispatch.eraseIdx i ∧
          t.group m.gid = some g' ∧ g'.ops = g.ops ++ [o] ∧ o.id = m.id ∧ o.nans = nans ∧ performs m g g' ∧ (∀ r ∈ t.mem.sboard, r.owner ≠ m.id) ∧
          (quiet → t.mem.tags = s.mem.tags ∧ t.mem.scratch = ws.foldl (fun (u : Memory) r => (List.range (r.2.length / 8)).foldl (fun (u : Memory) k =>
            let x := r.1 + 8 * k
            u.writeN (s.plotBase g + if p = 0 then x else x ^^^ (x / 2 ^ (7 + p) % 32 * 8)) ((r.2.drop (8 * k)).take 8)) u) s.mem.scratch))) ∧
    (∀ k, let h := c.sheaves.getD k Sheaf.free
      (h.st = .opened → h.deadline ≤ s.sched.cycle → exec (.sheafDeadline cl k) s = .next (s.updCluster cl (fun c =>
        { c with sheaves := c.sheaves.modify k (fun h => { h with st := .closed, closed := s.sched.cycle }) }))) ∧
      (∀ m ms, h.st = .reading → h.members = m :: ms →
        (∀ k ∈ h.members, ∀ g, s.group k.gid = some g → g.counter .omx + (h.members.filter (fun x => x.gid == k.gid)).length ≤ 255) →
        ∃ t, exec (.sheafOperandsRead cl k) s = .next t ∧ t.mem.glob = s.mem.glob ∧ t.mem.chip = s.mem.chip ∧
        (c.arrivals = [] → s.badB m (((s.group m.gid).map s.plotBase).getD 0) = none →
          (∀ k ∈ h.members, ∀ g, s.group k.gid = some g → ∀ r ∈ k.ownRecs, s.badRecs r.1 (s.plotBase g) r.2 = none) →
          (t.cluster cl).sheaves = c.sheaves.set k Sheaf.free) ∧
        (s.badB m (((s.group m.gid).map s.plotBase).getD 0) = none →
          (∀ k ∈ h.members, ∃ g ws p nans, s.group k.gid = some g ∧ (s.launch g.lid).failing = 0 ∧ s.clashB k = none ∧
            (∀ r ∈ k.ownRecs, s.badRecs r.1 (s.plotBase g) r.2 = none) ∧
            s.computeItem k (s.plotBase g) (s.rowsB m (((s.group m.gid).map s.plotBase).getD 0)) = .ok ws p nans) →
          ∀ k ∈ h.members, ∀ g, s.group k.gid = some g → ∃ g', t.group k.gid = some g' ∧ performs k g g')))) ∧
  -- an MMA: its terms, its rounding, its elements and its rows
  (∀ (a b : PRow) (q : Nat), q < a.exps.length → (blockTerms a b).length = a.exps.length ∧ ((48 * (q + 1) ≤ a.ints.length ∧ 48 * (q + 1) ≤ b.ints.length) →
    (blockTerms a b)[q]? = some (((List.range 48).map (fun k => a.ints.getD (48 * q + k) 0 * b.ints.getD (48 * q + k) 0)).sum,
      a.exps.getD q 0 + b.exps.getD q 0))) ∧
  (∀ (int : Bool) (ts : List Term),
    let nz := ts.filter (fun t => t.1 != 0)
    let lg (t : Term) : Int := t.2 + t.1.natAbs.log2
    (nz = [] → mmaRound int ts = 0) ∧
    (∀ top, (∃ t ∈ nz, lg t = top) → (∀ t ∈ nz, lg t ≤ top) →
      let lo := top - 117
      let part (t : Term) : Int := if lo ≤ t.2 then t.1 * 2 ^ (t.2 - lo).toNat else t.1 / 2 ^ (lo - t.2).toNat
      let wh : Int := (nz.map part).sum
      let exact : Prop := ∀ t ∈ nz, lo ≤ t.2 ∨ (2 ^ (lo - t.2).toNat : Int) ∣ t.1
      let gives (neg : Bool) (k : Nat) (e : Int) (sticky : Bool) : Prop := mmaRound int ts =
        if int then
          let r := (roundTo 0 neg k e 0 sticky).1
          ((max (-(2 ^ 31)) (min (2 ^ 31 - 1) (if neg then -(r : Int) else r))) % 2 ^ 32).toNat
        else if k = 0 then 0
        else let r := (Fmt.f32.round 0 neg k e sticky).val; if r = 0x8000_0000 then 0 else r
      (exact → gives (decide (wh < 0)) wh.natAbs lo false) ∧
      (¬ exact → 0 ≤ wh → gives false wh.toNat lo true) ∧
      -- a value just above a negative W, the exponent far enough below that the sticky bit only breaks ties
      (¬ exact → wh < 0 → gives true (wh.natAbs * 2 ^ 64 - 1) (lo - 64) true))) ∧
  (∀ (int zero : Bool) (a b : PRow) (c : Option FVal),
    let nan : Prop := true ∈ a.nan ∨ true ∈ b.nan ∨ ∃ x g, c = some (.nan x g)
    (zero = false → nan → mmaElem int zero a b c = if int then 0x8000_0000 else 0x7FC0_0000) ∧
    (zero = true ∨ ¬ nan →
      (∀ x, c = some (.inf x) → mmaElem int zero a b c = if x then 0xFF80_0000 else 0x7F80_0000) ∧
      (∀ x m e, c = some (.fin x m e) → mmaElem int zero a b c = mmaRound int (blockTerms a b ++ [(if x then -(m : Int) else m, e)])) ∧
      ((c = none ∨ ∃ x g, c = some (.nan x g)) → mmaElem int zero a b c = mmaRound int (blockTerms a b)))) ∧
  (∀ (s : State) (m : MItem) (base : Nat) (w : PW) (x : PX) (rows bs : List PRow), m.word = .mma w x →
    let a := Quad.of m.qa
    let d := Quad.of m.qd
    let old (r j : Nat) : FVal :=
      let y := ofBytes (((s.mem.reader false base d.perm (d.base + r * d.row) 128).drop (4 * j)).take 4)
      if d.kind = 2 then (let i := toSigned 32 y; .fin (decide (i < 0)) i.natAbs 0) else Fmt.f32.unpack y
    d.rows = a.rows → bs.length = 32 → (List.range a.rows).map (fun r => a.readRow (s.mem.reader false base a.perm) m.kc r) = rows.map some →
    ∃ ws nans, s.computeItem m base (some bs) = .ok ws d.perm nans ∧ ws.length = a.rows ∧ ∀ r, r < a.rows →
      ws[r]? = some (d.base + r * d.row, (bs.mapIdx (fun j b =>
        mmaElem (d.kind == 2) d.nz (rows.getD r ⟨[], [], []⟩) b (if x.m 8 8 = 1 then some (old r j) else none))).flatMap (bytesOf 4))) ∧
  -- a row of planes, as it is read (04 R111, 11 R244)
  (∀ (q : Quad) (rd : Rd) (kc r c k : Nat) (row : PRow), q.readRow rd kc r = some row → 1 ≤ q.p → c < kc → k < 768 →
    let plane (i : Nat) : Nat := ofBytes (rd (q.base + c * q.chunk + i * q.plane + r * q.row) 96)
    let ex : Int := toSigned 16 (ofBytes (((rd (q.base + c * q.chunk + q.p * q.plane + r * q.row) 32).drop (2 * (k / 48))).take 2))
    row.exps.getD (16 * c + k / 48) 0 = ex ∧ -256 ≤ ex ∧ ex ≤ 255 ∧
    row.nan.getD (768 * c + k) false = ((q.np && (plane (q.p + 1)).testBit k) || ex == -256) ∧
    row.ints.getD (768 * c + k) 0 = if row.nan.getD (768 * c + k) false then 0
      else toSigned q.p (((List.range q.p).map (fun i => if (plane i).testBit k then 2 ^ i else 0)).sum)) ∧
  -- PLANE: a block of numbers (04 R113), and the records of a row
  (∀ (p : Nat) (np : Bool) (vs : List FVal), 2 ≤ p →
    let off (v : FVal) : Prop := ∀ s m e, v ≠ .fin s m e
    let out := toBfp p np vs
    (np = false → (∃ v ∈ vs, off v) → out = (vs.map (fun _ => 0), -256, vs.map (fun _ => false))) ∧
    (np = true ∨ (∀ v ∈ vs, ¬ off v) →
      (∀ k v, vs[k]? = some v → (off v → out.1.getD k 0 = 0) ∧ (out.2.2.getD k false = true ↔ off v)) ∧
      ((∀ v ∈ vs, off v ∨ ∃ s e, v = .fin s 0 e) → out.2.1 = 0 ∧ ∀ k, out.1.getD k 0 = 0) ∧
      (∀ n : Int, (∃ s m e, FVal.fin s m e ∈ vs ∧ 0 < m ∧ expOf m e = n) → (∀ s m e, FVal.fin s m e ∈ vs → 0 < m → expOf m e ≤ n) →
        let int (ex : Int) (s : Bool) (m : Nat) (e : Int) : Int := let r : Int := (roundTo 0 s m e ex false).1; if s then -r else r
        let fits (ex : Int) : Prop := ∀ s m e, FVal.fin s m e ∈ vs → -(2 ^ (p - 1)) ≤ int ex s m e ∧ int ex s m e ≤ 2 ^ (p - 1) - 1
        (fits (n - p + 2) → out.2.1 = n - p + 2) ∧ (¬ fits (n - p + 2) → out.2.1 = n - p + 3) ∧
        ∀ k s m e, vs[k]? = some (.fin s m e) → out.1.getD k 0 = int out.2.1 s m e))) ∧
  ((List.range 16).map (planeInt 0) = [0, 1, 2, 3, 4, 5, 6, 7, -8, -7, -6, -5, -4, -3, -2, -1] ∧
   (List.range 16).map (planeInt 1) = [0, 1, 2, 3, 4, 6, 8, 12, 0, -1, -2, -3, -4, -6, -8, -12] ∧
   (List.range 16).map (planeInt 2) = [0, 1, 2, 4, 8, 16, 32, 64, 0, -1, -2, -4, -8, -16, -32, -64] ∧
   (List.range 16).map (planeInt 3) = [0, 1, 2, 3, 4, 6, 8, 16, 0, -1, -2, -3, -4, -6, -8, -16]) ∧
  (∀ (typ kc : Nat) (src dst : Quad) (rd : Rd) (ws : List (Nat × List Byte)) (r c b k : Nat), planeAll typ kc src dst rd = some ws →
    r < src.rows → c < kc → b < 16 → k < 48 →
    let q := 16 * c + b
    let z := typeSize typ
    let bytes := rd (src.base + r * src.row) (rowBytes 3 typ (768 * kc))
    let line := (bytes.drop (128 * (q / 5))).take 128
    let scale := (line.getD (120 + q % 5) 0).toNat
    let blk : List Int × Int × List Bool :=
      if typ = 11 then ((List.range 48).map (fun k => if scale = 0x3F then 0
          else planeInt (scale / 64) ((line.getD (24 * (q % 5) + k / 2) 0).toNat / 16 ^ (k % 2) % 16)),
        if scale = 0x3F then -256 else (scale % 64 : Int) - 32 + toSigned 8 (line.getD 125 0).toNat + (if scale / 64 = 1 then -1 else 0),
        List.replicate 48 false)
      else toBfp dst.p dst.np ((List.range 48).map (fun k => (Fmt.ofType typ).unpack (ofBytes ((bytes.drop ((48 * q + k) * z)).take z))))
    let stored (n len : Nat) (f : List Byte → Prop) : Prop := ∃ bs, (dst.base + c * dst.chunk + n * dst.plane + r * dst.row, bs) ∈ ws ∧ bs.length = len ∧ f bs
    (typ = 11 → scale ≠ 0x3F → [4, 5, 8, 6].getD (scale / 64) 0 ≤ dst.p) ∧
    (∀ i, i < dst.p → stored i 96 (fun bs => (ofBytes bs).testBit (48 * b + k) = (BitVec.ofInt 64 (blk.1.getD k 0)).getLsbD i)) ∧
    stored dst.p 32 (fun bs => ofBytes ((bs.drop (2 * b)).take 2) = (BitVec.ofInt 16 blk.2.1).toNat) ∧
    (dst.np = true → stored (dst.p + 1) 96 (fun bs => (ofBytes bs).testBit (48 * b + k) = blk.2.2.getD k false))) ∧
  -- UNPLANE: its rows
  (∀ (typ kc md : Nat) (sat : Bool) (src dst : Quad) (rd : Rd) (ws : List (Nat × List Byte)), unplaneAll typ kc md sat src dst rd = some ws → typ ≠ 11 →
    ws.length = src.rows ∧ ∀ r, r < src.rows → ∃ vs, src.values rd kc r = some vs ∧ vs.length = 768 * kc ∧
      ws[r]? = some (dst.base + r * dst.row, vs.flatMap (fun v => bytesOf (typeSize typ) (fpEncode typ md sat v))) ∧
      ∀ k, k < 768 * kc →
        (src.kind = 0 → ∀ row, src.readRow rd kc r = some row → vs[k]? = some (if row.nan.getD k false then .nan false false
          else .fin (decide (row.ints.getD k 0 < 0)) (row.ints.getD k 0).natAbs (row.exps.getD (k / 48) 0))) ∧
        (src.kind = 1 → vs[k]? = some (Fmt.f32.unpack (ofBytes (((rd (src.base + r * src.row) (4 * 768 * kc)).drop (4 * k)).take 4))))) ∧
  (∀ (typ md : Nat) (sat : Bool) (v : FVal), typ ∈ [8, 9, 10] →
    let f := Fmt.ofType typ
    (∀ s g, v = .nan s g → fpEncode typ md sat v = f.signed s f.nan) ∧ (∀ s, v = .inf s → fpEncode typ md sat v = f.signed s f.inf) ∧
    (∀ s m e, v = .fin s m e → fpEncode typ md sat v = (f.round md s m e).val))

/-- A group all of whose live threads are held parks, in the Fallow table, in exchange with a woken group, or not at all; woken groups
take free slots in order and age; STREAM_DEADLOCK traps a group both of whose streams are stuck; GROUP_END takes a finished group away,
or hands a deferred fault to the driver; TBASE advances by one; the mesh's probes come and go. The model's choices in it are those of the
logs 47, 48, 49 and 56. -/
def Obligations.GroupsComeAndGo : Prop := ∀ (s : State) (gid core : Nat) (g : Group), s.group gid = some g →
  (∀ n, g.place = .slot n → g.stalled = false → g.esc = none → (s.plot g.pid).rolling = false → s.wantsPark g = true →
    let away := s.updGroup g.gid (fun g => { g with place := .waiting, stalled := false })
    (s.fallow g.core < 56 → exec (.park gid) s = .next away) ∧
    (∀ h hs, 56 ≤ s.fallow g.core → s.wakeQueue g.core = h :: hs → ∃ t, exec (.park gid) s = .next t ∧ s.sameMemory t ∧
      t.groups = (away.updGroup h.gid (fun g => { g with place := .slot n, seated := s.sched.cycle, readyAt := s.sched.cycle + 2, stalled := false })).groups) ∧
    (56 ≤ s.fallow g.core → s.wakeQueue g.core = [] → exec (.park gid) s = .next (s.updGroup gid (fun g => { g with stalled := true })))) ∧
  (∀ n h, s.stalledOf core = [(n, h)] → s.readyLanes h ≠ [] →
    exec (.stallRecheck core) s = .next (s.updGroup h.gid (fun g => { g with stalled := false }))) ∧
  (∀ h hs n, s.wakeQueue core = h :: hs → s.freeSlot core = some n → exec (.wakeQueueSeat core) s = .next (s.updGroup h.gid (fun g =>
    { g with place := .slot n, seated := s.sched.cycle, readyAt := s.sched.cycle + 2, stalled := false }))) ∧
  (∀ n, g.place = .woken n false → n + 4096 ≤ s.sched.cycle →
    exec (.wakeQueueAging gid) s = .next (s.updGroup gid (fun g => { g with place := .woken n true }))) ∧
  (g.place ≠ .saved → g.place ≠ .gone → g.esc = none → (s.plot g.pid).rolling = false → g.live ≠ [] → g.dloads = [] → g.holds = [] →
    (∀ l ∈ g.live, s.queueStuck g l = true) → s.drillStuck g = true →
    (g.trap.handler = false → exec (.streamDeadlock gid) s = .next (s.takeGroupTrap gid (Trap.of 0x06) (leastPos g g.live) false)) ∧
    (g.trap.handler = true → let p := leastPos g (g.live.filter (fun l => g.trap.hset.getLsbD l))
      exec (.streamDeadlock gid) s = .next (s.takeTrap gid (Trap.of 0x06) p p.slot g.trap.hset))) ∧
  (s.mayEnd g = true →
    (g.deferred = [] → (s.plot g.pid).eligible = false ∨ g.shadow = none → ∃ t, exec (.groupEnd gid) s = .next t ∧ s.sameMemory t ∧
      ∀ x ∈ t.groups, x.gid ≠ gid) ∧
    (∀ d ds, g.deferred = d :: ds → ∃ t g', exec (.groupEnd gid) s = .next t ∧ s.sameMemory t ∧ t.group gid = some g' ∧ g'.esc.isSome = true ∧
      g'.trap.cause = causeOf { d.2 with defer := true } g.lastExit.slot false ∧ Pending.esc gid ∈ t.mbox.pending)) ∧
  (s.sched.ticked + 64 ≤ s.sched.cycle → ∃ t, exec .tbaseAdvance s = .next t ∧ s.sameMemory t ∧ t.tbase = s.tbase + 1 ∧
    t.sched.ticked = s.sched.ticked + 64 ∧ t.groups = s.groups.map (fun g => g.tick (s.tbase + 1))) ∧
  (∀ rs : List Nat, (2 ≤ rs.length → rs.eraseDups.length = rs.length → s.ras.probes.contains rs = false →
      exec (.networkDeadlockDetect rs) s = .next { s with ras := { s.ras with probes := s.ras.probes ++ [rs] } }) ∧
    (s.ras.probes.contains rs = true → exec (.networkDeadlockRecover rs) s = .next { s with ras := { s.ras with probes := s.ras.probes.erase rs } }))

/-- GROUP_EVICT saves a stopped group with its registers; PLOT_RESUME and PLOT_PLACE make a plot resident where there is room;
uncorrectable data or a divergence has an eligible plot roll back and any other killed; ROLLBACK counts up RBCNT, gives every group the
registers that it had just after the barrier, and starts a new interval; RESUME, HANDLER and KILL answer an escalation; VICTIM_REPLY stops
the plots that it may name, and nothing where it names another. The model's choices in it are those of the logs 19, 33, 49, 50, 52 and 82. -/
def Obligations.PlotsMoveAndRecover : Prop := ∀ (s : State) (gid rid pid : Nat) (g : Group), s.group gid = some g →
  (s.mayEvict g = true → s.feServes (s.plot g.pid).savePa (s.plot g.pid).saveLen = true → ∃ t g', exec (.groupEvict gid) s = .next t ∧
    t.group gid = some g' ∧ g'.place = .saved ∧ g'.stopping = false ∧
    ∀ l, (g'.thread l).v = (g.thread l).v ∧ (g'.thread l).p = (g.thread l).p ∧ (g'.thread l).slice = (g.thread l).slice) ∧
  (∀ l i p s' r, s.fe.stopAdmit = false → s.order.find? s.placeable = some (l, i, some p) → s.reserveUnit l p = some s' →
    (s'.launch l.lid).reserved.find? (fun r => r.1 == p.index) = some r → ∃ t, exec (.plotResume p.pid) s = .next t ∧
    ∀ q ∈ t.plots, q.pid = p.pid → q.st = .resident ∧ q.core = r.2 / 2 ^ 20 ∧ q.base = r.2 % 2 ^ 20) ∧
  (∀ l i rest core base, s.fe.stopAdmit = false → s.order = (l, i, none) :: rest → s.placeable (l, i, none) = true →
    (l.reserved.find? (fun r => r.1 == i)).isNone = true → s.chooseCore l i = some (core, base) → ∃ t p, exec .plotPlace s = .next t ∧ p ∈ t.plots ∧
      p.lid = l.lid ∧ p.index = i ∧ p.st = .resident ∧ p.core = core ∧ p.base = base ∧ p.size = l.scratch ∧
      ∀ k, k < l.groupCount → ∃ x ∈ t.groups, x.pid = p.pid ∧ x.idx = k ∧ x.core = core ∧ x.ctx = l.ctx ∧ x.arch = startArch l (tmax s.tbase l.stamp)
        (x.arch.threads.map (fun th => th.slice.readN 0 l.slice))) ∧
  (∀ a n, s.badPart g rid = some (a, n) →
    exec (.uncorrectableConsumption gid rid) s = .next (s.consume gid 0x31 (s.badClass a n) (some (a, n)))) ∧
  (g.fp = true → g.place ≠ .saved → g.place ≠ .gone → (s.plot g.pid).rolling = false → (s.launch g.lid).failing = 0 →
    exec (.shadowDivergence gid) s = .next (((s.updGroup gid (fun g => { g with fp := false })).consume gid 0x30 0 none).count (telBlock (chipletOf g.core) + 0x80) 1)) ∧
  (∀ code info (a : Option (Target × Nat)), (s.plot g.pid).pid = g.pid → (s.launch g.lid).lid = g.lid → (s.plot g.pid).rolling = false → (s.launch g.lid).failing = 0 →
    let t := s.consume gid code info a
    s.sameMemory t ∧ ((s.plot g.pid).eligible = true → (t.plot g.pid).rolling = true ∧ (t.launch g.lid).failing = 0) ∧
    ((s.plot g.pid).eligible = false → (t.plot g.pid).rolling = false ∧
      ((∃ l ∈ s.launches, l.lid = g.lid) → (t.launch g.lid).failing = 6 ∧ ∀ x ∈ t.allGroups, x.lid = g.lid → x.live = []))) ∧
  (s.rollMay (s.plot pid) = true → let p := s.plot pid
    p.st = .saved ∨ s.reviveRoom p = true → s.feServes p.savePa p.saveLen = true →
    s.issue.active = false → (s.groups.map (·.gid)).Nodup → ∃ t, exec (.rollback pid) s = .next t ∧
    (let q := t.plot pid
     q.rbcnt = min (p.rbcnt + 1) 0xFFFF ∧ q.rolling = false ∧ q.log = [] ∧ q.represent = p.recvLog ++ p.represent) ∧
    (p.st ≠ .saved → (∀ x ∈ s.groups, x.pid = pid → x.place ≠ .saved) → t.mem.glob = s.mem.glob ∧ t.mem.chip = s.mem.chip) ∧
    ∀ x ∈ s.groups, x.pid = pid → ∀ b : Group, x.shadow = some b.arch →
      ∃ y ∈ t.groups, y.gid = x.gid ∧ y.ops = [] ∧ y.holds = [] ∧ y.arch.s = b.arch.s ∧
        ∀ l, (y.thread l).v = (b.thread l).v ∧ (y.thread l).p = (b.thread l).p ∧ (y.thread l).slice = (b.thread l).slice) ∧
  (∀ e, g.esc = some e →
    let pentry := (s.launch g.lid).pentry
    (e.atEnd = false → e.double = false → g.trap.kind = .plough → g.trap.pending = none → ∃ t g', exec (.resume gid) s = .next t ∧ s.sameMemory t ∧
      t.group gid = some g' ∧ g'.esc = none ∧ g'.trap.handler = false ∧ g'.trap.done = 0 ∧
      ∀ l, l < g.arch.threads.length → g.trap.hset.getLsbD l = true → (g'.thread l).pos = epcPos pentry g.trap.epc) ∧
    (e.atEnd = false → e.double = false → (s.ctx g.ctx).traph ≠ 0 → ∃ t g', exec (.handler gid) s = .next t ∧ s.sameMemory t ∧
      t.group gid = some g' ∧ g'.esc = none ∧ g'.trap.handler = true ∧
      ∀ l, l < g.arch.threads.length → (g'.thread l).pos = if g.trap.hset.getLsbD l then ⟨(s.ctx g.ctx).traph, 0⟩ else (g.thread l).pos) ∧
    ((∃ l ∈ s.launches, l.lid = g.lid) → (s.launch g.lid).failing = 0 → ∃ t, exec (.kill gid) s = .next t ∧ s.sameMemory t ∧
      (t.launch g.lid).failing = 9 ∧ ∀ x ∈ t.allGroups, x.lid = g.lid → x.live = [] ∧ x.esc = none)) ∧
  (∀ lid i pids, (s.mbox.pending.filterMap (fun p => match p with | .victims lid i => some (lid, i) | _ => none)).head? = some (lid, i) →
    let s1 : State := { s with mbox := { s.mbox with pending := s.mbox.pending.erase (.victims lid i) } }
    ∃ t, exec (.victimReply pids) s = .next t ∧ s.sameMemory t ∧ t.mbox.pending = s1.mbox.pending ∧
      ((∃ p ∈ pids, ∀ q ∈ s.plots, q.pid ≠ p) → t.plots = s.plots ∧ t.groups = s.groups) ∧
      ∀ ps, pids.map (fun pid => s.plots.find? (fun p => p.pid == pid)) = ps.map some →
        (∀ p ∈ ps, s.evictable p = true ∧ (s.launch p.lid).prio < (s.launch lid).prio ∧ ∀ q ∈ s.victimUnit p, q.pid ∈ pids) →
        (State.stopPlots ps s1 = none → t = s1) ∧
        (∀ u, State.stopPlots ps s1 = some u → t = u ∧ ∀ p ∈ ps, (t.plot p.pid).saveLen = (s.launch p.lid).saveLen p.index ∧
          ∀ x ∈ t.allGroups, x.pid = p.pid → x.place ≠ .gone → x.stopping = true))

/-- Channel slots and credits arrive in the order in which they left; the doorbell, enable and cancel of a queue; LAUNCH_ENTRY_FETCH keeps
the entry at the head or finishes it with ENTRY or FETCH, LAUNCH_ADMIT admits it, arms it, or finishes it with CAPACITY, and LAUNCH_COMPLETE
takes the launch and its plots away. An entry that finishes has its status in its CTRL word in memory. The model's choices in it are
those of the logs 53, 89 and 91. -/
def Obligations.QueuesAndLaunches : Prop := ∀ (s : State) (q lid ch : Nat),
  let pa := s.entryPa q (s.qhead q)
  let answers : Prop := bit (s.regN 0x200) 1 = false
  -- the CTRL word of an entry at an address that a write reaches holds OWN = 0 and a status
  let ends (t : State) (a ctrl status : Nat) : Prop := s.memoryWf → populated a = true → s.homeDead (paTarget a) = false →
    s.homeDead (paTarget (a + 3)) = false → t.mem.glob.num a 4 = ctrlWith ctrl status % 2 ^ 32
  (∀ x, s.slotNext lid ch = some x → exec (.channelSlotArrive lid ch) s = .next (s.updLaunch lid (fun l =>
    { l with chans := l.chans.modify ch (fun c => { c with flight := c.flight.erase x, pending := c.pending ++ [(x.data, x.ts)] }) }))) ∧
  (∀ c x xs, (s.launch lid).chans[ch]? = some c → c.flight = x :: xs →
    (∀ p ∈ s.plots, p.lid = lid → p.index = c.consumer → p.st = .resident → s.pairOpen x.port (chipletOf p.core) = true) → s.slotNext lid ch = some x) ∧
  (∀ c x xs, (s.launch lid).chans[ch]? = some c → c.returning = x :: xs → s.creditOpen lid ch = true → exec (.channelCreditArrive lid ch) s = .next (s.updLaunch lid (fun l =>
    { l with chans := l.chans.modify ch (fun c => { c with returning := c.returning.drop 1, credits := c.credits ++ [x] }) }))) ∧
  (q < 512 → s.inS4 = false → answers → ∀ v : Word, ∃ t, exec (.qtailDoorbell q v) s = .next t ∧ s.sameMemory t ∧ t.qtail q = v.toNat ∧
    t.qhead q = s.qhead q ∧ t.launches = s.launches ∧ t.groups = s.groups) ∧
  (q < 512 → answers → ∀ en, (en = true → s.qbusy q = true → exec (.queueEnable q en) s = .next s) ∧
    (en = false ∨ s.qbusy q = false → ∃ t, exec (.queueEnable q en) s = .next t ∧ s.sameMemory t ∧ t.qen q = en ∧ t.qhead q = s.qhead q ∧
      t.launches = if en then s.launches else s.launches.filter (fun l => !(l.queue == q && l.st == .fetched)))) ∧
  (q < 512 → answers → s.cancelServes q = true → ∃ t, exec (.queueCancel q) s = .next t ∧ t.qhead q = s.qtail q ∧ t.fetched q = none ∧
    t.groups.length = s.groups.length ∧ t.launches = s.launches.filter (fun l => !(l.queue == q && l.st == .fetched)) ∧
    ∀ i, i < min (s.qwaiting q) (s.qsize q) → let a := s.entryPa q ((s.qhead q + i) % 2 ^ 32)
      ends t a (s.mem.glob.num a 4) 7) ∧
  (q < 512 → s.qen q = true → s.qwaiting q ≠ 0 → s.fetched q = none → s.fe.stopAdmit = false → bit (s.regN 0x200) 0 = true → s.feServes pa 256 = true →
    let im := BitVec.ofNat 2048 (s.mem.glob.num pa 256)
    let l0 : Launch := { Launch.none with image := im }
    let good : Prop := populated pa = true ∧ populated (pa + 255) = true ∧ s.eccClass pa 256 < 3
    (¬ good → ∃ t, exec (.launchEntryFetch q) s = .next t ∧ t.qhead q = (s.qhead q + 1) % 2 ^ 32 ∧ t.launches = s.launches ∧
      ends t pa (s.mem.glob.num pa 4) 8) ∧
    (good → l0.defect (s.regN 0x18) = true → ∃ t, exec (.launchEntryFetch q) s = .next t ∧ t.qhead q = (s.qhead q + 1) % 2 ^ 32 ∧
      t.launches = s.launches ∧ ends t pa l0.ctrl 2) ∧
    (good → l0.defect (s.regN 0x18) = false → ∃ t l, exec (.launchEntryFetch q) s = .next t ∧ s.sameMemory t ∧ t.launches = s.launches ++ [l] ∧
      l.lid = s.sched.nextId ∧ l.queue = q ∧ l.entry = s.qhead q ∧ l.ctx = s.qctx q ∧ l.st = .fetched ∧ l.image = im ∧
      l.prio = min (bits l0.ctrl 11 8) (min (s.field (qBlock q + 8) 31 28) (s.ctx (s.qctx q)).pmax))) ∧
  (∀ l, s.fetched q = some l → s.qen q = true → s.depArmed q = false → s.throttles l.prio = false → s.fe.stopAdmit = false → s.feServes pa 4 = true →
    (∀ s' a t ts, s.depsFrom l.ctx l.deps = .ok (s', some a) →
      s'.checkGlobal feHolder l.ctx false 0 (BitVec.ofNat 64 a) 8 { r := true, w := false } = .ok (t :: ts) →
      exec (.launchAdmit q) s = .next (s'.arm t.1 l.ctx (.queue q))) ∧
    (l.ndep = 0 → l.at 32 8 = 0 → l.at 48 4 = 0 → l.at 52 4 = 0 → l.coop = false →
      let l' := { l with sets := [], bdesc := [], chans := [] }
      let full := (s.updLaunch l.lid (fun _ => l')).overCapacity l'
      (full = false → s.nextHead = some q → ∃ t k, exec (.launchAdmit q) s = .next t ∧ s.sameMemory t ∧ t.qhead l.queue = (s.qhead l.queue + 1) % 2 ^ 32 ∧
        k ∈ t.launches ∧ k = { l' with st := .admitted, order := s.fe.order, stamp := s.fe.stamp, maxStamp := s.fe.stamp } ∧
        t.fe.order = s.fe.order + 1) ∧
      (full = true → ∃ t, exec (.launchAdmit q) s = .next t ∧ t.fetched l.queue = none ∧
        t.qhead l.queue = (s.qhead l.queue + 1) % 2 ^ 32 ∧ ends t pa l.ctrl 5))) ∧
  (∀ l, s.launches.find? (fun l => l.lid == lid) = some l → s.launchOver l = true →
    let a := s.entryPa l.queue l.entry
    let gone (t : State) (status : Nat) : Prop := (∀ k ∈ t.launches, k.lid ≠ lid) ∧ (∀ p ∈ t.plots, p.lid ≠ lid) ∧ ends t a l.ctrl status
    s.feServes a 4 = true →
    (l.failing ≠ 0 ∨ l.caddr = 0 → ∃ t, exec (.launchComplete lid) s = .next t ∧ gone t (if l.failing ≠ 0 then l.failing else 1)) ∧
    (∀ s' w, l.failing = 0 → l.caddr ≠ 0 → s.completionAdd l (tmax s.fe.stamp (l.maxStamp + 1)) = .ok (s', w) →
      ∃ t, exec (.launchComplete lid) s = .next t ∧ gone t (if w.isSome then 1 else 10)))

/-- A context is loaded from its table entry, or ERR is set and the loaded copies stay; with INVG its own Granary entries and cursors go.
A cluster's window changes at once where the cluster is free, and otherwise when it becomes free. HSEN is written, HSKICK has no
effect on a stream that is not idle. A kick and a boundary end with what the stream's phases leave, and a step's entry is written, or is owed
while its ring is full; a descriptor with a reserved bit set has no effect. What the phases of 16 R317 do to memory is stated for one slot,
one request and the entry. The model's choices in it are those of the logs 53, 54, 55, 79, 80, 88, 89 and 91. -/
def Obligations.ContextsWindowsStreams : Prop := ∀ (s : State) (x cl n : Nat), bit (s.regN 0x200) 1 = false →
  (x < 4096 → s.contextServes x = true →
    let a := (s.setField 0x10 13 0 x).loadContext x
    let b := (s.setField 0x10 13 0 (x + 8192)).loadContext x
    let pa := s.regN 0x8 + 128 * x
    let e := s.mem.glob.num pa 128
    let map := e / 2 ^ 320 % 2 ^ 64
    let c := ctxOf x e (chop 2 (s.mem.glob.readN map 512))
    exec (.contextLoad x) s = .next a.1 ∧ s.sameMemory a.1 ∧
    (a.2 = true ↔ populated pa = true ∧ s.eccClass pa 128 < 3 ∧ populated map = true ∧ populated (map + 511) = true ∧ s.eccClass map 512 < 3 ∧
      ctxBroken c e = false ∧ s.bindingTaken c = false ∧ (c.valid = true ∨ s.ctxInUse x = false)) ∧
    (a.2 = true → a.1.ctx x = c ∧ ∀ y, y ≠ x → a.1.ctx y = s.ctx y) ∧
    (a.2 = false → a.1.ctxs = s.ctxs ∧ a.1.field 0x10 14 14 = 1) ∧
    (b.2 = false → exec (.contextLoadInvg x) s = .next b.1) ∧
    (b.2 = true → ∃ t, exec (.contextLoadInvg x) s = .next t ∧ s.sameMemory t ∧ t.ctxs = b.1.ctxs ∧
      ∀ k ∈ t.clusters, (∀ g ∈ k.gran, g.ctx = x → g.dom ≠ 0) ∧ alGet k.gtie x = none)) ∧
  (cl < 128 → n < 16 →
    let now := s.field (0x40 + 8 * (cl / 16)) (4 * (cl % 16) + 3) (4 * (cl % 16))
    let later (c : Option Nat) : State := s.updCluster cl (fun k => { k with winPending := c })
    let code := if 5 ≤ n then 0 else n
    (code = now → exec (.clwinWrite cl n) s = .next (later none)) ∧
    (code ≠ now → s.clusterBusy cl = true → exec (.clwinWrite cl n) s = .next (later (some code))) ∧
    (code ≠ now → s.clusterBusy cl = false → ∃ t, exec (.clwinWrite cl n) s = .next t ∧ s.sameMemory t ∧ (t.cluster cl).winPending = none ∧
      t.field (0x40 + 8 * (cl / 16)) (4 * (cl % 16) + 3) (4 * (cl % 16)) = code) ∧
    ((s.cluster cl).winPending = some n → s.clusterBusy cl = false → ∃ t, exec (.clwinApply cl) s = .next t ∧ s.sameMemory t ∧
      (t.cluster cl).winPending = none ∧ t.field (0x40 + 8 * (cl / 16)) (4 * (cl % 16) + 3) (4 * (cl % 16)) = n)) ∧
  (∀ v : DWord, exec (.hsenWrite v) s = .next (s.setReg 0x18 v)) ∧
  (n < 64 →
    let x := s.stream n
    let d := Hay.desc ⟨s, s.fe.hay, false⟩ n
    -- the instruction leaves the memory, the registers and the stamp of `h`, and the stream as given
    let leaves (i : Instr) (h : Hay) (todo : List (Option (Nat × List Word))) (owed : Option (List Nat)) : Prop := h.held = false →
      ∃ t, exec i s = .next t ∧ t.mem = h.st.mem ∧ t.regs = h.st.regs ∧ t.fe.hay = h.ts ∧ (t.stream n).boundary = todo ∧ (t.stream n).owed = owed
    -- the slots of the next step have been found: its entry is written, or waits for room
    let ends (d : HDesc) (i : Instr) (todo : List (Option (Nat × List Word))) (r : List Nat × Hay) : Prop :=
      (∀ h, Hay.nextStep d n r.1 r.2 = some h → leaves i h todo none) ∧ (Hay.nextStep d n r.1 r.2 = none → leaves i r.2 todo (some r.1))
    (s.inS4 = false → s.streamIdle n = false → exec (.hskick n) s = .next s.awake) ∧
    (s.inS4 = false → s.streamIdle n = true →
      let k := s.awake.updStream n (fun x => { x with boundary := [none] })
      let dk := Hay.desc ⟨k, k.fe.hay, false⟩ n
      (dk.1.broken = true → leaves (.hskick n) dk.2 [] none) ∧
      (dk.1.broken = false → Hay.steps dk.1 none dk.2 = none → exec (.hskick n) s = .next k) ∧
      (∀ r, dk.1.broken = false → Hay.steps dk.1 none dk.2 = some r → ends dk.1 (.hskick n) [] r ∧
        (r.2.held = true → exec (.hskick n) s = .next k))) ∧
    (∀ entry batch rest, x.owed = none → x.boundary = some (entry, batch) :: rest → s.fsplit 0 = true →
      ∃ t, exec (.haywardStepBoundary n) s = .next t ∧ s.sameMemory t ∧ (t.stream n).boundary = rest ∧ (t.stream n).owed = none) ∧
    (∀ ns, x.owed = some ns → (d.1.broken = true → leaves (.haywardStepBoundary n) d.2 x.boundary none) ∧
      (∀ h, d.1.broken = false → Hay.nextStep d.1 n ns d.2 = some h → leaves (.haywardStepBoundary n) h x.boundary none)) ∧
    (∀ task rest, x.owed = none → x.boundary = task :: rest → task = none ∨ s.fsplit 0 = false →
      (d.1.broken = true → leaves (.haywardStepBoundary n) d.2 rest none) ∧
      (∀ r, d.1.broken = false → Hay.steps d.1 task d.2 = some r → ends d.1 (.haywardStepBoundary n) rest r))) ∧
  (∀ (d : HDesc) (h : Hay) (x : Nat),
    let e := d.seq x
    let u (a k : Nat) : Nat := h.st.mem.glob.num a k
    let st := u e 4
    let len := u (e + 4) 4
    let pages := u (e + 52) 4
    let ahead := d.addr + 44
    let head := u d.phead 4
    let tail := u d.ptail 4
    let free := (tail + 2 ^ 32 - head) % 2 ^ 32
    let place (t : Nat) : Nat := d.pool + 8 * (t % 2 ^ 32 % 2 ^ d.plog)
    let pool := (d.pool, 8 * 2 ^ d.plog)
    -- memory is as before outside some zones
    let only (k : Hay) (zs : List (Nat × Nat)) : Prop :=
      ∀ a, (∀ z ∈ zs, a < z.1 ∨ z.1 + z.2 ≤ a) → k.st.mem.glob.read a = h.st.mem.glob.read a
    -- the zones do not meet, and none is at a failed home
    let clear (zs : List (Nat × Nat)) : Prop := h.st.memoryWf ∧ zs.Pairwise (fun r q => r.1 + r.2 ≤ q.1 ∨ q.1 + q.2 ≤ r.1) ∧
      ∀ z ∈ zs, ∀ i, i < z.2 → h.st.homeDead (paTarget (z.1 + i)) = false
    (let k := Hay.grow d h x
     k.held = false → clear [(e, 128)] →
      (bit st 8 = true → only k []) ∧
      (bit st 8 = false → let l := (len + 1) % 2 ^ 32
        k.st.mem.glob.num (e + 4) 4 = l ∧ only k [(e, 8)] ∧
        k.st.mem.glob.num e 4 = if u (e + 8) 4 ≤ l then st - bits st 23 16 * 2 ^ 16 + 2 ^ 8 + 2 * 2 ^ 16 else st)) ∧
    (let k := Hay.retire d h x
     let m := min pages 16
     let dc := u (e + 120) 8
     let zs := [(e, 128), (d.ptail, 4), pool] ++ if dc = 0 then [] else [(dc, 8)]
     k.held = false →
      (bit st 8 = false → only k []) ∧
      (bit st 8 = true → clear zs → m ≤ 2 ^ d.plog → only k zs ∧ (∀ a, e + 4 ≤ a → a < e + 128 → k.st.mem.glob.read a = h.st.mem.glob.read a) ∧
        k.st.mem.glob.num e 4 = st - bits st 1 0 - bits st 9 8 * 2 ^ 8 - bits st 23 16 * 2 ^ 16 ∧ k.st.mem.glob.num d.ptail 4 = (tail + m) % 2 ^ 32 ∧
        (dc ≠ 0 → k.st.mem.glob.num dc 8 = (u dc 8 + 1) % 2 ^ 64) ∧
        ∀ i, i < m → k.st.mem.glob.num (place (tail + i)) 8 = u (e + 56 + 4 * i) 4 + (tail + i) % 2 ^ 32 * 2 ^ 32)) ∧
    (∀ k, Hay.needPage d h x = some k → k.held = false → clear [(e, 128), (d.phead, 4), pool] →
      let takes : Prop := bits st 1 0 = 1 ∧ (len = pages * d.pgtok ∨ bit st 9 = true)
      (¬ takes → only k []) ∧
      (takes → free = 0 → only k [(e, 4)] ∧ k.st.mem.glob.num e 4 = st - bits st 9 9 * 2 ^ 9 + 2 ^ 9) ∧
      (takes → free ≠ 0 → pages < 16 → only k [(e, 4), (e + 52, 4), (e + 56 + 4 * pages, 4), (d.phead, 4)] ∧
        u (place head) 8 / 2 ^ 32 = head ∧ k.st.mem.glob.num (e + 56 + 4 * pages) 4 = u (place head) 8 % 2 ^ 32 ∧
        k.st.mem.glob.num (e + 52) 4 = pages + 1 ∧ k.st.mem.glob.num e 4 = st - bits st 9 9 * 2 ^ 9 ∧ k.st.mem.glob.num d.phead 4 = (head + 1) % 2 ^ 32)) ∧
    (∀ at_ fuel ns r, Hay.admitFrom d (fuel + 1) at_ ns h = some r → r.2.held = false →
      let ra := d.admq + 64 * (at_ % 2 ^ d.alog)
      let c := u ra 4
      let len := u (ra + 4) 4
      let stops := u (ra + 12) 4
      let m := (len + 1 + d.pgtok - 1) / d.pgtok
      let next := (at_ + 1) % 2 ^ 32
      let waits : Prop := ∃ y, y < d.nslot ∧ bits (u (d.seq y) 4) 1 0 = 1 ∧ bit (u (d.seq y) 4) 9 = true
      let bad : Prop := 16 * d.pgtok < u (ra + 8) 4 ∨ 8 < stops ∨ 16 < m
      let full (y : Nat) : Prop := bits (u (d.seq y) 4) 1 0 ≠ 0
      let goesOn : Prop := ns.length < d.blimit ∧ ¬ waits ∧ bit c 0 = true
      clear [(ahead, 4), (ra, 64), (d.seqtab, 128 * d.nslot), (d.phead, 4), (d.ptail, 4), pool] →
      (¬ goesOn → r.1 = ns ∧ only r.2 []) ∧
      (goesOn → bad → ∃ k, Hay.admitFrom d fuel next ns k = some r ∧ k.held = false ∧ only k [(ra, 4), (ahead, 4)] ∧
        k.st.mem.glob.num ra 4 = c - bits c 2 0 + 4 ∧ k.st.mem.glob.num ahead 4 = next) ∧
      (goesOn → ¬ bad → (∀ y, y < d.nslot → full y) ∨ free < m → r.1 = ns ∧ only r.2 []) ∧
      (goesOn → ¬ bad → m ≤ free → m ≤ 2 ^ d.plog → x < d.nslot → ¬ full x → (∀ y, y < x → full y) →
        ∃ k, Hay.admitFrom d fuel next (ns ++ [x]) k = some r ∧ k.held = false ∧ only k [(ra, 64), (ahead, 4), (e, 128), (d.phead, 4)] ∧
        (let v (a k' : Nat) : Nat := k.st.mem.glob.num a k'
         v ra 4 = c - bits c 2 0 + 2 ∧ v (ra + 48) 4 = x % 2 ^ 32 ∧ v ahead 4 = next ∧ v d.phead 4 = (head + m) % 2 ^ 32 ∧
         v e 4 = 1 ∧ v (e + 4) 4 = len ∧ v (e + 8) 4 = u (ra + 8) 4 ∧ v (e + 12) 4 = 0 ∧ v (e + 16) 4 = stops ∧ v (e + 20) 32 = u (ra + 16) 32 ∧
         v (e + 52) 4 = m ∧ v (e + 120) 8 = u (ra + 56) 8 ∧
         ∀ i, i < m → u (place (head + i)) 8 / 2 ^ 32 = (head + i) % 2 ^ 32 ∧ v (e + 56 + 4 * i) 4 = u (place (head + i)) 8 % 2 ^ 32))) ∧
    (∀ entry batch,
      (Hay.steps d none h = Hay.admitFrom d (2 ^ d.alog + 1) d.ahead [] h) ∧
      (let grown := (batch.map (·.toNat)).foldl (Hay.grow d) h
       Hay.steps d (some (entry, batch)) h = ((batch.map (·.toNat)).foldl (fun k y => k.bind (fun k => Hay.needPage d k y))
         (some ((batch.map (·.toNat)).foldl (Hay.retire d) grown))).bind
           (fun k => let g := Hay.going d k (batch.map (·.toNat)); Hay.admitFrom d (2 ^ d.alog + 1) d.ahead g.1 g.2)) ∧
      (let g := Hay.going d h (batch.map (·.toNat))
       g.2.held = false → only g.2 [] ∧ g.1 = (batch.map (·.toNat)).filter (fun y => bits (u (d.seq y) 4) 1 0 == 1 && !bit (u (d.seq y) 4) 9))) ∧
    (∀ stream ns,
      let off : Prop := ns = [] ∨ bit (h.st.regN 0x18) stream = false
      let q := h.st.qtail d.queue
      let ent := h.st.entryPa d.queue q
      let ctrl := u d.templ 4
      (off → Hay.nextStep d stream ns h = some h) ∧
      (¬ off → h.st.qsize d.queue ≤ h.st.qwaiting d.queue → Hay.nextStep d stream ns h = none) ∧
      (¬ off → stream < 64 → h.st.qwaiting d.queue < h.st.qsize d.queue → ∃ k, Hay.nextStep d stream ns h = some k ∧ (k.held = false →
        clear [(d.bdesc, 4 + 4 * ns.length), (d.templ, 256), (ent, 256)] →
        (let v (a k' : Nat) : Nat := k.st.mem.glob.num a k'
         only k [(d.bdesc, 4 + 4 * ns.length), (ent, 256)] ∧ k.st.qtail d.queue = (q + 1) % 2 ^ 32 ∧
         v d.bdesc 4 = ns.length % 2 ^ 32 ∧ (∀ i y, ns[i]? = some y → v (d.bdesc + 4 + 4 * i) 4 = y % 2 ^ 32) ∧
         v ent 4 = ctrl - bits ctrl 19 14 * 2 ^ 14 - bits ctrl 6 6 * 2 ^ 6 - bits ctrl 0 0 + stream * 2 ^ 14 + 2 ^ 6 + 1 ∧
         v (ent + 4) 4 = u (d.templ + 4) 4 - bits (u (d.templ + 4) 4) 23 0 + (ns.length * d.pps - 1) % 2 ^ 24 ∧ v (ent + 8) 44 = u (d.templ + 8) 44 ∧
         v (ent + 52) 4 = (ns.length + 1) % 2 ^ 32 ∧ v (ent + 56) 200 = u (d.templ + 56) 200)))))

/-- A copy channel: a store of a head starts a chain, queues it, waits or is refused; a halted channel goes on; a record is fetched with
its checks' status, and completes with its bytes copied, or ends with its status and halts the chain. The model's choices in it are those of
the logs 42, 43, 71, 85 and 91. -/
def Obligations.CopyChannels : Prop := ∀ (s : State) (h : Nat),
  let c := s.chan h
  let answers : Prop := bit (s.regN 0x200) 1 = false
  (h < 4096 → answers → ∀ a : DWord, ∃ t, exec (.cheadWrite h a) s = .next t ∧ s.sameMemory t ∧
    let ts := t.portStamp 20
    let i : Init := { Init.none with host := true, ctx := (s.boundCtx h).getD 4096 }
    let c' := { c with stamp := tmax c.stamp (ts + 1) }
    (a.toNat = 0 ∨ a.toNat % 128 ≠ 0 → t.chan h = c) ∧
    (a.toNat ≠ 0 → a.toNat % 128 = 0 →
      (c.st = 0 → t.chan h = { c' with st := 1, next := a.toNat, init := i }) ∧
      (c.st ≠ 0 → c.heads.length < 4 → t.chan h = { c' with heads := c.heads ++ [(a.toNat, i)] }) ∧
      (c.st = 1 → 4 ≤ c.heads.length → t.chan h = { c with waiting := c.waiting ++ [(a.toNat, i, ts)] }) ∧
      (1 < c.st → 4 ≤ c.heads.length → t.chan h = { c with refused := true }))) ∧
  (c.st = 2 → answers → ∃ t, exec (.cctlGo h) s = .next t ∧ s.sameMemory t ∧
    (c.held = true → t.chan h = { c with st := 1, held := false }) ∧
    (c.held = false → c.waiting = [] → c.heads = [] → t.chan h = { c with st := 0 }) ∧
    (∀ x xs, c.held = false → c.waiting = [] → c.heads = x :: xs → t.chan h = { c with st := 1, next := x.1, init := x.2, heads := xs })) ∧
  (c.st = 1 → c.record = none →
    let port := Config.enginePort (h / 64)
    let state := s.chipState port
    (20 ≤ port → 1 ≤ state → state ≤ 3 → ∃ t, exec (.copyRecordFetch h) s = .next t ∧ s.sameMemory t ∧ (t.chan h).st = 2 ∧ (t.chan h).held = true ∧
      (t.chan h).next = c.next) ∧
    (state = 4 → ∃ t k, exec (.copyRecordFetch h) s = .next t ∧ s.sameMemory t ∧ (t.chan h).record = some k ∧ k.status = 6 ∧ k.addr = c.next) ∧
    (port < 20 ∨ state = 0 → state ≠ 4 →
      let e : CopyEnv := ⟨h / 64, c.init.context, [], 0, false, false⟩
      let q := copyRead e 0 c.next false { r := true, w := false } [(0, 128)] (s.rouse (fun u => u.1 == 3 || u == (2, port))).fresh.2 c.stamp []
      (∀ st fva, q.2.2 = .stop st fva → ∃ t k, exec (.copyRecordFetch h) s = .next t ∧ s.sameMemory t ∧ (t.chan h).record = some k ∧
        k.status = st ∧ k.addr = c.next) ∧
      (∀ bs, q.2.2 = .ok bs →
        let r : CopyRec := ⟨s.sched.nextId, c.next, BitVec.ofNat 1024 (ofBytes bs), 0, none, none, [], false⟩
        (r.own = false → ∃ t, exec (.copyRecordFetch h) s = .next t ∧ s.sameMemory t ∧ (t.chan h).record = none ∧
          (t.chan h).last = BitVec.ofNat 64 c.next ∧ (c.heads = [] → c.waiting = [] → (t.chan h).st = 0)) ∧
        (r.own = true → q.1.recordStatus c.init r ≠ 0 ∨ q.1.plotServes (q.1.copyEnv h c r) r = true → ∃ t k, exec (.copyRecordFetch h) s = .next t ∧ s.sameMemory t ∧ (t.chan h).record = some k ∧ k.id = r.id ∧
          k.addr = r.addr ∧ k.image = r.image ∧ k.status = q.1.recordStatus c.init r ∧ (k.epoch.isSome = true → r.bobj = true))))) ∧
  (∀ r s' st fva ts, c.record = some r → s.recordMay c r = true → s.runRecord h c r = .inl (s', st, fva, ts) →
    let e := s.copyEnv h c r
    (∀ w, st = 1 ∨ st = 8 → s'.recordWrite e (r.addr + 8) (r.ctrlDone st) (ts + 1) = .inl w →
      ∃ t, exec (.copyRecordComplete h) s = .next t ∧ (t.chan h).record = none ∧
      (r.nxt ≠ 0 → (t.chan h).st = c.st ∧ (t.chan h).next = r.nxt) ∧ (r.nxt = 0 → c.heads = [] → c.waiting = [] → (t.chan h).st = 0)) ∧
    (∀ f w, st ≠ 1 → st ≠ 8 → (fva = none ∧ f = (s', ts)) ∨ (∃ v, fva = some v ∧ s'.recordWrite e (r.addr + 88) (bytesOf 8 v) (ts + 1) = .inl f) →
      f.1.recordWrite e (r.addr + 8) (r.ctrlDone st) (f.2 + 1) = .inl w → (∀ m, (w.1.counterHome e r).2 ≠ .wait m) →
      ∃ t, exec (.copyRecordFail h) s = .next t ∧ (t.chan h).record = none ∧ (t.chan h).st = 2)) ∧
  (∀ r, c.record = some r → c.init.host = true → c.init.ctx = 4096 → r.status = 0 → r.decode = 0 → r.sspace = 0 → r.dspace = 0 → r.nrows = 1 →
    r.bobj = false → r.caddr = 0 → r.epoch = none → 0 < r.len → r.saddr % 128 + r.len ≤ 128 → r.daddr % 128 + r.len ≤ 128 → populated r.saddr = true →
    populated r.daddr = true → s.eccClass r.saddr r.len < 3 → s.homeDead (paTarget r.daddr) = false → s.memoryWf →
    let port := Config.enginePort (h / 64)
    (∀ a ∈ [r.saddr, r.daddr, r.addr + 8], s.portServes port (paTarget a) = true) → s.pairOpen port port = true →
    s.ras.backoff = [] → s.ras.raised = [] → (∀ k, (alGet s.ras.acts k).getD 0 < 500) →
    ∃ t, exec (.copyRecordComplete h) s = .next t ∧ t.mem.chip = s.mem.chip ∧ t.mem.scratch = s.mem.scratch ∧ t.mem.tags = s.mem.tags ∧
      ∀ a, a < r.addr + 8 ∨ r.addr + 12 ≤ a → t.mem.glob.read a =
        if r.daddr ≤ a ∧ a < r.daddr + r.len then s.mem.glob.read (r.saddr + (a - r.daddr)) else s.mem.glob.read a)

/-- A walk's leaf, or the host's reply, serves the next translation of its page; a walk that faults adds none; a missing translation is
asked for. A shootdown drops the translations that it names, and no other, and reads GO = 1 until it completes. The model's choices in it are
those of the logs 16, 61, 62 and 88. -/
def Obligations.WalksAndShootdowns : Prop := ∀ (s : State) (x : Nat) (va : DWord),
  let a := va.toNat
  (∀ core, core < 1024 → x < 4096 → a < 2 ^ 56 → s.mem.tlb.any (fun e => e.covers (holdersOf core) x a) = false →
    (∀ e, s.translate (holdersOf core) x a = .leaf e → ∃ t, exec (.pageWalk core x va) s = .next t ∧ s.sameMemory t ∧
      t.translate (holdersOf core) x a = .leaf e) ∧
    (∀ code level p, s.fsplit 1 = false → s.translate (holdersOf core) x a = .fault code level p →
      ∃ t, exec (.pageWalk core x va) s = .next t ∧ s.sameMemory t ∧ t.mem.tlb = s.mem.tlb) ∧
    (s.translate (holdersOf core) x a = .miss →
      let k := Pending.trans (.cluster (clusterOf core)) x (a / 2 ^ 16)
      s.mbox.pending.contains k = false → ∃ t, exec (.pageWalk core x va) s = .next t ∧ s.sameMemory t ∧ t.mem.tlb = s.mem.tlb ∧
        t.mbox.pending = s.mbox.pending ++ [k])) ∧
  (∀ h p, s.transAsked x (a / 2 ^ 16) = some (h, p) →
    let late : Bool := match s.fe.shoot with | some k => k.walks.contains p | none => false
    let left := s.mbox.pending.erase p
    (∀ r, late = true → ∃ t, exec (.translationReply x va r) s = .next t ∧ s.sameMemory t ∧ t.mbox.pending = left ∧ t.mem.tlb = s.mem.tlb) ∧
    (late = false → ∃ t, exec (.translationReply x va none) s = .next t ∧ t.mbox.pending = left ++ [.transBad h x (a / 2 ^ 16) 0x18 3] ∧
      t.mem = s.mem) ∧
    (∀ level e, late = false → e.getLsbD 0 = false → ∃ t, exec (.translationReply x va (some (level, e))) s = .next t ∧
      t.mbox.pending = left ++ [.transBad h x (a / 2 ^ 16) 0x18 level] ∧ t.mem = s.mem) ∧
    (∀ level e, late = false → e.getLsbD 0 = true → e.getLsbD 1 = false ∨ leafDefect e level = true →
      ∃ t, exec (.translationReply x va (some (level, e))) s = .next t ∧
        t.mbox.pending = left ++ [.transBad h x (a / 2 ^ 16) 0x19 level] ∧ t.mem = s.mem) ∧
    (∀ level e, late = false → e.getLsbD 0 = true → e.getLsbD 1 = true → leafDefect e level = false →
      ∃ t, exec (.translationReply x va (some (level, e))) s = .next t ∧ s.sameMemory t ∧ t.mbox.pending = left ∧
        t.translate [h] x a = .leaf e)) ∧
  (bit (s.regN 0x38) 16 = false → bit (s.regN 0x200) 1 = false →
    let drops (i : Instr) (names : TlbEnt → Prop) : Prop := ∃ t, exec i s = .next t ∧ s.sameMemory t ∧ t.field 0x38 16 16 = 1 ∧
      t.field 0x38 11 0 = (match i with | .tlbShootdownAll => 0 | _ => x) ∧ ∀ e, e ∈ t.mem.tlb ↔ (e ∈ s.mem.tlb ∧ ¬ names e)
    (x < 4096 → a < 2 ^ 56 → drops (.tlbShootdownPage x va) (fun e => e.ctx = x ∧ a / leafSize e.leaf * leafSize e.leaf = e.page)) ∧
    (x < 4096 → drops (.tlbShootdownContext x) (fun e => e.ctx = x)) ∧
    drops .tlbShootdownAll (fun _ => True)) ∧
  (bit (s.regN 0x38) 16 = true → bit (s.regN 0x200) 1 = false → (x < 4096 → exec (.tlbShootdownContext x) s = .next s) ∧ exec .tlbShootdownAll s = .next s ∧
    (x < 4096 → a < 2 ^ 56 → exec (.tlbShootdownPage x va) s = .next (s.setReg 0x30 va))) ∧
  (∀ k, s.fe.shoot = some k → k.walks = [] → s.allGroups.any k.holdsGroup = false → s.clusters.any k.holdsCluster = false →
    ∃ t, exec .tlbShootdownComplete s = .next t ∧ s.sameMemory t ∧ t.fe.shoot = none ∧ t.field 0x38 16 16 = 0)

/-- The mailbox takes the records of its doorbell and answers commands, over I3C with numbered records: quotes, staging of an image that ROM
accepts or not, S4, checkpoints, whose image goes into the two halves of the retained region, and restores from it. The layout of commands and
replies (log 21) and of the image (log 71), and what the logs 63 and 64 name, are the model's choices. -/
def Obligations.HostCommands : Prop := ∀ s : State,
  let mailed (seq status n : Nat) (bs : List Byte) : List Event := (replyRecords seq status n bs).mapIdx (fun i e => e.numbered (s.mbox.i3c.length + i))
  let answers (i : Instr) (status : Nat) (bs : List Byte) (post : State → Prop) : Prop := ∃ t, exec i s = .next t ∧ post t ∧
    t.mbox.cmds = s.mbox.cmds.drop 1 ∧ ∀ seq cs, s.mbox.cmds = (seq, true) :: cs →
      t.mbox.i3c = s.mbox.i3c ++ mailed seq status (bs.length / 56 + 1) bs
  let idle : Prop := s.launches.any (fun l => l.st == .admitted) = false ∧ (List.range 512).any s.qen = false
  let ckMay : Prop := s.halvesOk = true ∧ s.ckBusy = false ∧ (List.range 22).any (fun p => s.chipState p == 1 || s.chipState p == 3) = false
  (∀ (tail : Word) (recs : List MboxCmd), s.inS4 = false →
    (recs.filter (fun c => !c.i3c)).length = (if bit (s.regN 0x310) 31 then (tail.toNat + 2 ^ 32 - s.regN 0x324) % 2 ^ 32 else 0) →
    ∃ t, exec (.mailboxDoorbell tail recs) s = .next t ∧ s.sameMemory t ∧ t.regN 0x320 = tail.toNat ∧
      (bit (s.regN 0x310) 31 = true → t.regN 0x324 = tail.toNat) ∧
      ∀ c, recs = [c] → (∀ i, s.command c = some i → t.sched.agenda = s.sched.agenda ++ [i]) ∧
        (s.command c = none → t.sched.agenda = s.sched.agenda ∧ (c.i3c = true → t.mbox.i3c = s.mbox.i3c ++ mailed c.seq 1 1 []))) ∧
  (∀ v : Word, ∃ t, exec (.evheadWrite v) s = .next t ∧ s.sameMemory t ∧ t.regN 0x31C = v.toNat ∧
    (s.mbox.lostNew ≠ 0 → bit (s.regN 0x310) 31 = true → (s.regN 0x318 + 2 ^ 32 - v.toNat) % 2 ^ 32 < 2 ^ (s.field 0x310 4 0) →
      let e := Event.of 0x06 (rasBody s.sched.cycle 0x0C 0 0xFF 0 0 s.mbox.lostNew)
      t.mbox.lostNew = 0 ∧ (s.regN 0x318, e.numbered s.mbox.seq) ∈ t.mbox.ring ∧ e.numbered s.mbox.i3c.length ∈ t.mbox.i3c)) ∧
  (∀ nonce, let b := s.quoteBody nonce
    answers (.quote nonce) 0 (b ++ bytesOf 114 (Config.identitySign (s.boot.meas.getD 0 0) (Config.shake256 (ofBytes b) b.length)).toNat) s.sameMemory) ∧
  (∀ image, let ok := imageAccepted image
    answers (.fwstage image ok) (if ok then 0 else 1) []
      (fun t => s.sameMemory t ∧ t.boot.bank = s.boot.bank ∧ t.boot.staged = if ok then some image else none)) ∧
  (idle → answers .enterS4 0 [] (fun t => t.inS4 = true ∧ t.field 0x200 0 0 = 0 ∧ t.launches = [] ∧
    ∀ a, t.mem.glob.read a = if s.retained a then s.mem.glob.read a else 0)) ∧
  (¬ idle → answers .enterS4 1 [] s.sameMemory) ∧
  (ckMay → ∃ t, exec .ckpt s = .next t ∧ s.sameMemory t ∧ t.fe.stopAdmit = true ∧ t.field 0x4A0 1 0 = 1 ∧ t.mbox.cmds = s.mbox.cmds.drop 1 ∧
    t.launches.map (·.lid) = s.launches.map (·.lid)) ∧
  (¬ ckMay → answers .ckpt 1 [] s.sameMemory) ∧
  (s.field 0x4A0 1 0 = 1 → s.moreToStop (fun _ => true) = false → s.ckWaits = false →
    ∃ t, exec .checkpointWriteComplete s = .next t ∧ t.mem.chip = s.mem.chip ∧ t.mem.scratch = s.mem.scratch ∧ t.mem.tags = s.mem.tags ∧
      t.fe.stopAdmit = false ∧ t.field 0x4A0 1 0 = 2 ∧ t.field 0x4A0 63 32 = (s.field 0x4A0 63 32 + 1) % 2 ^ 32 ∧
      t.ckpt.dirty = [] ∧ t.ckpt.restore = none ∧ t.ckpt.launches = s.launches.filter (fun l => l.st == .admitted) ∧
      (∀ q v, (q, v) ∈ t.ckpt.qheads ↔ q < 512 ∧ s.qhead q ≠ 0 ∧ v = s.reg (qBlock q + 16)) ∧
      (∀ n, n < 64 → t.ckpt.aheads[n]? = some (s.mem.glob.num (s.regN 0x28 + 128 * n + 44) 4)) ∧
      (s.halvesOk = true → s.memoryWf → (∀ c ∈ s.mem.chip.cells, c.1 < 0x18000000) →
        (∀ a, a < 0x12000000000 → t.mem.glob.read (s.imageAt a) = s.mem.glob.read a) ∧
        (∀ a, a < 0x18000000 → t.mem.glob.read (s.chipImageAt a) = s.mem.chip.read a) ∧
        ∀ a, s.inImage a = false → t.mem.glob.read a = s.mem.glob.read a)) ∧
  (s.halvesOk = true → ∀ a b, a < 0x12000000000 → b < 0x12000000000 → a ≠ b → s.imageAt a ≠ s.imageAt b ∧ s.inImage (s.imageAt a) = true ∧
    s.inImage a = false) ∧
  (let fits (rs : List (Nat × Nat)) : Prop := ∀ r ∈ rs, r.1 % 2 ^ 21 = 0 ∧ r.2 % 2 ^ 21 = 0 ∧ r.1 + r.2 ≤ 0x12000000000
   (∀ q entry ranges,
     let may : Prop := s.field 0x4A0 1 0 = 2 ∧ (s.imaged q entry).isSome = true ∧
       s.ckpt.ended.any (fun e => e.1 == q && e.2.1 == entry && (e.2.2 == 6 || e.2.2 == 9)) = true ∧
       s.launches.any (fun l => l.queue == q && l.entry == entry) = false ∧ ranges.length ≤ 4096 ∧ fits ranges
     (may → ∃ t, exec (.restore q entry ranges) s = .next t ∧ s.sameMemory t ∧ t.field 0x4A0 1 0 = 3 ∧ t.ckpt.restore = some (q, entry, ranges)) ∧
     (¬ may → answers (.restore q entry ranges) 1 [] s.sameMemory)) ∧
   (∀ q entry rs l, s.ckpt.restore = some (q, entry, rs) → s.imaged q entry = some l → ∃ t, exec .restoreComplete s = .next t ∧
     t.field 0x4A0 1 0 = 2 ∧ t.ckpt.restore = none ∧ l ∈ t.launches ∧
     let e := s.entryPa l.queue l.entry
     (s.memoryWf → s.halvesOk = true → fits rs → (∀ p, p < 22 → s.chipState p ≠ 4) → ∀ a, a < e ∨ e + 4 ≤ a → t.mem.glob.read a =
       let g := a / 2 ^ 21 * 2 ^ 21
       if rs.any (fun r => decide (r.1 ≤ g ∧ g < r.1 + r.2)) && s.ckpt.dirty.contains (a / 2 ^ 21) then s.mem.glob.read (s.imageAt a)
       else s.mem.glob.read a)))

/-- Reset and boot, whose first stage ROM decides by the active bank's image and whose third centres the heaters; power states; the host's
reads and writes of memory; the write-back of the L2 and the telemetry latch; register writes and reads, of which with SECFAIL = 1 only those
of the mailbox have an effect. The model's choices in it are those of the logs 11, 41, 63, 64 and 66. -/
def Obligations.HostAndBoot : Prop := ∀ s : State,
  (∃ t, exec .deviceReset s = .next t ∧ t.mem = State.reset.mem ∧ t.groups = State.reset.groups ∧ t.plots = State.reset.plots ∧
    t.launches = State.reset.launches ∧ t.boot.bank = s.boot.staged.getD s.boot.bank ∧ t.field 0x200 1 0 = 0 ∧ t.field 0x200 4 2 = 1 ∧
    ∀ m, m < 12 → t.chipState (8 + m) = 0 ∧ (8 + m ∈ t.boot.broken ↔ s.chipState (8 + m) = 4 ∨ 8 + m ∈ s.boot.broken)) ∧
  (∀ digest ok, s.regN 0x200 % 4 = 0 → s.inS4 = false →
    let st := max 1 (s.field 0x200 4 2)
    (st = 1 → ok = false → imageAccepted s.boot.bank = false → ∃ t, exec (.bootStageComplete digest ok) s = .next t ∧ t.mem = s.mem ∧ t.field 0x200 1 1 = 1 ∧ t.field 0x200 4 2 = 1) ∧
    (st < 4 → ok = true → st ≠ 1 ∨ imageAccepted s.boot.bank = true →
      ∃ t, exec (.bootStageComplete digest ok) s = .next t ∧ t.mem = s.mem ∧ t.field 0x200 4 2 = st + 1 ∧
      (st = 2 → 30 ≤ t.boot.bar2 ∧ t.boot.bar2 ≤ 44) ∧ (st = 3 → t.ras.margins = [] ∧ t.ras.recentring = [] ∧ t.field 0x220 0 0 = 0) ∧
      t.boot.meas = s.boot.meas.modify (st - 1) (fun m => Config.shake256 (ofBytes (bytesOf 64 m.toNat ++ bytesOf 64 digest.toNat)) 128)) ∧
    (4 ≤ st → ok = true → s.boot.broken = [] → ∃ t, exec (.bootStageComplete digest ok) s = .next t ∧ t.field 0x200 0 0 = 1 ∧ t.tbase = 0 ∧
      ∀ a, t.mem.glob.read a = if s.boot.fromS4 && s.retained a then s.mem.glob.read a else 0) ∧
    (4 ≤ st → ok = false ∨ s.boot.broken ≠ [] → exec (.bootStageComplete digest ok) s = .next s)) ∧
  (∀ level unit, s.idleFor level unit = true → wakeTime level ≤ s.regN 0x208 → (level, unit) ∉ s.boot.asleep → s.inS4 = false →
    ∃ t, exec (.powerStateEntry level unit) s = .next t ∧ s.sameMemory t ∧ t.boot.asleep = s.boot.asleep ++ [(level, unit)] ∧
      (level = 3 → ∀ l ∈ t.mem.lines, l.dirty = 0)) ∧
  (s.inS4 = true → ∃ t, exec .powerWake s = .next t ∧ t.mem = s.mem ∧ t.boot.asleep = [] ∧ t.boot.fromS4 = true ∧ t.field 0x200 4 2 = 3) ∧
  (s.inS4 = false → s.boot.asleep ≠ [] → ∃ t, exec .powerWake s = .next t ∧ t.mem = s.mem ∧ t.boot.asleep = []) ∧
  (∀ port pa, s.hostPort port = true → let w := s.awake
    (∀ bs : List Byte, 0 < bs.length → bs.length ≤ 512 →
      (s.hostRange pa bs.length = false ∨ (w.hostWaits port pa bs.length = false ∧ (s.hostDead pa bs.length = true ∨ s.hostLate pa bs.length = true)) →
        ∃ t, exec (.hostWrite port pa bs) s = .next t ∧ s.sameMemory t) ∧
      (s.hostRange pa bs.length = true → w.hostWaits port pa bs.length = false → s.hostDead pa bs.length = false →
        s.hostLate pa bs.length = false → s.memoryWf →
        ∃ t, exec (.hostWrite port pa bs) s = .next t ∧ t.mem.chip = s.mem.chip ∧ t.mem.scratch = s.mem.scratch ∧ t.mem.tags = s.mem.tags ∧
          ∀ a, t.mem.glob.read a = if pa ≤ a ∧ a < pa + bs.length then bs.getD (a - pa) 0 else s.mem.glob.read a)) ∧
    (∀ n, 0 < n → n ≤ 4096 → s.hostRange pa n = false ∨ w.hostWaits port pa n = false →
      ∃ t, exec (.hostRead port pa n) s = .next t ∧ s.sameMemory t ∧ alGet t.peers.hostReads port = some (
        if s.hostRange pa n = false then .unsupported
        else if s.hostDead pa n || s.hostLate pa n || decide (3 ≤ s.eccClass pa n) then .poisoned else .data (s.mem.glob.readN pa n)))) ∧
  (∃ t, exec .l2Flush s = .next t ∧ s.sameMemory t ∧ t.regs = s.regs ∧ t.mem.lines = s.mem.lines.map (fun l => { l with dirty := 0 })) ∧
  (bit (s.regN 0x200) 1 = false → ∃ t, exec .telsnap s = .next t ∧ t = { s with regs := t.regs } ∧ (∀ p, p < 22 → t.reg (telBlock p) = BitVec.ofNat 64 s.sched.cycle) ∧
    (∀ m, m < 12 → t.reg (telBlock (8 + m) + 0x30) = BitVec.ofNat 64 (s.watched m)) ∧
    ((s.ras.counters.map (·.1)).Nodup → ∀ off v, alGet s.ras.counters off = some v → (∀ p, p < 22 → off ≠ telBlock p ∧ off ≠ telBlock p + 0x30) →
      t.reg off = v)) ∧
  (s.inS4 = false → ∀ v : DWord,
    (∀ off width, width = 4 ∨ width = 8 → off % width = 0 → off + width ≤ 2 ^ 24 → width = 8 ∨ v.toNat < 2 ^ 32 →
      off ≠ 0x320 ∨ bit (s.regN 0x310) 31 = false → s.writeWaits off (v.toNat % 2 ^ 32) = false →
      (width = 8 → s.writeWaits (off + 4) (v.toNat / 2 ^ 32) = false) → ∃ t, exec (.registerWrite off width v) s = .next t) ∧
    (bit (s.regN 0x200) 1 = true → ∀ off width, width = 4 ∨ width = 8 → off % width = 0 → off + width ≤ 2 ^ 24 → width = 8 ∨ v.toNat < 2 ^ 32 →
      off < 0x300 ∨ 0x328 ≤ off → exec (.registerWrite off width v) s = .next s) ∧
    (bit (s.regN 0x200) 1 = false →
      (∀ off, off ∈ [0x8, 0x28, 0x30800, 0x30808] → exec (.registerWrite off 8 v) s = .next (s.setReg off v)) ∧
      (v.toNat < 2 ^ 32 → ∃ t, exec (.registerWrite 0 4 v) s = .next t ∧ t.regN 0 = (s.regN 0 &&& (2 ^ 64 - 1 - 0x7F)) ||| (v.toNat &&& 0x7F) ∧
        t = { s with regs := t.regs, ras := if bit v.toNat 6 then { s.ras with watch := [] } else s.ras } ∧
        ∀ off, off ≠ 0 → t.reg off = s.reg off) ∧
      (v.toNat < 2 ^ 32 → bit v.toNat 0 = true → exec (.registerWrite 0x4A8 4 v) s = exec .telsnap s) ∧
      exec (.registerWrite 0x18 8 v) s = exec (.hsenWrite v) s)) ∧
  (bit (s.regN 0x200) 1 = true → ∀ (i : Instr) (n a b k : Nat) (u : Word) (v : DWord) (on : Bool),
    i ∈ [Instr.qtailDoorbell n u, .queueEnable n on, .queueCancel n, .contextLoad n, .contextLoadInvg n, .clwinWrite n k, .hsenWrite v, .hskick n,
         .cheadWrite n v, .cctlGo n, .tlbShootdownPage n v, .tlbShootdownContext n, .tlbShootdownAll, .cmapSetBoth a b, .cmapSetHalf a b on,
         .cmapSetRelay a b k, .peerQuiesce n, .peerResume n, .peerEccPropose n, .telsnap, .watchadd v, .chipDrain n, .chipReset n, .chipReturn n] →
    exec i s = .next s) ∧
  (s.regRead 0x20 = 0 ∧ s.regRead 0x4B0 = 0 ∧ s.regRead 0 = s.reg 0 ∧ s.regRead 0x200 = s.reg 0x200 ∧
    bits (s.regRead 0x480).toNat 7 0 = max 1 (s.field 0x480 7 0) ∧ bits (s.regRead 0x480).toNat 23 16 = max 1 (s.field 0x480 23 16) ∧
    bits (s.regRead 0x488).toNat 15 0 = max 512 (s.field 0x488 15 0) ∧
    (s.mem.poison.length ≤ 64 → bits (s.regRead 0x80).toNat 6 0 = s.mem.poison.length) ∧
    ∀ i a, i < 64 → s.mem.poison[i]? = some a → s.regRead (0x800 + 8 * i) = BitVec.ofNat 64 a)

/-- The colour map. A write that is allowed sets the pair's mode and PEND, and a refused one only ERR; the change completes on a healthy
carrier, with no lane of the pair held for it any more. A lost colour moves its pair to the other one, and a colour that locks again brings
a pair back that the device moved; heaters in their margin are listed, and the device rides the other colour meanwhile, at once or once the
pair allows it. That a change completes as one step (log 56), and what log 67 names, are the model's choices. -/
def Obligations.ColourMap : Prop := ∀ (s : State) (a b : Nat), isPair a b = true →
  let off := cmapOff a b
  let calm : Prop := ∀ c, (a, b, c) ∉ s.ras.margins
  let writes (i : Instr) (mode : Nat) (sel : Bool) (k : Nat) : Prop := bit (s.regN 0x200) 1 = false → ∃ t, exec i s = .next t ∧ s.sameMemory t ∧
    (s.cmapRefused a b mode sel k = true → t.field off 19 19 = 1 ∧ t.field off 18 0 = s.field off 18 0 ∧ t.ras = s.ras) ∧
    (s.cmapRefused a b mode sel k = false → t.cmapMode a b = mode ∧ bit (t.regN off) 2 = sel ∧ t.cmapK a b = k ∧ t.cmapPend a b = true ∧
      t.field off 17 16 = s.field off 17 16 ∧ t.ras.auto = s.ras.auto.erase (a, b))
  let moved (t : State) (mode : Nat) : Prop := t.cmapMode a b = mode ∧ t.cmapPend a b = true
  writes (.cmapSetBoth a b) 0 false 0 ∧ (∀ sel, writes (.cmapSetHalf a b sel) 1 sel 0) ∧ (∀ k, k < 32 → writes (.cmapSetRelay a b k) 2 false k) ∧
  (s.cmapPend a b = true → s.carrierOk a b = true → ∃ t, exec (.cmapChangeComplete a b) s = .next t ∧ s.sameMemory t ∧
    (calm → t.cmapPend a b = false ∧ t.cmapMode a b = s.cmapMode a b ∧ ∀ l, (a, b, l) ∉ t.ras.moving) ∧
    (∀ c, (a, b, c) ∈ s.ras.margins → (a, b, !c) ∉ s.ras.margins → s.fsplit 4 = false → s.cmapMode a b = 0 → (∀ k, (a, b, k) ∉ s.ras.recentring) →
      s.gated a = false → s.gated b = false → s.relays a b = [] → moved t 1 ∧ bit (t.regN off) 2 = !c ∧ (a, b, c) ∈ t.ras.recentring) ∧
    bits (t.live (pairTel a b + 8)).toNat 31 16 = min (bits (s.live (pairTel a b + 8)).toNat 31 16 + 1) 0xFFFF) ∧
  (∀ colour, s.colourOk a b colour = true → ∃ t, exec (.colourFail a b colour) s = .next t ∧ s.sameMemory t ∧ t.colourOk a b colour = false ∧
    (s.fsplit 5 = true → t.cmapMode a b = s.cmapMode a b) ∧
    (s.fsplit 5 = false → s.relays a b = [] → s.cmapMode a b = 0 → s.colourOk a b (!colour) = true →
      moved t 1 ∧ bit (t.regN off) 2 = !colour ∧ (a, b) ∈ t.ras.auto)) ∧
  (∀ colour, s.colourOk a b colour = false → exec (.colourRetry a b colour false) s = .next s ∧
    ∃ t, exec (.colourRetry a b colour true) s = .next t ∧ s.sameMemory t ∧ t.colourOk a b colour = true ∧
      (s.fsplit 5 = true → calm → t.cmapMode a b = s.cmapMode a b) ∧
      (s.fsplit 5 = false → s.ras.auto.contains (a, b) = true → s.colourOk a b (!colour) = true → moved t 0)) ∧
  (∀ colour, s.ras.margins.contains (a, b, colour) = false → ∃ t, exec (.heaterMargin a b colour) s = .next t ∧ s.sameMemory t ∧
    t.ras.margins = s.ras.margins ++ [(a, b, colour)] ∧ t.field 0x220 0 0 = 1 ∧ t.field 0x220 15 8 = min (s.ras.margins.length + 1) 255 ∧
    (let h := bits (t.live (pairTel a b + 8)).toNat (if colour then 14 else 6) (if colour then 8 else 0)
     h ≤ 10 ∨ 90 ≤ h) ∧
    (s.fsplit 4 = false → s.cmapMode a b = 0 → s.cmapRefused a b 1 (!colour) 0 = false → (a, b, !colour) ∉ s.ras.margins →
      (∀ k, (a, b, k) ∉ s.ras.recentring) → moved t 1 ∧ bit (t.regN off) 2 = !colour ∧ (a, b, colour) ∈ t.ras.recentring)) ∧
  (∀ colour, s.ras.recentring.contains (a, b, colour) = true → ∃ t, exec (.recentreTimeout a b colour) s = .next t ∧ s.sameMemory t ∧
    t.ras.recentring = s.ras.recentring.erase (a, b, colour) ∧ t.reg off = s.reg off) ∧
  (∀ colour, s.ras.margins.contains (a, b, colour) = true → s.offColour a b colour = true → ∃ t, exec (.ringRelockComplete a b colour) s = .next t ∧
    s.sameMemory t ∧ t.ras.margins = s.ras.margins.erase (a, b, colour) ∧ t.field 0x220 15 8 = min (s.ras.margins.erase (a, b, colour)).length 255 ∧
    (s.ras.recentring.contains (a, b, colour) = false → t.reg off = s.reg off) ∧
    (s.ras.recentring.contains (a, b, colour) = true → t.field 0x220 31 16 = min (s.field 0x220 31 16 + 1) 0xFFFF ∧
      (s.cmapRefused a b 0 false 0 = false → moved t 0))) ∧
  (∃ t, exec (.fabricLinkRetry a b) s = .next t ∧ t.live (pairTel a b) = s.live (pairTel a b) + 1 ∧ t = { s with ras := t.ras })


/-- The peer ports: quiescing, resuming and training; proposing, answering and committing a change of ECC mode, or abandoning it; requests
of peers, answered once each; and the sending, answers, resends and failures of the device's own remote accesses. The model's choices in it
are those of the logs 68 and 92. -/
def Obligations.PeerPorts : Prop := ∀ (s : State) (p : Nat), p < 8 →
  let st := s.portState p
  let e := s.eccEnd p
  let dev := s.field (pctl p) 23 16
  let told (t : State) (ms : List EccMsg) : Prop := t.peers.sent = s.peers.sent ++ ms.map (fun m => (p, m))
  let answers : Prop := bit (s.regN 0x200) 1 = false
  (st = 2 → answers → ∃ t, exec (.peerQuiesce p) s = .next t ∧ s.sameMemory t ∧ t.portState p = 3 ∧ t.peers = s.peers) ∧
  (st ≠ 2 → exec (.peerQuiesce p) s = .next s) ∧
  (st = 3 → ∃ t, exec (.peerQuiesced p) s = .next t ∧ s.sameMemory t ∧ t.portState p = 4 ∧ t.peers = s.peers) ∧
  ((st = 4 ∨ st = 0) → s.devid ≠ 0 → s.chipState (20 + p / 4) = 0 → answers → ∃ t, exec (.peerResume p) s = .next t ∧ s.sameMemory t ∧
    t.portState p = 1 ∧ t.peers = s.peers) ∧
  (¬ ((st = 4 ∨ st = 0) ∧ s.devid ≠ 0 ∧ s.chipState (20 + p / 4) = 0) → exec (.peerResume p) s = .next s) ∧
  (∀ d ecc, st = 1 → d < 256 → ecc < 3 → ∃ t, exec (.peerTrainingComplete p d ecc) s = .next t ∧ s.sameMemory t ∧ t.portState p = 2 ∧
    t.field (pctl p) 23 16 = d ∧ t.eccMode p = ecc ∧ t.eccPend p = false ∧ t.peers.table = s.peers.table ∧
    t.peers.ends = s.peers.ends.filter (fun e => e.port != p) ∧
    t.peers.replies = s.peers.replies.filter (fun r => r.port != p || r.id.toNat / 2 ^ 56 == d) ∧
    -- every request is routed afresh, and a write leaves again; one that never left leaves now
    (let afresh (r : Remote) : Remote := if r.port = 255 then r else { r with port := (t.rerouted r.index r.pa).getD 255, dev := t.peerDev r.index, busy := false }
     ((∀ r ∈ s.peers.remotes, r.sent = true) → (s.peers.remotes.map (·.id)).Nodup → t.peers.remotes = s.peers.remotes.map (fun r =>
       let x := afresh r
       if x.kind = .load ∨ x.port = 255 ∨ t.portState x.port ≠ 2 then x
       else { x with busy := false, resends := x.resends + 1, age := (s.sched.cycle - x.first) / 2000 })) ∧
     (∀ r, s.peers.remotes = [r] → r.sent = false → (afresh r).port ≠ 255 → t.portState (afresh r).port = 2 →
       ∃ y, t.peers.remotes = [y] ∧ y.sent = true ∧ y.first = s.sched.cycle ∧ y.port = (afresh r).port ∧ y.pa = r.pa ∧ y.kind = r.kind))) ∧
  (∀ gid rid part kind pa, let t := s.sendRemote gid rid part kind pa
    let x := pa >>> 50
    let ports := s.field (0x31000 + 8 * x) 7 0
    let route := s.peerRoute x pa
    (s.devid = 0 ∨ ports = 0 → route = none) ∧ (s.devid ≠ 0 → ports ≠ 0 → ∃ k, route = some k ∧ k < 8 ∧ bit ports k = true) ∧
    s.sameMemory t ∧ t.groups = s.groups ∧ ∃ r, t.peers.remotes = s.peers.remotes ++ [r] ∧ r.index = x ∧ r.dev = s.field (0x31000 + 8 * x) 15 8 ∧
      r.port = route.getD 255 ∧ r.kind = kind ∧ r.pa = pa ∧ r.gid = gid ∧ r.rid = rid ∧ r.part = part ∧ r.busy = false ∧
      (r.sent = true ↔ r.port ≠ 255 ∧ s.portState r.port = 2) ∧ (r.sent = true → r.first = s.sched.cycle ∧ (kind ≠ .load →
        r.id.toNat = s.devid % 2 ^ 8 * 2 ^ 56 + r.port % 8 * 2 ^ 53 + (alGet s.peers.seqs r.port).getD 0 % 2 ^ 53))) ∧
  (1 ≤ st → st ≤ 3 → ∃ t, exec (.peerFlitRetry p) s = .next t ∧ t = { s with ras := t.ras } ∧
    let off := telBlock (20 + p / 4) + 8
    t.live off = s.live off + 1) ∧
  (let n := s.field (pctl p) 11 10
   (st = 2 → s.eccPend p = false → n ≠ 3 → answers → ∃ t, exec (.peerEccPropose p) s = .next t ∧ s.sameMemory t ∧ t.eccPend p = true ∧
      told t [.propose n] ∧ (t.eccEnd p).proposed = some n) ∧
   (st ≠ 2 ∨ s.eccPend p = true ∨ n = 3 → exec (.peerEccPropose p) s = .next s)) ∧
  (∀ n, st = 2 → n < 3 →
    let open_ := e.sentSM = some n ∧ s.eccPend p = true
    let yields := ¬ (e.proposed.isSome = true ∧ s.devid ≤ dev)
    (¬ yields → exec (.eccProposeReceived p n) s = .next s) ∧
    (yields → s.eccMode p = n ∨ open_ → ∃ t, exec (.eccProposeReceived p n) s = .next t ∧ s.sameMemory t ∧ told t [.ack n] ∧
      t.eccMode p = s.eccMode p ∧ (e.proposed.isSome = true → t.eccPend p = false)) ∧
    (yields → s.eccMode p ≠ n → ¬ open_ → ∃ t, exec (.eccProposeReceived p n) s = .next t ∧ s.sameMemory t ∧ told t [.ack n, .marker n] ∧
      t.eccPend p = true ∧ t.eccMode p = s.eccMode p ∧ t.eccEnd p = ⟨p, none, true, some n, none, n⟩)) ∧
  (∀ n, st = 2 → n < 3 →
    (e.proposed ≠ some n → exec (.eccAckReceived p n) s = .next s) ∧
    (e.proposed = some n → ∃ t, exec (.eccAckReceived p n) s = .next t ∧ s.sameMemory t ∧ told t [.marker n] ∧
      (e.recvSM ≠ some n → t.eccEnd p = { e with proposed := none, sentSM := some n, tx := n } ∧ t.eccPend p = s.eccPend p) ∧
      (e.recvSM = some n → s.eccPend p = true → t.eccMode p = n ∧ t.eccPend p = false))) ∧
  (∀ n, e.proposed = some n → ∃ t, exec (.eccProposeResend p) s = .next t ∧ told t [.propose n] ∧ t = { s with peers := t.peers }) ∧
  (∀ n, st = 2 → n < 3 →
    (s.eccPend p = true → e.sentSM = some n → ∃ t, exec (.eccSwitchMarker p n) s = .next t ∧ s.sameMemory t ∧ t.eccMode p = n ∧
      t.eccPend p = false) ∧
    (s.eccPend p = true → e.sentSM ≠ some n → ∃ t, exec (.eccSwitchMarker p n) s = .next t ∧ t = { s with peers := t.peers } ∧
      t.eccEnd p = { e with recvSM := some n }) ∧
    (s.eccPend p = false → e.window = true → n = s.eccMode p → ∃ t, exec (.eccSwitchMarker p n) s = .next t ∧ t = { s with peers := t.peers } ∧
      t.eccEnd p = ⟨p, none, false, none, none, n⟩) ∧
    (s.eccPend p = false → ¬ (e.window = true ∧ n = s.eccMode p) → exec (.eccSwitchMarker p n) s = .next s)) ∧
  (e.window = true → let m := s.eccMode p
    (s.eccPend p = true → ∃ t, exec (.eccWindowExpire p) s = .next t ∧ s.sameMemory t ∧ told t [.marker m] ∧ t.eccPend p = false ∧ t.eccMode p = m ∧
      t.field (pctl p) 13 13 = 1 ∧ (t.eccEnd p).tx = m) ∧
    (s.eccPend p = false → ∃ t, exec (.eccWindowExpire p) s = .next t ∧ t = { s with peers := t.peers } ∧
      t.eccEnd p = ⟨p, none, false, none, none, m⟩)) ∧
  (∀ r : PeerReq, let n := peerSpan r
    st = 2 ∨ st = 3 → 0 < n → n ≤ 128 → s.inS4 = false →
    let i : Instr := .peerRequestArrive p r
    let answers (x : PeerStatus) (bs : List Byte) : Prop := ∃ t, exec i s = .next t ∧ s.sameMemory t ∧ t.peers.replies = s.peers.replies ++ [⟨p, r.id, x, bs⟩] ∧
      t.peers.table = s.peers.table
    let mine := r.dev = s.devid ∧ s.inbound r n = true ∧ s.hostWaits (20 + p / 4) r.pa n = false
    let dead := s.hostDead r.pa n || s.hostLate r.pa n
    let known := s.peers.table.find? (fun x => x.1 == r.id)
    let old := s.mem.glob.readN r.pa n
    (r.dev ≠ s.devid → answers .unreachable []) ∧
    (r.dev = s.devid → s.inbound r n = false → answers .denied []) ∧
    (r.dev = s.devid → s.inbound r n = true → s.field 0x4A0 1 0 = 1 → answers .busy []) ∧
    (mine → r.kind = .load → dead = false → s.eccClass r.pa n < 3 → answers .ok old) ∧
    (mine → r.kind = .load → dead = true ∨ 3 ≤ s.eccClass r.pa n → ∃ t, exec i s = .next t ∧ s.sameMemory t ∧ t.peers.replies = s.peers.replies) ∧
    (mine → r.kind ≠ .load → known = none → r.age ≤ 3500 → s.peers.table.length < 262144 → dead = true → ∃ t, exec i s = .next t ∧ s.sameMemory t ∧
      t.peers.replies = s.peers.replies ∧ t.peers.table = s.peers.table) ∧
    (mine → r.kind ≠ .load → (∀ x, known = some x → answers .ok x.2.1) ∧
      (known = none → 3500 < r.age → answers .expired []) ∧
      (known = none → r.age ≤ 3500 → 262144 ≤ s.peers.table.length → answers .busy []) ∧
      (known = none → r.age ≤ 3500 → s.peers.table.length < 262144 → dead = false → s.memoryWf →
        (r.kind = .store → ∃ t, exec i s = .next t ∧ t.peers.table = s.peers.table ++ [(r.id, [], s.sched.cycle)] ∧
          t.peers.replies = s.peers.replies ++ [⟨p, r.id, .ok, []⟩] ∧ t.mem.chip = s.mem.chip ∧ t.mem.scratch = s.mem.scratch ∧ t.mem.tags = s.mem.tags ∧
          ∀ a, t.mem.glob.read a = if r.pa ≤ a ∧ a < r.pa + r.bytes.length then r.bytes.getD (a - r.pa) 0 else s.mem.glob.read a) ∧
        (r.kind = .atomic → s.eccClass r.pa n < 3 → ∃ t, exec i s = .next t ∧ t.peers.table = s.peers.table ++ [(r.id, old, s.sched.cycle)] ∧
          t.peers.replies = s.peers.replies ++ [⟨p, r.id, .ok, old⟩] ∧ t.mem.chip = s.mem.chip ∧ t.mem.scratch = s.mem.scratch ∧ t.mem.tags = s.mem.tags ∧
          t.mem.glob.readN r.pa n = bytesOf n (peerAtomic r (ofBytes old)) ∧
          ∀ a, a < r.pa ∨ r.pa + n ≤ a → t.mem.glob.read a = s.mem.glob.read a)))) ∧
  (∀ (id : DWord),
    (s.peers.table.any (fun x => x.1 == id && decide (x.2.2 + 8000000 ≤ s.sched.cycle)) = true → exec (.completionEntryExpire id) s =
      .next { s with peers := { s.peers with table := s.peers.table.filter (fun x => x.1 != id) } }) ∧
    (s.inS4 = false → s.peers.remotes.find? (fun r => r.id == id && r.sent) = none → ∀ x v, ∃ t, exec (.peerResponseArrive id x v) s = .next t ∧
      s.sameMemory t ∧ t.peers = s.peers ∧ t.groups = s.groups) ∧
    (∀ r, s.peers.remotes.find? (fun r => r.id == id && r.sent) = some r →
      let gone (i : Instr) : Prop := ∃ t, exec i s = .next t ∧ s.sameMemory t ∧ ∀ x ∈ t.peers.remotes, x.id ≠ id
      let free := r.rid = 0 ∨ ∀ g, s.group r.gid = some g → g.holdRec r.rid = none
      let again (i : Instr) : Prop := exec i s = .next { s with peers := { s.peers with
        remotes := s.peers.remotes.map (fun x => if x.id = id then
          { r with busy := false, resends := r.resends + 1, age := (s.sched.cycle - r.first) / 2000 } else x) } }
      (s.inS4 = false → free → ∀ x v, x = .unreachable ∨ x = .denied ∨ x = .expired → gone (.peerResponseArrive id x v)) ∧
      (free → r.first + 100000000 ≤ s.sched.cycle → gone (.peerAccessTimeout id)) ∧
      (s.inS4 = false → ∀ v, ∃ t, exec (.peerResponseArrive id .busy v) s = .next t ∧ s.sameMemory t ∧
        t.peers.remotes = s.peers.remotes.map (fun x => if x.id = id then { r with busy := true } else x)) ∧
      (∀ g q v, s.inS4 = false → r.rid ≠ 0 → s.group r.gid = some g → g.load r.rid = some q → g.holdRec r.rid = none →
        ∃ t, exec (.peerResponseArrive id .ok v) s = .next t ∧ s.sameMemory t ∧ (∀ x ∈ t.peers.remotes, x.id ≠ id) ∧
          t.group r.gid = some (g.updLoad r.rid (fun q => { q with
            parts := q.parts.mapIdx (fun i x => if i = r.part then { x with st := .done (bytesOf x.len v.toNat) q.base none } else x) }))) ∧
      (r.busy = false → r.first + 2000 * r.age + 1000000 ≤ s.sched.cycle → r.port ≠ 255 → s.portState r.port = 2 → again (.peerResendTimeout id)) ∧
      (r.busy = true → r.port ≠ 255 → s.portState r.port = 2 → again (.peerBusyRetry id))))


/-- Reliability and repair: the Gleaner's visit writes corrected sectors back, ages watched rows and counts; the policies of alerts,
back-off and refresh windows, and the activation that raises an alert; draining, resetting, testing and returning a chiplet, or refusing to;
its failure; and the time-out of an access that waits for a link chiplet. The model's choices in it are those of the logs 69, 70 and 71. -/
def Obligations.RepairAndChiplets : Prop := ∀ s : State,
  let answers : Prop := bit (s.regN 0x200) 1 = false
  (∀ mc row, mc < 12 → s.chipState (8 + mc) ≠ 4 → ∃ t, exec (.gleanerVisit mc row) s = .next t ∧ s.sameMemory t ∧
    (let es := s.rowEcc mc row
     let reads := telBlock (8 + mc) + 0x28
     t.mem.ecc = s.mem.ecc.filter (fun x => !es.any (fun e => e.2 == 1 && e.1 == x.1)) ∧ t.live reads = s.live reads + 1 ∧
     (s.fsplit 6 = false → es = [] → ∀ w, w ∈ t.ras.watch ↔ (w ∈ s.ras.watch ∧ (w.mc ≠ mc ∨ w.row ≠ row)) ∨
       ∃ v ∈ s.ras.watch, v.mc = mc ∧ v.row = row ∧ v.clean + 1 < max 1 (s.field 0x480 23 16) ∧ w = { v with clean := v.clean + 1 }))) ∧
  (∀ mc, mc < 12 → let n := (alGet s.ras.ce mc).getD 0
    let th := (alGet s.ras.ceth mc).getD 1024
    ∃ t, exec (.ceSecondExpire mc) s = .next t ∧ s.sameMemory t ∧ alGet t.ras.ce mc = none ∧ alGet t.ras.ceth mc = some (s.field 0x488 47 32) ∧ (th = 0 ∨ n ≤ th → t.mbox = s.mbox) ∧
      (th ≠ 0 → th < n → bit (s.regN 0x310) 31 = true → s.mbox.waiting = [] → s.mbox.lostNew = 0 →
        (s.regN 0x318 + 2 ^ 32 - s.regN 0x31C) % 2 ^ 32 < 2 ^ (s.field 0x310 4 0) →
        t.mbox.ring = s.mbox.ring ++ [(s.regN 0x318, (Event.of 0x06 (rasBody s.sched.cycle 0x08 (8 + mc) 0xFF 1 0 n)).numbered s.mbox.seq)])) ∧
  (answers → ∀ pa : DWord, let mc := homeMc pa.toNat
    let room := s.fsplit 6 = true ∧ pa.toNat < 0x12000000000 ∧ (s.ras.added.filter (fun x => x.1 == mc)).length < 4096
    (room → exec (.watchadd pa) s = .next { s with ras := { s.ras with added := s.ras.added ++ [(mc, Config.rowOf pa.toNat, watchx)] } }) ∧
    (¬ room → exec (.watchadd pa) s = .next s)) ∧
  (∀ pa, pa < 0x12000000000 → let t := s.activate pa
    let k := (homeMc pa, Config.rowOf pa)
    let n := (alGet s.ras.acts k).getD 0 + 1
    let limit := max 512 (s.field 0x488 15 0)
    (n < limit → alGet t.ras.acts k = some n ∧ t.ras.raised = s.ras.raised) ∧ (limit ≤ n → alGet t.ras.acts k = none ∧ k ∈ t.ras.raised) ∧
    ∀ j, j ≠ k → alGet t.ras.acts j = alGet s.ras.acts j) ∧
  (∀ mc row, s.ras.raised.contains (mc, row) = true → ∃ t, exec (.rowAlert mc row) s = .next t ∧ s.sameMemory t ∧
    t.ras.raised = s.ras.raised.erase (mc, row) ∧ t.ras.acts = s.ras.acts ∧ (mc, Config.bankOf row) ∈ t.ras.backoff ∧ alGet t.ras.alerts mc = some ((alGet s.ras.alerts mc).getD 0 + 1) ∧
    t.live (telBlock (8 + mc) + 0x38) = s.live (telBlock (8 + mc) + 0x38) + 1) ∧
  (∀ mc bank, s.ras.backoff.contains (mc, bank) = true →
    exec (.backoffEnd mc bank) s = .next { s with ras := { s.ras with backoff := s.ras.backoff.erase (mc, bank) } }) ∧
  (∀ mc, mc < 12 → ∃ t, exec (.refreshWindow mc) s = .next t ∧ s.sameMemory t ∧ t = { s with ras := t.ras } ∧ alGet t.ras.alerts mc = none ∧
    (∀ x ∈ t.ras.acts, x.1.1 ≠ mc) ∧ ∀ x ∈ s.ras.acts, x.1.1 ≠ mc → x ∈ t.ras.acts) ∧
  (∀ port, port < 22 →
    let st := s.chipState port
    let ck := s.field 0x4A0 1 0 = 1 ∨ s.field 0x4A0 1 0 = 3
    let refuses (i : Instr) : Prop := ∃ t, exec i s = .next t ∧ s.sameMemory t ∧ t.field (chipctl port) 7 7 = 1 ∧ t.chipState port = st ∧
      t = { s with regs := t.regs }
    let may := st = 0 ∧ ¬ ck ∧ (port < 8 ∨ (20 = port ∧ Config.isC = false ∧ s.chipState 21 = 0) ∨ (21 = port ∧ s.chipState 20 = 0))
    (answers → may → ∃ t, exec (.chipDrain port) s = .next t ∧ s.sameMemory t ∧ t.chipState port = 1 ∧
      (20 ≤ port → ∀ i, i < 4 → t.portState (4 * (port - 20) + i) = 0)) ∧
    (answers → ¬ may → refuses (.chipDrain port)) ∧
    (st = 1 → s.drainGoesOn port = true → ∃ t, exec (.chipDrainComplete port) s = .next t ∧ s.sameMemory t) ∧
    (st = 1 → s.drainGoesOn port = false → s.drainDone port = true → ∃ t, exec (.chipDrainComplete port) s = .next t ∧ s.sameMemory t ∧
      t.chipState port = 2 ∧ (port < 8 → t.gated port = true)) ∧
    (answers → (port < 8 ∨ 20 ≤ port) → st = 2 ∨ st = 4 → ¬ ck → ∃ t, exec (.chipReset port) s = .next t ∧ s.sameMemory t ∧ t.chipState port = 3 ∧
      ∀ c ∈ t.clusters, c.id / 16 = port → c.gran = [] ∧ c.gtie = []) ∧
    (answers → (8 ≤ port ∧ port < 20) ∨ (st ≠ 2 ∧ st ≠ 4) ∨ ck → refuses (.chipReset port)) ∧
    (∀ pass, st = 3 → ∃ t, exec (.chipSelftestComplete port pass) s = .next t ∧ s.sameMemory t ∧ t.chipState port = if pass then 2 else 4) ∧
    (answers → st = 2 → ¬ ck → ∃ t, exec (.chipReturn port) s = .next t ∧ s.sameMemory t ∧ t.chipState port = 0 ∧ t.gated port = false) ∧
    (answers → st ≠ 2 ∨ ck → refuses (.chipReturn port)) ∧
    (st < 2 → ∃ t, exec (.chipletFail port) s = .next t ∧ t.chipState port = 4 ∧
      (port < 8 → s.sameMemory t ∧ ∀ p ∈ s.plots, p.st = .resident → chipletOf p.core = port → s.launches.any (fun l => l.lid == p.lid) = true →
        (t.launch p.lid).failing ≠ 0) ∧
      (8 ≤ port → ∀ c ∈ s.chans, s.chan c.h = c → c.st = 1 → Config.enginePort (c.h / 64) = port →
        (t.chan c.h).record = c.record.map (fun r => { r with status := 6, fva := none })))) ∧
  (∀ h r, h < 7168 → (s.chan h).st = 1 → (s.chan h).record = some r → s.runRecord h (s.chan h) r = .inr none → s.chipState 20 ≠ 0 ∨ s.chipState 21 ≠ 0 →
    exec (.secondTierAccessTimeout 0 (1024 + h)) s = .next (s.updChan h (fun c => { c with record := some { r with late := true } }))) ∧
  (∀ gid rid g t, gid ≠ 0 → s.group gid = some g → (s.unperformed g rid).find? s.tierWaits = some t →
    exec (.secondTierAccessTimeout gid rid) s = .next (s.consume gid 0x31 4 (some (t, 0)))) ∧
  (∀ gid rid g, gid ≠ 0 → s.group gid = some g →
    (∃ r p, g.load rid = some r ∧ p ∈ r.parts ∧ p.st.isUnsent = true ∧ s.tierWaits p.tgt = true) ∨
      (∃ h p, g.holdRec rid = some h ∧ p ∈ h.parts ∧ p.st = .unsent ∧ s.tierWaits p.tgt = true) →
    ∃ t, exec (.secondTierAccessTimeout gid rid) s = .next t ∧ s.sameMemory t ∧
      ((s.plot g.pid).rolling = false → (s.launch g.lid).failing = 0 →
        ((s.plot g.pid).eligible = true → s.plots.any (fun p => p.pid == g.pid) = true → (t.plot g.pid).rolling = true) ∧
        ((s.plot g.pid).eligible = false → s.launches.any (fun l => l.lid == g.lid) = true → (t.launch g.lid).failing = 6)))
end

