-- ==== Sys2Proof/Laws/Memory.lean ====
section
/-! SUPPORT. What the operations over memory do: every one keeps the canonical form, and a read after a write. -/

namespace Sys2Proof.Machine
open Sys2Proof

/-! The canonical form. -/

theorem cellsWf_mono {lo lo' : Nat} {l : List Host.Cell} (h : lo' ≤ lo) (w : cellsWf lo l = true) : cellsWf lo' l = true := by
  cases l with
  | nil => rfl
  | cons c rest =>
    obtain ⟨k, v⟩ := c
    simp only [cellsWf, Bool.and_eq_true, decide_eq_true_eq] at w ⊢
    exact ⟨⟨by omega, w.1.2⟩, w.2⟩

theorem cellsWf_insert (l : List Host.Cell) : ∀ (lo a : Nat) (b : Byte), lo ≤ a → cellsWf lo l = true → cellsWf lo (insertCell l a b) = true := by
  induction l with
  | nil =>
    intro lo a b h _
    unfold insertCell
    split
    · rfl
    · rename_i hb
      simp only [cellsWf, Bool.and_eq_true, decide_eq_true_eq, and_true]
      exact ⟨h, hb⟩
  | cons c rest ih =>
    intro lo a b h w
    obtain ⟨k, v⟩ := c
    simp only [cellsWf, Bool.and_eq_true, decide_eq_true_eq] at w
    obtain ⟨⟨h1, h2⟩, h3⟩ := w
    unfold insertCell
    split
    · rename_i hlt
      split
      · simp only [cellsWf, Bool.and_eq_true, decide_eq_true_eq]; exact ⟨⟨h1, h2⟩, h3⟩
      · rename_i hb
        simp only [cellsWf, Bool.and_eq_true, decide_eq_true_eq]
        exact ⟨⟨h, hb⟩, ⟨by omega, h2⟩, h3⟩
    · split
      · rename_i heq
        subst heq
        split
        · exact cellsWf_mono (by omega) h3
        · rename_i hb
          simp only [cellsWf, Bool.and_eq_true, decide_eq_true_eq]; exact ⟨⟨h, hb⟩, h3⟩
      · simp only [cellsWf, Bool.and_eq_true, decide_eq_true_eq]
        exact ⟨⟨h1, h2⟩, ih (k + 1) a b (by omega) h3⟩

theorem cellsWf_filter (p : Host.Cell → Bool) (l : List Host.Cell) : ∀ lo, cellsWf lo l = true → cellsWf lo (l.filter p) = true := by
  induction l with
  | nil => intro lo w; exact w
  | cons c rest ih =>
    intro lo w
    obtain ⟨k, v⟩ := c
    simp only [cellsWf, Bool.and_eq_true, decide_eq_true_eq] at w
    by_cases hp : p (k, v) = true
    · simp only [List.filter_cons_of_pos hp, cellsWf, Bool.and_eq_true, decide_eq_true_eq]
      exact ⟨w.1, ih _ w.2⟩
    · simp only [List.filter_cons_of_neg hp]
      exact cellsWf_mono (by omega) (ih _ w.2)

theorem cellsWf_shift (d : Nat) (l : List Host.Cell) : ∀ lo lo', lo' + d ≤ lo → cellsWf lo l = true →
    cellsWf lo' (l.map (fun c => (c.1 - d, c.2))) = true := by
  induction l with
  | nil => intro lo lo' _ _; rfl
  | cons c rest ih =>
    intro lo lo' h w
    obtain ⟨k, v⟩ := c
    simp only [cellsWf, Bool.and_eq_true, decide_eq_true_eq] at w
    simp only [List.map_cons, cellsWf, Bool.and_eq_true, decide_eq_true_eq]
    exact ⟨⟨by omega, w.1.2⟩, ih (k + 1) (k - d + 1) (by omega) w.2⟩

theorem Memory.empty_wf : Memory.empty.wf = true := rfl
theorem Memory.write_wf {m : Memory} (h : m.wf = true) (a : Nat) (b : Byte) : (m.write a b).wf = true :=
  cellsWf_insert m.cells 0 a b (Nat.zero_le a) h
theorem Memory.writeN_wf (bs : List Byte) : ∀ {m : Memory}, m.wf = true → ∀ a, (m.writeN a bs).wf = true := by
  induction bs with
  | nil => intro m h a; exact h
  | cons b bs ih => intro m h a; exact ih (Memory.write_wf h a b) (a + 1)
theorem Memory.filter_wf {m : Memory} (h : m.wf = true) (p : Host.Cell → Bool) : (⟨m.cells.filter p⟩ : Memory).wf = true :=
  cellsWf_filter p m.cells 0 h
theorem Memory.clear_wf {m : Memory} (h : m.wf = true) (lo n : Nat) : (m.clear lo n).wf = true := Memory.filter_wf h _
theorem cellsWf_filter_above (lo : Nat) (q : Host.Cell → Bool) (l : List Host.Cell) : ∀ lo', cellsWf lo' l = true →
    cellsWf lo (l.filter (fun c => decide (lo ≤ c.1) && q c)) = true := by
  induction l with
  | nil => intro lo' _; rfl
  | cons c rest ih =>
    intro lo' w
    obtain ⟨k, v⟩ := c
    simp only [cellsWf, Bool.and_eq_true, decide_eq_true_eq] at w
    by_cases hp : (decide (lo ≤ k) && q (k, v)) = true
    · rw [List.filter_cons_of_pos (by exact hp)]
      simp only [cellsWf, Bool.and_eq_true, decide_eq_true_eq]
      have hk : lo ≤ k := by simp at hp; exact hp.1
      refine ⟨⟨hk, w.1.2⟩, cellsWf_filter _ _ _ w.2⟩
    · rw [List.filter_cons_of_neg (by exact hp)]
      exact ih _ w.2
theorem Memory.extract_wf {m : Memory} (h : m.wf = true) (lo n : Nat) : (m.extract lo n).wf = true :=
  cellsWf_shift lo _ lo 0 (by omega) (cellsWf_filter_above lo (fun c => decide (c.1 < lo + n)) m.cells 0 h)
theorem Memory.place_wf {m : Memory} (h : m.wf = true) (lo n : Nat) (image : Memory) : (m.place lo n image).wf = true := by
  unfold Memory.place
  generalize hm : m.clear lo n = m0
  have h0 : m0.wf = true := hm ▸ Memory.clear_wf h lo n
  clear hm h
  generalize image.cells = cs
  induction cs generalizing m0 with
  | nil => exact h0
  | cons c cs ih =>
    rw [List.foldl_cons]
    apply ih
    split
    · exact Memory.write_wf h0 _ _
    · exact h0

/-! A read after a write. -/

theorem find_none_of_wf (l : List Host.Cell) : ∀ lo, cellsWf lo l = true → ∀ a, a < lo → l.find? (fun c => c.1 == a) = none := by
  induction l with
  | nil => intro lo _ a _; rfl
  | cons c rest ih =>
    intro lo w a ha
    obtain ⟨k, v⟩ := c
    simp only [cellsWf, Bool.and_eq_true, decide_eq_true_eq] at w
    have : (k == a) = false := by simp; omega
    simp only [List.find?, this]
    exact ih _ w.2 a (by omega)

/-- What a list of cells reads at an address. -/
def cellAt (l : List Host.Cell) (a : Nat) : Byte := match l.find? (fun c => c.1 == a) with | some c => c.2 | none => Memory.unlisted
theorem Memory.read_eq (m : Memory) (a : Nat) : m.read a = cellAt m.cells a := rfl

theorem cellAt_insert (l : List Host.Cell) : ∀ lo, cellsWf lo l = true → ∀ (a : Nat) (b : Byte) (x : Nat),
    cellAt (insertCell l a b) x = if x = a then b else cellAt l x := by
  induction l with
  | nil =>
    intro lo _ a b x
    by_cases hx : x = a
    · subst hx
      rw [if_pos rfl]
      unfold insertCell
      split
      · rename_i hb; rw [hb]; rfl
      · simp [cellAt, List.find?]
    · rw [if_neg hx]
      have hx' : (a == x) = false := by simp; omega
      unfold insertCell
      split
      · rfl
      · simp [cellAt, List.find?, hx']
  | cons c rest ih =>
    intro lo w a b x
    obtain ⟨k, v⟩ := c
    have w0 := w
    simp only [cellsWf, Bool.and_eq_true, decide_eq_true_eq] at w
    obtain ⟨⟨h1, h2⟩, h3⟩ := w
    have hcons : ∀ (k : Nat) (v : Byte) (l : List Host.Cell), cellAt ((k, v) :: l) x = if x = k then v else cellAt l x := by
      intro k v l
      by_cases h : x = k
      · subst h; simp [cellAt, List.find?]
      · have : (k == x) = false := by simp; omega
        simp only [cellAt, List.find?, this, h, if_false]
    have hgone : ∀ (y : Nat), y < k + 1 → cellAt rest y = 0 := by
      intro y hy; simp only [cellAt, find_none_of_wf rest _ h3 y hy]; rfl
    unfold insertCell
    split
    · split
      · rename_i hlt hb
        by_cases hx : x = a
        · subst hx
          rw [hcons, if_neg (by omega), hgone x (by omega), if_pos rfl, hb]
        · rw [if_neg hx]
      · rw [hcons]
    · split
      · rename_i heq
        subst heq
        split
        · rename_i hb
          rw [hcons]
          by_cases hx : x = a
          · rw [if_pos hx, hb, hx]; exact hgone a (by omega)
          · rw [if_neg hx, if_neg hx]
        · rw [hcons, hcons]
          by_cases hx : x = a
          · rw [if_pos hx, if_pos hx]
          · rw [if_neg hx, if_neg hx, if_neg hx]
      · rename_i hlt hne
        rw [hcons, hcons, ih _ h3]
        by_cases hx : x = a
        · rw [if_pos hx, if_neg (by omega), if_pos hx]
        · rw [if_neg hx, if_neg hx]

/-- A write changes the byte at its address and no other. -/
theorem Memory.read_write {m : Memory} (h : m.wf = true) (a : Nat) (b : Byte) (x : Nat) :
    (m.write a b).read x = if x = a then b else m.read x := cellAt_insert m.cells 0 h a b x
/-- A write of bytes changes those and no others. -/
theorem Memory.read_writeN (bs : List Byte) : ∀ {m : Memory}, m.wf = true → ∀ (a x : Nat),
    (m.writeN a bs).read x = if a ≤ x ∧ x < a + bs.length then bs.getD (x - a) 0 else m.read x := by
  induction bs with
  | nil => intro m _ a x; rw [if_neg (by simp)]; rfl
  | cons b bs ih =>
    intro m h a x
    show ((m.write a b).writeN (a + 1) bs).read x = _
    rw [ih (Memory.write_wf h a b), Memory.read_write h]
    simp only [List.length_cons]
    by_cases h1 : a + 1 ≤ x ∧ x < a + 1 + bs.length
    · rw [if_pos h1, if_pos (by omega)]
      obtain ⟨k, rfl⟩ : ∃ k, x = a + 1 + k := ⟨x - (a + 1), by omega⟩
      have e1 : a + 1 + k - (a + 1) = k := by omega
      have e2 : a + 1 + k - a = k + 1 := by omega
      rw [e1, e2]; rfl
    · rw [if_neg h1]
      by_cases h2 : x = a
      · subst h2
        rw [if_pos rfl, if_pos (by omega)]
        simp
      · rw [if_neg h2, if_neg (by omega)]
theorem Memory.readN_length (m : Memory) : ∀ (n a : Nat), (m.readN a n).length = n := by
  intro n
  induction n with
  | zero => intro a; rfl
  | succ n ih => intro a; exact congrArg (· + 1) (ih (a + 1))
theorem Memory.readN_getD (m : Memory) : ∀ (n a k : Nat), k < n → (m.readN a n).getD k 0 = m.read (a + k) := by
  intro n
  induction n with
  | zero => intro a k h; omega
  | succ n ih =>
    intro a k h
    cases k with
    | zero => rfl
    | succ k =>
      show (m.readN (a + 1) n).getD k 0 = _
      rw [ih (a + 1) k (by omega)]
      congr 1
      omega

end Sys2Proof.Machine
end

