-- ==== Sys2Proof/Laws/State.lean ====
section
/-! SUPPORT. What each named update of the state changes: one lemma per field and update. -/

namespace Sys2Proof.Machine
open Sys2Proof

/-! `State.setReg`. -/

@[simp] theorem State.setReg_sched (s : State) (off : Nat) (v : DWord) : (s.setReg off v).sched = s.sched := rfl
@[simp] theorem State.setReg_issue (s : State) (off : Nat) (v : DWord) : (s.setReg off v).issue = s.issue := rfl
@[simp] theorem State.setReg_cur (s : State) (off : Nat) (v : DWord) : (s.setReg off v).cur = s.cur := rfl
@[simp] theorem State.setReg_groups (s : State) (off : Nat) (v : DWord) : (s.setReg off v).groups = s.groups := rfl
@[simp] theorem State.setReg_plots (s : State) (off : Nat) (v : DWord) : (s.setReg off v).plots = s.plots := rfl
@[simp] theorem State.setReg_launches (s : State) (off : Nat) (v : DWord) : (s.setReg off v).launches = s.launches := rfl
@[simp] theorem State.setReg_ctxs (s : State) (off : Nat) (v : DWord) : (s.setReg off v).ctxs = s.ctxs := rfl
@[simp] theorem State.setReg_tbase (s : State) (off : Nat) (v : DWord) : (s.setReg off v).tbase = s.tbase := rfl
@[simp] theorem State.setReg_mem (s : State) (off : Nat) (v : DWord) : (s.setReg off v).mem = s.mem := rfl
@[simp] theorem State.setReg_clusters (s : State) (off : Nat) (v : DWord) : (s.setReg off v).clusters = s.clusters := rfl
@[simp] theorem State.setReg_chans (s : State) (off : Nat) (v : DWord) : (s.setReg off v).chans = s.chans := rfl
@[simp] theorem State.setReg_streams (s : State) (off : Nat) (v : DWord) : (s.setReg off v).streams = s.streams := rfl
@[simp] theorem State.setReg_regs (s : State) (off : Nat) (v : DWord) : (s.setReg off v).regs = alSet s.regs off v := rfl
@[simp] theorem State.setReg_fe (s : State) (off : Nat) (v : DWord) : (s.setReg off v).fe = s.fe := rfl
@[simp] theorem State.setReg_mbox (s : State) (off : Nat) (v : DWord) : (s.setReg off v).mbox = s.mbox := rfl
@[simp] theorem State.setReg_boot (s : State) (off : Nat) (v : DWord) : (s.setReg off v).boot = s.boot := rfl
@[simp] theorem State.setReg_peers (s : State) (off : Nat) (v : DWord) : (s.setReg off v).peers = s.peers := rfl
@[simp] theorem State.setReg_ras (s : State) (off : Nat) (v : DWord) : (s.setReg off v).ras = s.ras := rfl
@[simp] theorem State.setReg_ckpt (s : State) (off : Nat) (v : DWord) : (s.setReg off v).ckpt = s.ckpt := rfl

/-! `State.setField`. -/

@[simp] theorem State.setField_sched (s : State) (off hi lo v : Nat) : (s.setField off hi lo v).sched = s.sched := rfl
@[simp] theorem State.setField_issue (s : State) (off hi lo v : Nat) : (s.setField off hi lo v).issue = s.issue := rfl
@[simp] theorem State.setField_cur (s : State) (off hi lo v : Nat) : (s.setField off hi lo v).cur = s.cur := rfl
@[simp] theorem State.setField_groups (s : State) (off hi lo v : Nat) : (s.setField off hi lo v).groups = s.groups := rfl
@[simp] theorem State.setField_plots (s : State) (off hi lo v : Nat) : (s.setField off hi lo v).plots = s.plots := rfl
@[simp] theorem State.setField_launches (s : State) (off hi lo v : Nat) : (s.setField off hi lo v).launches = s.launches := rfl
@[simp] theorem State.setField_ctxs (s : State) (off hi lo v : Nat) : (s.setField off hi lo v).ctxs = s.ctxs := rfl
@[simp] theorem State.setField_tbase (s : State) (off hi lo v : Nat) : (s.setField off hi lo v).tbase = s.tbase := rfl
@[simp] theorem State.setField_mem (s : State) (off hi lo v : Nat) : (s.setField off hi lo v).mem = s.mem := rfl
@[simp] theorem State.setField_clusters (s : State) (off hi lo v : Nat) : (s.setField off hi lo v).clusters = s.clusters := rfl
@[simp] theorem State.setField_chans (s : State) (off hi lo v : Nat) : (s.setField off hi lo v).chans = s.chans := rfl
@[simp] theorem State.setField_streams (s : State) (off hi lo v : Nat) : (s.setField off hi lo v).streams = s.streams := rfl
@[simp] theorem State.setField_fe (s : State) (off hi lo v : Nat) : (s.setField off hi lo v).fe = s.fe := rfl
@[simp] theorem State.setField_mbox (s : State) (off hi lo v : Nat) : (s.setField off hi lo v).mbox = s.mbox := rfl
@[simp] theorem State.setField_boot (s : State) (off hi lo v : Nat) : (s.setField off hi lo v).boot = s.boot := rfl
@[simp] theorem State.setField_peers (s : State) (off hi lo v : Nat) : (s.setField off hi lo v).peers = s.peers := rfl
@[simp] theorem State.setField_ras (s : State) (off hi lo v : Nat) : (s.setField off hi lo v).ras = s.ras := rfl
@[simp] theorem State.setField_ckpt (s : State) (off hi lo v : Nat) : (s.setField off hi lo v).ckpt = s.ckpt := rfl

/-! `State.count`. -/

@[simp] theorem State.count_sched (s : State) (off n : Nat) : (s.count off n).sched = s.sched := rfl
@[simp] theorem State.count_issue (s : State) (off n : Nat) : (s.count off n).issue = s.issue := rfl
@[simp] theorem State.count_cur (s : State) (off n : Nat) : (s.count off n).cur = s.cur := rfl
@[simp] theorem State.count_groups (s : State) (off n : Nat) : (s.count off n).groups = s.groups := rfl
@[simp] theorem State.count_plots (s : State) (off n : Nat) : (s.count off n).plots = s.plots := rfl
@[simp] theorem State.count_launches (s : State) (off n : Nat) : (s.count off n).launches = s.launches := rfl
@[simp] theorem State.count_ctxs (s : State) (off n : Nat) : (s.count off n).ctxs = s.ctxs := rfl
@[simp] theorem State.count_tbase (s : State) (off n : Nat) : (s.count off n).tbase = s.tbase := rfl
@[simp] theorem State.count_mem (s : State) (off n : Nat) : (s.count off n).mem = s.mem := rfl
@[simp] theorem State.count_clusters (s : State) (off n : Nat) : (s.count off n).clusters = s.clusters := rfl
@[simp] theorem State.count_chans (s : State) (off n : Nat) : (s.count off n).chans = s.chans := rfl
@[simp] theorem State.count_streams (s : State) (off n : Nat) : (s.count off n).streams = s.streams := rfl
@[simp] theorem State.count_regs (s : State) (off n : Nat) : (s.count off n).regs = s.regs := rfl
@[simp] theorem State.count_fe (s : State) (off n : Nat) : (s.count off n).fe = s.fe := rfl
@[simp] theorem State.count_mbox (s : State) (off n : Nat) : (s.count off n).mbox = s.mbox := rfl
@[simp] theorem State.count_boot (s : State) (off n : Nat) : (s.count off n).boot = s.boot := rfl
@[simp] theorem State.count_peers (s : State) (off n : Nat) : (s.count off n).peers = s.peers := rfl
@[simp] theorem State.count_ckpt (s : State) (off n : Nat) : (s.count off n).ckpt = s.ckpt := rfl

/-! `State.setLive`. -/

@[simp] theorem State.setLive_sched (s : State) (off v : Nat) : (s.setLive off v).sched = s.sched := rfl
@[simp] theorem State.setLive_issue (s : State) (off v : Nat) : (s.setLive off v).issue = s.issue := rfl
@[simp] theorem State.setLive_cur (s : State) (off v : Nat) : (s.setLive off v).cur = s.cur := rfl
@[simp] theorem State.setLive_groups (s : State) (off v : Nat) : (s.setLive off v).groups = s.groups := rfl
@[simp] theorem State.setLive_plots (s : State) (off v : Nat) : (s.setLive off v).plots = s.plots := rfl
@[simp] theorem State.setLive_launches (s : State) (off v : Nat) : (s.setLive off v).launches = s.launches := rfl
@[simp] theorem State.setLive_ctxs (s : State) (off v : Nat) : (s.setLive off v).ctxs = s.ctxs := rfl
@[simp] theorem State.setLive_tbase (s : State) (off v : Nat) : (s.setLive off v).tbase = s.tbase := rfl
@[simp] theorem State.setLive_mem (s : State) (off v : Nat) : (s.setLive off v).mem = s.mem := rfl
@[simp] theorem State.setLive_clusters (s : State) (off v : Nat) : (s.setLive off v).clusters = s.clusters := rfl
@[simp] theorem State.setLive_chans (s : State) (off v : Nat) : (s.setLive off v).chans = s.chans := rfl
@[simp] theorem State.setLive_streams (s : State) (off v : Nat) : (s.setLive off v).streams = s.streams := rfl
@[simp] theorem State.setLive_regs (s : State) (off v : Nat) : (s.setLive off v).regs = s.regs := rfl
@[simp] theorem State.setLive_fe (s : State) (off v : Nat) : (s.setLive off v).fe = s.fe := rfl
@[simp] theorem State.setLive_mbox (s : State) (off v : Nat) : (s.setLive off v).mbox = s.mbox := rfl
@[simp] theorem State.setLive_boot (s : State) (off v : Nat) : (s.setLive off v).boot = s.boot := rfl
@[simp] theorem State.setLive_peers (s : State) (off v : Nat) : (s.setLive off v).peers = s.peers := rfl
@[simp] theorem State.setLive_ckpt (s : State) (off v : Nat) : (s.setLive off v).ckpt = s.ckpt := rfl

/-! `State.awake`. -/

@[simp] theorem State.awake_sched (s : State) : (s.awake).sched = s.sched := rfl
@[simp] theorem State.awake_issue (s : State) : (s.awake).issue = s.issue := rfl
@[simp] theorem State.awake_cur (s : State) : (s.awake).cur = s.cur := rfl
@[simp] theorem State.awake_groups (s : State) : (s.awake).groups = s.groups := rfl
@[simp] theorem State.awake_plots (s : State) : (s.awake).plots = s.plots := rfl
@[simp] theorem State.awake_launches (s : State) : (s.awake).launches = s.launches := rfl
@[simp] theorem State.awake_ctxs (s : State) : (s.awake).ctxs = s.ctxs := rfl
@[simp] theorem State.awake_tbase (s : State) : (s.awake).tbase = s.tbase := rfl
@[simp] theorem State.awake_mem (s : State) : (s.awake).mem = s.mem := rfl
@[simp] theorem State.awake_clusters (s : State) : (s.awake).clusters = s.clusters := rfl
@[simp] theorem State.awake_chans (s : State) : (s.awake).chans = s.chans := rfl
@[simp] theorem State.awake_streams (s : State) : (s.awake).streams = s.streams := rfl
@[simp] theorem State.awake_regs (s : State) : (s.awake).regs = s.regs := rfl
@[simp] theorem State.awake_fe (s : State) : (s.awake).fe = s.fe := rfl
@[simp] theorem State.awake_mbox (s : State) : (s.awake).mbox = s.mbox := rfl
@[simp] theorem State.awake_peers (s : State) : (s.awake).peers = s.peers := rfl
@[simp] theorem State.awake_ras (s : State) : (s.awake).ras = s.ras := rfl
@[simp] theorem State.awake_ckpt (s : State) : (s.awake).ckpt = s.ckpt := rfl

/-! `State.updPlot`. -/

@[simp] theorem State.updPlot_sched (s : State) (pid : Nat) (f : Plot → Plot) : (s.updPlot pid f).sched = s.sched := rfl
@[simp] theorem State.updPlot_issue (s : State) (pid : Nat) (f : Plot → Plot) : (s.updPlot pid f).issue = s.issue := rfl
@[simp] theorem State.updPlot_cur (s : State) (pid : Nat) (f : Plot → Plot) : (s.updPlot pid f).cur = s.cur := rfl
@[simp] theorem State.updPlot_groups (s : State) (pid : Nat) (f : Plot → Plot) : (s.updPlot pid f).groups = s.groups := rfl
@[simp] theorem State.updPlot_plots (s : State) (pid : Nat) (f : Plot → Plot) : (s.updPlot pid f).plots = s.plots.map (fun p => if p.pid == pid then f p else p) := rfl
@[simp] theorem State.updPlot_launches (s : State) (pid : Nat) (f : Plot → Plot) : (s.updPlot pid f).launches = s.launches := rfl
@[simp] theorem State.updPlot_ctxs (s : State) (pid : Nat) (f : Plot → Plot) : (s.updPlot pid f).ctxs = s.ctxs := rfl
@[simp] theorem State.updPlot_tbase (s : State) (pid : Nat) (f : Plot → Plot) : (s.updPlot pid f).tbase = s.tbase := rfl
@[simp] theorem State.updPlot_mem (s : State) (pid : Nat) (f : Plot → Plot) : (s.updPlot pid f).mem = s.mem := rfl
@[simp] theorem State.updPlot_clusters (s : State) (pid : Nat) (f : Plot → Plot) : (s.updPlot pid f).clusters = s.clusters := rfl
@[simp] theorem State.updPlot_chans (s : State) (pid : Nat) (f : Plot → Plot) : (s.updPlot pid f).chans = s.chans := rfl
@[simp] theorem State.updPlot_streams (s : State) (pid : Nat) (f : Plot → Plot) : (s.updPlot pid f).streams = s.streams := rfl
@[simp] theorem State.updPlot_regs (s : State) (pid : Nat) (f : Plot → Plot) : (s.updPlot pid f).regs = s.regs := rfl
@[simp] theorem State.updPlot_fe (s : State) (pid : Nat) (f : Plot → Plot) : (s.updPlot pid f).fe = s.fe := rfl
@[simp] theorem State.updPlot_mbox (s : State) (pid : Nat) (f : Plot → Plot) : (s.updPlot pid f).mbox = s.mbox := rfl
@[simp] theorem State.updPlot_boot (s : State) (pid : Nat) (f : Plot → Plot) : (s.updPlot pid f).boot = s.boot := rfl
@[simp] theorem State.updPlot_peers (s : State) (pid : Nat) (f : Plot → Plot) : (s.updPlot pid f).peers = s.peers := rfl
@[simp] theorem State.updPlot_ras (s : State) (pid : Nat) (f : Plot → Plot) : (s.updPlot pid f).ras = s.ras := rfl
@[simp] theorem State.updPlot_ckpt (s : State) (pid : Nat) (f : Plot → Plot) : (s.updPlot pid f).ckpt = s.ckpt := rfl

/-! `State.updLaunch`. -/

@[simp] theorem State.updLaunch_sched (s : State) (lid : Nat) (f : Launch → Launch) : (s.updLaunch lid f).sched = s.sched := rfl
@[simp] theorem State.updLaunch_issue (s : State) (lid : Nat) (f : Launch → Launch) : (s.updLaunch lid f).issue = s.issue := rfl
@[simp] theorem State.updLaunch_cur (s : State) (lid : Nat) (f : Launch → Launch) : (s.updLaunch lid f).cur = s.cur := rfl
@[simp] theorem State.updLaunch_groups (s : State) (lid : Nat) (f : Launch → Launch) : (s.updLaunch lid f).groups = s.groups := rfl
@[simp] theorem State.updLaunch_plots (s : State) (lid : Nat) (f : Launch → Launch) : (s.updLaunch lid f).plots = s.plots := rfl
@[simp] theorem State.updLaunch_launches (s : State) (lid : Nat) (f : Launch → Launch) : (s.updLaunch lid f).launches = s.launches.map (fun l => if l.lid == lid then f l else l) := rfl
@[simp] theorem State.updLaunch_ctxs (s : State) (lid : Nat) (f : Launch → Launch) : (s.updLaunch lid f).ctxs = s.ctxs := rfl
@[simp] theorem State.updLaunch_tbase (s : State) (lid : Nat) (f : Launch → Launch) : (s.updLaunch lid f).tbase = s.tbase := rfl
@[simp] theorem State.updLaunch_mem (s : State) (lid : Nat) (f : Launch → Launch) : (s.updLaunch lid f).mem = s.mem := rfl
@[simp] theorem State.updLaunch_clusters (s : State) (lid : Nat) (f : Launch → Launch) : (s.updLaunch lid f).clusters = s.clusters := rfl
@[simp] theorem State.updLaunch_chans (s : State) (lid : Nat) (f : Launch → Launch) : (s.updLaunch lid f).chans = s.chans := rfl
@[simp] theorem State.updLaunch_streams (s : State) (lid : Nat) (f : Launch → Launch) : (s.updLaunch lid f).streams = s.streams := rfl
@[simp] theorem State.updLaunch_regs (s : State) (lid : Nat) (f : Launch → Launch) : (s.updLaunch lid f).regs = s.regs := rfl
@[simp] theorem State.updLaunch_fe (s : State) (lid : Nat) (f : Launch → Launch) : (s.updLaunch lid f).fe = s.fe := rfl
@[simp] theorem State.updLaunch_mbox (s : State) (lid : Nat) (f : Launch → Launch) : (s.updLaunch lid f).mbox = s.mbox := rfl
@[simp] theorem State.updLaunch_boot (s : State) (lid : Nat) (f : Launch → Launch) : (s.updLaunch lid f).boot = s.boot := rfl
@[simp] theorem State.updLaunch_peers (s : State) (lid : Nat) (f : Launch → Launch) : (s.updLaunch lid f).peers = s.peers := rfl
@[simp] theorem State.updLaunch_ras (s : State) (lid : Nat) (f : Launch → Launch) : (s.updLaunch lid f).ras = s.ras := rfl
@[simp] theorem State.updLaunch_ckpt (s : State) (lid : Nat) (f : Launch → Launch) : (s.updLaunch lid f).ckpt = s.ckpt := rfl

/-! `State.reencode`. -/

@[simp] theorem State.reencode_sched (s : State) (pa n : Nat) : (s.reencode pa n).sched = s.sched := rfl
@[simp] theorem State.reencode_issue (s : State) (pa n : Nat) : (s.reencode pa n).issue = s.issue := rfl
@[simp] theorem State.reencode_cur (s : State) (pa n : Nat) : (s.reencode pa n).cur = s.cur := rfl
@[simp] theorem State.reencode_groups (s : State) (pa n : Nat) : (s.reencode pa n).groups = s.groups := rfl
@[simp] theorem State.reencode_plots (s : State) (pa n : Nat) : (s.reencode pa n).plots = s.plots := rfl
@[simp] theorem State.reencode_launches (s : State) (pa n : Nat) : (s.reencode pa n).launches = s.launches := rfl
@[simp] theorem State.reencode_ctxs (s : State) (pa n : Nat) : (s.reencode pa n).ctxs = s.ctxs := rfl
@[simp] theorem State.reencode_tbase (s : State) (pa n : Nat) : (s.reencode pa n).tbase = s.tbase := rfl
@[simp] theorem State.reencode_clusters (s : State) (pa n : Nat) : (s.reencode pa n).clusters = s.clusters := rfl
@[simp] theorem State.reencode_chans (s : State) (pa n : Nat) : (s.reencode pa n).chans = s.chans := rfl
@[simp] theorem State.reencode_streams (s : State) (pa n : Nat) : (s.reencode pa n).streams = s.streams := rfl
@[simp] theorem State.reencode_regs (s : State) (pa n : Nat) : (s.reencode pa n).regs = s.regs := rfl
@[simp] theorem State.reencode_fe (s : State) (pa n : Nat) : (s.reencode pa n).fe = s.fe := rfl
@[simp] theorem State.reencode_mbox (s : State) (pa n : Nat) : (s.reencode pa n).mbox = s.mbox := rfl
@[simp] theorem State.reencode_boot (s : State) (pa n : Nat) : (s.reencode pa n).boot = s.boot := rfl
@[simp] theorem State.reencode_peers (s : State) (pa n : Nat) : (s.reencode pa n).peers = s.peers := rfl
@[simp] theorem State.reencode_ras (s : State) (pa n : Nat) : (s.reencode pa n).ras = s.ras := rfl
@[simp] theorem State.reencode_ckpt (s : State) (pa n : Nat) : (s.reencode pa n).ckpt = s.ckpt := rfl
@[simp] theorem State.reencode_glob (s : State) (pa n : Nat) : (s.reencode pa n).mem.glob = s.mem.glob := rfl
@[simp] theorem State.reencode_chip (s : State) (pa n : Nat) : (s.reencode pa n).mem.chip = s.mem.chip := rfl
@[simp] theorem State.reencode_scratch (s : State) (pa n : Nat) : (s.reencode pa n).mem.scratch = s.mem.scratch := rfl
@[simp] theorem State.reencode_tags (s : State) (pa n : Nat) : (s.reencode pa n).mem.tags = s.mem.tags := rfl

/-! `State.setCk`. -/

@[simp] theorem State.setCk_sched (s : State) (st : Nat) : (s.setCk st).sched = s.sched := rfl
@[simp] theorem State.setCk_issue (s : State) (st : Nat) : (s.setCk st).issue = s.issue := rfl
@[simp] theorem State.setCk_cur (s : State) (st : Nat) : (s.setCk st).cur = s.cur := rfl
@[simp] theorem State.setCk_groups (s : State) (st : Nat) : (s.setCk st).groups = s.groups := rfl
@[simp] theorem State.setCk_plots (s : State) (st : Nat) : (s.setCk st).plots = s.plots := rfl
@[simp] theorem State.setCk_launches (s : State) (st : Nat) : (s.setCk st).launches = s.launches := rfl
@[simp] theorem State.setCk_ctxs (s : State) (st : Nat) : (s.setCk st).ctxs = s.ctxs := rfl
@[simp] theorem State.setCk_tbase (s : State) (st : Nat) : (s.setCk st).tbase = s.tbase := rfl
@[simp] theorem State.setCk_mem (s : State) (st : Nat) : (s.setCk st).mem = s.mem := rfl
@[simp] theorem State.setCk_clusters (s : State) (st : Nat) : (s.setCk st).clusters = s.clusters := rfl
@[simp] theorem State.setCk_chans (s : State) (st : Nat) : (s.setCk st).chans = s.chans := rfl
@[simp] theorem State.setCk_streams (s : State) (st : Nat) : (s.setCk st).streams = s.streams := rfl
@[simp] theorem State.setCk_fe (s : State) (st : Nat) : (s.setCk st).fe = s.fe := rfl
@[simp] theorem State.setCk_mbox (s : State) (st : Nat) : (s.setCk st).mbox = s.mbox := rfl
@[simp] theorem State.setCk_boot (s : State) (st : Nat) : (s.setCk st).boot = s.boot := rfl
@[simp] theorem State.setCk_peers (s : State) (st : Nat) : (s.setCk st).peers = s.peers := rfl
@[simp] theorem State.setCk_ras (s : State) (st : Nat) : (s.setCk st).ras = s.ras := rfl
@[simp] theorem State.setCk_ckpt (s : State) (st : Nat) : (s.setCk st).ckpt = s.ckpt := rfl

/-! `State.setPortStamp`. -/

@[simp] theorem State.setPortStamp_sched (s : State) (k : Nat) (ts : Word) : (s.setPortStamp k ts).sched = s.sched := rfl
@[simp] theorem State.setPortStamp_issue (s : State) (k : Nat) (ts : Word) : (s.setPortStamp k ts).issue = s.issue := rfl
@[simp] theorem State.setPortStamp_cur (s : State) (k : Nat) (ts : Word) : (s.setPortStamp k ts).cur = s.cur := rfl
@[simp] theorem State.setPortStamp_groups (s : State) (k : Nat) (ts : Word) : (s.setPortStamp k ts).groups = s.groups := rfl
@[simp] theorem State.setPortStamp_plots (s : State) (k : Nat) (ts : Word) : (s.setPortStamp k ts).plots = s.plots := rfl
@[simp] theorem State.setPortStamp_launches (s : State) (k : Nat) (ts : Word) : (s.setPortStamp k ts).launches = s.launches := rfl
@[simp] theorem State.setPortStamp_ctxs (s : State) (k : Nat) (ts : Word) : (s.setPortStamp k ts).ctxs = s.ctxs := rfl
@[simp] theorem State.setPortStamp_tbase (s : State) (k : Nat) (ts : Word) : (s.setPortStamp k ts).tbase = s.tbase := rfl
@[simp] theorem State.setPortStamp_mem (s : State) (k : Nat) (ts : Word) : (s.setPortStamp k ts).mem = s.mem := rfl
@[simp] theorem State.setPortStamp_clusters (s : State) (k : Nat) (ts : Word) : (s.setPortStamp k ts).clusters = s.clusters := rfl
@[simp] theorem State.setPortStamp_chans (s : State) (k : Nat) (ts : Word) : (s.setPortStamp k ts).chans = s.chans := rfl
@[simp] theorem State.setPortStamp_streams (s : State) (k : Nat) (ts : Word) : (s.setPortStamp k ts).streams = s.streams := rfl
@[simp] theorem State.setPortStamp_regs (s : State) (k : Nat) (ts : Word) : (s.setPortStamp k ts).regs = s.regs := rfl
@[simp] theorem State.setPortStamp_fe (s : State) (k : Nat) (ts : Word) : (s.setPortStamp k ts).fe = s.fe := rfl
@[simp] theorem State.setPortStamp_mbox (s : State) (k : Nat) (ts : Word) : (s.setPortStamp k ts).mbox = s.mbox := rfl
@[simp] theorem State.setPortStamp_boot (s : State) (k : Nat) (ts : Word) : (s.setPortStamp k ts).boot = s.boot := rfl
@[simp] theorem State.setPortStamp_ras (s : State) (k : Nat) (ts : Word) : (s.setPortStamp k ts).ras = s.ras := rfl
@[simp] theorem State.setPortStamp_ckpt (s : State) (k : Nat) (ts : Word) : (s.setPortStamp k ts).ckpt = s.ckpt := rfl

/-! `State.respond`. -/

@[simp] theorem State.respond_sched (s : State) (port : Nat) (id : DWord) (st : PeerStatus) (bs : List Byte) : (s.respond port id st bs).sched = s.sched := rfl
@[simp] theorem State.respond_issue (s : State) (port : Nat) (id : DWord) (st : PeerStatus) (bs : List Byte) : (s.respond port id st bs).issue = s.issue := rfl
@[simp] theorem State.respond_cur (s : State) (port : Nat) (id : DWord) (st : PeerStatus) (bs : List Byte) : (s.respond port id st bs).cur = s.cur := rfl
@[simp] theorem State.respond_groups (s : State) (port : Nat) (id : DWord) (st : PeerStatus) (bs : List Byte) : (s.respond port id st bs).groups = s.groups := rfl
@[simp] theorem State.respond_plots (s : State) (port : Nat) (id : DWord) (st : PeerStatus) (bs : List Byte) : (s.respond port id st bs).plots = s.plots := rfl
@[simp] theorem State.respond_launches (s : State) (port : Nat) (id : DWord) (st : PeerStatus) (bs : List Byte) : (s.respond port id st bs).launches = s.launches := rfl
@[simp] theorem State.respond_ctxs (s : State) (port : Nat) (id : DWord) (st : PeerStatus) (bs : List Byte) : (s.respond port id st bs).ctxs = s.ctxs := rfl
@[simp] theorem State.respond_tbase (s : State) (port : Nat) (id : DWord) (st : PeerStatus) (bs : List Byte) : (s.respond port id st bs).tbase = s.tbase := rfl
@[simp] theorem State.respond_mem (s : State) (port : Nat) (id : DWord) (st : PeerStatus) (bs : List Byte) : (s.respond port id st bs).mem = s.mem := rfl
@[simp] theorem State.respond_clusters (s : State) (port : Nat) (id : DWord) (st : PeerStatus) (bs : List Byte) : (s.respond port id st bs).clusters = s.clusters := rfl
@[simp] theorem State.respond_chans (s : State) (port : Nat) (id : DWord) (st : PeerStatus) (bs : List Byte) : (s.respond port id st bs).chans = s.chans := rfl
@[simp] theorem State.respond_streams (s : State) (port : Nat) (id : DWord) (st : PeerStatus) (bs : List Byte) : (s.respond port id st bs).streams = s.streams := rfl
@[simp] theorem State.respond_regs (s : State) (port : Nat) (id : DWord) (st : PeerStatus) (bs : List Byte) : (s.respond port id st bs).regs = s.regs := rfl
@[simp] theorem State.respond_fe (s : State) (port : Nat) (id : DWord) (st : PeerStatus) (bs : List Byte) : (s.respond port id st bs).fe = s.fe := rfl
@[simp] theorem State.respond_mbox (s : State) (port : Nat) (id : DWord) (st : PeerStatus) (bs : List Byte) : (s.respond port id st bs).mbox = s.mbox := rfl
@[simp] theorem State.respond_boot (s : State) (port : Nat) (id : DWord) (st : PeerStatus) (bs : List Byte) : (s.respond port id st bs).boot = s.boot := rfl
@[simp] theorem State.respond_ras (s : State) (port : Nat) (id : DWord) (st : PeerStatus) (bs : List Byte) : (s.respond port id st bs).ras = s.ras := rfl
@[simp] theorem State.respond_ckpt (s : State) (port : Nat) (id : DWord) (st : PeerStatus) (bs : List Byte) : (s.respond port id st bs).ckpt = s.ckpt := rfl

/-! `State.dropRemote`. -/

@[simp] theorem State.dropRemote_sched (s : State) (id : DWord) : (s.dropRemote id).sched = s.sched := rfl
@[simp] theorem State.dropRemote_issue (s : State) (id : DWord) : (s.dropRemote id).issue = s.issue := rfl
@[simp] theorem State.dropRemote_cur (s : State) (id : DWord) : (s.dropRemote id).cur = s.cur := rfl
@[simp] theorem State.dropRemote_groups (s : State) (id : DWord) : (s.dropRemote id).groups = s.groups := rfl
@[simp] theorem State.dropRemote_plots (s : State) (id : DWord) : (s.dropRemote id).plots = s.plots := rfl
@[simp] theorem State.dropRemote_launches (s : State) (id : DWord) : (s.dropRemote id).launches = s.launches := rfl
@[simp] theorem State.dropRemote_ctxs (s : State) (id : DWord) : (s.dropRemote id).ctxs = s.ctxs := rfl
@[simp] theorem State.dropRemote_tbase (s : State) (id : DWord) : (s.dropRemote id).tbase = s.tbase := rfl
@[simp] theorem State.dropRemote_mem (s : State) (id : DWord) : (s.dropRemote id).mem = s.mem := rfl
@[simp] theorem State.dropRemote_clusters (s : State) (id : DWord) : (s.dropRemote id).clusters = s.clusters := rfl
@[simp] theorem State.dropRemote_chans (s : State) (id : DWord) : (s.dropRemote id).chans = s.chans := rfl
@[simp] theorem State.dropRemote_streams (s : State) (id : DWord) : (s.dropRemote id).streams = s.streams := rfl
@[simp] theorem State.dropRemote_regs (s : State) (id : DWord) : (s.dropRemote id).regs = s.regs := rfl
@[simp] theorem State.dropRemote_fe (s : State) (id : DWord) : (s.dropRemote id).fe = s.fe := rfl
@[simp] theorem State.dropRemote_mbox (s : State) (id : DWord) : (s.dropRemote id).mbox = s.mbox := rfl
@[simp] theorem State.dropRemote_boot (s : State) (id : DWord) : (s.dropRemote id).boot = s.boot := rfl
@[simp] theorem State.dropRemote_ras (s : State) (id : DWord) : (s.dropRemote id).ras = s.ras := rfl
@[simp] theorem State.dropRemote_ckpt (s : State) (id : DWord) : (s.dropRemote id).ckpt = s.ckpt := rfl

/-! `State.setEnd`. -/

@[simp] theorem State.setEnd_sched (s : State) (e : EccEnd) : (s.setEnd e).sched = s.sched := rfl
@[simp] theorem State.setEnd_issue (s : State) (e : EccEnd) : (s.setEnd e).issue = s.issue := rfl
@[simp] theorem State.setEnd_cur (s : State) (e : EccEnd) : (s.setEnd e).cur = s.cur := rfl
@[simp] theorem State.setEnd_groups (s : State) (e : EccEnd) : (s.setEnd e).groups = s.groups := rfl
@[simp] theorem State.setEnd_plots (s : State) (e : EccEnd) : (s.setEnd e).plots = s.plots := rfl
@[simp] theorem State.setEnd_launches (s : State) (e : EccEnd) : (s.setEnd e).launches = s.launches := rfl
@[simp] theorem State.setEnd_ctxs (s : State) (e : EccEnd) : (s.setEnd e).ctxs = s.ctxs := rfl
@[simp] theorem State.setEnd_tbase (s : State) (e : EccEnd) : (s.setEnd e).tbase = s.tbase := rfl
@[simp] theorem State.setEnd_mem (s : State) (e : EccEnd) : (s.setEnd e).mem = s.mem := rfl
@[simp] theorem State.setEnd_clusters (s : State) (e : EccEnd) : (s.setEnd e).clusters = s.clusters := rfl
@[simp] theorem State.setEnd_chans (s : State) (e : EccEnd) : (s.setEnd e).chans = s.chans := rfl
@[simp] theorem State.setEnd_streams (s : State) (e : EccEnd) : (s.setEnd e).streams = s.streams := rfl
@[simp] theorem State.setEnd_regs (s : State) (e : EccEnd) : (s.setEnd e).regs = s.regs := rfl
@[simp] theorem State.setEnd_fe (s : State) (e : EccEnd) : (s.setEnd e).fe = s.fe := rfl
@[simp] theorem State.setEnd_mbox (s : State) (e : EccEnd) : (s.setEnd e).mbox = s.mbox := rfl
@[simp] theorem State.setEnd_boot (s : State) (e : EccEnd) : (s.setEnd e).boot = s.boot := rfl
@[simp] theorem State.setEnd_ras (s : State) (e : EccEnd) : (s.setEnd e).ras = s.ras := rfl
@[simp] theorem State.setEnd_ckpt (s : State) (e : EccEnd) : (s.setEnd e).ckpt = s.ckpt := rfl

/-! `State.sendEcc`. -/

@[simp] theorem State.sendEcc_sched (s : State) (p : Nat) (m : EccMsg) : (s.sendEcc p m).sched = s.sched := rfl
@[simp] theorem State.sendEcc_issue (s : State) (p : Nat) (m : EccMsg) : (s.sendEcc p m).issue = s.issue := rfl
@[simp] theorem State.sendEcc_cur (s : State) (p : Nat) (m : EccMsg) : (s.sendEcc p m).cur = s.cur := rfl
@[simp] theorem State.sendEcc_groups (s : State) (p : Nat) (m : EccMsg) : (s.sendEcc p m).groups = s.groups := rfl
@[simp] theorem State.sendEcc_plots (s : State) (p : Nat) (m : EccMsg) : (s.sendEcc p m).plots = s.plots := rfl
@[simp] theorem State.sendEcc_launches (s : State) (p : Nat) (m : EccMsg) : (s.sendEcc p m).launches = s.launches := rfl
@[simp] theorem State.sendEcc_ctxs (s : State) (p : Nat) (m : EccMsg) : (s.sendEcc p m).ctxs = s.ctxs := rfl
@[simp] theorem State.sendEcc_tbase (s : State) (p : Nat) (m : EccMsg) : (s.sendEcc p m).tbase = s.tbase := rfl
@[simp] theorem State.sendEcc_mem (s : State) (p : Nat) (m : EccMsg) : (s.sendEcc p m).mem = s.mem := rfl
@[simp] theorem State.sendEcc_clusters (s : State) (p : Nat) (m : EccMsg) : (s.sendEcc p m).clusters = s.clusters := rfl
@[simp] theorem State.sendEcc_chans (s : State) (p : Nat) (m : EccMsg) : (s.sendEcc p m).chans = s.chans := rfl
@[simp] theorem State.sendEcc_streams (s : State) (p : Nat) (m : EccMsg) : (s.sendEcc p m).streams = s.streams := rfl
@[simp] theorem State.sendEcc_regs (s : State) (p : Nat) (m : EccMsg) : (s.sendEcc p m).regs = s.regs := rfl
@[simp] theorem State.sendEcc_fe (s : State) (p : Nat) (m : EccMsg) : (s.sendEcc p m).fe = s.fe := rfl
@[simp] theorem State.sendEcc_mbox (s : State) (p : Nat) (m : EccMsg) : (s.sendEcc p m).mbox = s.mbox := rfl
@[simp] theorem State.sendEcc_boot (s : State) (p : Nat) (m : EccMsg) : (s.sendEcc p m).boot = s.boot := rfl
@[simp] theorem State.sendEcc_ras (s : State) (p : Nat) (m : EccMsg) : (s.sendEcc p m).ras = s.ras := rfl
@[simp] theorem State.sendEcc_ckpt (s : State) (p : Nat) (m : EccMsg) : (s.sendEcc p m).ckpt = s.ckpt := rfl

/-! `State.settled`. -/

@[simp] theorem State.settled_sched (s : State) : (s.settled).sched = s.sched := rfl
@[simp] theorem State.settled_issue (s : State) : (s.settled).issue = Issue.idle := rfl
@[simp] theorem State.settled_cur (s : State) : (s.settled).cur = Group.idle := rfl
@[simp] theorem State.settled_groups (s : State) : (s.settled).groups = s.groups := rfl
@[simp] theorem State.settled_plots (s : State) : (s.settled).plots = s.plots := rfl
@[simp] theorem State.settled_launches (s : State) : (s.settled).launches = s.launches := rfl
@[simp] theorem State.settled_ctxs (s : State) : (s.settled).ctxs = s.ctxs := rfl
@[simp] theorem State.settled_tbase (s : State) : (s.settled).tbase = s.tbase := rfl
@[simp] theorem State.settled_mem (s : State) : (s.settled).mem = s.mem := rfl
@[simp] theorem State.settled_clusters (s : State) : (s.settled).clusters = s.clusters := rfl
@[simp] theorem State.settled_chans (s : State) : (s.settled).chans = s.chans := rfl
@[simp] theorem State.settled_streams (s : State) : (s.settled).streams = s.streams := rfl
@[simp] theorem State.settled_regs (s : State) : (s.settled).regs = s.regs := rfl
@[simp] theorem State.settled_fe (s : State) : (s.settled).fe = s.fe := rfl
@[simp] theorem State.settled_mbox (s : State) : (s.settled).mbox = s.mbox := rfl
@[simp] theorem State.settled_boot (s : State) : (s.settled).boot = s.boot := rfl
@[simp] theorem State.settled_peers (s : State) : (s.settled).peers = s.peers := rfl
@[simp] theorem State.settled_ras (s : State) : (s.settled).ras = s.ras := rfl
@[simp] theorem State.settled_ckpt (s : State) : (s.settled).ckpt = s.ckpt := rfl

/-! `State.activate` and `State.flush`. -/

/-- An activation changes what reliability counts and nothing else. -/
theorem State.activate_eq (s : State) (pa : Nat) : s.activate pa = { s with ras := (s.activate pa).ras } := by
  unfold State.activate; split <;> rfl
/-- A flush changes what reliability counts and the keeping of lines, and nothing else. -/
theorem State.flush_eq (s : State) : s.flush = { s with ras := s.flush.ras, mem := { s.mem with lines := s.flush.mem.lines } } := by
  unfold State.flush
  dsimp only
  have h : ∀ (f : State → LineSt → State), (∀ u l, f u l = { u with ras := (f u l).ras }) → ∀ (ls : List LineSt) (u : State),
      ls.foldl f u = { u with ras := (ls.foldl f u).ras } := by
    intro f hf ls
    induction ls with
    | nil => intro u; rfl
    | cons l ls ih => intro u; rw [List.foldl_cons, ih, hf u l]
  rw [h _ (fun u l => by
    split
    · split
      · exact State.activate_eq u _
      · rfl
    · rfl)]
@[simp] theorem State.flush_sched (s : State) : (s.flush).sched = s.sched := by rw [State.flush_eq]
@[simp] theorem State.flush_issue (s : State) : (s.flush).issue = s.issue := by rw [State.flush_eq]
@[simp] theorem State.flush_cur (s : State) : (s.flush).cur = s.cur := by rw [State.flush_eq]
@[simp] theorem State.flush_groups (s : State) : (s.flush).groups = s.groups := by rw [State.flush_eq]
@[simp] theorem State.flush_plots (s : State) : (s.flush).plots = s.plots := by rw [State.flush_eq]
@[simp] theorem State.flush_launches (s : State) : (s.flush).launches = s.launches := by rw [State.flush_eq]
@[simp] theorem State.flush_ctxs (s : State) : (s.flush).ctxs = s.ctxs := by rw [State.flush_eq]
@[simp] theorem State.flush_tbase (s : State) : (s.flush).tbase = s.tbase := by rw [State.flush_eq]
@[simp] theorem State.flush_clusters (s : State) : (s.flush).clusters = s.clusters := by rw [State.flush_eq]
@[simp] theorem State.flush_chans (s : State) : (s.flush).chans = s.chans := by rw [State.flush_eq]
@[simp] theorem State.flush_streams (s : State) : (s.flush).streams = s.streams := by rw [State.flush_eq]
@[simp] theorem State.flush_regs (s : State) : (s.flush).regs = s.regs := by rw [State.flush_eq]
@[simp] theorem State.flush_fe (s : State) : (s.flush).fe = s.fe := by rw [State.flush_eq]
@[simp] theorem State.flush_mbox (s : State) : (s.flush).mbox = s.mbox := by rw [State.flush_eq]
@[simp] theorem State.flush_boot (s : State) : (s.flush).boot = s.boot := by rw [State.flush_eq]
@[simp] theorem State.flush_peers (s : State) : (s.flush).peers = s.peers := by rw [State.flush_eq]
@[simp] theorem State.flush_ckpt (s : State) : (s.flush).ckpt = s.ckpt := by rw [State.flush_eq]
@[simp] theorem State.flush_mem_glob (s : State) : (s.flush).mem.glob = s.mem.glob := by rw [State.flush_eq]
@[simp] theorem State.flush_mem_chip (s : State) : (s.flush).mem.chip = s.mem.chip := by rw [State.flush_eq]
@[simp] theorem State.flush_mem_scratch (s : State) : (s.flush).mem.scratch = s.mem.scratch := by rw [State.flush_eq]
@[simp] theorem State.flush_mem_tags (s : State) : (s.flush).mem.tags = s.mem.tags := by rw [State.flush_eq]
@[simp] theorem State.flush_mem_ecc (s : State) : (s.flush).mem.ecc = s.mem.ecc := by rw [State.flush_eq]
@[simp] theorem State.flush_mem_tlb (s : State) : (s.flush).mem.tlb = s.mem.tlb := by rw [State.flush_eq]
@[simp] theorem State.flush_mem_l1 (s : State) : (s.flush).mem.l1 = s.mem.l1 := by rw [State.flush_eq]
@[simp] theorem State.flush_mem_monitors (s : State) : (s.flush).mem.monitors = s.mem.monitors := by rw [State.flush_eq]

/-! `State.unboard`. -/

@[simp] theorem State.unboard_sched (s : State) (owner : Nat) : (s.unboard owner).sched = s.sched := rfl
@[simp] theorem State.unboard_issue (s : State) (owner : Nat) : (s.unboard owner).issue = s.issue := rfl
@[simp] theorem State.unboard_cur (s : State) (owner : Nat) : (s.unboard owner).cur = s.cur := rfl
@[simp] theorem State.unboard_groups (s : State) (owner : Nat) : (s.unboard owner).groups = s.groups := rfl
@[simp] theorem State.unboard_plots (s : State) (owner : Nat) : (s.unboard owner).plots = s.plots := rfl
@[simp] theorem State.unboard_launches (s : State) (owner : Nat) : (s.unboard owner).launches = s.launches := rfl
@[simp] theorem State.unboard_ctxs (s : State) (owner : Nat) : (s.unboard owner).ctxs = s.ctxs := rfl
@[simp] theorem State.unboard_tbase (s : State) (owner : Nat) : (s.unboard owner).tbase = s.tbase := rfl
@[simp] theorem State.unboard_clusters (s : State) (owner : Nat) : (s.unboard owner).clusters = s.clusters := rfl
@[simp] theorem State.unboard_chans (s : State) (owner : Nat) : (s.unboard owner).chans = s.chans := rfl
@[simp] theorem State.unboard_streams (s : State) (owner : Nat) : (s.unboard owner).streams = s.streams := rfl
@[simp] theorem State.unboard_regs (s : State) (owner : Nat) : (s.unboard owner).regs = s.regs := rfl
@[simp] theorem State.unboard_fe (s : State) (owner : Nat) : (s.unboard owner).fe = s.fe := rfl
@[simp] theorem State.unboard_mbox (s : State) (owner : Nat) : (s.unboard owner).mbox = s.mbox := rfl
@[simp] theorem State.unboard_boot (s : State) (owner : Nat) : (s.unboard owner).boot = s.boot := rfl
@[simp] theorem State.unboard_peers (s : State) (owner : Nat) : (s.unboard owner).peers = s.peers := rfl
@[simp] theorem State.unboard_ras (s : State) (owner : Nat) : (s.unboard owner).ras = s.ras := rfl
@[simp] theorem State.unboard_ckpt (s : State) (owner : Nat) : (s.unboard owner).ckpt = s.ckpt := rfl
@[simp] theorem State.unboard_glob (s : State) (owner : Nat) : (s.unboard owner).mem.glob = s.mem.glob := rfl
@[simp] theorem State.unboard_chip (s : State) (owner : Nat) : (s.unboard owner).mem.chip = s.mem.chip := rfl
@[simp] theorem State.unboard_scratch (s : State) (owner : Nat) : (s.unboard owner).mem.scratch = s.mem.scratch := rfl
@[simp] theorem State.unboard_tags (s : State) (owner : Nat) : (s.unboard owner).mem.tags = s.mem.tags := rfl

/-! `State.dropL1`. -/

@[simp] theorem State.dropL1_sched (s : State) (core line : Nat) : (s.dropL1 core line).sched = s.sched := rfl
@[simp] theorem State.dropL1_issue (s : State) (core line : Nat) : (s.dropL1 core line).issue = s.issue := rfl
@[simp] theorem State.dropL1_cur (s : State) (core line : Nat) : (s.dropL1 core line).cur = s.cur := rfl
@[simp] theorem State.dropL1_groups (s : State) (core line : Nat) : (s.dropL1 core line).groups = s.groups := rfl
@[simp] theorem State.dropL1_plots (s : State) (core line : Nat) : (s.dropL1 core line).plots = s.plots := rfl
@[simp] theorem State.dropL1_launches (s : State) (core line : Nat) : (s.dropL1 core line).launches = s.launches := rfl
@[simp] theorem State.dropL1_ctxs (s : State) (core line : Nat) : (s.dropL1 core line).ctxs = s.ctxs := rfl
@[simp] theorem State.dropL1_tbase (s : State) (core line : Nat) : (s.dropL1 core line).tbase = s.tbase := rfl
@[simp] theorem State.dropL1_clusters (s : State) (core line : Nat) : (s.dropL1 core line).clusters = s.clusters := rfl
@[simp] theorem State.dropL1_chans (s : State) (core line : Nat) : (s.dropL1 core line).chans = s.chans := rfl
@[simp] theorem State.dropL1_streams (s : State) (core line : Nat) : (s.dropL1 core line).streams = s.streams := rfl
@[simp] theorem State.dropL1_regs (s : State) (core line : Nat) : (s.dropL1 core line).regs = s.regs := rfl
@[simp] theorem State.dropL1_fe (s : State) (core line : Nat) : (s.dropL1 core line).fe = s.fe := rfl
@[simp] theorem State.dropL1_mbox (s : State) (core line : Nat) : (s.dropL1 core line).mbox = s.mbox := rfl
@[simp] theorem State.dropL1_boot (s : State) (core line : Nat) : (s.dropL1 core line).boot = s.boot := rfl
@[simp] theorem State.dropL1_peers (s : State) (core line : Nat) : (s.dropL1 core line).peers = s.peers := rfl
@[simp] theorem State.dropL1_ras (s : State) (core line : Nat) : (s.dropL1 core line).ras = s.ras := rfl
@[simp] theorem State.dropL1_ckpt (s : State) (core line : Nat) : (s.dropL1 core line).ckpt = s.ckpt := rfl
@[simp] theorem State.dropL1_glob (s : State) (core line : Nat) : (s.dropL1 core line).mem.glob = s.mem.glob := rfl
@[simp] theorem State.dropL1_chip (s : State) (core line : Nat) : (s.dropL1 core line).mem.chip = s.mem.chip := rfl
@[simp] theorem State.dropL1_scratch (s : State) (core line : Nat) : (s.dropL1 core line).mem.scratch = s.mem.scratch := rfl
@[simp] theorem State.dropL1_tags (s : State) (core line : Nat) : (s.dropL1 core line).mem.tags = s.mem.tags := rfl

/-! `State.setLine`. -/

@[simp] theorem State.setLine_sched (s : State) (l : LineSt) : (s.setLine l).sched = s.sched := rfl
@[simp] theorem State.setLine_issue (s : State) (l : LineSt) : (s.setLine l).issue = s.issue := rfl
@[simp] theorem State.setLine_cur (s : State) (l : LineSt) : (s.setLine l).cur = s.cur := rfl
@[simp] theorem State.setLine_groups (s : State) (l : LineSt) : (s.setLine l).groups = s.groups := rfl
@[simp] theorem State.setLine_plots (s : State) (l : LineSt) : (s.setLine l).plots = s.plots := rfl
@[simp] theorem State.setLine_launches (s : State) (l : LineSt) : (s.setLine l).launches = s.launches := rfl
@[simp] theorem State.setLine_ctxs (s : State) (l : LineSt) : (s.setLine l).ctxs = s.ctxs := rfl
@[simp] theorem State.setLine_tbase (s : State) (l : LineSt) : (s.setLine l).tbase = s.tbase := rfl
@[simp] theorem State.setLine_clusters (s : State) (l : LineSt) : (s.setLine l).clusters = s.clusters := rfl
@[simp] theorem State.setLine_chans (s : State) (l : LineSt) : (s.setLine l).chans = s.chans := rfl
@[simp] theorem State.setLine_streams (s : State) (l : LineSt) : (s.setLine l).streams = s.streams := rfl
@[simp] theorem State.setLine_regs (s : State) (l : LineSt) : (s.setLine l).regs = s.regs := rfl
@[simp] theorem State.setLine_fe (s : State) (l : LineSt) : (s.setLine l).fe = s.fe := rfl
@[simp] theorem State.setLine_mbox (s : State) (l : LineSt) : (s.setLine l).mbox = s.mbox := rfl
@[simp] theorem State.setLine_boot (s : State) (l : LineSt) : (s.setLine l).boot = s.boot := rfl
@[simp] theorem State.setLine_peers (s : State) (l : LineSt) : (s.setLine l).peers = s.peers := rfl
@[simp] theorem State.setLine_ras (s : State) (l : LineSt) : (s.setLine l).ras = s.ras := rfl
@[simp] theorem State.setLine_ckpt (s : State) (l : LineSt) : (s.setLine l).ckpt = s.ckpt := rfl
@[simp] theorem State.setLine_glob (s : State) (l : LineSt) : (s.setLine l).mem.glob = s.mem.glob := rfl
@[simp] theorem State.setLine_chip (s : State) (l : LineSt) : (s.setLine l).mem.chip = s.mem.chip := rfl
@[simp] theorem State.setLine_scratch (s : State) (l : LineSt) : (s.setLine l).mem.scratch = s.mem.scratch := rfl
@[simp] theorem State.setLine_tags (s : State) (l : LineSt) : (s.setLine l).mem.tags = s.mem.tags := rfl

/-! `State.tlbInsert`. -/

@[simp] theorem State.tlbInsert_sched (s : State) (h : Holder) (x va : Nat) (e : BitVec 128) : (s.tlbInsert h x va e).sched = s.sched := rfl
@[simp] theorem State.tlbInsert_issue (s : State) (h : Holder) (x va : Nat) (e : BitVec 128) : (s.tlbInsert h x va e).issue = s.issue := rfl
@[simp] theorem State.tlbInsert_cur (s : State) (h : Holder) (x va : Nat) (e : BitVec 128) : (s.tlbInsert h x va e).cur = s.cur := rfl
@[simp] theorem State.tlbInsert_groups (s : State) (h : Holder) (x va : Nat) (e : BitVec 128) : (s.tlbInsert h x va e).groups = s.groups := rfl
@[simp] theorem State.tlbInsert_plots (s : State) (h : Holder) (x va : Nat) (e : BitVec 128) : (s.tlbInsert h x va e).plots = s.plots := rfl
@[simp] theorem State.tlbInsert_launches (s : State) (h : Holder) (x va : Nat) (e : BitVec 128) : (s.tlbInsert h x va e).launches = s.launches := rfl
@[simp] theorem State.tlbInsert_ctxs (s : State) (h : Holder) (x va : Nat) (e : BitVec 128) : (s.tlbInsert h x va e).ctxs = s.ctxs := rfl
@[simp] theorem State.tlbInsert_tbase (s : State) (h : Holder) (x va : Nat) (e : BitVec 128) : (s.tlbInsert h x va e).tbase = s.tbase := rfl
@[simp] theorem State.tlbInsert_clusters (s : State) (h : Holder) (x va : Nat) (e : BitVec 128) : (s.tlbInsert h x va e).clusters = s.clusters := rfl
@[simp] theorem State.tlbInsert_chans (s : State) (h : Holder) (x va : Nat) (e : BitVec 128) : (s.tlbInsert h x va e).chans = s.chans := rfl
@[simp] theorem State.tlbInsert_streams (s : State) (h : Holder) (x va : Nat) (e : BitVec 128) : (s.tlbInsert h x va e).streams = s.streams := rfl
@[simp] theorem State.tlbInsert_regs (s : State) (h : Holder) (x va : Nat) (e : BitVec 128) : (s.tlbInsert h x va e).regs = s.regs := rfl
@[simp] theorem State.tlbInsert_fe (s : State) (h : Holder) (x va : Nat) (e : BitVec 128) : (s.tlbInsert h x va e).fe = s.fe := rfl
@[simp] theorem State.tlbInsert_mbox (s : State) (h : Holder) (x va : Nat) (e : BitVec 128) : (s.tlbInsert h x va e).mbox = s.mbox := rfl
@[simp] theorem State.tlbInsert_boot (s : State) (h : Holder) (x va : Nat) (e : BitVec 128) : (s.tlbInsert h x va e).boot = s.boot := rfl
@[simp] theorem State.tlbInsert_peers (s : State) (h : Holder) (x va : Nat) (e : BitVec 128) : (s.tlbInsert h x va e).peers = s.peers := rfl
@[simp] theorem State.tlbInsert_ras (s : State) (h : Holder) (x va : Nat) (e : BitVec 128) : (s.tlbInsert h x va e).ras = s.ras := rfl
@[simp] theorem State.tlbInsert_ckpt (s : State) (h : Holder) (x va : Nat) (e : BitVec 128) : (s.tlbInsert h x va e).ckpt = s.ckpt := rfl
@[simp] theorem State.tlbInsert_glob (s : State) (h : Holder) (x va : Nat) (e : BitVec 128) : (s.tlbInsert h x va e).mem.glob = s.mem.glob := rfl
@[simp] theorem State.tlbInsert_chip (s : State) (h : Holder) (x va : Nat) (e : BitVec 128) : (s.tlbInsert h x va e).mem.chip = s.mem.chip := rfl
@[simp] theorem State.tlbInsert_scratch (s : State) (h : Holder) (x va : Nat) (e : BitVec 128) : (s.tlbInsert h x va e).mem.scratch = s.mem.scratch := rfl
@[simp] theorem State.tlbInsert_tags (s : State) (h : Holder) (x va : Nat) (e : BitVec 128) : (s.tlbInsert h x va e).mem.tags = s.mem.tags := rfl

/-! `State.inject` and `State.sendRemote`. -/

/-- A transmission changes the ports' state and nothing else. -/
theorem State.inject_eq (s : State) (r : Remote) : (s.inject r).1 = { s with peers := (s.inject r).1.peers } := by
  unfold State.inject
  split
  · rfl
  · dsimp only; split <;> rfl
/-- Issuing a remote access changes the ports' state, and takes an identifier. -/
theorem State.sendRemote_eq (s : State) (gid rid part : Nat) (kind : PeerKind) (pa : Nat) :
    s.sendRemote gid rid part kind pa =
      { s with sched := s.fresh.2.sched, peers := (s.sendRemote gid rid part kind pa).peers } := by
  unfold State.sendRemote
  dsimp only
  rw [State.inject_eq]
  rfl
@[simp] theorem State.sendRemote_issue (s : State) (gid rid part : Nat) (kind : PeerKind) (pa : Nat) :
    (s.sendRemote gid rid part kind pa).issue = s.issue := by rw [State.sendRemote_eq]
@[simp] theorem State.sendRemote_cur (s : State) (gid rid part : Nat) (kind : PeerKind) (pa : Nat) :
    (s.sendRemote gid rid part kind pa).cur = s.cur := by rw [State.sendRemote_eq]
@[simp] theorem State.sendRemote_groups (s : State) (gid rid part : Nat) (kind : PeerKind) (pa : Nat) :
    (s.sendRemote gid rid part kind pa).groups = s.groups := by rw [State.sendRemote_eq]
@[simp] theorem State.sendRemote_plots (s : State) (gid rid part : Nat) (kind : PeerKind) (pa : Nat) :
    (s.sendRemote gid rid part kind pa).plots = s.plots := by rw [State.sendRemote_eq]
@[simp] theorem State.sendRemote_launches (s : State) (gid rid part : Nat) (kind : PeerKind) (pa : Nat) :
    (s.sendRemote gid rid part kind pa).launches = s.launches := by rw [State.sendRemote_eq]
@[simp] theorem State.sendRemote_ctxs (s : State) (gid rid part : Nat) (kind : PeerKind) (pa : Nat) :
    (s.sendRemote gid rid part kind pa).ctxs = s.ctxs := by rw [State.sendRemote_eq]
@[simp] theorem State.sendRemote_tbase (s : State) (gid rid part : Nat) (kind : PeerKind) (pa : Nat) :
    (s.sendRemote gid rid part kind pa).tbase = s.tbase := by rw [State.sendRemote_eq]
@[simp] theorem State.sendRemote_mem (s : State) (gid rid part : Nat) (kind : PeerKind) (pa : Nat) :
    (s.sendRemote gid rid part kind pa).mem = s.mem := by rw [State.sendRemote_eq]
@[simp] theorem State.sendRemote_clusters (s : State) (gid rid part : Nat) (kind : PeerKind) (pa : Nat) :
    (s.sendRemote gid rid part kind pa).clusters = s.clusters := by rw [State.sendRemote_eq]
@[simp] theorem State.sendRemote_chans (s : State) (gid rid part : Nat) (kind : PeerKind) (pa : Nat) :
    (s.sendRemote gid rid part kind pa).chans = s.chans := by rw [State.sendRemote_eq]
@[simp] theorem State.sendRemote_streams (s : State) (gid rid part : Nat) (kind : PeerKind) (pa : Nat) :
    (s.sendRemote gid rid part kind pa).streams = s.streams := by rw [State.sendRemote_eq]
@[simp] theorem State.sendRemote_regs (s : State) (gid rid part : Nat) (kind : PeerKind) (pa : Nat) :
    (s.sendRemote gid rid part kind pa).regs = s.regs := by rw [State.sendRemote_eq]
@[simp] theorem State.sendRemote_fe (s : State) (gid rid part : Nat) (kind : PeerKind) (pa : Nat) :
    (s.sendRemote gid rid part kind pa).fe = s.fe := by rw [State.sendRemote_eq]
@[simp] theorem State.sendRemote_mbox (s : State) (gid rid part : Nat) (kind : PeerKind) (pa : Nat) :
    (s.sendRemote gid rid part kind pa).mbox = s.mbox := by rw [State.sendRemote_eq]
@[simp] theorem State.sendRemote_boot (s : State) (gid rid part : Nat) (kind : PeerKind) (pa : Nat) :
    (s.sendRemote gid rid part kind pa).boot = s.boot := by rw [State.sendRemote_eq]
@[simp] theorem State.sendRemote_ras (s : State) (gid rid part : Nat) (kind : PeerKind) (pa : Nat) :
    (s.sendRemote gid rid part kind pa).ras = s.ras := by rw [State.sendRemote_eq]
@[simp] theorem State.sendRemote_ckpt (s : State) (gid rid part : Nat) (kind : PeerKind) (pa : Nat) :
    (s.sendRemote gid rid part kind pa).ckpt = s.ckpt := by rw [State.sendRemote_eq]

/-! `State.powerUp`. -/

@[simp] theorem State.powerUp_sched (s : State) (t : Target) : (s.powerUp t).sched = s.sched := rfl
@[simp] theorem State.powerUp_issue (s : State) (t : Target) : (s.powerUp t).issue = s.issue := rfl
@[simp] theorem State.powerUp_cur (s : State) (t : Target) : (s.powerUp t).cur = s.cur := rfl
@[simp] theorem State.powerUp_groups (s : State) (t : Target) : (s.powerUp t).groups = s.groups := rfl
@[simp] theorem State.powerUp_plots (s : State) (t : Target) : (s.powerUp t).plots = s.plots := rfl
@[simp] theorem State.powerUp_launches (s : State) (t : Target) : (s.powerUp t).launches = s.launches := rfl
@[simp] theorem State.powerUp_ctxs (s : State) (t : Target) : (s.powerUp t).ctxs = s.ctxs := rfl
@[simp] theorem State.powerUp_tbase (s : State) (t : Target) : (s.powerUp t).tbase = s.tbase := rfl
@[simp] theorem State.powerUp_mem (s : State) (t : Target) : (s.powerUp t).mem = s.mem := rfl
@[simp] theorem State.powerUp_clusters (s : State) (t : Target) : (s.powerUp t).clusters = s.clusters := rfl
@[simp] theorem State.powerUp_chans (s : State) (t : Target) : (s.powerUp t).chans = s.chans := rfl
@[simp] theorem State.powerUp_streams (s : State) (t : Target) : (s.powerUp t).streams = s.streams := rfl
@[simp] theorem State.powerUp_regs (s : State) (t : Target) : (s.powerUp t).regs = s.regs := rfl
@[simp] theorem State.powerUp_fe (s : State) (t : Target) : (s.powerUp t).fe = s.fe := rfl
@[simp] theorem State.powerUp_mbox (s : State) (t : Target) : (s.powerUp t).mbox = s.mbox := rfl
@[simp] theorem State.powerUp_peers (s : State) (t : Target) : (s.powerUp t).peers = s.peers := rfl
@[simp] theorem State.powerUp_ras (s : State) (t : Target) : (s.powerUp t).ras = s.ras := rfl
@[simp] theorem State.powerUp_ckpt (s : State) (t : Target) : (s.powerUp t).ckpt = s.ckpt := rfl

/-! `State.putRemote`. -/

@[simp] theorem State.putRemote_sched (s : State) (id : DWord) (r : Remote) : (s.putRemote id r).sched = s.sched := rfl
@[simp] theorem State.putRemote_issue (s : State) (id : DWord) (r : Remote) : (s.putRemote id r).issue = s.issue := rfl
@[simp] theorem State.putRemote_cur (s : State) (id : DWord) (r : Remote) : (s.putRemote id r).cur = s.cur := rfl
@[simp] theorem State.putRemote_groups (s : State) (id : DWord) (r : Remote) : (s.putRemote id r).groups = s.groups := rfl
@[simp] theorem State.putRemote_plots (s : State) (id : DWord) (r : Remote) : (s.putRemote id r).plots = s.plots := rfl
@[simp] theorem State.putRemote_launches (s : State) (id : DWord) (r : Remote) : (s.putRemote id r).launches = s.launches := rfl
@[simp] theorem State.putRemote_ctxs (s : State) (id : DWord) (r : Remote) : (s.putRemote id r).ctxs = s.ctxs := rfl
@[simp] theorem State.putRemote_tbase (s : State) (id : DWord) (r : Remote) : (s.putRemote id r).tbase = s.tbase := rfl
@[simp] theorem State.putRemote_mem (s : State) (id : DWord) (r : Remote) : (s.putRemote id r).mem = s.mem := rfl
@[simp] theorem State.putRemote_clusters (s : State) (id : DWord) (r : Remote) : (s.putRemote id r).clusters = s.clusters := rfl
@[simp] theorem State.putRemote_chans (s : State) (id : DWord) (r : Remote) : (s.putRemote id r).chans = s.chans := rfl
@[simp] theorem State.putRemote_streams (s : State) (id : DWord) (r : Remote) : (s.putRemote id r).streams = s.streams := rfl
@[simp] theorem State.putRemote_regs (s : State) (id : DWord) (r : Remote) : (s.putRemote id r).regs = s.regs := rfl
@[simp] theorem State.putRemote_fe (s : State) (id : DWord) (r : Remote) : (s.putRemote id r).fe = s.fe := rfl
@[simp] theorem State.putRemote_mbox (s : State) (id : DWord) (r : Remote) : (s.putRemote id r).mbox = s.mbox := rfl
@[simp] theorem State.putRemote_boot (s : State) (id : DWord) (r : Remote) : (s.putRemote id r).boot = s.boot := rfl
@[simp] theorem State.putRemote_ras (s : State) (id : DWord) (r : Remote) : (s.putRemote id r).ras = s.ras := rfl
@[simp] theorem State.putRemote_ckpt (s : State) (id : DWord) (r : Remote) : (s.putRemote id r).ckpt = s.ckpt := rfl

/-! `State.setGate`. -/

@[simp] theorem State.setGate_sched (s : State) (port : Nat) (on : Bool) : (s.setGate port on).sched = s.sched := rfl
@[simp] theorem State.setGate_issue (s : State) (port : Nat) (on : Bool) : (s.setGate port on).issue = s.issue := rfl
@[simp] theorem State.setGate_cur (s : State) (port : Nat) (on : Bool) : (s.setGate port on).cur = s.cur := rfl
@[simp] theorem State.setGate_groups (s : State) (port : Nat) (on : Bool) : (s.setGate port on).groups = s.groups := rfl
@[simp] theorem State.setGate_plots (s : State) (port : Nat) (on : Bool) : (s.setGate port on).plots = s.plots := rfl
@[simp] theorem State.setGate_launches (s : State) (port : Nat) (on : Bool) : (s.setGate port on).launches = s.launches := rfl
@[simp] theorem State.setGate_ctxs (s : State) (port : Nat) (on : Bool) : (s.setGate port on).ctxs = s.ctxs := rfl
@[simp] theorem State.setGate_tbase (s : State) (port : Nat) (on : Bool) : (s.setGate port on).tbase = s.tbase := rfl
@[simp] theorem State.setGate_mem (s : State) (port : Nat) (on : Bool) : (s.setGate port on).mem = s.mem := rfl
@[simp] theorem State.setGate_clusters (s : State) (port : Nat) (on : Bool) : (s.setGate port on).clusters = s.clusters := rfl
@[simp] theorem State.setGate_chans (s : State) (port : Nat) (on : Bool) : (s.setGate port on).chans = s.chans := rfl
@[simp] theorem State.setGate_streams (s : State) (port : Nat) (on : Bool) : (s.setGate port on).streams = s.streams := rfl
@[simp] theorem State.setGate_regs (s : State) (port : Nat) (on : Bool) : (s.setGate port on).regs = s.regs := rfl
@[simp] theorem State.setGate_fe (s : State) (port : Nat) (on : Bool) : (s.setGate port on).fe = s.fe := rfl
@[simp] theorem State.setGate_mbox (s : State) (port : Nat) (on : Bool) : (s.setGate port on).mbox = s.mbox := rfl
@[simp] theorem State.setGate_boot (s : State) (port : Nat) (on : Bool) : (s.setGate port on).boot = s.boot := rfl
@[simp] theorem State.setGate_peers (s : State) (port : Nat) (on : Bool) : (s.setGate port on).peers = s.peers := rfl
@[simp] theorem State.setGate_ckpt (s : State) (port : Nat) (on : Bool) : (s.setGate port on).ckpt = s.ckpt := rfl

/-! `State.dropChange`. -/

@[simp] theorem State.dropChange_sched (s : State) (port : Nat) : (s.dropChange port).sched = s.sched := rfl
@[simp] theorem State.dropChange_issue (s : State) (port : Nat) : (s.dropChange port).issue = s.issue := rfl
@[simp] theorem State.dropChange_cur (s : State) (port : Nat) : (s.dropChange port).cur = s.cur := rfl
@[simp] theorem State.dropChange_groups (s : State) (port : Nat) : (s.dropChange port).groups = s.groups := rfl
@[simp] theorem State.dropChange_plots (s : State) (port : Nat) : (s.dropChange port).plots = s.plots := rfl
@[simp] theorem State.dropChange_launches (s : State) (port : Nat) : (s.dropChange port).launches = s.launches := rfl
@[simp] theorem State.dropChange_ctxs (s : State) (port : Nat) : (s.dropChange port).ctxs = s.ctxs := rfl
@[simp] theorem State.dropChange_tbase (s : State) (port : Nat) : (s.dropChange port).tbase = s.tbase := rfl
@[simp] theorem State.dropChange_mem (s : State) (port : Nat) : (s.dropChange port).mem = s.mem := rfl
@[simp] theorem State.dropChange_clusters (s : State) (port : Nat) : (s.dropChange port).clusters = s.clusters := rfl
@[simp] theorem State.dropChange_chans (s : State) (port : Nat) : (s.dropChange port).chans = s.chans := rfl
@[simp] theorem State.dropChange_streams (s : State) (port : Nat) : (s.dropChange port).streams = s.streams := rfl
@[simp] theorem State.dropChange_fe (s : State) (port : Nat) : (s.dropChange port).fe = s.fe := rfl
@[simp] theorem State.dropChange_mbox (s : State) (port : Nat) : (s.dropChange port).mbox = s.mbox := rfl
@[simp] theorem State.dropChange_boot (s : State) (port : Nat) : (s.dropChange port).boot = s.boot := rfl
@[simp] theorem State.dropChange_ras (s : State) (port : Nat) : (s.dropChange port).ras = s.ras := rfl
@[simp] theorem State.dropChange_ckpt (s : State) (port : Nat) : (s.dropChange port).ckpt = s.ckpt := rfl

/-! `State.writeImage`. -/

@[simp] theorem State.writeImage_sched (s : State) : s.writeImage.sched = s.sched := rfl
@[simp] theorem State.writeImage_issue (s : State) : s.writeImage.issue = s.issue := rfl
@[simp] theorem State.writeImage_cur (s : State) : s.writeImage.cur = s.cur := rfl
@[simp] theorem State.writeImage_groups (s : State) : s.writeImage.groups = s.groups := rfl
@[simp] theorem State.writeImage_plots (s : State) : s.writeImage.plots = s.plots := rfl
@[simp] theorem State.writeImage_launches (s : State) : s.writeImage.launches = s.launches := rfl
@[simp] theorem State.writeImage_ctxs (s : State) : s.writeImage.ctxs = s.ctxs := rfl
@[simp] theorem State.writeImage_tbase (s : State) : s.writeImage.tbase = s.tbase := rfl
@[simp] theorem State.writeImage_clusters (s : State) : s.writeImage.clusters = s.clusters := rfl
@[simp] theorem State.writeImage_chans (s : State) : s.writeImage.chans = s.chans := rfl
@[simp] theorem State.writeImage_streams (s : State) : s.writeImage.streams = s.streams := rfl
@[simp] theorem State.writeImage_regs (s : State) : s.writeImage.regs = s.regs := rfl
@[simp] theorem State.writeImage_fe (s : State) : s.writeImage.fe = s.fe := rfl
@[simp] theorem State.writeImage_mbox (s : State) : s.writeImage.mbox = s.mbox := rfl
@[simp] theorem State.writeImage_boot (s : State) : s.writeImage.boot = s.boot := rfl
@[simp] theorem State.writeImage_peers (s : State) : s.writeImage.peers = s.peers := rfl
@[simp] theorem State.writeImage_ras (s : State) : s.writeImage.ras = s.ras := rfl
@[simp] theorem State.writeImage_ckpt (s : State) : s.writeImage.ckpt = s.ckpt := rfl

/-! `State.updGroup`. -/

@[simp] theorem State.updGroup_sched (s : State) (gid : Nat) (f : Group → Group) : (s.updGroup gid f).sched = s.sched := by
  unfold State.updGroup; split <;> rfl
@[simp] theorem State.updGroup_issue (s : State) (gid : Nat) (f : Group → Group) : (s.updGroup gid f).issue = s.issue := by
  unfold State.updGroup; split <;> rfl
@[simp] theorem State.updGroup_plots (s : State) (gid : Nat) (f : Group → Group) : (s.updGroup gid f).plots = s.plots := by
  unfold State.updGroup; split <;> rfl
@[simp] theorem State.updGroup_launches (s : State) (gid : Nat) (f : Group → Group) : (s.updGroup gid f).launches = s.launches := by
  unfold State.updGroup; split <;> rfl
@[simp] theorem State.updGroup_ctxs (s : State) (gid : Nat) (f : Group → Group) : (s.updGroup gid f).ctxs = s.ctxs := by
  unfold State.updGroup; split <;> rfl
@[simp] theorem State.updGroup_tbase (s : State) (gid : Nat) (f : Group → Group) : (s.updGroup gid f).tbase = s.tbase := by
  unfold State.updGroup; split <;> rfl
@[simp] theorem State.updGroup_mem (s : State) (gid : Nat) (f : Group → Group) : (s.updGroup gid f).mem = s.mem := by
  unfold State.updGroup; split <;> rfl
@[simp] theorem State.updGroup_clusters (s : State) (gid : Nat) (f : Group → Group) : (s.updGroup gid f).clusters = s.clusters := by
  unfold State.updGroup; split <;> rfl
@[simp] theorem State.updGroup_chans (s : State) (gid : Nat) (f : Group → Group) : (s.updGroup gid f).chans = s.chans := by
  unfold State.updGroup; split <;> rfl
@[simp] theorem State.updGroup_streams (s : State) (gid : Nat) (f : Group → Group) : (s.updGroup gid f).streams = s.streams := by
  unfold State.updGroup; split <;> rfl
@[simp] theorem State.updGroup_regs (s : State) (gid : Nat) (f : Group → Group) : (s.updGroup gid f).regs = s.regs := by
  unfold State.updGroup; split <;> rfl
@[simp] theorem State.updGroup_fe (s : State) (gid : Nat) (f : Group → Group) : (s.updGroup gid f).fe = s.fe := by
  unfold State.updGroup; split <;> rfl
@[simp] theorem State.updGroup_mbox (s : State) (gid : Nat) (f : Group → Group) : (s.updGroup gid f).mbox = s.mbox := by
  unfold State.updGroup; split <;> rfl
@[simp] theorem State.updGroup_boot (s : State) (gid : Nat) (f : Group → Group) : (s.updGroup gid f).boot = s.boot := by
  unfold State.updGroup; split <;> rfl
@[simp] theorem State.updGroup_peers (s : State) (gid : Nat) (f : Group → Group) : (s.updGroup gid f).peers = s.peers := by
  unfold State.updGroup; split <;> rfl
@[simp] theorem State.updGroup_ras (s : State) (gid : Nat) (f : Group → Group) : (s.updGroup gid f).ras = s.ras := by
  unfold State.updGroup; split <;> rfl
@[simp] theorem State.updGroup_ckpt (s : State) (gid : Nat) (f : Group → Group) : (s.updGroup gid f).ckpt = s.ckpt := by
  unfold State.updGroup; split <;> rfl

/-! `State.updChan`. -/

@[simp] theorem State.updChan_sched (s : State) (h : Nat) (f : HwChan → HwChan) : (s.updChan h f).sched = s.sched := by
  unfold State.updChan; split <;> rfl
@[simp] theorem State.updChan_issue (s : State) (h : Nat) (f : HwChan → HwChan) : (s.updChan h f).issue = s.issue := by
  unfold State.updChan; split <;> rfl
@[simp] theorem State.updChan_cur (s : State) (h : Nat) (f : HwChan → HwChan) : (s.updChan h f).cur = s.cur := by
  unfold State.updChan; split <;> rfl
@[simp] theorem State.updChan_groups (s : State) (h : Nat) (f : HwChan → HwChan) : (s.updChan h f).groups = s.groups := by
  unfold State.updChan; split <;> rfl
@[simp] theorem State.updChan_plots (s : State) (h : Nat) (f : HwChan → HwChan) : (s.updChan h f).plots = s.plots := by
  unfold State.updChan; split <;> rfl
@[simp] theorem State.updChan_launches (s : State) (h : Nat) (f : HwChan → HwChan) : (s.updChan h f).launches = s.launches := by
  unfold State.updChan; split <;> rfl
@[simp] theorem State.updChan_ctxs (s : State) (h : Nat) (f : HwChan → HwChan) : (s.updChan h f).ctxs = s.ctxs := by
  unfold State.updChan; split <;> rfl
@[simp] theorem State.updChan_tbase (s : State) (h : Nat) (f : HwChan → HwChan) : (s.updChan h f).tbase = s.tbase := by
  unfold State.updChan; split <;> rfl
@[simp] theorem State.updChan_mem (s : State) (h : Nat) (f : HwChan → HwChan) : (s.updChan h f).mem = s.mem := by
  unfold State.updChan; split <;> rfl
@[simp] theorem State.updChan_clusters (s : State) (h : Nat) (f : HwChan → HwChan) : (s.updChan h f).clusters = s.clusters := by
  unfold State.updChan; split <;> rfl
@[simp] theorem State.updChan_streams (s : State) (h : Nat) (f : HwChan → HwChan) : (s.updChan h f).streams = s.streams := by
  unfold State.updChan; split <;> rfl
@[simp] theorem State.updChan_regs (s : State) (h : Nat) (f : HwChan → HwChan) : (s.updChan h f).regs = s.regs := by
  unfold State.updChan; split <;> rfl
@[simp] theorem State.updChan_fe (s : State) (h : Nat) (f : HwChan → HwChan) : (s.updChan h f).fe = s.fe := by
  unfold State.updChan; split <;> rfl
@[simp] theorem State.updChan_mbox (s : State) (h : Nat) (f : HwChan → HwChan) : (s.updChan h f).mbox = s.mbox := by
  unfold State.updChan; split <;> rfl
@[simp] theorem State.updChan_boot (s : State) (h : Nat) (f : HwChan → HwChan) : (s.updChan h f).boot = s.boot := by
  unfold State.updChan; split <;> rfl
@[simp] theorem State.updChan_peers (s : State) (h : Nat) (f : HwChan → HwChan) : (s.updChan h f).peers = s.peers := by
  unfold State.updChan; split <;> rfl
@[simp] theorem State.updChan_ras (s : State) (h : Nat) (f : HwChan → HwChan) : (s.updChan h f).ras = s.ras := by
  unfold State.updChan; split <;> rfl
@[simp] theorem State.updChan_ckpt (s : State) (h : Nat) (f : HwChan → HwChan) : (s.updChan h f).ckpt = s.ckpt := by
  unfold State.updChan; split <;> rfl

/-! `State.updCluster`. -/

@[simp] theorem State.updCluster_sched (s : State) (n : Nat) (f : Cluster → Cluster) : (s.updCluster n f).sched = s.sched := by
  unfold State.updCluster; split <;> rfl
@[simp] theorem State.updCluster_issue (s : State) (n : Nat) (f : Cluster → Cluster) : (s.updCluster n f).issue = s.issue := by
  unfold State.updCluster; split <;> rfl
@[simp] theorem State.updCluster_cur (s : State) (n : Nat) (f : Cluster → Cluster) : (s.updCluster n f).cur = s.cur := by
  unfold State.updCluster; split <;> rfl
@[simp] theorem State.updCluster_groups (s : State) (n : Nat) (f : Cluster → Cluster) : (s.updCluster n f).groups = s.groups := by
  unfold State.updCluster; split <;> rfl
@[simp] theorem State.updCluster_plots (s : State) (n : Nat) (f : Cluster → Cluster) : (s.updCluster n f).plots = s.plots := by
  unfold State.updCluster; split <;> rfl
@[simp] theorem State.updCluster_launches (s : State) (n : Nat) (f : Cluster → Cluster) : (s.updCluster n f).launches = s.launches := by
  unfold State.updCluster; split <;> rfl
@[simp] theorem State.updCluster_ctxs (s : State) (n : Nat) (f : Cluster → Cluster) : (s.updCluster n f).ctxs = s.ctxs := by
  unfold State.updCluster; split <;> rfl
@[simp] theorem State.updCluster_tbase (s : State) (n : Nat) (f : Cluster → Cluster) : (s.updCluster n f).tbase = s.tbase := by
  unfold State.updCluster; split <;> rfl
@[simp] theorem State.updCluster_mem (s : State) (n : Nat) (f : Cluster → Cluster) : (s.updCluster n f).mem = s.mem := by
  unfold State.updCluster; split <;> rfl
@[simp] theorem State.updCluster_chans (s : State) (n : Nat) (f : Cluster → Cluster) : (s.updCluster n f).chans = s.chans := by
  unfold State.updCluster; split <;> rfl
@[simp] theorem State.updCluster_streams (s : State) (n : Nat) (f : Cluster → Cluster) : (s.updCluster n f).streams = s.streams := by
  unfold State.updCluster; split <;> rfl
@[simp] theorem State.updCluster_regs (s : State) (n : Nat) (f : Cluster → Cluster) : (s.updCluster n f).regs = s.regs := by
  unfold State.updCluster; split <;> rfl
@[simp] theorem State.updCluster_fe (s : State) (n : Nat) (f : Cluster → Cluster) : (s.updCluster n f).fe = s.fe := by
  unfold State.updCluster; split <;> rfl
@[simp] theorem State.updCluster_mbox (s : State) (n : Nat) (f : Cluster → Cluster) : (s.updCluster n f).mbox = s.mbox := by
  unfold State.updCluster; split <;> rfl
@[simp] theorem State.updCluster_boot (s : State) (n : Nat) (f : Cluster → Cluster) : (s.updCluster n f).boot = s.boot := by
  unfold State.updCluster; split <;> rfl
@[simp] theorem State.updCluster_peers (s : State) (n : Nat) (f : Cluster → Cluster) : (s.updCluster n f).peers = s.peers := by
  unfold State.updCluster; split <;> rfl
@[simp] theorem State.updCluster_ras (s : State) (n : Nat) (f : Cluster → Cluster) : (s.updCluster n f).ras = s.ras := by
  unfold State.updCluster; split <;> rfl
@[simp] theorem State.updCluster_ckpt (s : State) (n : Nat) (f : Cluster → Cluster) : (s.updCluster n f).ckpt = s.ckpt := by
  unfold State.updCluster; split <;> rfl

/-! `State.markDirty`. -/

@[simp] theorem State.markDirty_sched (s : State) (pa : Nat) : (s.markDirty pa).sched = s.sched := by
  unfold State.markDirty; split <;> rfl
@[simp] theorem State.markDirty_issue (s : State) (pa : Nat) : (s.markDirty pa).issue = s.issue := by
  unfold State.markDirty; split <;> rfl
@[simp] theorem State.markDirty_cur (s : State) (pa : Nat) : (s.markDirty pa).cur = s.cur := by
  unfold State.markDirty; split <;> rfl
@[simp] theorem State.markDirty_groups (s : State) (pa : Nat) : (s.markDirty pa).groups = s.groups := by
  unfold State.markDirty; split <;> rfl
@[simp] theorem State.markDirty_plots (s : State) (pa : Nat) : (s.markDirty pa).plots = s.plots := by
  unfold State.markDirty; split <;> rfl
@[simp] theorem State.markDirty_launches (s : State) (pa : Nat) : (s.markDirty pa).launches = s.launches := by
  unfold State.markDirty; split <;> rfl
@[simp] theorem State.markDirty_ctxs (s : State) (pa : Nat) : (s.markDirty pa).ctxs = s.ctxs := by
  unfold State.markDirty; split <;> rfl
@[simp] theorem State.markDirty_tbase (s : State) (pa : Nat) : (s.markDirty pa).tbase = s.tbase := by
  unfold State.markDirty; split <;> rfl
@[simp] theorem State.markDirty_mem (s : State) (pa : Nat) : (s.markDirty pa).mem = s.mem := by
  unfold State.markDirty; split <;> rfl
@[simp] theorem State.markDirty_clusters (s : State) (pa : Nat) : (s.markDirty pa).clusters = s.clusters := by
  unfold State.markDirty; split <;> rfl
@[simp] theorem State.markDirty_chans (s : State) (pa : Nat) : (s.markDirty pa).chans = s.chans := by
  unfold State.markDirty; split <;> rfl
@[simp] theorem State.markDirty_streams (s : State) (pa : Nat) : (s.markDirty pa).streams = s.streams := by
  unfold State.markDirty; split <;> rfl
@[simp] theorem State.markDirty_regs (s : State) (pa : Nat) : (s.markDirty pa).regs = s.regs := by
  unfold State.markDirty; split <;> rfl
@[simp] theorem State.markDirty_fe (s : State) (pa : Nat) : (s.markDirty pa).fe = s.fe := by
  unfold State.markDirty; split <;> rfl
@[simp] theorem State.markDirty_mbox (s : State) (pa : Nat) : (s.markDirty pa).mbox = s.mbox := by
  unfold State.markDirty; split <;> rfl
@[simp] theorem State.markDirty_boot (s : State) (pa : Nat) : (s.markDirty pa).boot = s.boot := by
  unfold State.markDirty; split <;> rfl
@[simp] theorem State.markDirty_peers (s : State) (pa : Nat) : (s.markDirty pa).peers = s.peers := by
  unfold State.markDirty; split <;> rfl
@[simp] theorem State.markDirty_ras (s : State) (pa : Nat) : (s.markDirty pa).ras = s.ras := by
  unfold State.markDirty; split <;> rfl

/-! `State.watchRow`. -/

@[simp] theorem State.watchRow_sched (s : State) (pa : Nat) : (s.watchRow pa).sched = s.sched := by
  unfold State.watchRow; split <;> rfl
@[simp] theorem State.watchRow_issue (s : State) (pa : Nat) : (s.watchRow pa).issue = s.issue := by
  unfold State.watchRow; split <;> rfl
@[simp] theorem State.watchRow_cur (s : State) (pa : Nat) : (s.watchRow pa).cur = s.cur := by
  unfold State.watchRow; split <;> rfl
@[simp] theorem State.watchRow_groups (s : State) (pa : Nat) : (s.watchRow pa).groups = s.groups := by
  unfold State.watchRow; split <;> rfl
@[simp] theorem State.watchRow_plots (s : State) (pa : Nat) : (s.watchRow pa).plots = s.plots := by
  unfold State.watchRow; split <;> rfl
@[simp] theorem State.watchRow_launches (s : State) (pa : Nat) : (s.watchRow pa).launches = s.launches := by
  unfold State.watchRow; split <;> rfl
@[simp] theorem State.watchRow_ctxs (s : State) (pa : Nat) : (s.watchRow pa).ctxs = s.ctxs := by
  unfold State.watchRow; split <;> rfl
@[simp] theorem State.watchRow_tbase (s : State) (pa : Nat) : (s.watchRow pa).tbase = s.tbase := by
  unfold State.watchRow; split <;> rfl
@[simp] theorem State.watchRow_mem (s : State) (pa : Nat) : (s.watchRow pa).mem = s.mem := by
  unfold State.watchRow; split <;> rfl
@[simp] theorem State.watchRow_clusters (s : State) (pa : Nat) : (s.watchRow pa).clusters = s.clusters := by
  unfold State.watchRow; split <;> rfl
@[simp] theorem State.watchRow_chans (s : State) (pa : Nat) : (s.watchRow pa).chans = s.chans := by
  unfold State.watchRow; split <;> rfl
@[simp] theorem State.watchRow_streams (s : State) (pa : Nat) : (s.watchRow pa).streams = s.streams := by
  unfold State.watchRow; split <;> rfl
@[simp] theorem State.watchRow_regs (s : State) (pa : Nat) : (s.watchRow pa).regs = s.regs := by
  unfold State.watchRow; split <;> rfl
@[simp] theorem State.watchRow_fe (s : State) (pa : Nat) : (s.watchRow pa).fe = s.fe := by
  unfold State.watchRow; split <;> rfl
@[simp] theorem State.watchRow_mbox (s : State) (pa : Nat) : (s.watchRow pa).mbox = s.mbox := by
  unfold State.watchRow; split <;> rfl
@[simp] theorem State.watchRow_boot (s : State) (pa : Nat) : (s.watchRow pa).boot = s.boot := by
  unfold State.watchRow; split <;> rfl
@[simp] theorem State.watchRow_peers (s : State) (pa : Nat) : (s.watchRow pa).peers = s.peers := by
  unfold State.watchRow; split <;> rfl
@[simp] theorem State.watchRow_ckpt (s : State) (pa : Nat) : (s.watchRow pa).ckpt = s.ckpt := by
  unfold State.watchRow; split <;> rfl

/-! Registers. -/

theorem alGet_alSet {κ β : Type} [BEq κ] [LawfulBEq κ] (l : List (κ × β)) (k : κ) (x : β) : alGet (alSet l k x) k = some x := by
  unfold alSet
  split
  · rename_i h
    induction l with
    | nil => simp at h
    | cons e es ih =>
      by_cases he : e.1 == k
      · simp [alGet, List.find?, he]
      · have h' : es.any (fun e => e.1 == k) = true := by simpa [he] using h
        have := ih h'
        simpa [alGet, he] using this
  · rename_i h
    have hn : l.find? (fun e => e.1 == k) = none := by
      rw [List.find?_eq_none]; intro e he hk
      exact h (List.any_eq_true.mpr ⟨e, he, hk⟩)
    simp [alGet, List.find?_append, hn]
theorem alGet_alSet_ne {κ β : Type} [BEq κ] [LawfulBEq κ] (l : List (κ × β)) (k : κ) (x : β) (j : κ) (h : j ≠ k) :
    alGet (alSet l k x) j = alGet l j := by
  have hk : (k == j) = false := by simpa using fun e => h e.symm
  unfold alSet
  split
  · clear * - h hk
    induction l with
    | nil => rfl
    | cons e es ih =>
      by_cases he : e.1 == k
      · have hj : (e.1 == j) = false := by simpa [eq_of_beq he] using fun e => h e.symm
        have : alGet (List.map (fun e => if (e.1 == k) = true then (k, x) else e) es) j = alGet es j := ih
        simpa [alGet, List.find?, he, hk, hj] using this
      · by_cases hj : e.1 == j
        · simp [alGet, List.find?, he, hj]
        · have : alGet (List.map (fun e => if (e.1 == k) = true then (k, x) else e) es) j = alGet es j := ih
          simpa [alGet, List.find?, he, hj] using this
  · simp [alGet, List.find?_append, List.find?, hk]

/-- A register reads what was set. -/
@[simp] theorem State.setReg_reg (s : State) (off : Nat) (v : DWord) : (s.setReg off v).reg off = v := by
  simp [State.reg, alGet_alSet]
/-- Setting a register leaves the others. -/
theorem State.setReg_reg_ne (s : State) (off : Nat) (v : DWord) (o : Nat) (h : o ≠ off) : (s.setReg off v).reg o = s.reg o := by
  simp [State.reg, alGet_alSet_ne _ _ _ _ h]
@[simp] theorem State.setReg_regN (s : State) (off : Nat) (v : DWord) : (s.setReg off v).regN off = v.toNat := by
  simp [State.regN]
theorem State.setField_reg_ne (s : State) (off hi lo v : Nat) (o : Nat) (h : o ≠ off) : (s.setField off hi lo v).reg o = s.reg o :=
  State.setReg_reg_ne s off _ o h

/-! Keyed updates. -/

/-- An updated channel. -/
theorem State.updChan_chan (s : State) (h : Nat) (f : HwChan → HwChan) (hf : ∀ c, c.h = h → (f c).h = h) : (s.updChan h f).chan h = f (s.chan h) := by
  unfold State.updChan
  split
  · rename_i ha
    have : ∀ l : List HwChan, l.any (fun c => c.h == h) = true →
        ∃ c, l.find? (fun c => c.h == h) = some c ∧ (l.map (fun c => if c.h == h then f c else c)).find? (fun c => c.h == h) = some (f c) := by
      intro l
      induction l with
      | nil => intro hl; simp at hl
      | cons c cs ih =>
        intro hl
        by_cases hc : c.h = h
        · exact ⟨c, by simp [hc], by simp [hc, hf c hc]⟩
        · obtain ⟨d, h1, h2⟩ := ih (by simpa [hc] using hl)
          exact ⟨d, by simpa [hc] using h1, by simpa [hc] using h2⟩
    obtain ⟨c, h1, h2⟩ := this s.chans ha
    simp only [State.chan]
    rw [h1, h2]
    rfl
  · rename_i ha
    have hn : s.chans.find? (fun c => c.h == h) = none := by
      rw [List.find?_eq_none]; intro c hc hk
      exact ha (List.any_eq_true.mpr ⟨c, hc, hk⟩)
    have hi : (f { HwChan.idle h with stamp := s.tbase }).h = h := hf _ rfl
    simp [State.chan, hn, hi]

end Sys2Proof.Machine
end

