-- ==== Sys2Proof/Laws/Homes.lean ====
section
/-! SUPPORT. What reads and writes at the homes change: reads only the keeping of lines, stamps, counters and the watch set; a write
those, its bytes, and the threads that its line's monitors wake, one of which may trap. -/

namespace Sys2Proof.Machine
open Sys2Proof

/-- Nothing has changed but groups, the keeping and stamps of lines, sector classes, monitors, wake-ups of units, what reliability counts,
and what a trap posts. -/
def HomeOnly (s t : State) : Prop :=
  t = { s with cur := t.cur, groups := t.groups, boot := t.boot, ras := t.ras, mbox := t.mbox, regs := t.regs,
               mem := { s.mem with lines := t.mem.lines, monitors := t.mem.monitors, mst := t.mem.mst, ecc := t.mem.ecc, poison := t.mem.poison } }

theorem HomeOnly.refl (s : State) : HomeOnly s s := rfl
theorem HomeOnly.trans {a b c : State} (h : HomeOnly a b) (k : HomeOnly b c) : HomeOnly a c := by
  unfold HomeOnly at *
  rw [k]
  rw [h]
theorem HomeOnly.of_ras {s : State} (r : Ras) : HomeOnly s { s with ras := r } := rfl
theorem HomeOnly.foldl {α : Type} (f : State → α → State) (hf : ∀ s x, HomeOnly s (f s x)) (l : List α) (s : State) :
    HomeOnly s (l.foldl f s) := by
  induction l generalizing s with
  | nil => exact .refl s
  | cons x xs ih => exact (hf s x).trans (ih _)
theorem HomeOnly.sameMemory {s t : State} (h : HomeOnly s t) : s.sameMemory t := by
  unfold HomeOnly at h
  rw [h]
  exact ⟨rfl, rfl, rfl, rfl⟩
theorem HomeOnly.chans {s t : State} (h : HomeOnly s t) : t.chans = s.chans := by unfold HomeOnly at h; rw [h]
theorem HomeOnly.launches {s t : State} (h : HomeOnly s t) : t.launches = s.launches := by unfold HomeOnly at h; rw [h]
theorem HomeOnly.tbase {s t : State} (h : HomeOnly s t) : t.tbase = s.tbase := by unfold HomeOnly at h; rw [h]

theorem HomeOnly.count (s : State) (off n : Nat) : HomeOnly s (s.count off n) := rfl
theorem HomeOnly.setLine (s : State) (l : LineSt) : HomeOnly s (s.setLine l) := rfl
theorem HomeOnly.awake (s : State) : HomeOnly s s.awake := rfl
theorem HomeOnly.updGroup (s : State) (gid : Nat) (f : Group → Group) : HomeOnly s (s.updGroup gid f) := by
  unfold State.updGroup; split <;> rfl
theorem HomeOnly.watchRow (s : State) (pa : Nat) : HomeOnly s (s.watchRow pa) := by
  unfold State.watchRow; split <;> rfl
theorem HomeOnly.countSector (s : State) (sec : Nat) : HomeOnly s (s.countSector sec) := by
  unfold State.countSector
  dsimp only
  generalize (alGet s.mem.ecc sec).getD 0 = c
  have h : HomeOnly s (if (c == 1) = true then s.correct sec else s) := by split <;> rfl
  refine h.trans ?_
  generalize (if (c == 1) = true then s.correct sec else s) = u
  generalize paKind sec = k
  split
  · exact (HomeOnly.count u _ 1).trans ((show HomeOnly _ (State.countCe _ _) from rfl).trans (.watchRow _ _))
  all_goals first
    | exact (HomeOnly.count u _ 1).trans (.watchRow _ _)
    | exact HomeOnly.count u _ 1
    | exact .refl u
theorem HomeOnly.countRead (s : State) (t : Target) (n : Nat) : HomeOnly s (s.countRead t n) := by
  unfold State.countRead
  split
  · exact .refl s
  · exact HomeOnly.foldl (fun (s : State) i => s.countSector ((t.addr / 32 + i) * 32)) (fun s i => .countSector s _) _ s
theorem HomeOnly.powerUp (s : State) (t : Target) : HomeOnly s (s.powerUp t) := rfl
theorem HomeOnly.homeRead (s : State) (t : Target) (n : Nat) (pts : Word) : HomeOnly s (s.homeRead t n pts).1 :=
  (HomeOnly.powerUp s t).trans ((HomeOnly.countRead (s.powerUp t) t n).trans (.setLine _ _))
theorem HomeOnly.arm (s : State) (t : Target) (ctx : Nat) (w : Waiter) : HomeOnly s (s.arm t ctx w) := by
  unfold State.arm
  dsimp only
  split <;> rfl
theorem HomeOnly.activate (s : State) (pa : Nat) : HomeOnly s (s.activate pa) := by
  unfold State.activate; split <;> rfl
theorem HomeOnly.dropLine (s : State) (n : Nat) : HomeOnly s (s.dropLine n) := by
  unfold State.dropLine
  dsimp only
  split
  · exact (HomeOnly.activate s _).trans rfl
  · rfl
theorem HomeOnly.allocLine (s : State) (t : Target) (ctx n : Nat) (fill : BitVec 4) (hint : Nat := 0) :
    HomeOnly s (s.allocLine t ctx n fill hint) := by
  unfold State.allocLine
  split
  · exact .refl s
  · dsimp only
    generalize (if s.hasLine t.key then s.line t.key else (s.line t.key).retag t.leaf ctx) = l
    have h : HomeOnly s (if (fill &&& sectors t.off n &&& ~~~l.present != 0) = true then s.activate t.addr else s) := by
      split
      · exact .activate s _
      · exact .refl s
    generalize (if (fill &&& sectors t.off n &&& ~~~l.present != 0) = true then s.activate t.addr else s) = u at h ⊢
    split <;> first | exact h | exact h.trans (.setLine _ _) | (split <;> first | exact h | exact h.trans (.setLine _ _))
theorem HomeOnly.unalloc (s : State) (was : Bool) (t : Target) (hint : Nat) : HomeOnly s (s.unalloc was t hint) := by
  unfold State.unalloc; split
  · exact .dropLine _ _
  · exact .refl s
theorem HomeOnly.readThird (s : State) (t : Target) (n : Nat) (pts : Word) (ctx hint : Nat) : HomeOnly s (s.readThird t n pts ctx hint).1 :=
  (HomeOnly.allocLine s t ctx n 15 hint).trans ((HomeOnly.homeRead _ t n pts).trans (.unalloc _ _ _ _))
theorem HomeOnly.pump (n : Nat) (s : State) : HomeOnly s (postWaiting n s) := by
  induction n generalizing s with
  | zero => exact .refl s
  | succ n ih =>
    unfold postWaiting
    split
    · exact .refl s
    · dsimp only
      split
      · exact HomeOnly.trans (b := ({ s with mbox := { s.mbox with waiting := _, ring := _, seq := _ } } : State).setReg
          0x318 (BitVec.ofNat 64 ((s.regN 0x318 + 1) % 2 ^ 32))) rfl (ih _)
      · exact .refl s
theorem HomeOnly.post (s : State) (typ : Nat) (body : BitVec 480) : HomeOnly s (s.post typ body) :=
  HomeOnly.trans (b := { s with mbox := _ }) rfl (.pump _ _)
theorem HomeOnly.listPoison (s : State) (t : Trap) : HomeOnly s (s.listPoison t) := by
  unfold State.listPoison
  split
  · exact .refl s
  · split
    · exact .refl s
    · split <;> rfl
theorem HomeOnly.routeTrap (s : State) (gid : Nat) (t : Trap) (pos : Pos) (kind : TrapKind) (double atEnd : Bool) (slot : Nat) (set : Word) :
    HomeOnly s (s.routeTrap gid t pos kind double atEnd slot set) := by
  unfold State.routeTrap
  split
  · exact .refl s
  · dsimp only
    split
    · exact .updGroup _ _ _
    · refine (HomeOnly.updGroup s gid (fun g => { g with esc := some ⟨t, pos, kind, double, atEnd, slot, set⟩ })).trans ?_
      generalize s.updGroup gid _ = u
      refine HomeOnly.trans (b := { u with mbox := { u.mbox with pending := u.mbox.pending ++ [.esc gid] } }) rfl ?_
      split
      · exact .refl _
      · exact .post _ _ _
theorem HomeOnly.takeTrap (s : State) (gid : Nat) (t : Trap) (pos : Pos) (slot : Nat) (set : Word) : HomeOnly s (s.takeTrap gid t pos slot set) := by
  unfold State.takeTrap
  split
  · exact .refl s
  · dsimp only
    refine (HomeOnly.listPoison s t).trans ?_
    split <;> exact (HomeOnly.updGroup _ _ _).trans (.routeTrap _ _ _ _ _ _ _ _ _)
theorem HomeOnly.countTag (s : State) (t : Target) : HomeOnly s (s.countTag t) := by
  unfold State.countTag; split <;> rfl
theorem HomeOnly.waitClash (s : State) (gid lane : Nat) (w : AddrWait) (v : Nat) (ts : Word) : HomeOnly s (s.waitClash gid lane w v ts) := by
  unfold State.waitClash
  dsimp only
  split
  · split
    · exact .refl s
    · exact (HomeOnly.updGroup _ _ _).trans (.takeTrap _ _ _ _ _ _)
  · exact .updGroup _ _ _
theorem HomeOnly.waitReload (s : State) (gid lane : Nat) : HomeOnly s (s.waitReload gid lane) := by
  unfold State.waitReload
  split
  · exact .refl s
  · rename_i g _
    split
    · rename_i w _
      dsimp only
      generalize (if w.two = true then 8 else 4) = n
      have h := HomeOnly.readThird s w.tgt n (g.thread lane).pts g.ctx 0
      generalize s.readThird w.tgt n (g.thread lane).pts g.ctx 0 = r at h ⊢
      generalize s.tagMismatch w.tgt n = c
      split
      · exact (h.trans (.countTag _ _)).trans (.waitClash _ _ _ _ _ _)
      · split
        · split
          · exact h.trans (.updGroup _ _ _)
          · exact h.trans ((HomeOnly.arm _ _ _ _).trans (.updGroup _ _ _))
        · exact h.trans (.updGroup _ _ _)
    · exact .refl s
theorem HomeOnly.wake (s : State) (t : Target) (n : Nat) : HomeOnly s (s.wake t n) := by
  unfold State.wake
  split
  · dsimp only
    generalize hh : s.mem.monitors.filter _ = hits
    have h1 : HomeOnly s (if hits.isEmpty = true then s else s.awake) := by
      split
      · exact .refl s
      · exact .awake s
    refine h1.trans ?_
    refine HomeOnly.trans (b := { (if hits.isEmpty = true then s else s.awake) with mem := { (if hits.isEmpty = true then s else s.awake).mem with monitors := _ } }) rfl ?_
    apply HomeOnly.foldl
    intro s m
    split
    · exact .updGroup _ _ _
    · exact .refl s
  · exact .refl s

theorem State.peek_of {s t : State} (h : s.sameMemory t) (hc : t.chans = s.chans) (hb : t.tbase = s.tbase) (x : Target) (n : Nat) :
    t.peek x n = s.peek x n := by
  obtain ⟨h1, h2, h3, _⟩ := h
  unfold State.peek State.chan
  rw [h1, h2, h3, hc, hb]
/-- A read at a home gives the bytes that stand there. -/
theorem State.homeRead_bytes (s : State) (t : Target) (n : Nat) (pts : Word) : (s.homeRead t n pts).2.1 = s.peek t n := by
  have h : HomeOnly s ((s.powerUp t).countRead t n) := (HomeOnly.powerUp s t).trans (.countRead _ t n)
  exact State.peek_of h.sameMemory h.chans h.tbase t n

/-! Writes. -/

theorem State.logLine_mem (s : State) (a : Nat) : (s.logLine a).mem = s.mem := by
  unfold State.logLine
  dsimp only
  split
  · rfl
  · split
    · rfl
    · split <;> rfl
/-- Putting bytes at a home keeps the canonical form. -/
theorem State.poke_memoryWf {s : State} (h : s.memoryWf) (t : Target) (bs : List Byte) : (s.poke t bs).memoryWf := by
  obtain ⟨h1, h2, h3, h4⟩ := h
  unfold State.poke State.memoryWf
  split
  · rw [State.markDirty_mem]; exact ⟨Memory.writeN_wf bs h1 _, h2, h3, h4⟩
  · exact ⟨h1, Memory.writeN_wf bs h2 _, h3, h4⟩
  · exact ⟨h1, h2, h3, h4⟩
  · have e := State.logLine_mem s t.addr
    simp only [State.reencode, e]
    exact ⟨h1, h2, Memory.writeN_wf bs h3 _, h4⟩
theorem State.memoryWf_of_same {s t : State} (h : s.sameMemory t) (w : s.memoryWf) : t.memoryWf := by
  obtain ⟨h1, h2, h3, h4⟩ := h
  unfold State.memoryWf
  rw [h1, h2, h3, h4]
  exact w
/-- A write at a home: the stamps of its line, its bytes, and the waiters. -/
theorem State.homeWrite_eq (s : State) (t : Target) (bs : List Byte) (pts : Word) (ctx n count : Nat) :
    ∃ l, (s.homeWrite t bs pts ctx n count).1 =
      (if bs.isEmpty then (s.powerUp t).setLine l else ((s.powerUp t).setLine l).poke t bs).wake t n := ⟨_, rfl⟩
/-- A write at a home keeps the canonical form. -/
theorem State.homeWrite_memoryWf {s : State} (h : s.memoryWf) (t : Target) (bs : List Byte) (pts : Word) (ctx n count : Nat) :
    (s.homeWrite t bs pts ctx n count).1.memoryWf := by
  obtain ⟨l, e⟩ := State.homeWrite_eq s t bs pts ctx n count
  rw [e]
  refine State.memoryWf_of_same (HomeOnly.wake _ t n).sameMemory ?_
  have hs : ((s.powerUp t).setLine l).memoryWf := State.memoryWf_of_same ((HomeOnly.powerUp s t).trans (.setLine _ l)).sameMemory h
  split
  · exact hs
  · exact State.poke_memoryWf hs t bs
/-- A write of bytes at a global home changes those bytes and no others. -/
theorem State.homeWrite_glob (s : State) (t : Target) (bs : List Byte) (pts : Word) (ctx n count : Nat) (ht : t.space = .glob) :
    let u := (s.homeWrite t bs pts ctx n count).1
    u.mem.glob = s.mem.glob.writeN t.addr bs ∧ u.mem.chip = s.mem.chip ∧ u.mem.scratch = s.mem.scratch ∧ u.mem.tags = s.mem.tags := by
  obtain ⟨l, e⟩ := State.homeWrite_eq s t bs pts ctx n count
  rw [e]
  obtain ⟨w1, w2, w3, w4⟩ := (HomeOnly.wake (if bs.isEmpty then (s.powerUp t).setLine l else ((s.powerUp t).setLine l).poke t bs) t n).sameMemory
  intro u
  show _ = _ ∧ _ = _ ∧ _ = _ ∧ _ = _
  rw [show u.mem.glob = _ from w1, show u.mem.chip = _ from w2, show u.mem.scratch = _ from w3, show u.mem.tags = _ from w4]
  split
  · rename_i he
    cases bs with
    | nil => exact ⟨rfl, rfl, rfl, rfl⟩
    | cons b bs => simp at he
  · unfold State.poke
    rw [ht]
    simp only [State.markDirty_mem]
    exact ⟨rfl, rfl, rfl, rfl⟩

end Sys2Proof.Machine
end

