-- ==== Sys2Proof/Laws/Lanes.lean ====
section
/-! SUPPORT. What the writes of lanes do: one lemma for each of the shared write operations, and for a list of lanes. -/

namespace Sys2Proof.Machine
open Sys2Proof

/-! Threads of a group. -/

theorem Group.thread_setThread (g : Group) (l k : Nat) (t : Thread) :
    (g.setThread l t).thread k = if k = l ∧ l < g.arch.threads.length then t else g.thread k := by
  simp only [Group.thread, Group.setThread, List.getD_eq_getElem?_getD, List.getElem?_set]
  by_cases h : l = k
  · subst h
    by_cases hl : l < g.arch.threads.length <;> simp [hl]
  · simp [h, Ne.symm h]

theorem Group.thread_mapThreads (g : Group) (f : Nat → Thread → Thread) (k : Nat) :
    (g.mapThreads f).thread k = if k < g.arch.threads.length then f k (g.thread k) else g.thread k := by
  simp only [Group.thread, Group.mapThreads, List.getD_eq_getElem?_getD, List.getElem?_mapIdx]
  by_cases hk : k < g.arch.threads.length <;> simp [hk]

@[simp] theorem Group.mapThreads_length (g : Group) (f : Nat → Thread → Thread) :
    (g.mapThreads f).arch.threads.length = g.arch.threads.length := by simp [Group.mapThreads]

theorem Thread.getV_setV (t : Thread) (n k : Nat) (x : Word) :
    (t.setV n x).getV k = if k = n ∧ n < t.v.length then ⟨x, true, 0, none⟩ else t.getV k := by
  simp only [Thread.getV, Thread.setV, List.getD_eq_getElem?_getD, List.getElem?_set]
  by_cases h : n = k
  · subst h
    by_cases hl : n < t.v.length <;> simp [hl]
  · simp [h, Ne.symm h]

@[simp] theorem Thread.setV_length (t : Thread) (n : Nat) (x : Word) : (t.setV n x).v.length = t.v.length := by simp [Thread.setV]

theorem Thread.getP_setP (t : Thread) (n k : Nat) (b : Bool) (hk : k < 7) :
    (t.setP n b).getP k = if k = n then b else t.getP k := by
  have h2 : (BitVec.ofNat 7 (2 ^ n)).getLsbD k = decide (k = n) := by
    rw [BitVec.getLsbD_ofNat, Nat.testBit_two_pow]
    simp only [hk, decide_true, Bool.true_and]
    exact decide_eq_decide.mpr eq_comm
  unfold Thread.getP Thread.setP
  cases b
  · simp only [Bool.false_eq_true, if_false, BitVec.getLsbD_and, BitVec.getLsbD_not, h2, hk, decide_true, Bool.true_and]
    by_cases h : k = n <;> simp [h]
  · simp only [if_true, BitVec.getLsbD_or, h2]
    by_cases h : k = n <;> simp [h]

/-! Changes that leave a group as it was but for registers, the back queue and its positions. -/

/-- The group `g'` is `g` but for registers of threads, qb and its write positions. -/
structure Group.RegsOnly (g g' : Group) : Prop where
  group : g' = { g with arch := g'.arch }
  arch : g'.arch = { g.arch with threads := g'.arch.threads, qb := g'.arch.qb }
  length : g'.arch.threads.length = g.arch.threads.length
  thread : ∀ k, g'.thread k = { g.thread k with v := (g'.thread k).v, qbw := (g'.thread k).qbw }
  width : ∀ k, (g'.thread k).v.length = (g.thread k).v.length

theorem Group.RegsOnly.refl (g : Group) : Group.RegsOnly g g := ⟨rfl, rfl, rfl, fun _ => rfl, fun _ => rfl⟩

theorem Group.RegsOnly.trans {g1 g2 g3 : Group} (h : Group.RegsOnly g1 g2) (k : Group.RegsOnly g2 g3) : Group.RegsOnly g1 g3 := by
  refine ⟨?_, ?_, k.length.trans h.length, ?_, fun n => (k.width n).trans (h.width n)⟩
  · rw [k.group, h.group]
  · rw [k.arch, h.arch]
  · intro n; rw [k.thread n, h.thread n]

theorem Group.regsOnly_setThread (g : Group) (l : Nat) (t : Thread)
    (h : l < g.arch.threads.length → t = { g.thread l with v := t.v, qbw := t.qbw } ∧ t.v.length = (g.thread l).v.length) :
    Group.RegsOnly g (g.setThread l t) := by
  refine ⟨rfl, rfl, by simp [Group.setThread], fun k => ?_, fun k => ?_⟩
  · rw [Group.thread_setThread]
    split
    · rename_i hc; rw [hc.1]; exact (h hc.2).1
    · rfl
  · rw [Group.thread_setThread]
    split
    · rename_i hc; rw [hc.1]; exact (h hc.2).2
    · rfl

theorem Group.regsOnly_updThread_setV (g : Group) (l n : Nat) (x : Word) :
    Group.RegsOnly g (g.updThread l (fun t => t.setV n x)) := by
  refine g.regsOnly_setThread l _ fun _ => ⟨rfl, by simp⟩

theorem Group.getV_updThread_setV (g : Group) (l n : Nat) (x : Word) (k j : Nat) :
    ((g.updThread l (fun t => t.setV n x)).thread k).getV j =
      if k = l ∧ l < g.arch.threads.length ∧ j = n ∧ n < (g.thread l).v.length then ⟨x, true, 0, none⟩ else (g.thread k).getV j := by
  rw [Group.updThread, Group.thread_setThread]
  by_cases hk : k = l
  · subst hk
    by_cases hl : k < g.arch.threads.length
    · simp [hl, Thread.getV_setV]
    · simp [hl]
  · simp [hk]

theorem Group.regsOnly_pushQb (g : Group) (l : Nat) (x : Word) : Group.RegsOnly g (g.pushQb l x) := by
  have h : ∀ k, (g.pushQb l x).thread k = (g.setThread l { g.thread l with qbw := (g.thread l).qbw + 1 }).thread k := by
    intro k; rfl
  refine ⟨rfl, rfl, by simp [Group.pushQb], fun k => ?_, fun k => ?_⟩
  · rw [h, Group.thread_setThread]; split
    · rename_i hc; rw [hc.1]
    · rfl
  · rw [h, Group.thread_setThread]; split
    · rename_i hc; rw [hc.1]
    · rfl

theorem Group.getV_pushQb (g : Group) (l : Nat) (x : Word) (k j : Nat) : ((g.pushQb l x).thread k).getV j = (g.thread k).getV j := by
  have h : (g.pushQb l x).thread k = (g.setThread l { g.thread l with qbw := (g.thread l).qbw + 1 }).thread k := rfl
  rw [h, Group.thread_setThread]; split
  · rename_i hc; rw [hc.1]; rfl
  · rfl

/-! The thread destination of 05 R124. -/

theorem Group.regsOnly_dst (g : Group) (d : BitVec 6) (l : Nat) (x : Word) : Group.RegsOnly g (g.dst d l x) := by
  unfold Group.dst
  split
  · exact g.regsOnly_updThread_setV l _ x
  · split
    · exact g.regsOnly_pushQb l x
    · exact .refl g

theorem Group.getV_dst (g : Group) (d : BitVec 6) (l : Nat) (x : Word) (k j : Nat) (hj : j < 56) :
    ((g.dst d l x).thread k).getV j =
      if k = l ∧ l < g.arch.threads.length ∧ j = d.toNat ∧ j < (g.thread l).v.length then ⟨x, true, 0, none⟩ else (g.thread k).getV j := by
  unfold Group.dst
  split
  · rw [Group.getV_updThread_setV]
    by_cases h : j = d.toNat
    · rw [h]
    · simp [h]
  · rename_i h56
    have hjd : j ≠ d.toNat := by omega
    simp only [hjd, false_and, and_false, if_false]
    split
    · exact Group.getV_pushQb g l x k j
    · rfl

theorem Group.dst_back (g : Group) (d : BitVec 6) (l : Nat) (x : Word) (hd : d.toNat ≠ 56) :
    (g.dst d l x).arch.qb = g.arch.qb ∧ ∀ k, ((g.dst d l x).thread k).qbw = (g.thread k).qbw := by
  unfold Group.dst
  split
  · refine ⟨rfl, fun k => ?_⟩
    rw [Group.updThread, Group.thread_setThread]; split
    · rename_i hc; rw [hc.1]; rfl
    · rfl
  · simp [hd]

/-- The registers that a list of numbered words writes into one thread. -/
theorem Thread.foldl_setV (ps : List (Nat × Word)) (base : Nat) (t : Thread) :
    let t' := ps.foldl (fun t p => t.setV (base + p.1) p.2) t
    t' = { t with v := t'.v } ∧ t'.v.length = t.v.length := by
  induction ps generalizing t with
  | nil => exact ⟨rfl, rfl⟩
  | cons p ps ih =>
    obtain ⟨h1, h2⟩ := ih (t.setV (base + p.1) p.2)
    refine ⟨?_, by simpa using h2⟩
    simp only [List.foldl_cons]
    rw [h1]; rfl

theorem Thread.getV_foldl_setV (xs : List Word) (base k : Nat) (t : Thread) (j : Nat) (hj : j < t.v.length) :
    (((xs.mapIdx (fun i x => (k + i, x))).foldl (fun t p => t.setV (base + p.1) p.2) t).getV j) =
      if base + k ≤ j ∧ j < base + k + xs.length then ⟨xs.getD (j - (base + k)) 0, true, 0, none⟩ else t.getV j := by
  induction xs generalizing k t with
  | nil => simp only [List.mapIdx_nil, List.foldl_nil, List.length_nil]; rw [if_neg (by omega)]
  | cons x xs ih =>
    simp only [List.mapIdx_cons, List.foldl_cons, Nat.add_zero]
    have e : (xs.mapIdx (fun i x => (k + (i + 1), x))) = xs.mapIdx (fun i x => (k + 1 + i, x)) := by
      congr 1; funext i x; simp only [Prod.mk.injEq, and_true]; omega
    rw [e, ih (k + 1) (t.setV (base + k) x) (by simpa using hj), Thread.getV_setV]
    by_cases h : j = base + k
    · subst h
      have : ¬(base + (k + 1) ≤ base + k) := by omega
      simp [hj]
    · by_cases hlt : base + (k + 1) ≤ j ∧ j < base + (k + 1) + xs.length
      · have h2 : base + k ≤ j ∧ j < base + k + (x :: xs).length := by simp; omega
        rw [if_pos hlt, if_pos h2]
        have e2 : j - (base + k) = (j - (base + (k + 1))) + 1 := by omega
        rw [e2]; simp
      · have h2 : ¬(base + k ≤ j ∧ j < base + k + (x :: xs).length) := by simp; omega
        rw [if_neg hlt, if_neg h2]; simp [h]

theorem Group.regsOnly_dstN (g : Group) (d : BitVec 6) (l : Nat) (xs : List Word) : Group.RegsOnly g (g.dstN d l xs) := by
  unfold Group.dstN
  split
  · exact g.regsOnly_dst d l _
  · split
    · exact .refl g
    · refine g.regsOnly_setThread l _ fun _ => ?_
      have h := Thread.foldl_setV (xs.mapIdx (fun i x => (i, x))) d.toNat (g.thread l)
      refine ⟨?_, h.2⟩
      have hq := congrArg Thread.qbw h.1
      dsimp only at hq ⊢
      rw [hq]; exact h.1

theorem Group.getV_dstN (g : Group) (d : BitVec 6) (l : Nat) (xs : List Word) (k j : Nat) (hj : j < 56) (hv : j < (g.thread k).v.length) :
    ((g.dstN d l xs).thread k).getV j =
      if k = l ∧ l < g.arch.threads.length ∧ d.toNat ≤ j ∧ j < d.toNat + xs.length then ⟨xs.getD (j - d.toNat) 0, true, 0, none⟩
      else (g.thread k).getV j := by
  unfold Group.dstN
  split
  · rename_i x
    rw [Group.getV_dst g d l x k j hj]
    by_cases hk : k = l
    · subst hk
      by_cases h : j = d.toNat
      · subst h; simp [hv]
      · have : ¬(d.toNat ≤ j ∧ j < d.toNat + [x].length) := by simp; omega
        simp only [h, false_and, and_false, if_false]
        rw [if_neg (by tauto)]
    · simp [hk]
  · split
    · rename_i h63
      have : ¬ d.toNat ≤ j := by
        have := beq_iff_eq.mp h63
        omega
      simp [this]
    · rw [Group.updThread, Group.thread_setThread]
      by_cases hk : k = l
      · subst hk
        by_cases hl : k < g.arch.threads.length
        · have := Thread.getV_foldl_setV xs d.toNat 0 (g.thread k) j hv
          simp only [Nat.zero_add, Nat.add_zero] at this
          simp only [hl, and_self, if_true, true_and]
          exact this
        · simp [hl]
      · simp [hk]

theorem Group.dstN_back (g : Group) (d : BitVec 6) (l : Nat) (xs : List Word) (hd : d.toNat ≠ 56) :
    (g.dstN d l xs).arch.qb = g.arch.qb ∧ ∀ k, ((g.dstN d l xs).thread k).qbw = (g.thread k).qbw := by
  unfold Group.dstN
  split
  · exact g.dst_back d l _ hd
  · split
    · exact ⟨rfl, fun _ => rfl⟩
    · refine ⟨rfl, fun k => ?_⟩
      rw [Group.updThread, Group.thread_setThread]; split
      · rename_i hc
        have h := Thread.foldl_setV (xs.mapIdx (fun i x => (i, x))) d.toNat (g.thread l)
        rw [hc.1, h.1]
      · rfl

/-! Writes by a list of lanes. -/

theorem Group.regsOnly_foldl (f : Group → Nat → Group) (hf : ∀ g l, Group.RegsOnly g (f g l)) (ls : List Nat) (g : Group) :
    Group.RegsOnly g (ls.foldl f g) := by
  induction ls generalizing g with
  | nil => exact .refl g
  | cons l ls ih => exact (hf g l).trans (ih (f g l))

/-- Every lane of a list without repeats writes the words of `f` (05 R127, R128). -/
theorem Group.getV_foldl_dstN (d : BitVec 6) (f : Nat → List Word) (ls : List Nat) (hn : ls.Nodup) (g : Group) (k j : Nat)
    (hk : k < g.arch.threads.length) (hj : j < 56) (hv : j < (g.thread k).v.length) :
    ((ls.foldl (fun g l => g.dstN d l (f l)) g).thread k).getV j =
      if k ∈ ls ∧ d.toNat ≤ j ∧ j < d.toNat + (f k).length then ⟨(f k).getD (j - d.toNat) 0, true, 0, none⟩ else (g.thread k).getV j := by
  induction ls generalizing g with
  | nil => simp
  | cons l ls ih =>
    have hr := g.regsOnly_dstN d l (f l)
    have hl : k < (g.dstN d l (f l)).arch.threads.length := by rw [hr.length]; exact hk
    have hw : j < ((g.dstN d l (f l)).thread k).v.length := by rw [hr.width]; exact hv
    simp only [List.foldl_cons]
    rw [ih (List.nodup_cons.mp hn).2 _ hl hw, Group.getV_dstN g d l (f l) k j hj hv]
    by_cases hkl : k = l
    · subst hkl
      have hnot := (List.nodup_cons.mp hn).1
      simp [hnot, hk]
    · simp [hkl]

theorem Group.foldl_dstN_back (d : BitVec 6) (f : Nat → List Word) (hd : d.toNat ≠ 56) (ls : List Nat) (g : Group) :
    (ls.foldl (fun g l => g.dstN d l (f l)) g).arch.qb = g.arch.qb ∧
      ∀ k, ((ls.foldl (fun g l => g.dstN d l (f l)) g).thread k).qbw = (g.thread k).qbw := by
  induction ls generalizing g with
  | nil => exact ⟨rfl, fun _ => rfl⟩
  | cons l ls ih =>
    obtain ⟨h1, h2⟩ := ih (g.dstN d l (f l))
    obtain ⟨k1, k2⟩ := g.dstN_back d l (f l) hd
    exact ⟨h1.trans k1, fun k => (h2 k).trans (k2 k)⟩

theorem Group.dst_eq_dstN (g : Group) (d : BitVec 6) (l : Nat) (x : Word) : g.dst d l x = g.dstN d l [x] := rfl

theorem Group.thread_updThread_ne (g : Group) (l k : Nat) (f : Thread → Thread) (h : k ≠ l) : (g.updThread l f).thread k = g.thread k := by
  rw [Group.updThread, Group.thread_setThread]; simp [h]
theorem Group.thread_dst_ne (g : Group) (d : BitVec 6) (l : Nat) (x : Word) (k : Nat) (h : k ≠ l) : (g.dst d l x).thread k = g.thread k := by
  unfold Group.dst
  split
  · exact g.thread_updThread_ne l k _ h
  · split
    · have e : (g.pushQb l x).thread k = (g.setThread l { g.thread l with qbw := (g.thread l).qbw + 1 }).thread k := rfl
      rw [e, Group.thread_setThread]; simp [h]
    · rfl
theorem Group.thread_dstN_ne (g : Group) (d : BitVec 6) (l : Nat) (xs : List Word) (k : Nat) (h : k ≠ l) : (g.dstN d l xs).thread k = g.thread k := by
  unfold Group.dstN
  split
  · exact g.thread_dst_ne d l _ k h
  · split
    · rfl
    · exact g.thread_updThread_ne l k _ h
/-- Lanes that are not in the list keep their threads. -/
theorem Group.thread_foldl_other (f : Group → Nat → Group) (hf : ∀ g l k, k ≠ l → (f g l).thread k = g.thread k) (ls : List Nat) (g : Group) (k : Nat)
    (h : k ∉ ls) : (ls.foldl f g).thread k = g.thread k := by
  induction ls generalizing g with
  | nil => rfl
  | cons l ls ih =>
    simp only [List.mem_cons, not_or] at h
    rw [List.foldl_cons, ih (f g l) h.2, hf g l k h.1]

/-! The active lanes. -/

theorem lanesOf_nodup (m : Word) : (lanesOf m).Nodup := List.Nodup.filter _ List.nodup_range
theorem active_nodup (a : GArch) (set : Word) (g : BitVec 3) : (a.active set g).Nodup := (lanesOf_nodup set).filter _
theorem mem_lanesOf {m : Word} {l : Nat} : l ∈ lanesOf m ↔ m.getLsbD l = true := by
  simp only [lanesOf, allLanes, List.mem_filter, List.mem_range, and_iff_right_iff_imp]
  intro h
  by_contra hc
  rw [BitVec.getLsbD_of_ge m l (by omega)] at h
  exact Bool.noConfusion h
theorem set_of_mem_active {a : GArch} {set : Word} {g : BitVec 3} {l : Nat} (h : l ∈ a.active set g) : set.getLsbD l = true :=
  mem_lanesOf.mp (List.mem_filter.mp h).1

theorem set_of_mem_lanes {s : State} {i : Instr} {l : Nat} (h : l ∈ s.lanes i) : s.issue.set.getLsbD l = true :=
  set_of_mem_active (List.mem_filter.mp h).1
theorem lanes_nodup (s : State) (i : Instr) : (s.lanes i).Nodup := (active_nodup _ _ _).filter _

end Sys2Proof.Machine
end

