-- ==== Sys2Proof/Laws/Words.lean ====
section
/-! SUPPORT. What the frame of a word does: entering, the range check, and words that write registers or predicates lane by lane. -/

namespace Sys2Proof.Machine
open Sys2Proof

/-! Entering a word. -/

theorem Thread.pop_frame (t old : Thread) (q : Nat) : t.pop old q = { t with qh := (t.pop old q).qh, kept := (t.pop old q).kept } := by
  unfold Thread.pop; dsimp only; split <;> [rfl; split] <;> rfl
theorem Thread.readQueues_frame (t : Thread) (a : GArch) (i : Instr) (lane : Nat) (r : Bool) :
    t.readQueues a i lane r =
      { t with pts := (t.readQueues a i lane r).pts, qh := (t.readQueues a i lane r).qh, kept := (t.readQueues a i lane r).kept } := by
  unfold Thread.readQueues
  generalize Instr.fields i = fs
  suffices h : ∀ (u : Thread), ∀ f : Thread → Fld → Thread, (∀ u x, f u x = { u with pts := (f u x).pts, qh := (f u x).qh, kept := (f u x).kept }) →
      fs.foldl f u = { u with pts := (fs.foldl f u).pts, qh := (fs.foldl f u).qh, kept := (fs.foldl f u).kept } by
    refine h t _ fun u x => ?_
    dsimp only
    split
    · rfl
    · split
      · rfl
      · rw [Thread.pop_frame]
  intro u f hf
  induction fs generalizing u with
  | nil => rfl
  | cons x fs ih =>
    simp only [List.foldl_cons]
    rw [ih (f u x), hf u x]

theorem Thread.readQueues_none (t : Thread) (a : GArch) (i : Instr) (lane : Nat) (r : Bool) (h : ∀ x ∈ Instr.fields i, x.queue = none) :
    t.readQueues a i lane r = t := by
  unfold Thread.readQueues
  revert h
  generalize Instr.fields i = fs
  intro h
  induction fs with
  | nil => rfl
  | cons x fs ih =>
    simp only [List.foldl_cons, h x (by simp)]
    exact ih fun y hy => h y (by simp [hy])

theorem Thread.goto_frame (t : Thread) (p : Pos) : t.goto p = { t with pos := (t.goto p).pos, wnext := (t.goto p).wnext } := by
  unfold Thread.goto; split <;> rfl
theorem Thread.target_goto (t : Thread) (p : Pos) : (t.goto p).target = p := by
  unfold Thread.goto
  split
  · rename_i h; simp [Thread.target, h]
  · rename_i h; simp [Thread.target, h]

/-- What entering a word leaves as it was, and where it puts the threads of the issuing set. -/
structure Entered (s t : State) (i : Instr) (lanes : List Nat) : Prop where
  outside : t = { s with cur := t.cur }
  group : t.cur = { s.cur with arch := t.cur.arch }
  arch : t.cur.arch = { s.cur.arch with threads := t.cur.arch.threads }
  length : t.cur.arch.threads.length = s.cur.arch.threads.length
  thread : ∀ l, t.cur.thread l =
    { s.cur.thread l with pts := (t.cur.thread l).pts, qh := (t.cur.thread l).qh, kept := (t.cur.thread l).kept,
                          pos := (t.cur.thread l).pos, wnext := (t.cur.thread l).wnext }
  others : ∀ l, s.issue.set.getLsbD l = false → t.cur.thread l = s.cur.thread l
  moved : ∀ l, l < s.cur.arch.threads.length → s.issue.set.getLsbD l = true → (t.cur.thread l).target = s.onward i l
  inactive : ∀ l, l ∉ lanes → (t.cur.thread l).pts = (s.cur.thread l).pts ∧ (t.cur.thread l).qh = (s.cur.thread l).qh
  queues : (∀ x ∈ Instr.fields i, x.queue = none) → ∀ l, (t.cur.thread l).pts = (s.cur.thread l).pts ∧ (t.cur.thread l).qh = (s.cur.thread l).qh

theorem State.entered (s : State) (a : GArch) (i : Instr) (lanes : List Nat) : Entered s (s.enterWord a i lanes) i lanes := by
  have ht : ∀ l, (s.enterWord a i lanes).cur.thread l =
      if l < s.cur.arch.threads.length then
        (if s.issue.set.getLsbD l then ((if lanes.contains l then (s.cur.thread l).readQueues a i l ((s.cur.thread l).redoAt s.issue.chainPos).isSome else s.cur.thread l).goto (s.onward i l))
         else s.cur.thread l)
      else s.cur.thread l := by
    intro l
    unfold State.enterWord; dsimp only; rw [Group.thread_mapThreads]; rfl
  have hq : ∀ l, (if lanes.contains l then (s.cur.thread l).readQueues a i l ((s.cur.thread l).redoAt s.issue.chainPos).isSome else s.cur.thread l) =
      { s.cur.thread l with pts := (if lanes.contains l then (s.cur.thread l).readQueues a i l ((s.cur.thread l).redoAt s.issue.chainPos).isSome else s.cur.thread l).pts,
                            qh := (if lanes.contains l then (s.cur.thread l).readQueues a i l ((s.cur.thread l).redoAt s.issue.chainPos).isSome else s.cur.thread l).qh,
                            kept := (if lanes.contains l then (s.cur.thread l).readQueues a i l ((s.cur.thread l).redoAt s.issue.chainPos).isSome else s.cur.thread l).kept } := by
    intro l; split
    · exact Thread.readQueues_frame _ a i l _
    · rfl
  refine ⟨rfl, rfl, rfl, ?_, fun l => ?_, fun l h => ?_, fun l hl h => ?_, fun l h => ?_, fun h l => ?_⟩
  · simp [State.enterWord, Group.mapThreads]
  · rw [ht l]; split
    · split
      · have hu := hq l
        generalize (if lanes.contains l then (s.cur.thread l).readQueues a i l ((s.cur.thread l).redoAt s.issue.chainPos).isSome else s.cur.thread l) = u at hu ⊢
        have hg := Thread.goto_frame u (s.onward i l)
        generalize u.goto (s.onward i l) = w at hg ⊢
        rw [hg, hu]
      · rfl
    · rfl
  · rw [ht l]; simp [h]
  · rw [ht l]; simp only [hl, h, if_true]; exact Thread.target_goto _ _
  · rw [ht l]; split
    · split
      · rw [Thread.goto_frame]; simp [h]
      · exact ⟨rfl, rfl⟩
    · exact ⟨rfl, rfl⟩
  · rw [ht l]; split
    · split
      · rw [Thread.goto_frame]; simp [Thread.readQueues_none _ a i l _ h]
      · exact ⟨rfl, rfl⟩
    · exact ⟨rfl, rfl⟩

/-! The checks of a word. -/

/-- A word that can issue is executed by its body from the entered state, within the limits of 17 R329. -/
theorem runWord_of_canIssue (i : Instr) (s : State) (body : GArch → List Nat → State → Res State) (h : s.canIssue i = true) :
    runWord i s body = .next (s.finishWord i
      ((body s.snap (s.lanes i) (s.enterWord s.snap i (s.lanes i))).bind (fun t =>
        if (if t.tookTrap s then s.enterWord s.snap i (s.lanes i) else t).rangeOk (Instr.leavers i s.issue.set (s.lanes i)) then .ok t
        else .trap (Trap.of 0x20)))) := by
  simp only [State.canIssue, State.mayIssue, Bool.and_eq_true, Bool.not_eq_true', List.all_eq_true, Option.isNone_iff_eq_none] at h
  obtain ⟨⟨⟨⟨⟨⟨⟨h1, h2⟩, h3⟩, h4⟩, h5⟩, h7⟩, -⟩, -⟩ := h
  have h6 : ((s.lanes i).any fun l => !s.laneReady s.snap i l) = false := by
    simp only [List.any_eq_false]; intro l hl; simp [h4 l hl]
  simp only [runWord, h1, h2, Bool.not_false, Bool.and_self, if_true, State.wordRes, h3, Bool.false_eq_true, if_false, h6, h5, h7, Option.orElse]

theorem State.rangeBase_entered {s E : State} {i : Instr} {ls : List Nat} (hE : Entered s E i ls) : E.rangeBase = s.rangeBase := by
  have h1 : E.issue = s.issue := by rw [hE.outside]
  have h2 : E.ctxs = s.ctxs := by rw [hE.outside]
  have h3 : E.launches = s.launches := by rw [hE.outside]
  have h4 : E.cur.trap = s.cur.trap := by rw [Group.trap, hE.arch]; rfl
  have h5 : E.cur.ctx = s.cur.ctx := by rw [hE.group]
  have h6 : E.cur.lid = s.cur.lid := by rw [hE.group]
  simp only [State.rangeBase, h1, h4, h5, h6, State.ctx, State.launch, h2, h3]
theorem Group.thread_beyond (g : Group) (l : Nat) (h : g.arch.threads.length ≤ l) : g.thread l = Thread.start := by
  simp [Group.thread, List.getD_eq_getElem?_getD, List.getElem?_eq_none h]
/-- The limits hold after a word that leaves the group's streams where they are entered, if every live thread of the issuing set goes
somewhere within them. -/
theorem State.rangeOk_of {s t : State} {but : List Nat} (hb : t.rangeBase = s.rangeBase) (hs : t.issue.set = s.issue.set)
    (h : ∀ l, s.issue.set.getLsbD l = true → (t.cur.thread l).live = true → inRange s.rangeBase (t.cur.thread l).target.pc = true) :
    t.rangeOk but = true := by
  simp only [State.rangeOk, hs, hb, List.all_eq_true]
  intro l hl
  rw [mem_lanesOf] at hl
  cases hv : (t.cur.thread l).live
  · simp
  · simp [h l hl hv]

theorem State.inRange_of_canIssue {s : State} {i : Instr} (h : s.canIssue i = true) (l : Nat) (hl : s.issue.set.getLsbD l = true) :
    inRange s.rangeBase (s.onward i l).pc = true := by
  simp only [State.canIssue, State.mayIssue, Bool.and_eq_true, List.all_eq_true] at h
  exact h.1.2 l (mem_lanesOf.mpr hl)
/-- Every live thread of the issuing set stands within the limits once the word has moved it. -/
theorem State.rangeOk_entered {s : State} {i : Instr} {but : List Nat} (h : s.canIssue i = true) :
    (s.enterWord s.snap i (s.lanes i)).rangeOk but = true := by
  have hE := s.entered s.snap i (s.lanes i)
  refine State.rangeOk_of (State.rangeBase_entered hE) (by rw [hE.outside]) fun l hl hlive => ?_
  by_cases hlen : l < s.cur.arch.threads.length
  · rw [hE.moved l hlen hl]; exact State.inRange_of_canIssue h l hl
  · rw [Group.thread_beyond _ _ (by rw [hE.length]; omega)] at hlive
    exact absurd hlive (by decide)
theorem State.notIllegal_of_canIssue {s : State} {i : Instr} (h : s.canIssue i = true) : s.illegalHere i = false := by
  simp only [State.canIssue, State.mayIssue, Bool.and_eq_true, Bool.not_eq_true'] at h; exact h.1.1.1.1.1.2
theorem State.wf_of_canIssue {s : State} {i : Instr} (h : s.canIssue i = true) : i.wf = true := by
  have := State.notIllegal_of_canIssue h
  simp only [State.illegalHere, Bool.or_eq_false_iff, Bool.not_eq_false'] at this
  tauto

/-! Words that write registers. -/

theorem State.addFlags_zero (s : State) : s.addFlags 0 = s := by simp [State.addFlags]
theorem State.writeLanes1_eq (s : State) (d : BitVec 6) (ls : List Nat) (f : Nat → Word) :
    s.writeLanes1 d ls f = s.writeLanes d ls (fun l => [f l]) := rfl
theorem State.writeLanesX_eq (s : State) (x : Bool) (d : BitVec 6) (ls : List Nat) (f : Nat → DWord) :
    s.writeLanesX x d ls f = s.writeLanes d ls (fun l => if x then wordsOf 2 (f l).toNat else [(f l).setWidth 32]) := by
  cases x <;> rfl

theorem runWord_next {i : Instr} {s : State} {body : GArch → List Nat → State → Res State} {W : State} (h : s.canIssue i = true)
    (hb : body s.snap (s.lanes i) (s.enterWord s.snap i (s.lanes i)) = .ok W) 
    (he : (s.enterWord s.snap i (s.lanes i)).rangeOk (Instr.leavers i s.issue.set (s.lanes i)) = true)
    (hr : W.tookTrap s = false → W.rangeOk (Instr.leavers i s.issue.set (s.lanes i)) = true) :
    runWord i s body = .next { W with issue := { W.issue with chain := s.issue.chain ++ [i] } } := by
  rw [runWord_of_canIssue _ _ _ h, hb]
  have e : (if W.tookTrap s = true then s.enterWord s.snap i (s.lanes i) else W).rangeOk (Instr.leavers i s.issue.set (s.lanes i)) = true := by
    cases h : W.tookTrap s
    · exact hr h
    · exact he
  simp only [Res.bind, e, if_true, State.finishWord]

/-- A state reached from an entered word by changes to registers, predicates, places of threads, qb and FPMODE. -/
structure LaneEffect (E W : State) : Prop where
  outside : W = { E with cur := W.cur }
  group : W.cur = { E.cur with arch := W.cur.arch }
  arch : W.cur.arch = { E.cur.arch with threads := W.cur.arch.threads, qb := W.cur.arch.qb, fpmode := W.cur.arch.fpmode }
  length : W.cur.arch.threads.length = E.cur.arch.threads.length
  thread : ∀ l, W.cur.thread l = { E.cur.thread l with v := (W.cur.thread l).v, p := (W.cur.thread l).p, qbw := (W.cur.thread l).qbw,
                                                       pos := (W.cur.thread l).pos, wnext := (W.cur.thread l).wnext }

theorem LaneEffect.trans {A B C : State} (h : LaneEffect A B) (k : LaneEffect B C) : LaneEffect A C := by
  refine ⟨?_, ?_, ?_, k.length.trans h.length, fun l => ?_⟩
  · rw [k.outside, h.outside]
  · rw [k.group, h.group]
  · rw [k.arch, h.arch]
  · rw [k.thread l, h.thread l]

theorem LaneEffect.of_regsOnly (E : State) (G : Group) (h : Group.RegsOnly E.cur G) : LaneEffect E { E with cur := G } := by
  refine ⟨rfl, h.group, ?_, h.length, fun l => ?_⟩
  · dsimp only; rw [h.arch]
  · dsimp only; rw [h.thread l]

theorem LaneEffect.writeLanes (E : State) (d : BitVec 6) (ls : List Nat) (f : Nat → List Word) : LaneEffect E (E.writeLanes d ls f) :=
  .of_regsOnly E _ (Group.regsOnly_foldl _ (fun g l => g.regsOnly_dstN d l (f l)) _ _)

theorem LaneEffect.addFlags (E : State) (n : Nat) : LaneEffect E (E.addFlags n) := ⟨rfl, rfl, rfl, rfl, fun _ => rfl⟩

theorem LaneEffect.trap {s E W : State} {i : Instr} {ls : List Nat} (hE : Entered s E i ls) (hW : LaneEffect E W) : W.cur.trap = s.cur.trap := by
  rw [Group.trap, hW.arch]; dsimp only; rw [hE.arch]; rfl
/-- The range check of a word whose effect is lane by lane, where every live thread of the issuing set stands within the limits. -/
theorem LaneEffect.rangeOk {s E W : State} {i : Instr} {but : List Nat} (hE : Entered s E i (s.lanes i)) (hW : LaneEffect E W)
    (h : ∀ l, l < s.cur.arch.threads.length → s.issue.set.getLsbD l = true → inRange s.rangeBase (W.cur.thread l).target.pc = true) :
    W.rangeOk but = true := by
  have hi : W.issue = s.issue := by rw [hW.outside, hE.outside]
  have htrap : W.cur.trap = s.cur.trap := hW.trap hE
  have hctx : W.cur.ctx = s.cur.ctx := by rw [hW.group]; dsimp only; rw [hE.group]
  have hlid : W.cur.lid = s.cur.lid := by rw [hW.group]; dsimp only; rw [hE.group]
  have h1 : W.ctxs = s.ctxs := by rw [hW.outside, hE.outside]
  have h2 : W.launches = s.launches := by rw [hW.outside, hE.outside]
  have hbase : W.rangeBase = s.rangeBase := by
    simp only [State.rangeBase, htrap, hctx, hlid, hi, State.ctx, State.launch, h1, h2]
  refine State.rangeOk_of hbase (by rw [hi]) fun l hl hlive => ?_
  by_cases hlen : l < s.cur.arch.threads.length
  · exact h l hlen hl
  · rw [Group.thread_beyond _ _ (by rw [hW.length, hE.length]; omega)] at hlive
    exact absurd hlive (by decide)

/-- What a word whose effect is lane by lane leaves as it was. -/
theorem LaneEffect.laneWord {s E W : State} {i : Instr} {dest : Nat → Pos} (hent : s.entry i = E) (hE : Entered s E i (s.lanes i)) (hW : LaneEffect E W)
    (hoth : ∀ l, l ∉ s.lanes i → W.cur.thread l = E.cur.thread l)
    (hd : ∀ l, l < s.cur.arch.threads.length → s.issue.set.getLsbD l = true → (W.cur.thread l).target = dest l) :
    LaneWord s { W with issue := { W.issue with chain := s.issue.chain ++ [i] } } i dest := by
  have hi : W.issue = s.issue := by rw [hW.outside, hE.outside]
  refine ⟨?_, ?_, ?_, ?_, fun l => ?_, fun l hl => ?_, hd, fun l hl => ?_, fun l => ?_, fun hq l => ?_⟩
  · dsimp only; rw [hW.outside, hE.outside]
  · dsimp only; rw [hi]
  · dsimp only; rw [hW.group]; dsimp only; rw [hE.group]
  · dsimp only; rw [hW.arch]; dsimp only; rw [hE.arch]
  · dsimp only; rw [hW.thread l]; dsimp only; rw [hE.thread l]
  · have hm : l ∉ s.lanes i := fun hm => by have := set_of_mem_lanes hm; rw [hl] at this; exact Bool.noConfusion this
    dsimp only; rw [hoth l hm]; exact hE.others l hl
  · dsimp only; rw [hoth l hl]
    refine ⟨?_, ?_, (hE.inactive l hl).1, (hE.inactive l hl).2, ?_⟩ <;> rw [hE.thread l]
  · dsimp only; rw [hent, hW.thread l]; exact ⟨rfl, rfl, rfl⟩
  · dsimp only; rw [hW.thread l]; exact hE.queues hq l

/-- A word whose active lanes write words to thread destinations, and whose flags join FPMODE. -/
theorem regWord_of_writeLanes (i : Instr) (s : State) (d : BitVec 6) (val : GArch → List Nat → Nat → List Word) (fl : GArch → List Nat → Nat)
    (h : s.canIssue i = true) :
    ∃ t, runLanes i s (fun a lanes s => (s.writeLanes d lanes (val a lanes)).addFlags (fl a lanes)) = .next t ∧
      RegWord s t i (s.onward i) d (fl s.snap (s.lanes i)) (val s.snap (s.lanes i)) := by
  generalize hv : val s.snap (s.lanes i) = f
  generalize hfl : fl s.snap (s.lanes i) = n
  have hE := s.entered s.snap i (s.lanes i)
  generalize hEq : s.enterWord s.snap i (s.lanes i) = E at hE
  have hreg : Group.RegsOnly E.cur ((s.lanes i).foldl (fun g l => g.dstN d l (f l)) E.cur) :=
    Group.regsOnly_foldl _ (fun g l => g.regsOnly_dstN d l (f l)) _ _
  have hW := (LaneEffect.writeLanes E d (s.lanes i) f).trans (.addFlags _ n)
  have hc : ((E.writeLanes d (s.lanes i) f).addFlags n).cur.thread = ((s.lanes i).foldl (fun g l => g.dstN d l (f l)) E.cur).thread := rfl
  have htgt : ∀ l, l < s.cur.arch.threads.length → s.issue.set.getLsbD l = true →
      (((E.writeLanes d (s.lanes i) f).addFlags n).cur.thread l).target = s.onward i l := by
    intro l hl hs
    rw [hc, hreg.thread l]; exact hE.moved l hl hs
  refine ⟨_, runWord_next h (W := (E.writeLanes d (s.lanes i) f).addFlags n) (by rw [hEq]; dsimp only; rw [hv, hfl]) (State.rangeOk_entered h)
    (fun _ => hW.rangeOk hE fun l hl hs => by rw [htgt l hl hs]; exact State.inRange_of_canIssue h l hs), hW.laneWord hEq hE (fun l hl => ?_) htgt, fun l j hl hj hjv => ?_,
    fun l => ?_, fun hd => ⟨?_, fun l => ?_⟩, fun hd hv1 => ?_, ?_⟩
  · rw [hc]; exact Group.thread_foldl_other _ (fun g k n hn => g.thread_dstN_ne d k (f k) n hn) _ _ l hl
  · dsimp only; rw [hc]
    have ev : (E.cur.thread l).v = (s.cur.thread l).v := by rw [hE.thread l]
    rw [Group.getV_foldl_dstN d f (s.lanes i) (lanes_nodup s i) E.cur l j (by rw [hE.length]; exact hl) hj (by rw [ev]; exact hjv)]
    have : (E.cur.thread l).getV j = (s.cur.thread l).getV j := by simp only [Thread.getV, ev]
    rw [this]
  · dsimp only; rw [hc, hreg.thread l, hE.thread l]
  · show ((s.lanes i).foldl (fun g l => g.dstN d l (f l)) E.cur).arch.qb = _
    rw [(Group.foldl_dstN_back d f hd (s.lanes i) E.cur).1, hE.arch]
  · dsimp only; rw [hc, (Group.foldl_dstN_back d f hd (s.lanes i) E.cur).2 l, hE.thread l]
  · rw [show s.entry i = E from hEq]
    show ((s.lanes i).foldl (fun g l => g.dstN d l (f l)) E.cur).arch.qb = _
    rw [List.foldl_ext _ (fun g l => g.pushQb l ((f l).getD 0 0)) E.cur fun g l hl => by
      obtain ⟨x, hx⟩ := List.length_eq_one_iff.mp (hv1 l hl)
      rw [hx]
      simp [Group.dstN, Group.dst, hd]]
  · show ((s.lanes i).foldl (fun g l => g.dstN d l (f l)) E.cur).arch.fpmode ||| _ = _
    rw [hreg.arch, hE.arch]

/-- The same for a word that raises no flag. -/
theorem regWord_of_writeLanes' (i : Instr) (s : State) (d : BitVec 6) (val : GArch → List Nat → Nat → List Word) (h : s.canIssue i = true) :
    ∃ t, runLanes i s (fun a lanes s => s.writeLanes d lanes (val a lanes)) = .next t ∧
      RegWord s t i (s.onward i) d 0 (val s.snap (s.lanes i)) := by
  have := regWord_of_writeLanes i s d val (fun _ _ => 0) h
  simpa only [State.addFlags_zero] using this

/-! Words that write predicates. -/

/-- The groups that differ in predicates and places of threads only. -/
structure Group.ThreadsOnly (g g' : Group) : Prop where
  group : g' = { g with arch := { g.arch with threads := g'.arch.threads } }
  length : g'.arch.threads.length = g.arch.threads.length

theorem Group.threadsOnly_foldl (f : Nat → Thread → Thread) (ls : List Nat) (g : Group) :
    Group.ThreadsOnly g (ls.foldl (fun g l => g.updThread l (f l)) g) := by
  induction ls generalizing g with
  | nil => exact ⟨rfl, rfl⟩
  | cons l ls ih =>
    obtain ⟨h1, h2⟩ := ih (g.updThread l (f l))
    refine ⟨?_, ?_⟩
    · rw [List.foldl_cons, h1]; rfl
    · rw [List.foldl_cons, h2]; simp [Group.updThread, Group.setThread]

/-- Every lane of a list without repeats is changed once. -/
theorem Group.thread_foldl_updThread (f : Nat → Thread → Thread) (ls : List Nat) (hn : ls.Nodup) (g : Group) (k : Nat)
    (hk : k < g.arch.threads.length) :
    (ls.foldl (fun g l => g.updThread l (f l)) g).thread k = if k ∈ ls then f k (g.thread k) else g.thread k := by
  induction ls generalizing g with
  | nil => simp
  | cons l ls ih =>
    have hlen : k < (g.updThread l (f l)).arch.threads.length := by simpa [Group.updThread, Group.setThread] using hk
    rw [List.foldl_cons, ih (List.nodup_cons.mp hn).2 _ hlen]
    have ht : (g.updThread l (f l)).thread k = if k = l then f l (g.thread l) else g.thread k := by
      rw [Group.updThread, Group.thread_setThread]
      by_cases e : k = l
      · subst e; simp [hk]
      · simp [e]
    rw [ht]
    by_cases e : k = l
    · subst e; simp [(List.nodup_cons.mp hn).1]
    · simp [e]

theorem State.updLanes_cur (s : State) (ls : List Nat) (f : Nat → Thread → Thread) :
    (s.updLanes ls f).cur = ls.foldl (fun g l => g.updThread l (f l)) s.cur := rfl

/-- Threads changed lane by lane in predicates and places only. -/
theorem LaneEffect.updLanes (E : State) (ls : List Nat) (f : Nat → Thread → Thread) (hn : ls.Nodup)
    (hf : ∀ l t, f l t = { t with p := (f l t).p, pos := (f l t).pos, wnext := (f l t).wnext }) : LaneEffect E (E.updLanes ls f) := by
  have h := Group.threadsOnly_foldl f ls E.cur
  rw [← State.updLanes_cur] at h
  refine ⟨rfl, ?_, ?_, h.length, fun l => ?_⟩
  · rw [h.group]
  · rw [h.group]
  · by_cases hl : l < E.cur.arch.threads.length
    · have ht := Group.thread_foldl_updThread f ls hn E.cur l hl
      rw [State.updLanes_cur, ht]
      split
      · rw [hf l (E.cur.thread l)]
      · rfl
    · have e1 := Group.thread_beyond E.cur l (by omega)
      have e2 := Group.thread_beyond (E.updLanes ls f).cur l (by rw [h.length]; omega)
      rw [e1, e2]

/-- A word whose active lanes write a predicate, and whose flags join FPMODE. -/
theorem predWord_of_writePreds (i : Instr) (s : State) (d : BitVec 6) (val : GArch → List Nat → Nat → Bool) (fl : GArch → List Nat → Nat)
    (h : s.canIssue i = true) :
    ∃ t, runLanes i s (fun a lanes s => (s.writePreds d lanes (val a lanes)).addFlags (fl a lanes)) = .next t ∧
      PredWord s t i d (fl s.snap (s.lanes i)) (val s.snap (s.lanes i)) := by
  generalize hv : val s.snap (s.lanes i) = f
  generalize hfl : fl s.snap (s.lanes i) = n
  have hE := s.entered s.snap i (s.lanes i)
  generalize hEq : s.enterWord s.snap i (s.lanes i) = E at hE
  have hP : E.writePreds d (s.lanes i) f = E.updLanes (s.lanes i) (fun l t => t.setP d.toNat (f l)) := rfl
  have hnd : (s.lanes i).Nodup := lanes_nodup s i
  have hW := (LaneEffect.updLanes E (s.lanes i) (fun l t => t.setP d.toNat (f l)) hnd (fun _ _ => rfl)).trans (.addFlags _ n)
  rw [← hP] at hW
  have hth : ∀ l, l < s.cur.arch.threads.length → ((E.writePreds d (s.lanes i) f).addFlags n).cur.thread l =
      if l ∈ s.lanes i then (E.cur.thread l).setP d.toNat (f l) else E.cur.thread l := fun l hl =>
    Group.thread_foldl_updThread (fun l t => t.setP d.toNat (f l)) (s.lanes i) hnd E.cur l (by rw [hE.length]; exact hl)
  have hout : ∀ l, ¬ l < s.cur.arch.threads.length → ((E.writePreds d (s.lanes i) f).addFlags n).cur.thread l = E.cur.thread l := fun l hl => by
    rw [Group.thread_beyond _ l (by rw [hW.length, hE.length]; omega), Group.thread_beyond _ l (by rw [hE.length]; omega)]
  have htgt : ∀ l, l < s.cur.arch.threads.length → s.issue.set.getLsbD l = true →
      (((E.writePreds d (s.lanes i) f).addFlags n).cur.thread l).target = s.onward i l := by
    intro l hl hs
    rw [hth l hl]; split <;> exact hE.moved l hl hs
  refine ⟨_, runWord_next h (W := (E.writePreds d (s.lanes i) f).addFlags n) (by rw [hEq]; dsimp only; rw [hv, hfl]) (State.rangeOk_entered h)
    (fun _ => hW.rangeOk hE fun l hl hs => by rw [htgt l hl hs]; exact State.inRange_of_canIssue h l hs), hW.laneWord hEq hE (fun l hl => ?_) htgt, fun l j hl hj => ?_,
    fun l => ?_, ⟨?_, fun l => ?_⟩, ?_⟩
  · by_cases hlen : l < s.cur.arch.threads.length
    · rw [hth l hlen, if_neg hl]
    · exact hout l hlen
  · dsimp only; rw [hth l hl]
    have hp : (E.cur.thread l).getP j = (s.cur.thread l).getP j := by simp only [Thread.getP]; rw [hE.thread l]
    by_cases hm : l ∈ s.lanes i
    · rw [if_pos hm, Thread.getP_setP _ _ _ _ hj, hp]; simp [hm]
    · simp [hm, hp]
  · dsimp only
    by_cases hlen : l < s.cur.arch.threads.length
    · rw [hth l hlen]; split <;> (try simp only [Thread.setP]) <;> rw [hE.thread l]
    · rw [hout l hlen, hE.thread l]
  · show ((E.writePreds d (s.lanes i) f).addFlags n).cur.arch.qb = _
    have : ((E.writePreds d (s.lanes i) f).addFlags n).cur.arch.qb = E.cur.arch.qb := by
      show ((s.lanes i).foldl (fun g l => g.updThread l ((fun l t => t.setP d.toNat (f l)) l)) E.cur).arch.qb = _
      rw [(Group.threadsOnly_foldl _ _ _).group]
    rw [this, hE.arch]
  · dsimp only
    by_cases hlen : l < s.cur.arch.threads.length
    · rw [hth l hlen]; split <;> (try simp only [Thread.setP]) <;> rw [hE.thread l]
    · rw [hout l hlen, hE.thread l]
  · show ((s.lanes i).foldl (fun g l => g.updThread l ((fun l t => t.setP d.toNat (f l)) l)) E.cur).arch.fpmode ||| _ = _
    rw [(Group.threadsOnly_foldl _ _ _).group, hE.arch]

/-! Words that change the group's other state. -/

/-- A word whose body changes the group's state outside threads, queues and the trap state. -/
theorem archWord_of {i : Instr} {s : State} {body : GArch → List Nat → State → Res State} {f : GArch → GArch} (h : s.canIssue i = true)
    (hf : ∀ a : GArch, f a = { f a with threads := a.threads, trap := a.trap })
    (hq : ∀ (a : GArch) (x : List Thread), f { a with threads := x } = { f a with threads := x })
    (hb : ∀ E : State, body s.snap (s.lanes i) (s.enterWord s.snap i (s.lanes i)) = .ok E →
      E = { s.enterWord s.snap i (s.lanes i) with cur := { (s.enterWord s.snap i (s.lanes i)).cur with arch := f (s.enterWord s.snap i (s.lanes i)).cur.arch } })
    (hok : ∃ E, body s.snap (s.lanes i) (s.enterWord s.snap i (s.lanes i)) = .ok E) :
    ∃ t, runWord i s body = .next t ∧ ArchWord s t i (s.onward i) f := by
  obtain ⟨W, hW⟩ := hok
  have hWE := hb W hW
  have hE := s.entered s.snap i (s.lanes i)
  generalize hEq : s.enterWord s.snap i (s.lanes i) = E at hE hW hWE
  have hth : ∀ l, W.cur.thread l = E.cur.thread l := by
    intro l; rw [hWE]; simp only [Group.thread]; rw [hf]
  have htrap : W.cur.trap = s.cur.trap := by
    rw [hWE]; simp only [Group.trap]; rw [hf]; dsimp only; rw [hE.arch]
  have hbase : W.rangeBase = s.rangeBase := by
    have h0 : W.issue = s.issue := by rw [hWE, hE.outside]
    have h1 : W.ctxs = s.ctxs := by rw [hWE, hE.outside]
    have h2 : W.launches = s.launches := by rw [hWE, hE.outside]
    have h3 : W.cur.ctx = s.cur.ctx := by rw [hWE]; dsimp only; rw [hE.group]
    have h4 : W.cur.lid = s.cur.lid := by rw [hWE]; dsimp only; rw [hE.group]
    simp only [State.rangeBase, htrap, h3, h4, h0, State.ctx, State.launch, h1, h2]
  have hr : ∀ but, W.rangeOk but = true := by
    intro but
    refine State.rangeOk_of hbase (by rw [hWE, hE.outside]) fun l hl hlive => ?_
    by_cases hlen : l < s.cur.arch.threads.length
    · rw [hth, hE.moved l hlen hl]; exact State.inRange_of_canIssue h l hl
    · rw [hth, Group.thread_beyond _ _ (by rw [hE.length]; omega)] at hlive
      exact absurd hlive (by decide)
  refine ⟨_, runWord_next h (W := W) (by rw [hEq]; exact hW) (State.rangeOk_entered h) (fun _ => hr _), ?_, fun l => ?_, fun l hl => ?_, fun l hl hs => ?_, fun l hl => ?_, fun l => ?_, fun hq' l => ?_⟩
  · have hi : W.issue = s.issue := by rw [hWE, hE.outside]
    dsimp only; rw [hi, hWE]; dsimp only
    have ha : f E.cur.arch = { f s.cur.arch with threads := E.cur.arch.threads } := by
      rw [hE.arch]; exact hq _ _
    have h1 : (f E.cur.arch).threads = E.cur.arch.threads := by rw [ha]
    rw [h1, ← ha]
    rw [hE.outside]; dsimp only; rw [hE.group]
  · dsimp only; rw [hth, hE.thread l]
  · dsimp only; rw [hth]; exact hE.others l hl
  · dsimp only; rw [hth]; exact hE.moved l hl hs
  · dsimp only; rw [hth]; exact hE.inactive l hl
  · dsimp only; rw [show s.entry i = E from hEq, hth]; exact ⟨rfl, rfl, rfl⟩
  · dsimp only; rw [hth]; exact hE.queues hq' l

end Sys2Proof.Machine
end

