-- ==== Sys2Proof/Laws/Keeps.lean ====
section
/-! SUPPORT. Effects of words that leave the threads of the issuing set where they are going: the range check of 17 R329 then holds
after the word as it held at its entry. -/

namespace Sys2Proof.Machine
open Sys2Proof

/-- A group that keeps its launch, context and mode, and where its live threads go. -/
structure Group.Keeps (g g' : Group) : Prop where
  lid : g'.lid = g.lid
  ctx : g'.ctx = g.ctx
  handler : g'.trap.handler = g.trap.handler
  esc : g'.esc = g.esc
  thread : ∀ l, (g'.thread l).live = true → (g.thread l).live = true ∧ (g'.thread l).target = (g.thread l).target

theorem Group.Keeps.refl (g : Group) : Group.Keeps g g := ⟨rfl, rfl, rfl, rfl, fun _ h => ⟨h, rfl⟩⟩
theorem Group.Keeps.trans {a b c : Group} (h : Group.Keeps a b) (k : Group.Keeps b c) : Group.Keeps a c :=
  ⟨k.lid.trans h.lid, k.ctx.trans h.ctx, k.handler.trans h.handler, k.esc.trans h.esc, fun l hl =>
    ⟨(h.thread l (k.thread l hl).1).1, (k.thread l hl).2.trans (h.thread l (k.thread l hl).1).2⟩⟩
theorem Group.Keeps.of_arch {g g' : Group} (h1 : g'.lid = g.lid) (h2 : g'.ctx = g.ctx) (h3 : g'.arch.trap = g.arch.trap)
    (h4 : g'.arch.threads = g.arch.threads) (h5 : g'.esc = g.esc := by rfl) : Group.Keeps g g' :=
  ⟨h1, h2, by simp [Group.trap, h3], h5, fun l hl => by
    have e : g'.thread l = g.thread l := by simp only [Group.thread, h4]
    rw [e] at hl ⊢; exact ⟨hl, rfl⟩⟩

/-- Changing a thread without moving it. -/
theorem Group.Keeps.updThread (g : Group) (i : Nat) (f : Thread → Thread)
    (hf : ∀ t, (f t).live = true → t.live = true ∧ (f t).target = t.target) : Group.Keeps g (g.updThread i f) := by
  refine ⟨rfl, rfl, rfl, rfl, fun l hl => ?_⟩
  unfold Group.updThread at hl ⊢
  rw [Group.thread_setThread] at hl ⊢
  split at hl
  · rename_i h; rw [if_pos h, h.1]; exact hf _ hl
  · rename_i h; rw [if_neg h]; exact ⟨hl, rfl⟩
theorem Group.Keeps.mapThreads (g : Group) (f : Nat → Thread → Thread)
    (hf : ∀ l t, (f l t).live = true → t.live = true ∧ (f l t).target = t.target) : Group.Keeps g (g.mapThreads f) := by
  refine ⟨rfl, rfl, rfl, rfl, fun l hl => ?_⟩
  rw [Group.thread_mapThreads] at hl ⊢
  split at hl
  · rename_i h; rw [if_pos h]; exact hf _ _ hl
  · rename_i h; rw [if_neg h]; exact ⟨hl, rfl⟩
theorem Group.Keeps.foldl {α : Type} (f : Group → α → Group) (hf : ∀ g x, Group.Keeps g (f g x)) (l : List α) (g : Group) :
    Group.Keeps g (l.foldl f g) := by
  induction l generalizing g with
  | nil => exact .refl g
  | cons x l ih => exact (hf g x).trans (ih _)

theorem Group.Keeps.pushQb (g : Group) (lane : Nat) (x : Word) : Group.Keeps g (g.pushQb lane x) := by
  have h : Group.Keeps g (g.updThread lane (fun t => { t with qbw := t.qbw + 1 })) := .updThread _ _ _ fun t h => ⟨h, rfl⟩
  exact h.trans (.of_arch rfl rfl rfl rfl)
theorem Group.Keeps.dst (g : Group) (d : BitVec 6) (lane : Nat) (x : Word) : Group.Keeps g (g.dst d lane x) := by
  unfold Group.dst
  split
  · exact .updThread _ _ _ fun t h => ⟨h, rfl⟩
  · split
    · exact .pushQb _ _ _
    · exact .refl _
theorem Group.Keeps.dstN (g : Group) (d : BitVec 6) (lane : Nat) (xs : List Word) : Group.Keeps g (g.dstN d lane xs) := by
  have hfold : ∀ (ps : List (Nat × Word)) (t : Thread), (ps.foldl (fun t p => t.setV (d.toNat + p.1) p.2) t) =
      { t with v := (ps.foldl (fun t p => t.setV (d.toNat + p.1) p.2) t).v } := by
    intro ps
    induction ps with
    | nil => intro t; rfl
    | cons p ps ih => intro t; rw [List.foldl_cons, ih]; rfl
  have hkeep : ∀ (ps : List (Nat × Word)), Group.Keeps g (g.updThread lane (fun t => ps.foldl (fun t p => t.setV (d.toNat + p.1) p.2) t)) :=
    fun ps => .updThread _ _ _ fun t h => by rw [hfold] at h ⊢; exact ⟨h, rfl⟩
  match xs with
  | [x] => exact .dst g d lane x
  | [] => unfold Group.dstN; dsimp only; split; exacts [.refl _, hkeep _]
  | a :: b :: l => unfold Group.dstN; dsimp only; split; exacts [.refl _, hkeep _]

/-- A group that a trap has put before the driver or into handler mode. -/
def Group.Trapped (g g' : Group) : Prop := g'.esc.isSome = true ∨ (g.trap.handler = false ∧ g'.trap.handler = true)
/-- What a group may come to: it keeps its mode and where its live threads go, or a trap was taken. -/
structure Group.Goes (g g' : Group) : Prop where
  mono : g.esc.isSome = true → g'.esc.isSome = true
  goes : Group.Keeps g g' ∨ Group.Trapped g g'
theorem Group.Keeps.toGoes {g g' : Group} (h : Group.Keeps g g') : Group.Goes g g' := ⟨by rw [h.esc]; exact id, .inl h⟩
theorem Group.Goes.trans {a b c : Group} (h : Group.Goes a b) (k : Group.Goes b c) : Group.Goes a c := by
  refine ⟨fun x => k.mono (h.mono x), ?_⟩
  rcases h.goes with h1 | h1 | h1
  · rcases k.goes with k1 | k1 | k1
    · exact .inl (h1.trans k1)
    · exact .inr (.inl k1)
    · exact .inr (.inr ⟨h1.handler ▸ k1.1, k1.2⟩)
  · exact .inr (.inl (k.mono h1))
  · rcases k.goes with k1 | k1 | k1
    · exact .inr (.inr ⟨h1.1, by rw [k1.handler]; exact h1.2⟩)
    · exact .inr (.inl k1)
    · rw [h1.2] at k1; exact absurd k1.1 (by decide)

/-- A state that keeps the issuing set and the entry positions that the limits of 17 R329 are measured from, and whose group goes on so. -/
structure Keeps (E W : State) : Prop where
  set : W.issue.set = E.issue.set
  drill : W.issue.drill = E.issue.drill
  traph : ∀ c, (W.ctx c).traph = (E.ctx c).traph
  entry : ∀ n, (W.launch n).pentry = (E.launch n).pentry ∧ (W.launch n).dentry = (E.launch n).dentry
  cur : Group.Goes E.cur W.cur

theorem Keeps.refl (s : State) : Keeps s s := ⟨rfl, rfl, fun _ => rfl, fun _ => ⟨rfl, rfl⟩, (Group.Keeps.refl _).toGoes⟩
theorem Keeps.trans {a b c : State} (h : Keeps a b) (k : Keeps b c) : Keeps a c :=
  ⟨k.set.trans h.set, k.drill.trans h.drill, fun x => (k.traph x).trans (h.traph x),
    fun n => ⟨(k.entry n).1.trans (h.entry n).1, (k.entry n).2.trans (h.entry n).2⟩, h.cur.trans k.cur⟩
theorem Keeps.foldl {α : Type} (f : State → α → State) (hf : ∀ s x, Keeps s (f s x)) (l : List α) (s : State) : Keeps s (l.foldl f s) := by
  induction l generalizing s with
  | nil => exact .refl s
  | cons x l ih => exact (hf s x).trans (ih _)
/-- A state that differs outside the group, the issue state, contexts and launches. -/
theorem Keeps.of_eq {E W : State} (h1 : W.issue = E.issue) (h2 : W.ctxs = E.ctxs) (h3 : W.launches = E.launches) (h4 : Group.Keeps E.cur W.cur) :
    Keeps E W :=
  ⟨by rw [h1], by rw [h1], fun c => by simp only [State.ctx, h2], fun n => by simp only [State.launch, h3, and_self], h4.toGoes⟩
theorem Keeps.setCur {E : State} {g : Group} (h : Group.Keeps E.cur g) : Keeps E { E with cur := g } := .of_eq rfl rfl rfl h

theorem Keeps.rangeBase {E W : State} (h : Keeps E W) (k : Group.Keeps E.cur W.cur) : W.rangeBase = E.rangeBase := by
  simp only [State.rangeBase, k.handler, k.ctx, k.lid, h.drill, h.traph, h.entry]

/-- The limits hold after an effect that keeps where the threads go. -/
theorem Keeps.rangeOk {s W : State} {i : Instr} {but : List Nat} (h : s.canIssue i = true) (hW : Keeps (s.enterWord s.snap i (s.lanes i)) W)
    (ht : W.tookTrap s = false) : W.rangeOk but = true := by
  have hE := s.entered s.snap i (s.lanes i)
  generalize s.enterWord s.snap i (s.lanes i) = E at hE hW
  have htr : E.cur.trap = s.cur.trap := by rw [Group.trap, hE.arch]; rfl
  simp only [State.tookTrap, Bool.or_eq_false_iff, Bool.and_eq_false_iff, Bool.not_eq_false'] at ht
  have hk : Group.Keeps E.cur W.cur := by
    rcases hW.cur.goes with k | k | k
    · exact k
    · rw [ht.1] at k; exact absurd k (by decide)
    · rw [htr] at k; rcases ht.2 with x | x <;> simp_all
  have hset : W.issue.set = s.issue.set := by rw [hW.set, hE.outside]
  refine State.rangeOk_of ((hW.rangeBase hk).trans (State.rangeBase_entered hE)) hset fun l hl hlive => ?_
  have hk := hk.thread l hlive
  by_cases hlen : l < s.cur.arch.threads.length
  · rw [hk.2, hE.moved l hlen hl]; exact State.inRange_of_canIssue h l hl
  · rw [Group.thread_beyond _ _ (by rw [hE.length]; omega)] at hk
    exact absurd hk.1 (by decide)

/-- A word whose own effect succeeds and keeps where the threads go answers the state of its effect. -/
theorem runWord_keeps {i : Instr} {s : State} {body : GArch → List Nat → State → Res State} {W : State} (h : s.canIssue i = true)
    (hb : body s.snap (s.lanes i) (s.enterWord s.snap i (s.lanes i)) = .ok W) (hW : Keeps (s.enterWord s.snap i (s.lanes i)) W) :
    runWord i s body = .next { W with issue := { W.issue with chain := s.issue.chain ++ [i] } } :=
  runWord_next h hb (State.rangeOk_entered h) (fun x => hW.rangeOk h x)

/-! The shared operations. -/

theorem Keeps.updPlot (s : State) (pid : Nat) (f : Plot → Plot) : Keeps s (s.updPlot pid f) := .of_eq rfl rfl rfl (.refl _)
theorem Keeps.endEligible (s : State) (pid : Nat) : Keeps s (s.endEligible pid) := .updPlot _ _ _
theorem Keeps.fresh (s : State) : Keeps s s.fresh.2 := .of_eq rfl rfl rfl (.refl _)
theorem Keeps.count (s : State) (off n : Nat) : Keeps s (s.count off n) := .of_eq rfl rfl rfl (.refl _)
theorem Keeps.setReg (s : State) (off : Nat) (v : DWord) : Keeps s (s.setReg off v) := .of_eq rfl rfl rfl (.refl _)
theorem Keeps.setLine (s : State) (l : LineSt) : Keeps s (s.setLine l) := .of_eq rfl rfl rfl (.refl _)
theorem Keeps.dropL1 (s : State) (core line : Nat) : Keeps s (s.dropL1 core line) := .of_eq rfl rfl rfl (.refl _)
theorem Keeps.dropL1s (s : State) (core : Nat) (ps : List SPart) : Keeps s (s.dropL1s core ps) := by
  unfold State.dropL1s
  exact .foldl _ (fun s p => by split; exacts [.dropL1 _ _ _, .refl _]) _ _
theorem Keeps.updCluster (s : State) (n : Nat) (f : Cluster → Cluster) : Keeps s (s.updCluster n f) := by
  unfold State.updCluster; split <;> exact .of_eq rfl rfl rfl (.refl _)
theorem Keeps.updStage (s : State) (n : Nat) (f : Stage → Stage) : Keeps s (s.updStage n f) := .of_eq rfl rfl rfl (.refl _)
theorem Keeps.arriveAt (s : State) (n port : Nat) (r : AReq) : Keeps s (s.arriveAt n port r) := .updStage _ _ _
theorem Keeps.sendAtomics (s : State) (core : Nat) (l : List AReq) : Keeps s (s.sendAtomics core l) :=
  .foldl _ (fun s r => .arriveAt s _ _ r) _ _
theorem Keeps.sendRemote (s : State) (gid rid part : Nat) (k : PeerKind) (pa : Nat) : Keeps s (s.sendRemote gid rid part k pa) := by
  rw [State.sendRemote_eq]; exact .of_eq rfl rfl rfl (.refl _)
theorem Keeps.updLanes (s : State) (ls : List Nat) (f : Nat → Thread → Thread)
    (hf : ∀ l t, (f l t).live = true → t.live = true ∧ (f l t).target = t.target) : Keeps s (s.updLanes ls f) :=
  .setCur (.foldl _ (fun g l => .updThread g l (f l) (hf l)) _ _)
theorem Keeps.writeLanes (s : State) (d : BitVec 6) (ls : List Nat) (f : Nat → List Word) : Keeps s (s.writeLanes d ls f) :=
  .setCur (.foldl _ (fun g l => .dstN g d l (f l)) _ _)
theorem Keeps.writeLanes1 (s : State) (d : BitVec 6) (ls : List Nat) (f : Nat → Word) : Keeps s (s.writeLanes1 d ls f) :=
  .setCur (.foldl _ (fun g l => .dst g d l (f l)) _ _)
theorem Keeps.writeScalar (s : State) (n : Nat) (x : Word) : Keeps s (s.writeScalar n x) :=
  .setCur (.of_arch rfl rfl rfl rfl)
theorem Keeps.setConv (s : State) (n : Nat) (c : Conv) : Keeps s { s with cur := { s.cur with arch := { s.cur.arch with conv := s.cur.arch.conv.set n c } } } :=
  .setCur (.of_arch rfl rfl rfl rfl)
theorem Keeps.setHyp (s : State) (n : Nat) (v : HVec) : Keeps s { s with cur := s.cur.setHyp n v } := .setCur (.of_arch rfl rfl rfl rfl)
theorem Keeps.setBundle (s : State) (n : Nat) (b : Bundle) : Keeps s { s with cur := s.cur.setBundle n b } := .setCur (.of_arch rfl rfl rfl rfl)
theorem Keeps.addOp (s : State) (id : Nat) (c : Cls) (stamp : Word) (left : Nat) (pages : List (BitVec 128 × DWord)) :
    Keeps s (s.addOp id c stamp left pages) :=
  .setCur (.of_arch rfl rfl rfl rfl)

/-- Making a destination empty moves no thread. -/
theorem Group.Keeps.markEmpty (g : Group) (d : BitVec 6) (n lane id : Nat) : Group.Keeps g (g.markEmpty d n lane id).1 := by
  unfold Group.markEmpty
  split
  · exact .updThread g lane (fun t => { t with v := (List.range n).foldl (fun v j => v.set (d.toNat + j) ⟨(t.getV (d.toNat + j)).val, false, id, none⟩) t.v })
      fun t h => ⟨h, rfl⟩
  · exact .refl _
/-- A thread that starts to wait is going where it was going. -/
theorem Thread.target_wait (t : Thread) (w : Wait) (p : Pos) : ({ t with wait := some w, wnext := t.target, pos := p } : Thread).target = t.target := rfl
theorem Thread.target_hold (t : Thread) (w : Wait) (p : Pos) : (t.hold_ w p).target = t.target := rfl
/-- A thread that leaves a wait stands where it was going. -/
theorem Thread.target_leave (t : Thread) (h : t.wait.isSome = true) : t.leave.target = t.target := by
  simp [Thread.leave, Thread.target, h]
/-- Sending a load leaves its thread going where it was going. -/
theorem Keeps.sendLoad (s : State) (lane : Nat) (d : BitVec 6) (typ hint : Nat) (ea : DWord) (parts : List LPart) :
    Keeps s (s.sendLoad lane d typ hint ea parts) := by
  have hm := Group.Keeps.markEmpty s.cur d (typeRegs typ) lane s.fresh.1
  exact .of_eq rfl rfl rfl (hm.trans (.of_arch rfl rfl rfl rfl))
/-- A store-class word that starts moves no thread. -/
theorem Keeps.startHold (s : State) (a : GArch) (lanes : List Nat) (kind : SKind) (hint : Nat) (parts : List SPart) :
    Keeps s (s.startHold a lanes kind hint parts) := by
  refine ⟨rfl, rfl, fun _ => rfl, fun _ => ⟨rfl, rfl⟩, Group.Keeps.toGoes ?_⟩
  have h : Group.Keeps s.cur (s.cur.mapThreads (fun l t => if s.issue.set.getLsbD l then { t with hold := s.fresh.1 } else t)) :=
    .mapThreads _ _ fun l t h => by split at h <;> simp_all [Thread.target]
  exact h.trans (.of_arch rfl rfl rfl rfl)
theorem Keeps.issueStores (s : State) (a : GArch) (lanes : List Nat) (kind : SKind) (hint : Nat) (beyond : Bool) (parts : List SPart) :
    Keeps s (s.issueStores a lanes kind hint beyond parts) := by
  unfold State.issueStores
  dsimp only
  have h1 : Keeps s (if (beyond && !lanes.isEmpty) = true then s.endEligible s.cur.pid else s) := by
    split; exacts [.endEligible _ _, .refl _]
  split
  · exact h1
  · exact (h1.trans (.dropL1s _ _ _)).trans (.startHold _ _ _ _ _ _)

/-! Homes: reads, writes and wakes. -/

theorem Keeps.watchRow (s : State) (pa : Nat) : Keeps s (s.watchRow pa) := by
  unfold State.watchRow; split <;> exact .of_eq rfl rfl rfl (.refl _)
theorem Keeps.countSector (s : State) (sec : Nat) : Keeps s (s.countSector sec) := by
  unfold State.countSector
  dsimp only
  generalize (alGet s.mem.ecc sec).getD 0 = c
  have h : Keeps s (if (c == 1) = true then s.correct sec else s) := by
    split; exacts [.of_eq rfl rfl rfl (.refl _), .refl _]
  refine h.trans ?_
  generalize (if (c == 1) = true then s.correct sec else s) = u
  split <;> first
    | exact .refl _
    | exact .count _ _ _
    | exact (Keeps.count _ _ _).trans (.watchRow _ _)
    | exact (Keeps.of_eq (E := u) (W := (u.count (telBlock (8 + homeMc sec) + 0x08) 1).countCe (homeMc sec)) rfl rfl rfl (.refl _)).trans (.watchRow _ _)
theorem Keeps.countRead (s : State) (t : Target) (n : Nat) : Keeps s (s.countRead t n) := by
  unfold State.countRead
  split
  · exact .refl _
  · exact .foldl _ (fun s i => .countSector s _) _ _
theorem Keeps.powerUp (s : State) (t : Target) : Keeps s (s.powerUp t) := .of_eq rfl rfl rfl (.refl _)
theorem Keeps.homeRead (s : State) (t : Target) (n : Nat) (pts : Word) : Keeps s (s.homeRead t n pts).1 :=
  (Keeps.powerUp s t).trans ((Keeps.countRead _ t n).trans (.setLine _ _))
theorem Keeps.readStamp (s : State) (t : Target) (n : Nat) (pts : Word) : Keeps s (s.readStamp t n pts).1 := .homeRead _ _ _ _
theorem Keeps.activate (s : State) (pa : Nat) : Keeps s (s.activate pa) := by
  rw [State.activate_eq]; exact .of_eq rfl rfl rfl (.refl _)
theorem Keeps.dropLine (s : State) (n : Nat) : Keeps s (s.dropLine n) := by
  unfold State.dropLine
  dsimp only
  split
  · exact (Keeps.activate s _).trans (.of_eq rfl rfl rfl (.refl _))
  · exact .of_eq rfl rfl rfl (.refl _)
theorem Keeps.allocLine (s : State) (t : Target) (ctx n : Nat) (fill : BitVec 4) (hint : Nat := 0) : Keeps s (s.allocLine t ctx n fill hint) := by
  unfold State.allocLine
  split
  · exact .refl s
  · dsimp only
    generalize (if s.hasLine t.key then s.line t.key else (s.line t.key).retag t.leaf ctx) = l
    have h : Keeps s (if (fill &&& sectors t.off n &&& ~~~l.present != 0) = true then s.activate t.addr else s) := by
      split; exacts [.activate s _, .refl s]
    generalize (if (fill &&& sectors t.off n &&& ~~~l.present != 0) = true then s.activate t.addr else s) = u at h ⊢
    split <;> first | exact h | exact h.trans (.setLine _ _) | (split <;> first | exact h | exact h.trans (.setLine _ _))
theorem Keeps.unalloc (s : State) (was : Bool) (t : Target) (hint : Nat) : Keeps s (s.unalloc was t hint) := by
  unfold State.unalloc; split; exacts [.dropLine _ _, .refl s]
theorem Keeps.readThird (s : State) (t : Target) (n : Nat) (pts : Word) (ctx hint : Nat) : Keeps s (s.readThird t n pts ctx hint).1 :=
  (Keeps.allocLine s t ctx n 15 hint).trans ((Keeps.homeRead _ t n pts).trans (.unalloc _ _ _ _))
theorem Keeps.logLine (s : State) (a : Nat) : Keeps s (s.logLine a) := by
  unfold State.logLine
  dsimp only
  split
  · exact .refl _
  · split
    · exact .refl _
    · split <;> exact .updPlot _ _ _
theorem Keeps.poke (s : State) (t : Target) (bs : List Byte) : Keeps s (s.poke t bs) := by
  unfold State.poke
  split
  · unfold State.markDirty State.reencode
    split <;> exact .of_eq rfl rfl rfl (.refl _)
  · exact .of_eq rfl rfl rfl (.refl _)
  · exact .refl _
  · exact (Keeps.logLine s t.addr).trans (.of_eq rfl rfl rfl (.refl _))
theorem Keeps.arm (s : State) (t : Target) (ctx : Nat) (who : Waiter) : Keeps s (s.arm t ctx who) := by
  unfold State.arm
  dsimp only
  split <;> exact .of_eq rfl rfl rfl (.refl _)
theorem Keeps.updGroup (s : State) (gid : Nat) (f : Group → Group) (hf : s.group gid = some s.cur → Group.Keeps s.cur (f s.cur)) :
    Keeps s (s.updGroup gid f) := by
  unfold State.updGroup
  split
  · rename_i h
    exact .of_eq rfl rfl rfl (hf (by simp only [State.group, h, if_true]))
  · exact .of_eq rfl rfl rfl (.refl _)
theorem Keeps.mapGroups (s : State) (f : Group → Group) (hf : Group.Keeps s.cur (f s.cur)) : Keeps s (s.mapGroups f) := by
  refine .of_eq rfl rfl rfl ?_
  unfold State.mapGroups
  dsimp only
  split
  · exact hf
  · exact .refl _
theorem Keeps.updLaunch (s : State) (lid : Nat) (f : Launch → Launch) (hf : ∀ l, (f l).image = l.image ∧ (f l).lid = l.lid) :
    Keeps s (s.updLaunch lid f) := by
  refine ⟨rfl, rfl, fun _ => rfl, fun n => ?_, (Group.Keeps.refl _).toGoes⟩
  have hmap : ∀ ls : List Launch, (((ls.map (fun l => if l.lid == lid then f l else l)).find? (fun l => l.lid == n)).getD Launch.none).image =
      ((ls.find? (fun l => l.lid == n)).getD Launch.none).image := by
    intro ls
    induction ls with
    | nil => rfl
    | cons x ls ih =>
      have hx : ((if (x.lid == lid) = true then f x else x).lid == n) = (x.lid == n) := by split <;> simp [(hf x).2]
      have hi : (if (x.lid == lid) = true then f x else x).image = x.image := by split <;> simp [(hf x).1]
      rw [List.map_cons, List.find?_cons, List.find?_cons, hx]
      cases x.lid == n
      · exact ih
      · exact hi
  have h := hmap s.launches
  have e : ((s.updLaunch lid f).launch n).image = (s.launch n).image := h
  simp only [Launch.pentry, Launch.dentry, Launch.at, e, and_self]

theorem State.countSector_cur (s : State) (sec : Nat) : (s.countSector sec).cur = s.cur ∧ (s.countSector sec).issue = s.issue := by
  unfold State.countSector State.watchRow
  dsimp only
  generalize (alGet s.mem.ecc sec).getD 0 = c
  have h : (if (c == 1) = true then s.correct sec else s).cur = s.cur ∧ (if (c == 1) = true then s.correct sec else s).issue = s.issue := by
    split <;> exact ⟨rfl, rfl⟩
  generalize (if (c == 1) = true then s.correct sec else s) = u at h ⊢
  split <;> first | exact h | (split <;> exact h)
theorem State.countRead_cur (s : State) (t : Target) (n : Nat) : (s.countRead t n).cur = s.cur ∧ (s.countRead t n).issue = s.issue := by
  unfold State.countRead
  split
  · exact ⟨rfl, rfl⟩
  · rename_i hx
    clear hx
    generalize (List.range (n / 32 + 2)).filter _ = l
    induction l generalizing s with
    | nil => exact ⟨rfl, rfl⟩
    | cons x l ih =>
      rw [List.foldl_cons]
      have h := State.countSector_cur s ((t.addr / 32 + x) * 32)
      exact ⟨(ih _).1.trans h.1, (ih _).2.trans h.2⟩
/-- A read at a home leaves the issuing word and its group as they were. -/
theorem State.homeRead_cur (s : State) (t : Target) (n : Nat) (pts : Word) :
    (s.homeRead t n pts).1.cur = s.cur ∧ (s.homeRead t n pts).1.issue = s.issue := State.countRead_cur (s.powerUp t) t n
theorem State.activate_cur (s : State) (pa : Nat) : (s.activate pa).cur = s.cur ∧ (s.activate pa).issue = s.issue := by
  rw [State.activate_eq]; exact ⟨rfl, rfl⟩
theorem State.dropLine_cur (s : State) (n : Nat) : (s.dropLine n).cur = s.cur ∧ (s.dropLine n).issue = s.issue := by
  unfold State.dropLine
  dsimp only
  split
  · exact s.activate_cur _
  · exact ⟨rfl, rfl⟩
theorem State.allocLine_cur (s : State) (t : Target) (ctx n : Nat) (fill : BitVec 4) (hint : Nat := 0) :
    (s.allocLine t ctx n fill hint).cur = s.cur ∧ (s.allocLine t ctx n fill hint).issue = s.issue := by
  unfold State.allocLine
  split
  · exact ⟨rfl, rfl⟩
  · dsimp only
    generalize (if s.hasLine t.key then s.line t.key else (s.line t.key).retag t.leaf ctx) = l
    have h : ∀ b : Bool, (if b = true then s.activate t.addr else s).cur = s.cur ∧ (if b = true then s.activate t.addr else s).issue = s.issue := by
      intro b; split; exacts [s.activate_cur _, ⟨rfl, rfl⟩]
    have h' := h (fill &&& sectors t.off n &&& ~~~l.present != 0)
    generalize (if (fill &&& sectors t.off n &&& ~~~l.present != 0) = true then s.activate t.addr else s) = u at h' ⊢
    split <;> first | exact h' | (split <;> exact h')
theorem State.unalloc_cur (s : State) (was : Bool) (t : Target) (hint : Nat) : (s.unalloc was t hint).cur = s.cur ∧ (s.unalloc was t hint).issue = s.issue := by
  unfold State.unalloc; split; exacts [s.dropLine_cur _, ⟨rfl, rfl⟩]
/-- A read of memory at its home leaves the issuing word and its group as they were. -/
theorem State.readThird_cur (s : State) (t : Target) (n : Nat) (pts : Word) (ctx hint : Nat) :
    (s.readThird t n pts ctx hint).1.cur = s.cur ∧ (s.readThird t n pts ctx hint).1.issue = s.issue := by
  have h1 := s.allocLine_cur t ctx n 15 hint
  have h2 := (s.allocLine t ctx n 15 hint).homeRead_cur t n pts
  have h3 := State.unalloc_cur ((s.allocLine t ctx n 15 hint).homeRead t n pts).1 (s.hasLine t.key) t hint
  exact ⟨h3.1.trans (h2.1.trans h1.1), h3.2.trans (h2.2.trans h1.2)⟩
theorem State.arm_cur (s : State) (t : Target) (ctx : Nat) (who : Waiter) : (s.arm t ctx who).cur = s.cur ∧ (s.arm t ctx who).issue = s.issue := by
  unfold State.arm; dsimp only; split <;> exact ⟨rfl, rfl⟩

/-! Traps that an effect takes. -/

theorem State.updGroup_cur (s : State) (gid : Nat) (f : Group → Group) :
    (s.updGroup gid f).cur = (if s.issue.active && s.cur.gid == gid then f s.cur else s.cur) ∧ (s.updGroup gid f).issue = s.issue := by
  unfold State.updGroup; split <;> simp_all
theorem State.postWaiting_cur (n : Nat) (s : State) : (postWaiting n s).cur = s.cur ∧ (postWaiting n s).issue = s.issue := by
  induction n generalizing s with
  | zero => exact ⟨rfl, rfl⟩
  | succ n ih =>
    unfold postWaiting
    split
    · exact ⟨rfl, rfl⟩
    · dsimp only
      split
      · exact ⟨(ih _).1, (ih _).2⟩
      · exact ⟨rfl, rfl⟩
theorem State.listPoison_cur (s : State) (t : Trap) : (s.listPoison t).cur = s.cur ∧ (s.listPoison t).issue = s.issue := by
  unfold State.listPoison
  split
  · exact ⟨rfl, rfl⟩
  · split
    · exact ⟨rfl, rfl⟩
    · split <;> exact ⟨rfl, rfl⟩
/-- Where a trap of the issuing group goes: to the handler, or to the driver. -/
theorem State.routeTrap_cur (s : State) (gid : Nat) (t : Trap) (pos : Pos) (kind : TrapKind) (double atEnd : Bool) (slot : Nat) (set : Word)
    (h : (s.issue.active && s.cur.gid == gid) = true) :
    let u := s.routeTrap gid t pos kind double atEnd slot set
    (∃ e, u.cur = { s.cur with esc := some e }) ∨ (double = false ∧ u.cur = s.cur.enterHandler (s.ctx s.cur.ctx).traph) := by
  have hg : s.group gid = some s.cur := by simp only [State.group, h, if_true]
  intro u
  unfold u State.routeTrap
  rw [hg]
  dsimp only
  split
  · rename_i hc
    refine .inr ⟨?_, ?_⟩
    · simp only [Bool.and_eq_true, Bool.not_eq_true'] at hc; exact hc.1.1.1.1.2
    · rw [(s.updGroup_cur gid _).1, if_pos h]
  · refine .inl ?_
    have h1 := s.updGroup_cur gid (fun g => { g with esc := some ⟨t, pos, kind, double, atEnd, slot, set⟩ })
    rw [if_pos h] at h1
    generalize s.updGroup gid _ = v at h1
    have h2 : (v.issue.active && v.cur.gid == gid) = true := by rw [h1.1, h1.2]; exact h
    have h3 : ({ v with mbox := { v.mbox with pending := v.mbox.pending ++ [.esc gid] } } : State).group gid = some v.cur := by
      simp only [State.group, h2, if_true]
    rw [h3]
    exact ⟨_, ((State.postWaiting_cur _ _).1.trans h1.1)⟩
/-- A trap of another group leaves the issuing one as it was. -/
theorem State.routeTrap_other (s : State) (gid : Nat) (t : Trap) (pos : Pos) (kind : TrapKind) (double atEnd : Bool) (slot : Nat) (set : Word)
    (h : (s.issue.active && s.cur.gid == gid) = false) : (s.routeTrap gid t pos kind double atEnd slot set).cur = s.cur := by
  have hu : ∀ f, (s.updGroup gid f).cur = s.cur := fun f => by rw [(s.updGroup_cur gid f).1, h]; rfl
  unfold State.routeTrap
  split
  · rfl
  · dsimp only
    split
    · exact hu _
    · split
      · exact hu _
      · exact (State.postWaiting_cur _ _).1.trans (hu _)
theorem State.takeTrap_double {s : State} {gid : Nat} {g : Group} (hg : s.group gid = some g) (hh : g.trap.handler = true) (t : Trap) (pos : Pos)
    (slot : Nat) (set : Word) : ∃ c q, s.takeTrap gid t pos slot set =
      ((s.listPoison t).updGroup gid (fun g => (g.updTrap (fun x => { x with cause := c, faddr := t.faddr, done := t.done })).mapThreads
        (fun i th => if set.getLsbD i then { th with replayAt := none } else th))).routeTrap gid q pos .plough true false slot set := by
  refine ⟨causeOf { t with code := 0x3F, info := t.code } slot false, { t with code := 0x3F, info := t.code }, ?_⟩
  unfold State.takeTrap
  simp only [hg, hh, if_true]
theorem State.takeTrap_cur (s : State) (gid : Nat) (t : Trap) (pos : Pos) (slot : Nat) (set : Word) :
    let u := s.takeTrap gid t pos slot set
    ((s.issue.active && s.cur.gid == gid) = true → (s.cur.esc.isSome = true → u.cur.esc.isSome = true) ∧ Group.Trapped s.cur u.cur) ∧
    ((s.issue.active && s.cur.gid == gid) = false → u.cur = s.cur) := by
  intro u
  have hp := s.listPoison_cur t
  refine ⟨fun h => ?_, fun h => ?_⟩
  · have hg : s.group gid = some s.cur := by simp only [State.group, h, if_true]
    have step : ∀ (f : Group → Group) (t' : Trap) (double : Bool), (∀ g, (f g).gid = g.gid ∧ (f g).esc = g.esc) →
        (double = false → s.cur.trap.handler = false) →
        (s.cur.esc.isSome = true → ((((s.listPoison t).updGroup gid f).routeTrap gid t' pos .plough double false slot set).cur).esc.isSome = true) ∧
        Group.Trapped s.cur (((s.listPoison t).updGroup gid f).routeTrap gid t' pos .plough double false slot set).cur := by
      intro f t' double hf hd
      have h1 := (s.listPoison t).updGroup_cur gid f
      rw [hp.1, hp.2, if_pos h] at h1
      generalize (s.listPoison t).updGroup gid f = v at h1
      have h2 : (v.issue.active && v.cur.gid == gid) = true := by rw [h1.1, h1.2, (hf _).1]; exact h
      rcases v.routeTrap_cur gid t' pos .plough double false slot set h2 with ⟨e, k⟩ | ⟨hdb, k⟩
      · exact ⟨fun _ => by rw [k]; rfl, .inl (by rw [k]; rfl)⟩
      · refine ⟨fun x => ?_, .inr ⟨hd hdb, by rw [k]; rfl⟩⟩
        rw [k, h1.1]
        show (f s.cur).esc.isSome = true
        rw [(hf _).2]; exact x
    by_cases hh : s.cur.trap.handler = true
    · obtain ⟨c, q, e⟩ := State.takeTrap_double hg hh t pos slot set
      rw [show u = _ from e]
      exact step (fun g => (g.updTrap (fun x => { x with cause := c, faddr := t.faddr, done := t.done })).mapThreads
        (fun i th => if set.getLsbD i then { th with replayAt := none } else th)) q true (fun g => ⟨rfl, rfl⟩) Bool.noConfusion
    · unfold u State.takeTrap
      rw [hg]
      dsimp only
      rw [if_neg hh]
      generalize causeOf t slot false = c
      generalize epcOf ((s.listPoison t).launch s.cur.lid).pentry pos = e
      exact step (fun g => (g.updTrap (fun x => { x with epc := e, cause := c, faddr := t.faddr, done := t.done, hset := set, kind := .plough })).mapThreads
          (fun i th => if set.getLsbD i then { th with ret := pos, replayAt := none } else th)) _ _ (fun g => ⟨rfl, rfl⟩)
        (fun _ => by simpa using hh)
  · unfold u State.takeTrap
    split
    · rfl
    · dsimp only
      have other : ∀ (f : Group → Group) (t' : Trap) (double : Bool),
          (((s.listPoison t).updGroup gid f).routeTrap gid t' pos .plough double false slot set).cur = s.cur := by
        intro f t' double
        have h1 := (s.listPoison t).updGroup_cur gid f
        rw [hp.1, hp.2, h] at h1
        rw [State.routeTrap_other _ _ _ _ _ _ _ _ _ (by rw [h1.1, h1.2]; exact h), h1.1]; rfl
      rename_i g _
      split
      · generalize causeOf { t with code := 0x3F, info := t.code } slot false = c
        exact other (fun g => (g.updTrap (fun x => { x with cause := c, faddr := t.faddr, done := t.done })).mapThreads
          (fun i th => if set.getLsbD i then { th with replayAt := none } else th)) _ _
      · generalize causeOf t slot false = c
        generalize epcOf ((s.listPoison t).launch g.lid).pentry pos = e
        exact other (fun g => (g.updTrap (fun x => { x with epc := e, cause := c, faddr := t.faddr, done := t.done, hset := set, kind := .plough })).mapThreads
            (fun i th => if set.getLsbD i then { th with ret := pos, replayAt := none } else th)) _ _
theorem HomeOnly.issue {s t : State} (h : HomeOnly s t) : t.issue = s.issue := by unfold HomeOnly at h; rw [h]

/-- A woken thread stays where it is and goes where it was going. -/
theorem Thread.woke_live (t : Thread) : t.woke.live = t.live := by
  unfold Thread.woke; dsimp only; split <;> split <;> rfl
theorem Thread.woke_target (t : Thread) : t.woke.target = t.target := by
  unfold Thread.woke; dsimp only
  split <;> split <;> first | rfl | (rename_i h _; simp [Thread.target, Thread.suspAgain, h])
theorem Keeps.wake (s : State) (t : Target) (n : Nat) : Keeps s (s.wake t n) := by
  unfold State.wake
  split
  · dsimp only
    refine Keeps.trans ?_ (.foldl _ (fun s m => ?_) _ _)
    · split <;> exact .of_eq rfl rfl rfl (.refl _)
    · split
      · exact .updGroup _ _ _ fun _ => .updThread _ _ _ fun t h => ⟨by rwa [Thread.woke_live] at h, Thread.woke_target t⟩
      · exact .refl _
  · exact .refl _
theorem Keeps.homeWrite (s : State) (t : Target) (bs : List Byte) (pts : Word) (ctx n count : Nat) :
    Keeps s (s.homeWrite t bs pts ctx n count).1 := by
  unfold State.homeWrite
  dsimp only
  refine Keeps.trans ?_ (.wake _ _ _)
  refine (Keeps.powerUp s t).trans ?_
  split
  · exact .setLine _ _
  · exact (Keeps.setLine _ _).trans (.poke _ _ _)

theorem Keeps.putHome (s : State) (t : Target) (bs : List Byte) (pts : Word) (ctx hint : Nat) : Keeps s (s.putHome t bs pts ctx hint).1 := by
  unfold State.putHome
  dsimp only
  exact ((Keeps.allocLine _ _ _ _ _ _).trans (.homeWrite _ _ _ _ _ _ _)).trans (.unalloc _ _ _ _)
theorem Keeps.atomicAt (s : State) (t : Target) (n : Nat) (f : Nat → Nat) (pts : Word) (ctx m : Nat) : Keeps s (s.atomicAt t n f pts ctx m).1 := by
  unfold State.atomicAt
  dsimp only
  exact (((Keeps.allocLine _ _ _ _ _ _).trans (.countRead _ _ _)).trans (.setLine _ _)).trans ((Keeps.homeWrite _ _ _ _ _ _ _).trans (.unalloc _ _ _ _))

/-! Barriers, exits and the words that wait. -/

/-- A thread that leaves what it waits for goes where it was going. -/
theorem Thread.leaveOf_goes (t : Thread) (p : Wait → Bool) : (t.leaveOf p).live = t.live ∧ (t.leaveOf p).target = t.target := by
  have h : ∀ u : Thread, u.live = t.live ∧ u.target = t.target →
      (match u.susp with | some w => if p w.1 then { u with susp := none, ret := w.2.1 } else u | none => u).live = t.live ∧
      (match u.susp with | some w => if p w.1 then { u with susp := none, ret := w.2.1 } else u | none => u).target = t.target := by
    intro u hu
    split
    · split
      · exact hu
      · exact hu
    · exact hu
  unfold Thread.leaveOf
  refine h _ ?_
  split
  · rename_i hw
    refine ⟨rfl, t.target_leave ?_⟩
    cases hq : t.wait
    · rw [hq] at hw; exact absurd hw (by simp)
    · rfl
  · exact ⟨rfl, rfl⟩
theorem Thread.leaveAt_goes (t : Thread) (p : Wait → Bool) (ts : Word) : (t.leaveAt p ts).live = t.live ∧ (t.leaveAt p ts).target = t.target :=
  Thread.leaveOf_goes _ p
theorem Group.Keeps.freeQueues (g : Group) : Group.Keeps g g.freeQueues := by
  unfold Group.freeQueues
  split
  · exact .refl _
  · exact .of_arch rfl rfl rfl rfl

theorem Keeps.agentPieces (ctx : Nat) (ts : Word) (pa : Nat) (bs : List Byte) (l : List (Nat × Nat)) (s : State) :
    Keeps s (Machine.agentPieces s ctx ts pa bs l).1 := by
  induction l generalizing s ts with
  | nil => exact .refl _
  | cons x l ih =>
    unfold Machine.agentPieces
    dsimp only
    split
    · exact ih _ _
    · exact (Keeps.putHome s _ _ _ _ _).trans (ih _ _)
theorem Keeps.writeRecord (s : State) (g : Group) (a : GArch) (pa : Nat) : Keeps s (s.writeRecord g a pa) :=
  Keeps.trans (b := { s with sched := { s.sched with free := s.sched.free + 8192 } }) (.of_eq rfl rfl rfl (.refl _)) (.agentPieces _ _ _ _ _ _)
theorem Keeps.newInterval (s : State) (pid : Nat) : Keeps s (s.newInterval pid) := by
  have h1 : ∀ (s : State) (n : Nat), Keeps s (s.mapGroups (fun g => if g.pid == pid then { g with shadow := some g.arch, owed := g.deferred, barrier := n } else g)) := fun s n =>
    .mapGroups _ _ (by split; exacts [.of_arch rfl rfl rfl rfl, .refl _])
  unfold State.newInterval
  dsimp only
  refine Keeps.trans ?_ (.updPlot _ _ _)
  refine (h1 s s.sched.nextId).trans ?_
  generalize s.mapGroups _ = u
  have h2 : Keeps u { u with groups := u.groups.filter (fun g => !(g.pid == pid && g.place == Place.gone)) } := .of_eq rfl rfl rfl (.refl _)
  refine h2.trans ?_
  generalize ({ u with groups := u.groups.filter (fun g => !(g.pid == pid && g.place == Place.gone)) } : State) = v
  split
  · exact .foldl _ (fun s g => .writeRecord s g _ _) _ _
  · exact .refl _
theorem Keeps.settlePbar (s : State) (pid : Nat) : Keeps s (s.settlePbar pid) := by
  unfold State.settlePbar
  dsimp only
  split
  · refine Keeps.trans (.mapGroups _ _ ?_) (.newInterval _ _)
    split
    · refine .mapThreads _ _ fun l t h => ?_
      split at h
      · rename_i hp
        rw [if_pos hp]
        exact ⟨hp, (t.leaveAt_goes _ _).2⟩
      · rename_i hp; rw [if_neg hp]; exact ⟨h, rfl⟩
    · exact .refl _
  · exact .refl _
theorem Group.Keeps.leaveSbar (g : Group) (e n : Nat) (ts : Word) : Group.Keeps g (g.leaveSbar e n ts) := by
  refine Group.Keeps.trans (b := { g with arch := { g.arch with sbar := alSet g.arch.sbar e n } }) (.of_arch rfl rfl rfl rfl)
    (.mapThreads _ _ fun l t h => ?_)
  split at h
  · rename_i hp
    rw [if_pos hp]
    simp only [Bool.and_eq_true] at hp
    exact ⟨hp.1, (t.leaveAt_goes _ _).2⟩
  · rename_i hp; rw [if_neg hp]; exact ⟨h, rfl⟩
theorem Keeps.settleBar (s : State) (lid e : Nat) : Keeps s (s.settleBar lid e) := by
  have hl : ∀ (s : State) (b : SetBar), Keeps s (s.updLaunch lid (fun l => l.setBar b)) := fun s b => .updLaunch _ _ _ fun l => ⟨rfl, rfl⟩
  have hm : ∀ (s : State) (p : Group → Bool) (n : Group → Nat) (ts : Word),
      Keeps s (s.mapGroups (fun g => if p g then g.leaveSbar e (n g) ts else g)) := fun s p n ts =>
    .mapGroups _ _ (by split; exacts [.leaveSbar _ _ _ _, .refl _])
  unfold State.settleBar
  dsimp only
  split
  · refine (((hm _ _ _ _).trans (hl _ _)).trans (hm _ _ _ _)).trans (hl _ _)
  · exact (hm _ _ _ _).trans (hl _ _)
theorem Keeps.settleBars (s : State) (lid : Nat) : Keeps s (s.settleBars lid) := by
  unfold State.settleBars; exact .foldl _ (fun s e => .settleBar s lid e) _ _
theorem Group.Keeps.settleMsync (g : Group) : Group.Keeps g g.settleMsync := by
  unfold Group.settleMsync
  refine .foldl _ (fun g r => ?_) _ _
  dsimp only
  split
  · refine Group.Keeps.trans (b := { g with arch := { g.arch with msync := g.arch.msync.filter (fun x => x.mask != r.mask) } })
      (.of_arch rfl rfl rfl rfl) (.mapThreads _ _ fun l t h => ?_)
    split at h
    · rename_i hp
      rw [if_pos hp]
      exact ⟨(t.leaveAt_goes _ _).1 ▸ h, (t.leaveAt_goes _ _).2⟩
    · rename_i hp; rw [if_neg hp]; exact ⟨h, rfl⟩
  · exact .refl _
theorem Group.Keeps.exitLanes (g : Group) (lanes : Word) (pos : Pos) : Group.Keeps g (g.exitLanes lanes pos) := by
  have h : Group.Keeps g (g.mapThreads (fun i t =>
      if lanes.getLsbD i then { t with live := false, wait := none, susp := none, redo := none, exiting := false, hold := 0, kept := [], undo := [], told := none } else t)) :=
    .mapThreads _ _ fun l t h => by
      split at h
      · exact absurd h (by simp)
      · rename_i hp; rw [if_neg hp]; exact ⟨h, rfl⟩
  unfold Group.exitLanes
  dsimp only
  refine Group.Keeps.trans (h.trans ?_) (.freeQueues _)
  exact .of_arch rfl rfl rfl rfl
theorem Keeps.hold (s : State) (ls : List Nat) (w : Wait) (p : Pos) : Keeps s (s.updLanes ls (fun _ t => t.hold_ w p)) :=
  .updLanes _ _ _ fun _ _ h => ⟨h, rfl⟩
theorem Keeps.granAccess (s : State) (cl : Nat) (pts : Word) (wr : Bool) : Keeps s (s.granAccess cl pts wr).1 := by
  unfold State.granAccess; dsimp only; split <;> exact .setLine _ _
theorem Keeps.granHere (s : State) (lanes : List Nat) (wr : Bool) : Keeps s (s.granHere lanes wr) := by
  unfold State.granHere
  dsimp only
  refine Keeps.trans ?_ (.updLanes _ _ _ fun _ t h => ⟨h, rfl⟩)
  split
  · exact (Keeps.granAccess _ _ _ _).trans (.endEligible _ _)
  · exact .granAccess _ _ _ _
theorem Keeps.renew (s : State) (core : Nat) (t : Target) (pts : Word) (ctx : Nat) : Keeps s (s.renew core t pts ctx).1 := by
  unfold State.renew
  dsimp only
  exact ((Keeps.allocLine s { t with addr := t.addr / 128 * 128 } ctx 128 15 0).trans (.countRead _ _ _)).trans (.of_eq rfl rfl rfl (.refl _))
theorem Keeps.listPoison (s : State) (t : Trap) : Keeps s (s.listPoison t) := by
  unfold State.listPoison
  split
  · exact .refl _
  · split
    · exact .refl _
    · split <;> exact .of_eq rfl rfl rfl (.refl _)
theorem Keeps.useAnswer (s : State) (hs : List Holder) (x : Nat) (t : Trap) : Keeps s (s.useAnswer hs x t) := by
  unfold State.useAnswer; split; exacts [.of_eq rfl rfl rfl (.refl _), .refl _]
/-- A prefetch never traps. -/
theorem Keeps.prefetchAt (s : State) (core ctx : Nat) (handler : Bool) (ea : DWord) (hint : Nat) (pts : Word) :
    (∃ t, s.prefetchAt core ctx handler ea hint pts = .ok t ∧ Keeps s t) ∨ (∃ m, s.prefetchAt core ctx handler ea hint pts = .wait m) := by
  unfold State.prefetchAt
  split
  · dsimp only
    split
    · exact .inr ⟨_, rfl⟩
    · refine .inl ?_
      split
      · exact ⟨_, rfl, .refl _⟩
      · split
        · split
          · exact ⟨_, rfl, .refl _⟩
          · exact ⟨_, rfl, .renew _ _ _ _ _⟩
        · exact ⟨_, rfl, (Keeps.allocLine _ _ _ _ _ _).trans (.unalloc _ _ _ _)⟩
  · exact .inl ⟨_, rfl, .refl _⟩
  · exact .inl ⟨_, rfl, (Keeps.useAnswer _ _ _ _).trans (.listPoison _ _)⟩
  · exact .inr ⟨_, rfl⟩
theorem Keeps.prefetches (core ctx : Nat) (handler : Bool) (hint : Nat) (l : List (DWord × Word)) (s : State) :
    (∃ t, s.prefetches core ctx handler hint l = .ok t ∧ Keeps s t) ∨ (∃ m, s.prefetches core ctx handler hint l = .wait m) := by
  induction l generalizing s with
  | nil => exact .inl ⟨s, rfl, .refl s⟩
  | cons p ps ih =>
    rcases Keeps.prefetchAt s core ctx handler p.1 hint p.2 with ⟨t, h, k⟩ | ⟨m, h⟩
    · rcases ih t with ⟨u, h2, k2⟩ | ⟨m, h2⟩
      · exact .inl ⟨u, by simp only [State.prefetches, h, Res.bind, h2], k.trans k2⟩
      · exact .inr ⟨m, by simp only [State.prefetches, h, Res.bind, h2]⟩
    · exact .inr ⟨m, by simp only [State.prefetches, h, Res.bind]⟩
theorem Keeps.markSeq (s : State) (e : Nat) (tok : Option Nat) (reason : Nat) (pts : Word) (ctx : Nat) :
    Keeps s (s.markSeq e tok reason pts ctx).1 := by unfold State.markSeq; dsimp only; exact .putHome _ _ _ _ _ _

end Sys2Proof.Machine
end

