-- ==== Sys2Proof/Laws/Forms.lean ====
section
/-! SUPPORT. The forms in which statements speak of words (`Writes`, `Decides`, `Sets`), from the shape of a word's meaning. -/

namespace Sys2Proof.Machine
open Sys2Proof

/-! Numbers and registers. -/

theorem regsOf_mod (x : Bool) (m n : Nat) (h : m % 2 ^ 64 = n % 2 ^ 64) : regsOf x m = regsOf x n := by
  cases x
  · simp only [regsOf, Bool.false_eq_true, if_false, List.cons.injEq, and_true]
    apply BitVec.eq_of_toNat_eq; simp only [BitVec.toNat_ofNat]; omega
  · simp only [regsOf, if_true, List.cons.injEq, and_true]
    refine ⟨?_, ?_⟩ <;> (apply BitVec.eq_of_toNat_eq; simp only [BitVec.toNat_ofNat]; omega)
theorem regsOf_mod32 (m n : Nat) (h : m % 2 ^ 32 = n % 2 ^ 32) : regsOf false m = regsOf false n := by
  simp only [regsOf, Bool.false_eq_true, if_false, List.cons.injEq, and_true]
  apply BitVec.eq_of_toNat_eq; simpa only [BitVec.toNat_ofNat] using h
theorem regsOf_one (v : Word) : [v] = regsOf false v.toNat := by simp [regsOf]
theorem regsOfInt_false (i : Int) : regsOfInt false i = [BitVec.ofInt 32 i] := by
  simp only [regsOfInt, regsOf, Bool.false_eq_true, if_false, List.cons.injEq, and_true]
  apply BitVec.eq_of_toNat_eq
  simp only [BitVec.toNat_ofNat, BitVec.toNat_ofInt]; omega
theorem regsOf_ofInt (x : Bool) (i : Int) : regsOf x (BitVec.ofInt 64 i).toNat = regsOfInt x i := by
  apply regsOf_mod
  simp only [BitVec.toNat_ofInt]; omega
theorem State.num_false (s : State) (f : BitVec 6) (l : Nat) : s.num false f l = (s.snap.src f l).toNat := by
  have := (s.snap.src f l).isLt
  simp only [State.num, GArch.srcX, Bool.false_eq_true, if_false, BitVec.toNat_setWidth]; omega
theorem State.num_true (s : State) (f : BitVec 6) (l : Nat) : s.num true f l = (s.snap.src64 f l).toNat := rfl
theorem State.int_false (s : State) (f : BitVec 6) (l : Nat) : s.int false f l = (s.snap.src f l).toInt := by
  have := (s.snap.src f l).isLt
  simp only [State.int, State.num_false, toSigned, BitVec.toInt, Bool.false_eq_true, if_false]
  split <;> omega
theorem State.int_true (s : State) (f : BitVec 6) (l : Nat) : s.int true f l = (s.snap.src64 f l).toInt := by
  have := (s.snap.src64 f l).isLt
  simp only [State.int, State.num, GArch.srcX, toSigned, BitVec.toInt, if_true]
  split <;> omega

/-! Words. -/

/-- A word that works lane by lane looks at its effect at the entered state only. -/
theorem runLanes_congr {i : Instr} {s : State} {f g : GArch → List Nat → State → State}
    (h : f s.snap (s.lanes i) (s.entry i) = g s.snap (s.lanes i) (s.entry i)) : runLanes i s f = runLanes i s g := by
  have h' : f s.snap (s.lanes i) (s.enterWord s.snap i (s.lanes i)) = g s.snap (s.lanes i) (s.enterWord s.snap i (s.lanes i)) := h
  simp only [runLanes, runWord, State.wordRes, h']
theorem RegWord.congr {s t : State} {i : Instr} {dest : Nat → Pos} {d : BitVec 6} {fl : Nat} {f g : Nat → List Word}
    (h : ∀ l ∈ s.lanes i, f l = g l) (k : RegWord s t i dest d fl f) : RegWord s t i dest d fl g := by
  refine ⟨k.lane, fun l n h1 h2 h3 => ?_, k.preds, k.back, fun hd h1 => ?_, k.flagged⟩
  · rw [k.regs l n h1 h2 h3]
    by_cases hl : l ∈ s.lanes i
    · rw [h l hl]
    · simp [hl]
  · rw [k.pushed hd (fun l hl => by rw [h l hl]; exact h1 l hl), List.foldl_ext _ _ _ fun _ l hl => by rw [h l hl]]
theorem PredWord.congr {s t : State} {i : Instr} {d : BitVec 6} {fl : Nat} {f g : Nat → Bool}
    (h : ∀ l ∈ s.lanes i, f l = g l) (k : PredWord s t i d fl f) : PredWord s t i d fl g := by
  refine ⟨k.lane, fun l n h1 h2 => ?_, k.regs, k.back, k.flagged⟩
  rw [k.preds l n h1 h2]
  by_cases hl : l ∈ s.lanes i
  · rw [h l hl]
  · simp [hl]

/-- A word whose meaning writes words to thread destinations. -/
theorem writes_of {i : Instr} {d : BitVec 6} {val : GArch → List Nat → Nat → List Word} {val' : State → Nat → List Word}
    (hx : ∀ s, exec i s = runLanes i s (fun a lanes s => s.writeLanes d lanes (val a lanes)))
    (hv : ∀ s, s.canIssue i = true → ∀ l ∈ s.lanes i, val s.snap (s.lanes i) l = val' s l) : Writes i d noFlags val' := by
  intro s h
  obtain ⟨t, h1, h2⟩ := regWord_of_writeLanes' i s d val h
  exact ⟨t, by rw [hx, h1], h2.congr (hv s h)⟩
/-- A word whose meaning writes one word to a thread destination. -/
theorem writes_of1 {i : Instr} {d : BitVec 6} {val : GArch → List Nat → Nat → Word} {val' : State → Nat → List Word}
    (hx : ∀ s, exec i s = runLanes i s (fun a lanes s => s.writeLanes1 d lanes (val a lanes)))
    (hv : ∀ s, s.canIssue i = true → ∀ l ∈ s.lanes i, [val s.snap (s.lanes i) l] = val' s l) : Writes i d noFlags val' :=
  writes_of (val := fun a lanes l => [val a lanes l]) hx hv
/-- A word whose meaning writes one word or a pair to a thread destination. -/
theorem writes_ofX {i : Instr} {d : BitVec 6} {x : Bool} {val : GArch → List Nat → Nat → DWord} {val' : State → Nat → List Word}
    (hx : ∀ s, exec i s = runLanes i s (fun a lanes s => s.writeLanesX x d lanes (val a lanes)))
    (hv : ∀ s, s.canIssue i = true → ∀ l ∈ s.lanes i, regsOf x (val s.snap (s.lanes i) l).toNat = val' s l) : Writes i d noFlags val' := by
  refine writes_of (val := fun a lanes l => if x then wordsOf 2 (val a lanes l).toNat else [(val a lanes l).setWidth 32])
    (fun s => by rw [hx]; simp only [State.writeLanesX_eq]) fun s h l hl => ?_
  rw [← hv s h l hl]
  generalize val s.snap (s.lanes i) l = v
  cases x
  · simp only [regsOf, Bool.false_eq_true, if_false]
    congr 1
  · simp only [regsOf, if_true, wordsOf, List.range_succ, List.range_zero, List.nil_append, List.map_cons, List.map_nil,
      List.cons_append, Nat.mul_zero, Nat.mul_one, Nat.shiftRight_eq_div_pow, Nat.pow_zero, Nat.div_one]
/-- A word whose meaning writes one word and raises flags. -/
theorem rounds_of {i : Instr} {d : BitVec 6} {f : GArch → Nat → FRes} {f' : State → Nat → FRes}
    (hx : ∀ s, exec i s = runFp i s d f) (hf : ∀ s, f s.snap = f' s) : Rounds i d f' := by
  intro s h
  obtain ⟨t, h1, h2⟩ := regWord_of_writeLanes i s d (fun a _ l => [BitVec.ofNat 32 (f a l).val]) (fun a ls => flagsOf ls (fun l => (f a l).flags)) h
  refine ⟨t, by rw [hx, ← h1]; rfl, ?_⟩
  simp only [hf] at h2; exact h2
/-- A word whose meaning writes predicates. -/
theorem decides_of {i : Instr} {d : BitVec 6} {val : GArch → List Nat → Nat → Bool} {val' : State → Nat → Bool}
    (hx : ∀ s, exec i s = runLanes i s (fun a lanes s => s.writePreds d lanes (val a lanes)))
    (hv : ∀ s, s.canIssue i = true → ∀ l ∈ s.lanes i, val s.snap (s.lanes i) l = val' s l) : Decides i d noFlags val' := by
  intro s h
  obtain ⟨t, h1, h2⟩ := predWord_of_writePreds i s d val (fun _ _ => 0) h
  exact ⟨t, by rw [hx, ← h1]; simp only [State.addFlags_zero], h2.congr (hv s h)⟩

end Sys2Proof.Machine
end

