-- ==== Sys2Proof/Tests/Slice0.lean ====
section
/-! SUPPORT. Tests: ill-formed words are refused, words written out from the encodings decode to their instructions, the hypotheses of
every statement can be met, and worked examples of the spec come out as the spec has them. -/

set_option Elab.async false

namespace Sys2Proof.Tests
open Sys2Proof Sys2Proof.Machine

/-! Words and states. -/

/-- A first word with the fields D, A and B, guarded by no predicate. -/
def W (d a b : Nat) : PW := ⟨false, 7, BitVec.ofNat 6 d, BitVec.ofNat 6 a, false, BitVec.ofNat 6 b, false, false⟩
/-- The same with X. -/
def WX (d a b : Nat) : PW := { W d a b with x := true }
/-- A first word with an 8-bit immediate. -/
def WI (d a i : Nat) : PW := ⟨false, 7, BitVec.ofNat 6 d, BitVec.ofNat 6 a, false, BitVec.ofNat 6 (i / 4), i.testBit 1, i.testBit 0⟩
/-- An extension word. -/
def X (body : Nat) : PX := ⟨false, BitVec.ofNat 24 body⟩
/-- An extension word of layout X3: the field vc, RND and MODE. -/
def X3 (vc rnd mode : Nat) : PX := X (vc * 2 ^ 18 + rnd * 2 ^ 14 + mode)
/-- An extension word of layout XM: TYPE, HINT and the high offset. -/
def XM (typ hint off : Nat) : PX := X (typ * 2 ^ 20 + hint * 2 ^ 18 + off)

/-! Every check of a word refuses a term. -/

/-- The field classes of 05 R124 to R127 and 10 R217 to R221. -/
theorem test_ill_formed_fields : ([
    .nop (W 1 0 0), .nop { W 0 0 0 with am := true }, .send { W 0 2 0 with bm := true }, .jmpi (W 0 55 0), .stWide (W 53 2 0) (XM 12 0 0),
    .iadd (W 57 1 2), .iadd (W 62 1 2), .iadd (WX 55 2 4), .ldWide (W 63 2 0) (XM 12 0 0), .ldWide (W 54 2 0) (XM 12 0 0),
    .ldWide (W 57 2 0) (XM 11 0 0), .vany (W 7 0 0), .vany { W 0 0 0 with am := true }, .hdist (W 32 0 1), .mma (W 8 0 1) (X3 0 0 0), .cinit (W 16 2 0),
    .hbind (W 16 0 1), .hthr (W 0 4 0), .waito (WI 4 0 0), .aadd (W 16 0 0), .aadd { W 0 0 0 with bm := true }, .dld (W 56 3 0), .dld (W 55 2 0),
    .dld (W 56 16 0), .dqbr (W 0 57 0), .dnop { W 0 0 0 with c := true }, .dnop { W 0 0 0 with g := 6 }] : List Instr).all (fun i => !i.wf) = true := by
  decide +kernel

/-- X where the entry gives it no meaning, C in the first word of a pair, and the values that an entry's other fields exclude:
control, integer and lane words (05 R132, R138; 06 R149 to R164). -/
theorem test_ill_formed_integer : ([
    .and (WX 1 2 3), .imad { W 1 2 3 with c := true } (X 0), .iaddiWide { W 1 2 3 with c := true } (X 0), .moviWide { W 1 0 0 with c := true } (X 0),
    .csign (WI 0 0 1), .cwait (WI 0 0 1), .csrr (WI 1 0 9), .csrr (WI 1 0 0x14), .csrr (WI 1 0 0x23), .csrr (WI 1 0 0x35), .csrw (WI 0 1 0), .csrw (WI 0 1 0x20),
    .imad (W 1 2 3) (X3 4 0 3), .imad (W 1 2 3) (X3 4 0 6), .imad (W 1 2 3) (X3 4 0 8), .imad (W 1 2 3) (X3 4 4 0), .imad (W 1 2 3) (X3 55 0 4),
    .shli (WI 1 2 128), .shri (WI 1 2 32), .sari (WI 55 2 64), .bitc (W 1 2 0) (X3 0 0 8), .bitc (W 1 2 3) (X3 0 0 0), .bitc (W 55 2 0) (X3 0 0 7),
    .icmp (W 0 1 2) (X3 0 0 10), .icmp (W 0 1 2) (X3 1 0 0), .icmp (W 0 1 2) (X3 1 4 16), .icmp (W 0 1 2) (X3 0 0 128), .icmp (W 7 1 2) (X3 0 0 0),
    .sel (W 1 2 3) (X3 7 0 0), .sel (W 1 2 3) (X3 0 0 2), .bfx (W 1 2 0) (X3 0 0 0), .bfx (W 1 2 0) (X3 0 0 (33 * 32)), .bfx (W 1 2 0) (X3 0 0 (32 * 32 + 1)),
    .bfx (W 1 2 0) (X3 0 0 (4096 + 32)), .bfi (W 1 2 3) (X3 0 0 0), .bfi (W 1 2 3) (X3 0 0 (16 * 32 + 17)), .bfi (W 1 2 3) (X3 0 0 (2048 + 32)),
    .xmov (W 0 0 0) (X3 0 0 0x30), .xmov (W 0 0 0) (X3 0 0 0x12), .xmov (W 0 0 0) (X3 0 0 0x23), .xmov (W 0 0 0) (X3 0 0 0x06),
    .xmov (W 32 0 0) (X3 0 0 0x10), .idp4 (W 1 2 3) (X3 4 0 4), .idp8 (W 1 2 3) (X3 4 4 0), .scan (W 1 2 0) (X3 0 0 11), .scan (W 1 2 0) (X3 0 0 32),
    .scan (W 1 2 0) (X3 0 4 0), .scan (W 1 2 0) (X3 0 1 8), .red (W 1 2 0) (X3 0 0 16), .red (W 1 2 0) (X3 0 0 11), .red (W 1 2 0) (X3 0 4 1)] :
    List Instr).all (fun i => !i.wf) = true := by decide +kernel

/-- Floating-point and special-function words (07 R168 to R181). -/
theorem test_ill_formed_float : ([
    .fadd (WX 1 2 3), .faddWide (W 1 2 3) (X3 0 0 1), .faddWide (W 1 2 3) (X3 0 1 0), .fsubWide (W 1 2 3) (X3 0 3 0), .fmulWide (W 1 2 3) (X3 1 0 0),
    .ffma (W 1 2 3) (X3 4 0 4), .ffma (W 1 2 3) (X3 4 2 0), .fcmp (W 0 1 2) (X3 0 0 8), .fcmp (WX 0 1 2) (X3 0 0 0), .fsgn (W 1 2 3) (X3 0 0 4),
    .fsgn (W 1 2 3) (X3 0 0 1), .fsgn (W 1 2 3) (X3 0 4 0), .haddWide (W 1 2 3) (X3 0 0 2), .hfma (W 1 2 3) (X3 4 1 0), .fcvt (W 1 2 0) (X3 0 0 0x8C),
    .fcvt (W 1 2 0) (X3 0 0 0x99), .fcvt (W 1 2 0) (X3 0 0 0x0D9), .fcvt (W 1 2 0) (X3 0 0 0x288), .fcvt (W 1 2 3) (X3 0 0 0x88), .fcvt (WX 1 2 3) (X3 0 0 0x98),
    .fcvt (W 1 55 2) (X3 0 0 0xD8), .fcvt (W 1 2 0) (X3 0 1 0x88), .fcvt (W 1 2 0) (X3 0 0 0x48A), .icvt (W 1 2 0) (X3 0 0 0x88), .icvt (W 1 2 0) (X3 0 0 0x44),
    .icvt (W 1 2 0) (X3 0 0 0x184), .icvt (W 55 2 0) (X3 0 0 0x68), .icvt (W 1 55 0) (X3 0 0 0x86), .rcpWide (W 1 2 0) (X3 0 4 0), .rsqWide (WX 1 2 0) (X3 0 4 1),
    .tanh (W 1 2 3)] : List Instr).all (fun i => !i.wf) = true := by decide +kernel

/-- Memory, barrier and channel words (05 R123; 08 R186 to R199; 09 R202 to R216). -/
theorem test_ill_formed_memory : ([
    .ldpWide (W 1 2 0) (XM 9 0 0), .ldsWide (W 1 2 0) (XM 4 1 0), .stcWide (W 1 2 0) (XM 13 0 0), .stxWide (W 1 2 0) (XM 4 2 0), .ldWide (W 1 2 0) (XM 15 0 0),
    .ldWide (W 1 2 0) (XM 4 3 0), .stWide (W 1 2 0) (XM 11 0 0), .stWide (W 1 2 0) (XM 4 3 0), .stWide (W 55 2 0) (XM 6 0 0), .ldWide (W 55 2 0) (XM 7 0 0),
    .ld (W 1 55 0), .pref (W 1 2 0), .prefWide (W 0 2 0) (XM 3 0 0), .prefWide (W 0 2 0) (XM 4 2 0), .discard (WI 0 2 1), .tagsetWide (W 1 2 0) (XM 0 0 0),
    .tagsetWide (W 1 2 0) (XM 4 1 0), .hldWide (W 0 2 0) (XM 5 0 0), .hstWide (W 0 2 0) (XM 4 3 0), .redm (W 0 2 4) (X3 0 0 8), .redm (W 1 2 4) (X3 0 0 0),
    .redm (W 0 2 4) (X3 0 0 128), .atom (W 1 2 4) (X3 0 0 12), .atom (W 1 2 4) (X3 0 0 0x30), .atom (W 1 2 4) (X3 0 0 0x20), .atom (W 1 2 4) (X3 0 0 0x1B),
    .atom (WX 1 2 4) (X3 0 0 0), .atom (W 1 2 4) (X3 0 0 0x40), .atom (W 1 2 53) (X3 0 0 0x28), .atomx (W 1 2 4) (X3 1 0 0), .cas (W 1 2 4) (X3 6 0 1),
    .cas (W 1 2 4) (X3 6 0 0x30), .cas (W 1 2 4) (X3 53 0 0x20), .casx (WX 1 2 4) (X3 6 0 0), .waita (W 1 2 4) (X3 0 0 2), .waita (W 1 2 4) (X3 0 0 10),
    .waita (W 1 2 4) (X3 7 0 0), .waita (W 1 2 4) (X3 0 0 64), .waitc (W 1 2 4) (X3 0 0 1), .waitc (W 55 2 4) (X3 0 0 0), .kbinit (W 1 2 3), .recv (W 1 2 0),
    .pbar (W 1 0 0), .msync (W 1 2 0)] : List Instr).all (fun i => !i.wf) = true := by decide +kernel

/-- Matrix, hypervector and Drill words (10 R217 to R230; 11 R251 to R255; 12 R269 to R280). -/
theorem test_ill_formed_matrix_drill : ([
    .plane (W 0 1 0) (X3 0 0 (12 * 256)), .plane (W 0 1 0) (X3 0 0 (4096 + 8 * 256)), .plane { W 0 1 0 with c := true } (X3 0 0 (8 * 256)),
    .plane (W 0 1 0) (X3 0 4 (8 * 256)), .unplane (W 0 1 0) (X3 0 0 (7 * 256)), .unplane (WX 0 1 0) (X3 0 0 (8 * 256)), .unplane (W 0 1 0) (X3 0 4 (11 * 256)),
    .mma (W 0 1 2) (X3 1 0 0), .mma (W 0 1 2) (X3 1 0 512), .mma (W 0 1 2) (X3 0 0 1024), .mma (W 0 1 2) (X3 0 0 2048), .mma (W 0 1 2) (X3 0 4 0),
    .hbund (W 0 1 4), .hgwr (WX 0 1 2), .hqry (W 3 1 2) (X3 3 0 0), .hqry (W 3 1 2) (X3 4 0 1), .nanr (W 57 1 0), .hperm (W 16 1 2),
    .dend (WX 0 0 0), .dbra { W 0 0 0 with c := true }, .dloop (WX 0 1 0) (X 1), .dloop (W 0 1 0) (X 1), .dloop (W 4 0 0) (X 1), .dloop (W 0 0 0) ⟨true, 1⟩,
    .dnext (WI 0 0 32), .dnext (WI 0 0 1), .dnext (WI 0 1 0), .ashli (WI 0 1 192), .aaddiWide (W 0 1 0) ⟨true, 0⟩, .amovi (WI 0 1 0), .amul (WX 0 1 2),
    .dldWide (W 56 2 0) (XM 6 0 0), .dldWide (W 56 2 0) (XM 4 3 0), .dldxWide (W 56 2 0) (XM 9 0 0), .dldsWide (W 56 2 0) (XM 4 1 0),
    .dldcWide (W 56 2 0) (XM 6 0 0), .dgath (W 56 1 56) (XM 12 0 0), .dgath (W 56 1 55) (XM 4 0 0), .dpush (W 56 1 0), .dqbr (W 0 56 32), .dcopy (W 1 0 0),
    .dprefWide (W 0 2 0) (XM 3 0 0), .dprefWide (W 0 2 0) (XM 4 2 0), .dwaito (WI 4 0 0)] : List Instr).all (fun i => !i.wf) = true := by decide +kernel

/-! States. -/

/-- A launch entry: one group, 64 bytes of lane slice, 1024 of plot scratchpad, 1024 of cluster memory. -/
def image : BitVec 2048 := BitVec.ofNat 2048 (4 * 2 ^ 77 + 2 ^ 96 + 2 * 2 ^ 107)
def launch : Launch := { codeLaunch with
  image := image, sets := [[(0, 0)]], callocs := [⟨0, 0, 1⟩], bdesc := [2, 5, 6],
  chans := [⟨0, 1, 2, [3, 3], [], [], []⟩, ⟨0, 0, 1, [], [], [(bytesOf 128 (7 + 9 * 2 ^ 32), 4)], []⟩] }
def plot : Plot := { codePlot with size := 1024, alloc := 1 }
def ctx : Ctx := { codeCtx with cssize := 1, traph := 0x1000, domains := 2 }
/-- Reset, with one launch, plot and context, and the lowest 1 GiB mapped. -/
def base : State := { State.reset.withWord 0 0 with launches := [launch], plots := [plot], ctxs := [ctx] }
/-- A group with `n` live threads; its Drill stream runs where `drill` holds. -/
def group (drill : Bool) (n : Nat) : Group :=
  let g := codeGroup drill
  { g with width := n, arch := { g.arch with threads := GArch.start.threads.mapIdx (fun i t => { t with live := decide (i < n) }) } }
/-- Two of three live threads issue. -/
def demo : State := base.issueState (group false 3) false 3 ⟨0, 0⟩
/-- One thread issues. -/
def solo : State := base.issueState (group false 3) false 1 ⟨0, 0⟩
/-- The Drill stream issues. -/
def drill : State := base.issueState (group true 3) true 0 ⟨0, 0⟩
/-- A register of a lane of the issuing group holds a value. -/
def reg (l n v : Nat) (s : State) : State :=
  { s with cur := s.cur.updThread l (fun t => { t with v := t.v.set n ⟨BitVec.ofNat 32 v, true, 0, none⟩ }) }
/-- A predicate of a lane of the issuing group holds. -/
def predOn (l n : Nat) (s : State) : State := { s with cur := s.cur.updThread l (fun t => t.setP n true) }
/-- The trap state, the group, and a register of the device. -/
def trapSt (f : TrapSt → TrapSt) (s : State) : State := { s with cur := s.cur.updTrap f }
def dreg (off v : Nat) (s : State) : State := s.setReg off (BitVec.ofNat 64 v)
def isOk {α : Type} (r : Res α) : Bool := match r with | .ok _ => true | _ => false
def isTrap {α : Type} (code : Nat) (r : Res α) : Bool := match r with | .trap t => t.code == code | _ => false
/-- The outcome is a next state that has the property. -/
def next (o : Host.Outcome State Fault Refusal) (p : State → Bool) : Bool := match o with | .next t => p t | _ => false
def fetches (r : Res Instr) (i : Instr) : Bool := match r with | .ok x => x == i | _ => false
def can (s : State) (is : List Instr) : Bool := is.all s.canIssue

/-! The hypotheses of the statements can be met. -/

/-- DecodeOfEncode: words of every stream have an encoding. -/
theorem test_meets_DecodeOfEncode : ([.nop (W 0 0 0), .imad (W 1 2 3) (X 0), .dnop (W 0 0 0), .dgath (W 56 1 56) (X 0)] : List Instr).all
    (fun i => encode i != []) = true := by decide +kernel

/-- StepRunsTheWord: a turn that issues IADD v20, v1, v2, and a Drill turn that issues AMOVI a1, 5; neither traps nor waits. -/
theorem test_meets_StepRunsTheWord :
    (let s := State.reset.withWord 32 0x10EA0404
     let s1 := { s with sched := { s.sched with turn := [] } }
     let g := codeGroup false
     let g1 := { g.skips [0] [0] with lastSel := 0 }
     let s2 := s1.issueState g1 false (maskOfList [0]) ⟨0, 0⟩
     s.sched.agenda == [] && s.sched.turn == [.plough 0] && s1.ploughOrder 0 == [g] && s1.readyLanes g == [0] && choosePos g [0] == ⟨0, 0⟩ &&
     fetches (s2.fetchInstr g1 false ⟨0, 0⟩) (.iadd (W 20 2 1)) &&
     next (exec (.iadd (W 20 2 1)) s2) (fun t => !t.issue.trapped && !t.issue.blocked)) = true ∧
    (let s := State.reset.withWord 32 0x0AE08005
     let s1 := { s with sched := { s.sched with turn := [] } }
     let g := codeGroup true
     let g1 := { g with dlastSel := 0 }
     let s2 := s1.issueState g1 true 0 ⟨0, 0⟩
     s.sched.agenda == [] && s.sched.turn == [.drill 0] && s1.drillOrder 0 == [g] &&
     fetches (s2.fetchInstr g1 true ⟨0, 0⟩) (.amovi (WI 1 0 5)) &&
     next (exec (.amovi (WI 1 0 5)) s2) (fun t => !t.issue.trapped && !t.issue.blocked)) = true := by decide +kernel

/-- InvariantsKept: reset is at rest with canonical memories, and a step goes on from it. -/
theorem test_meets_InvariantsKept : State.reset.resting ∧ State.reset.memoryWf ∧ next (step State.reset) (fun _ => true) = true := by
  refine ⟨⟨rfl, rfl⟩, ⟨rfl, rfl, rfl, rfl⟩, by decide +kernel⟩

/-- IntegerArithmetic, LogicShiftsAndFields, ComparesAndMoves: each word can issue, with each value of its mode. -/
theorem test_meets_integer_words : can demo ([
    .iadd (W 3 2 1), .iadd (WX 54 2 4), .isub (W 3 2 1), .isub (WX 4 2 54), .imul (W 3 2 1), .imul (WX 4 2 6), .imulh (W 3 2 1), .imulh (WX 3 2 1),
    .imin (W 3 2 1), .imin (WX 3 2 1), .imax (W 63 2 1), .imax (WX 3 2 1), .imad (W 3 2 1) (X3 4 0 0), .imad (W 3 2 1) (X3 4 0 1), .imad (W 3 2 1) (X3 4 0 2),
    .imad (W 6 2 1) (X3 4 0 4), .imad (W 6 2 1) (X3 4 0 5), .and (W 3 2 1), .or (W 3 2 1), .xor (W 3 2 1), .shl (W 3 2 1), .shl (WX 4 2 1), .shr (W 3 2 1),
    .sar (WX 4 2 1), .iaddi (WI 3 2 255), .iaddiWide (WI 3 2 255) (X 0xFFFFFF), .movi (WI 3 0 128), .moviWide (WI 3 0 1) (X 5), .shli (WI 3 2 31),
    .shli (WI 4 2 127), .shri (WI 4 2 64), .sari (WI 3 2 0), .bitc (W 3 2 0) (X3 0 0 0), .bitc (W 3 2 0) (X3 0 0 5), .bitc (W 3 2 0) (X3 0 0 2),
    .bitc (W 4 2 0) (X3 0 0 7), .bitc (W 3 2 0) (X3 0 0 3), .bfx (W 3 2 0) (X3 0 0 (32 * 32)), .bfx (W 3 2 0) (X3 0 0 (2048 + 32 + 31)),
    .bfi (W 3 2 1) (X3 0 0 (16 * 32 + 16)), .icmp (W 0 2 1) (X3 0 0 0), .icmp (WX 6 2 4) (X3 6 0 (9 + 3 * 16 + 64)), .icmp (W 0 2 1) (X3 1 0 (5 + 16)),
    .icmp (W 0 2 1) (X3 1 0 (6 + 32)), .sel (W 3 2 1) (X3 0 0 1), .sel (WX 4 2 6) (X3 6 0 0), .xmov (W 3 2 0) (X3 0 0 0), .xmov (W 3 31 0) (X3 0 0 1),
    .xmov (W 3 6 0) (X3 0 0 2), .xmov (W 3 15 0) (X3 0 0 3), .xmov (W 3 15 0) (X3 0 0 4), .xmov (W 3 3 0) (X3 0 0 5), .xmov (W 31 2 0) (X3 0 0 0x10),
    .xmov (W 6 2 0) (X3 0 0 0x20), .xmov (W 6 5 0) (X3 0 0 0x22)] : List Instr) = true := by decide +kernel

/-- VotesAndShuffles, ScansAndReductions, PackedDotProducts. -/
theorem test_meets_lane_words : can demo ([
    .vany (W 0 1 0), .vall (W 6 1 0), .vbal (W 3 1 0), .matchv (W 3 2 0), .matchv (WX 3 2 0), .elect (W 0 0 0), .shfl (W 3 2 1), .shfl (WX 4 2 1),
    .shup (W 3 2 1), .shdn (W 3 2 1), .shxr (W 3 2 1), .shxr (WX 4 2 6), .red (W 3 2 0) (X3 0 0 0), .red (W 3 2 0) (X3 0 0 6), .red (W 3 2 0) (X3 0 7 8),
    .scan (W 3 2 0) (X3 0 0 16), .scan (W 3 2 0) (X3 0 0 10), .idp4 (W 3 2 1) (X3 4 0 0), .idp4 (WX 3 2 1) (X3 4 0 3), .idp8 (WX 3 2 1) (X3 4 0 1),
    .idp8 (W 3 2 1) (X3 4 0 2)] : List Instr) = true := by decide +kernel

/-- FloatArithmetic, FloatCompareAndSign, Conversions, SpecialFunctions. -/
theorem test_meets_float_words : can demo ([
    .fadd (W 3 2 1), .faddWide (W 3 2 1) (X3 0 7 0), .fsub (W 3 2 1), .fsubWide (W 3 2 1) (X3 0 4 0), .fmul (W 3 2 1), .fmulWide (W 3 2 1) (X3 0 5 0),
    .ffma (W 3 2 1) (X3 4 6 3), .fmin (W 3 2 1), .fmax (WX 3 2 1), .hadd (W 3 2 1), .haddWide (WX 3 2 1) (X3 0 4 0), .hsub (WX 3 2 1),
    .hsubWide (W 3 2 1) (X3 0 0 0), .hmul (W 3 2 1), .hmulWide (W 3 2 1) (X3 0 7 0), .hfma (WX 3 2 1) (X3 4 4 1), .hmin (W 3 2 1), .hmax (WX 3 2 1),
    .fcmp (W 0 2 1) (X3 0 0 7), .fcmp (W 6 2 1) (X3 6 0 (2 + 48 + 64)), .fsgn (W 3 2 1) (X3 0 0 0), .fsgn (W 3 2 0) (X3 0 0 1), .fsgn (WX 3 2 0) (X3 0 0 2),
    .fsgn (W 3 2 1) (X3 0 0 3), .fcvt (W 3 2 0) (X3 0 4 0x88), .fcvt (W 3 2 1) (X3 0 0 0x98), .fcvt (W 3 2 1) (X3 0 0 0xA8), .fcvt (WX 8 2 4) (X3 0 0 0xD8),
    .fcvt (W 8 2 4) (X3 0 0 0xE8), .fcvt (W 3 2 0) (X3 0 0 0x189), .fcvt (W 3 2 0) (X3 0 0 0x38E), .fcvt (W 3 2 0) (X3 0 0 0xA9), .fcvt (W 3 2 0) (X3 0 0 0x9A),
    .icvt (W 3 2 0) (X3 0 0 0x48), .icvt (W 4 2 0) (X3 0 0 0x78), .icvt (W 3 2 0) (X3 0 0 0x85), .icvt (W 3 2 0) (X3 0 0 0x86), .rcp (W 3 2 0),
    .rcpWide (WX 3 2 0) (X3 0 4 0), .rsq (W 3 2 0), .rsqWide (W 3 2 0) (X 0), .sqrt (WX 3 2 0), .sqrtWide (WX 3 2 0) (X3 0 7 0), .ex2 (W 3 2 0),
    .ex2Wide (WX 3 2 0) (X 0), .lg2 (W 3 2 0), .lg2Wide (WX 3 2 0) (X 0), .sinp (W 3 2 0), .sinpWide (W 3 2 0) (X 0), .cosp (W 3 2 0), .cospWide (W 3 2 0) (X 0),
    .tanh (W 3 2 0), .tanhWide (W 3 2 0) (X 0)] : List Instr) = true := by decide +kernel

/-- RoundingAndNans: a position below the rounding's, a representable number, and NaN operands; SpecialFunctions: a number, results that
are numbers, and the first and last powers of two. -/
theorem test_meets_RoundingAndNans : (-3 : Int) < -2 ∧ Fmt.f32.unpack 0x3F800000 = .fin false 0x800000 (-23) ∧
    (Fmt.f32.unpack 0x7FC00000).isNan = true ∧ (Fmt.f16.unpack 0x7C01).isSig = true ∧ (Fmt.f32.unpack 0x3F000000).isNan = false ∧
    (Fmt.f32.unpack 0x7F7FFFFF).isNan = false ∧ (0x7F800000 < 0x7F800001 % 2 ^ 31) ∧ 2 ^ 23 ≤ 0x7F7FFFFF ∧
    ((List.range 4).flatMap (fun md => ([1, 253] : List Nat).map (fun k => specialFn 0 true md (k * 2 ^ 23)))).all
      (fun r => r == ⟨253 * 2 ^ 23, 0⟩ || r == ⟨2 ^ 23, 0⟩) = true := by decide +kernel

/-! Traps and control words. -/

/-- A register of a lane is empty, with a producer. -/
def emptyReg (l n : Nat) (s : State) : State :=
  { s with cur := s.cur.updThread l (fun t => { t with v := t.v.set n ⟨0, false, 9, none⟩ }) }
/-- A register pair of both active lanes. -/
def pairs (n v : Nat) (s : State) : State :=
  reg 0 n (v % 2 ^ 32) (reg 0 (n + 1) (v / 2 ^ 32) (reg 1 n (v % 2 ^ 32) (reg 1 (n + 1) (v / 2 ^ 32) s)))
/-- One register of both active lanes. -/
def both (n v : Nat) (s : State) : State := reg 0 n v (reg 1 n v s)
def convReg (n : Nat) (c : Conv) (s : State) : State := { s with cur := { s.cur with arch := { s.cur.arch with conv := s.cur.arch.conv.set n c } } }
/-- In handler mode, with the issuing threads in the handler set. -/
def handling (s : State) : State := trapSt (fun t => { t with handler := true, hset := 7 }) s
/-- The pages of the lowest 1 GiB have another leaf. -/
def leafed (e : BitVec 128) (s : State) : State := { s with mem := { s.mem with tlb := [⟨.core 0, 0, 0, e⟩] } }

/-- A chain whose accesses are still to come. -/
def deferring (s : State) : State := { s with issue := { s.issue with defers := true } }
/-- EnteringAWord: an illegal word of each stream, a word that is not ready, a word whose source traps, one whose tie register is marked,
and each word that such a chain keeps. -/
theorem test_meets_EnteringAWord :
    (demo.issue.active && demo.illegalHere (.iadd (W 57 2 1)) && drill.illegalHere (.dnop { W 0 0 0 with g := 6 }) &&
     (let s := emptyReg 1 2 demo
      let i : Instr := .iadd (W 3 2 1)
      !s.illegalHere i && (s.lanes i).any (fun l => !s.laneReady s.snap i l)) &&
     (let s := emptyReg 1 2 demo
      let i : Instr := .iadd { W 3 2 1 with am := true }
      !s.illegalHere i && (s.lanes i).all (fun l => s.laneReady s.snap i l) &&
       (((s.lanes i).flatMap (fun l => (Instr.fields i).filterMap (fun x => x.trap s.snap l))).head?).isSome) &&
     (let i : Instr := .hthr (W 0 3 0)
      let s := { demo with cur := { demo.cur with arch := { demo.cur.arch with h := demo.cur.arch.h.set 0 ⟨0, 0, some ⟨0x1A, 3, 256⟩⟩ } } }
      !s.illegalHere i && (s.lanes i).all (fun l => s.laneReady s.snap i l) && (srcTrap s.snap i (s.lanes i)).isNone &&
        (tieTrap s.snap i (s.lanes i)).isSome) &&
     (let may (s : State) (i : Instr) : Bool := let d := deferring s; d.mayIssue i && d.issue.defers && d.lanes i != []
      let stepping := { demo with launches := [{ launch with image := BitVec.ofNat 2048 (4 * 2 ^ 77 + 2 ^ 96 + 2 * 2 ^ 107 + 0x40) }] }
      may (both 2 1023 demo) (.hgwr (W 0 1 2)) && may (both 2 (1024 + 7) demo) (.hgwr (W 0 1 2)) && demo.granted 0 1 &&
      may (both 2 (1024 * 1024) demo) (.hqry (WX 3 1 2) (X3 4 0 0)) && (stepping.launch 3).step && (stepping.launch 3).batch == [5, 6] &&
      may (both 2 9 (both 3 6 stepping)) (.stopt (W 6 2 3)) && may (both 2 5 (both 3 255 stepping)) (.sret (W 0 2 3)) &&
      may (handling demo) (.eret (W 0 0 0)) && may (both 2 31 demo) (.nanr (WX 3 2 0)) && may (both 2 1023 demo) (.csrw (WI 0 2 0x13)) &&
      may (handling demo) (.csrw (WI 0 2 0x34)))) = true := by decide +kernel

/-- TakingATrap and TrapsForTheDriver: a trap outside handler mode with a handler, without one, of a context whose traps the host takes,
of a code that always goes to the driver, and in handler mode. -/
theorem test_meets_TakingATrap :
    (demo.issue.active && !demo.issue.drill && !demo.cur.trap.handler && (demo.ctx 0).traph != 0 && !demo.fsplit 2 && !routeDriver 0x03 &&
     demo.issue.set != 0 && ({ demo with ctxs := [codeCtx] } : State).ctx 0 == codeCtx && codeCtx.traph == 0 && (dreg 0 4 demo).fsplit 2 &&
     routeDriver 0x18 && (handling demo).cur.trap.handler) = true := by decide +kernel

/-- BranchesAndJumps: targets at the edge of the range, and register values that are positions, slots only, and neither. -/
theorem test_meets_BranchesAndJumps :
    (can demo [.nop (W 0 0 0), .cwait (W 3 0 0), .bra (WI 0 0 5), .bra { W 31 63 63 with am := true, bm := true, x := true },
       .call { W 32 0 0 with x := true }] &&
     inRange demo.rangeBase (demo.issue.pos.pc + (WI 0 0 5).off21.signExtend 64) && inRange demo.rangeBase (demo.issue.pos.pc + (W 32 0 0).off21.signExtend 64) &&
     (let s := pairs 2 (2 ^ 31 - 4) demo
      can s [.jmpi (W 0 2 0), .calli (W 54 2 0), .ret (W 0 2 0)] && s.num true 2 0 == 2 ^ 31 - 4 && inRange s.rangeBase (BitVec.ofNat 64 (2 ^ 29 - 1))) &&
     (let s := pairs 2 2 demo
      can s [.jmpi (W 0 2 0), .calli (W 54 2 0), .ret (W 0 2 0)] && s.num true 2 1 % 4 == 2) &&
     (let s := pairs 2 3 demo
      can s [.ret (W 0 2 0)] && s.num true 2 0 % 4 == 3) &&
     (let s := pairs 2 (2 ^ 54) demo
      can s [.jmpi (W 0 2 0), .calli (W 54 2 0), .ret (W 0 2 0)] && s.num true 2 0 == 2 ^ 54)) = true := by decide +kernel

/-- ExitOfThreads, YieldExchanges, TrapAndReturn. -/
theorem test_meets_EXIT_YIELD_TRAP_ERET :
    (can demo [.exit (W 0 0 0), .yield (W 0 0 0), .trap (WI 0 0 255), .eret (W 0 0 0)] && demo.issue.holdId == 0 &&
     (demo.lanes (.exit (W 0 0 0))).all (fun l => (demo.cur.thread l).wait == none) && demo.cur.arch.conv.all (fun c => !c.matrix) &&
     (let h := { group false 1 with gid := 9, place := .woken 0 false }
      let s := { demo with groups := [h] }
      can s [.yield (W 0 0 0)] && s.wakeQueue s.cur.core == [h] && s.cur.place == .slot 0) && demo.wakeQueue 0 == [] &&
     demo.lanes (.eret (W 0 0 0)) != [] && !demo.cur.trap.handler &&
     (let s := handling demo
      can s [.eret (W 0 0 0)] && s.cur.trap.handler && s.cur.trap.pending == none &&
      (lanesOf s.issue.set).all (fun l => s.cur.trap.hset.getLsbD l && (s.cur.thread l).wait == none && inRange 0 (epcPos 0 s.cur.trap.epc).pc))) =
      true := by decide +kernel

/-- ConvergenceRounds: a free register, a declared one, one that lacks only these lanes, and ones that do not allow the word. -/
theorem test_meets_ConvergenceRounds :
    (let i : Instr := .csign (W 15 0 0)
     let d (decl sign : Word) (m : Bool) : State := convReg 15 ⟨decl, sign, m, ⟨0, 0⟩, none⟩ demo
     can demo [.cinit (W 15 2 0), i] && demo.issue.holdId == 0 &&
     can (d 7 0 false) [i] && can (d 7 4 false) [i] && ((d 7 4 false).cur.arch.cv 15).sign != 0 && maskOfList ((d 7 4 false).lanes i) == 3 &&
     can (d 7 4 false) [.cinit (W 15 2 0)] && can (d 7 4 true) [i] && can (d 4 0 false) [i] && can (d 7 1 false) [i]) = true := by decide +kernel

/-- StateRegisters: every state register, the values at the edges of what each takes, batch words and NaN counts. -/
theorem test_meets_StateRegisters :
    (can demo (([0, 1, 2, 3, 4, 5, 6, 7, 8, 0x10, 0x11, 0x12, 0x13, 0x20, 0x21, 0x22, 0x30, 0x31, 0x32, 0x33, 0x34] : List Nat).map (fun n => .csrr (WI 3 0 n))) &&
     ([(0x10, 1), (0x10, 5), (0x11, 0x1F03), (0x12, 15), (0x13, 1023)] : List (Nat × Nat)).all
       (fun e => let s := both 2 e.2 demo
                 can s [.csrw (WI 0 2 e.1)] && (s.snap.src 2 0).toNat == e.2) &&
     ([(0x10, 0), (0x10, 6), (0x11, 4), (0x12, 16), (0x13, 1024)] : List (Nat × Nat)).all
       (fun e => let s := both 2 e.2 demo
                 let source : Fld := ⟨.src 1, (WI 0 2 e.1).a, false, true⟩
                 s.issue.active && s.snap.active s.issue.set (WI 0 2 e.1).g == [0, 1] && (s.snap.src 2 0).toNat == e.2 && !source.holds s.snap 0 &&
                   source.trap s.snap 0 == none) &&
     can (handling demo) (([0x30, 0x31, 0x32, 0x33, 0x34] : List Nat).map (fun n => .csrw (WI 0 2 n))) &&
     demo.lanes (.csrw (WI 0 2 0x10)) == [0, 1] && can demo [.qent (WI 3 2 2), .qent (WI 3 2 3)] && launch.bdesc.length == 3 &&
     (let s := both 2 31 demo; can s [.nanr (W 3 2 0), .nanr (WX 3 2 0)] && s.num false 2 1 == 31) &&
     (let s := reg 1 2 32 demo; can s [.nanr (W 3 2 0)] && s.num false 2 1 == 32)) = true := by decide +kernel

/-! Memory words. -/

/-- AccessChecks, outside global memory: below, at the edge of, and beyond each space, and a misaligned access. -/
theorem test_meets_local_checks :
    (let c (sp : Space) (o : Int) (n align : Nat) := demo.checkLocal demo.cur sp 0 o n align true
     isTrap 0x11 (c .slice (-1) 4 1) && isOk (c .slice 60 4 1) && isTrap 0x11 (c .slice 61 4 1) && isOk (c .scratch 1023 1 1) &&
     isTrap 0x12 (c .scratch 1024 1 1) && isTrap 0x1E (c .scratch 8 16 16) && isOk (c .cluster 960 64 16) && isTrap 0x13 (c .cluster 961 64 16) &&
     isOk (c .chip 65532 4 1) && isTrap 0x14 (c .chip 65533 4 1)) = true := by decide +kernel

/-- AccessChecks, of global memory: one access for each check, at the edge of a line, of the address form, and of the permissions. -/
theorem test_meets_global_checks :
    (let c (e : BitVec 128) (ea : DWord) (n : Nat) (need : Need) := (leafed e demo).checkGlobal (holdersOf 0) 0 false 0 ea n need
     let rd : Need := { r := true, w := false }
     let wr : Need := { r := false, w := true }
     isTrap 0x10 (c codeLeaf (BitVec.ofNat 64 (2 ^ 60)) 4 rd) && isTrap 0x18 (c codeLeaf (BitVec.ofNat 64 (2 ^ 30)) 4 rd) &&
     isTrap 0x1B (c (codeLeaf &&& ~~~(BitVec.ofNat 128 0x20)) 4 4 wr) && isTrap 0x1B (c (codeLeaf &&& ~~~(BitVec.ofNat 128 0x80)) 4 4 rd) &&
     isTrap 0x1C (c (codeLeaf ||| BitVec.ofNat 128 0x800) 4 4 wr) && isTrap 0x1D (c (codeLeaf ||| BitVec.ofNat 128 0x2000) 4 1 (loadNeed 9)) &&
     isTrap 0x1E (c codeLeaf 8 16 (loadNeed 12)) && isOk (c codeLeaf (BitVec.ofNat 64 (15 * 2 ^ 56 + 124)) 4 rd) &&
     isOk (c (codeLeaf ||| BitVec.ofNat 128 0x10000) (BitVec.ofNat 64 (15 * 2 ^ 56 + 2 ^ 30 - 1)) 1 wr) && (demo.ctx 0).chpage == 2 ^ 55) = true := by
  decide +kernel

/-- The check of a load and of a store word, as their statements have them. -/
def loadCheck (s : State) (i : Instr) (w : PW) (x : Option PX) (sp : Space) : Res (List (Nat × List (Target × Nat))) :=
  let typ := memTyp x
  let off := memOff w x (typeSize typ)
  let e := s.entry i
  e.targets s.snap sp w.a (s.lanes i) off (fun l => e.loadSize sp typ (s.snap.ea sp w.a l off))
    (if sp != .glob && typ == 12 then 16 else 1) (fun l => loadNeedAt typ w.d (s.snap.ea sp w.a l off))
def storeCheck (s : State) (i : Instr) (w : PW) (x : Option PX) (sp : Space) : Res (List (Nat × List (Target × Nat))) :=
  let typ := memTyp x
  (s.entry i).targets s.snap sp w.a (s.lanes i) (memOff w x (typeSize typ)) (fun _ => typeSize typ) (if sp != .glob && typ == 12 then 16 else 1)
    (fun _ => storeNeed typ)

/-- LoadWords: loads of every space pass, trap, and wait for a translation; a destination register and qb. -/
theorem test_meets_LoadWords :
    (let l (w : PW) (x : Option PX) (sp : Space) (i : Instr) : Bool := can demo [i] && isOk (loadCheck demo i w x sp)
     let w := WI 8 2 3
     let x := XM 6 0 0
     l w none .slice (.ldp w) && l w (some x) .slice (.ldpWide w x) && l w none .scratch (.lds w) && l w (some x) .scratch (.ldsWide w x) &&
     l w none .cluster (.ldc w) && l w (some x) .cluster (.ldcWide w x) && l w none .chip (.ldx w) && l w (some x) .chip (.ldxWide w x) &&
     l w none .glob (.ld w) && l w (some x) .glob (.ldWide w x) && l (WI 56 2 0) none .glob (.ld (WI 56 2 0)) &&
     (let s := pairs 2 (2 ^ 60) demo; isTrap 0x10 (loadCheck s (.ld w) w none .glob)) &&
     (let s := pairs 2 (2 ^ 31) (dreg 0 2 demo)
      can s [.ld w] && (match loadCheck s (.ld w) w none .glob with | .wait (some _) => true | _ => false)) &&
     demo.cur.arch.threads.length == 32) = true := by decide +kernel

/-- StoreWords: stores of every space, and TAGSET of whole sectors, pass and trap. -/
theorem test_meets_StoreWords :
    (let st (w : PW) (x : Option PX) (sp : Space) (i : Instr) : Bool := can demo [i] && isOk (storeCheck demo i w x sp)
     let w := WI 8 2 3
     let x := XM 6 0 0
     st w none .slice (.stp w) && st w (some x) .slice (.stpWide w x) && st w none .scratch (.sts w) && st w (some x) .scratch (.stsWide w x) &&
     st w none .cluster (.stc w) && st w (some x) .cluster (.stcWide w x) && st w none .chip (.stx w) && st w (some x) .chip (.stxWide w x) &&
     st w none .glob (.st w) && st w (some x) .glob (.stWide w x) && can demo [.tagset (WI 1 2 0), .tagsetWide (WI 1 2 8) (XM 4 0 0)] &&
     (let s := pairs 2 (2 ^ 60) demo; isTrap 0x10 (storeCheck s (.st w) w none .glob)) &&
     (let s := both 2 1024 demo; isTrap 0x12 (storeCheck s (.sts w) w none .scratch))) = true := by decide +kernel

/-- PrefetchAndDiscard, AtomicWords. -/
theorem test_meets_PREF_DISCARD_atomics :
    (can demo [.pref (WI 0 2 0), .prefWide (WI 0 2 0) (XM 4 1 0), .discard (W 0 2 0)] && !demo.fsplit 1 &&
     (let s := pairs 2 (2 ^ 55 + 40) demo
      can s [.pref (WI 0 2 0)] && (s.ctx s.cur.ctx).inChan (s.snap.eaGlobal 2 0 0).toNat && s.lanes (.pref (WI 0 2 0)) == [0, 1]) &&
     (let i : Instr := .discard (W 0 2 0)
      let n (v : Nat) : Bool := let s := both 2 v demo; can s [i] && s.num false 2 (lowestOf (s.lanes i)) == v
      n 0 && n 1 && n 4095 && n 4096) &&
     (let w := W 8 2 4
      let ok (i : Instr) (sp : Space) (vc : BitVec 6) (opa wid : Nat) : Bool :=
        can demo [i] && (match (demo.entry i).laneAtoms demo.snap sp w.a w.b vc (demo.lanes i) opa wid with | .ok las => las.length == 2 | _ => false)
      ok (.atom w (X3 0 0 0x13)) .glob 0 3 1 && ok (.atomx w (X3 0 0 8)) .chip 0 8 0 && ok (.cas w (X3 12 0 0x20)) .glob 12 16 2 &&
      ok (.casx w (X3 12 0 0)) .chip 12 16 0 && can demo [.atom (WX 8 2 4) (X3 0 0 0x0B)] &&
      (let v := W 0 2 4
       can demo [.redm v (X3 0 0 0), .redm v (X3 0 0 0x40)] &&
       isOk ((demo.entry (.redm v (X3 0 0 0))).laneAtoms demo.snap .glob v.a v.b v.b (demo.lanes (.redm v (X3 0 0 0))) 0 0)) &&
      (let s := pairs 2 2 demo
       can s [.atom w (X3 0 0 0)] && isTrap 0x1E ((s.entry (.atom w (X3 0 0 0))).laneAtoms s.snap .glob w.a w.b 0 (s.lanes (.atom w (X3 0 0 0))) 0 0)))) =
      true := by decide +kernel

/-! Waits, barriers and channels. -/

/-- An engine operation of the issuing group. -/
def withOp (c : Cls) (n : Nat) (s : State) : State :=
  { s with cur := { s.cur with ops := (List.range n).map (fun k => ⟨k + 1, c, 0, false, 1, [], [], []⟩) } }
def deferredFault (c : Cls) (s : State) : State := { s with cur := { s.cur with deferred := [(c, Trap.of 0x12)] } }
/-- A word that no active lane has: guarded by predicate 0, which is clear. -/
def off (w : PW) : PW := { w with g := 0 }

/-- WaitOnCounters: no active lane, a counter at the limit, and a deferred fault. -/
theorem test_meets_WaitOnCounters :
    (can demo [.waito (WI 3 0 0), .waito (off (WI 2 0 0))] && demo.lanes (.waito (off (WI 2 0 0))) == [] &&
     can (withOp .ogt 2 demo) [.waito (WI 1 0 2)] && can (deferredFault .omx demo) [.waito (WI 0 0 0)] &&
     ((deferredFault .omx demo).cur.deferredOf .omx).isSome) = true := by decide +kernel

/-- WaitOnMemory: each kind of wait, a notice, and a value that is reached or not. -/
theorem test_meets_WaitOnMemory :
    (let ok (i : Instr) (sp : Space) (w : PW) (n : Nat) : Bool := can demo [i] && isOk ((demo.entry i).waitTargets demo.snap sp w (demo.lanes i) n)
     let w := W 8 2 4
     ok (.waita w (X3 6 0 0)) .glob w 4 && ok (.waita w (X3 0 0 0x39)) .chip w 8 && ok (.waitc w (X 0)) .glob w 8 &&
     (let nt : Notice := ⟨1, 0, 640, 3⟩
      let s := { demo with mem := { demo.mem with notices := [nt] } }
      s.noticeFor s.cur.gid 0 == some nt && can s [.waitc w (X 0)] && demo.noticeFor 1 0 == none &&
      ({ demo with cur := demo.cur.updThread 0 (fun th => { th with told := some (demo.issue.chainPos, nt) }) } : State).noticeOf 0 0 == some nt) &&
     (let a (c two : Bool) (cond : Nat) (cmp : DWord) : AddrWait := ⟨{ space := .glob, addr := 0 }, 0, c, two, cond, cmp, 8, 6, 0, false, none⟩
      let v := ofBytes (demo.peek { space := .glob, addr := 0 } 8)
      v == 0 && demo.tagMismatch (a false false 0 0).tgt 4 == none && condHolds 0 32 0 0 && !condHolds 1 64 0 0 && (a true true 0 0).cmp.toNat ≤ v &&
      !decide ((a true true 0 1).cmp.toNat ≤ v))) = true := by decide +kernel

/-- BarrierWords: each word, inside and outside its set; masks that MSYNC joins, opens and refuses; the plot barrier with and without a
thread missing. -/
theorem test_meets_BarrierWords :
    (can demo [.pbar (W 0 0 0), .sbar (WI 0 0 0), .sbar (WI 0 0 1), .sbar (off (WI 0 0 1)), .msync (W 0 2 0)] &&
     (demo.launch 3).inSet 0 (demo.plot 2).index && !(demo.launch 3).inSet 1 (demo.plot 2).index && demo.lanes (.sbar (off (WI 0 0 1))) == [] &&
     (let fold (s : State) := (s.lanes (.msync (W 0 2 0))).foldl (fun (acc : Option (List MRec)) l =>
        acc.bind (fun rs => msyncArrive s.cur.width l (s.snap.src 2 l) rs)) (some s.cur.arch.msync)
      (fold demo).isNone && (fold (both 2 7 demo)).isSome) &&
     (msyncArrive 3 2 3 []).isNone && (msyncArrive 3 0 9 []).isNone && (msyncArrive 3 2 7 []).isSome && (msyncArrive 3 2 4 [⟨3, 1⟩]).isSome &&
     (msyncArrive 3 1 3 [⟨3, 1⟩]).isSome && demo.issue.active && demo.cur.pid == 2 && demo.cur.place != .gone &&
     demo.allGroups.any (fun g => g.arch.threads.any (fun th => th.live && !th.atPbar)) &&
     (let s := { demo with cur := demo.cur.mapThreads (fun _ t => if t.live then { t with wait := some .pbar } else t) }
      s.cur.arch.threads.any (fun th => th.live) && s.allGroups.all (fun g => g.arch.threads.all (fun th => !th.live || th.atPbar)))) = true := by
  decide +kernel

/-- BarrierObjects: objects that allow and do not allow each operation; lanes in and out of range. -/
theorem test_meets_BarrierObjects :
    (let o (valid : Bool) (expect pend wcnt : Nat) : KObj := ⟨0, valid, false, 0, 0, expect, pend, wcnt, 0, 0⟩
     ((o true 0 0 0).act 0 false 1).isNone && ((o false 0 0 0).act 0 false 65535).isSome && ((o true 1 1 1).act 0 false 1).isNone &&
     ((o false 0 0 0).act 1 false 1).isNone && ((o true 1 0 0).act 1 true 1).isNone && ((o true 1 1 0).act 1 true 0).isSome &&
     ((o true 2 2 0).act 1 false 4).isSome && ((o true 1 1 0).act 3 false 0).isSome && ((o false 1 1 0).act 3 false 0).isNone &&
     (let check (s : State) (i : Instr) (wr : Bool) := (s.entry i).targets s.snap .scratch 2 (s.lanes i) 0 (fun _ => 16) 16 (fun _ => { r := true, w := wr })
      let acts (s : State) (i : Instr) (w : PW) (op : Nat) : Bool := can s [i] && isOk (check s i true) &&
        ((s.lanes i).foldl (State.kbStep s.snap w op) (s.entry i, [])).2 == []
      let init (n : Nat) := both 3 n (reg 1 2 16 demo)
      acts (init 1) (.kbinit (W 0 2 3)) (W 0 2 3) 0 && acts (init 65535) (.kbinit (W 0 2 3)) (W 0 2 3) 0 && can (init 0) [.kbinit (W 0 2 3)] &&
      can (init 65536) [.kbinit (W 0 2 3)] &&
      (let s := { solo with mem := { solo.mem with scratch := solo.mem.scratch.writeN 0 (bytesOf 16 (o true 2 2 0).num) } }
       acts s (.kbarr (W 8 2 4)) (W 8 2 4) 1 && acts s (.kbinv (W 0 2 0)) (W 0 2 0) 3 && can s [.kbwait (W 8 2 3)] &&
       can (reg 0 3 15 s) [.kbwait (W 8 2 3)] && can (reg 0 3 16 s) [.kbwait (W 8 2 3)] && isOk (check s (.kbwait (W 8 2 3)) false) &&
       !(o true 2 2 0).broken))) = true := by decide +kernel

/-- DataflowChannels: a channel served, one not served, and a slot that a rollback presents again. -/
theorem test_meets_DataflowChannels :
    (can demo [.send (W 0 2 0), .send (W 0 2 5), .recv (W 8 0 1), .recv (W 8 0 0)] && isOk (demo.sendState demo.cur 0) &&
     isTrap 0x0B (demo.sendState demo.cur 5) && isOk (demo.recvState demo.cur 1) && isTrap 0x0B (demo.recvState demo.cur 0) &&
     (demo.plot 2).pid == 2 &&
     (let s := { demo with plots := [{ plot with represent := [(1, bytesOf 128 5, 2)] }] }
      can s [.recv (W 55 0 1)] && isOk (s.recvState s.cur 1) && ((s.plot 2).represent.find? (fun r => r.1 == 1)).isSome)) = true := by decide +kernel

/-! Matrix and hypervector words. -/

/-- Quads of a plane operand of one row, one of 32 rows, an integer and a row operand, and a plane operand of two planes; a plot with
room for them. -/
def quads : List Nat := [0, 96 + 128 * 2 ^ 16, 0, 0, 0x1000, 96 + 3072 * 2 ^ 16, 0, 31, 0x4000, 0, 0, 0x400, 0x5000, 0, 0, 0xC00, 0x8000, 96 + 128 * 2 ^ 16, 0, 0x20]
def matrix (s : State) : State :=
  { s with plots := [{ plot with size := 0x10000 }],
           cur := { s.cur with arch := { s.cur.arch with s := quads.map (BitVec.ofNat 32) ++ List.replicate 12 0 } } }

/-- MatrixRounds: no active lane, a signature that the round does not allow, one that leaves the round open, and the last one. -/
theorem test_meets_MatrixRounds :
    (let mma : Instr := .mma (W 2 0 1) (X 0)
     let d (decl sign : Word) (m : Bool) (s : State) : State := matrix (convReg 0 ⟨decl, sign, m, ⟨0, 0⟩, if m then some mma else none⟩ s)
     can (matrix demo) [.mma (off (W 2 0 1)) (X 0), mma, .plane (W 4 3 0) (X3 0 0 0x800), .unplane (W 3 2 0) (X3 0 0 0x800)] &&
     can (d 7 0 false demo) [mma] && can (d 7 4 true demo) [mma] && can (d 1 0 false demo) [mma] &&
     ([mma, .plane (W 4 3 0) (X3 0 0 0x800), .unplane (W 3 2 0) (X3 0 0 0x800)] : List Instr).all (fun i =>
       let s := d 3 0 false demo
       isOk (s.acceptChecks s.cur i) && isOk (s.acceptRound 1 0 i 3 ⟨0, 0⟩ 3) && can s [i])) = true := by decide +kernel

/-- HypervectorDistance, HypervectorWords: every word, a rotation by 8191 and by more, bundles of both widths at their limits. -/
theorem test_meets_HypervectorWords :
    (can demo [.hdist (W 31 15 0), .hbind (W 15 0 1), .hseed (W 0 2 0), .hthr (W 0 3 0), .hthr (WX 0 3 0), .hperm (W 0 1 2), .hperm (off (WX 0 1 2)),
       .hbund (W 3 0 0), .hbund (W 3 0 1), .hbund (WX 3 0 3), .hbund (WX 3 0 2), .hld (W 0 2 0), .hldWide (W 0 2 0) (XM 4 0 0), .hst (W 0 2 0),
       .hstWide (W 0 2 0) (XM 4 2 0)] &&
     can (both 2 8191 demo) [.hperm (WX 0 1 2)] && can (both 2 8192 demo) [.hperm (W 0 1 2)] && (demo.snap.bundle 3).wide == false &&
     (let e := demo.entry (.hld (W 0 2 0))
      isOk (e.hypTargets demo.snap (W 0 2 0) none 0 false) && isOk (e.hypTargets demo.snap (W 0 2 0) none 0 true) &&
      isTrap 0x1E ((pairs 2 512 demo).hypTargets (pairs 2 512 demo).snap (W 0 2 0) none 0 false)) &&
     (let count (b : Bundle) (j : Nat) : Int := toSigned 8 (((List.range 8).map (fun i => if (b.planes.getD i 0).getLsbD j then 2 ^ i else 0)).sum)
      let ones : HVec := BitVec.allOnes 8192
      let low (w : Bool) (n : Nat) : Bundle := ⟨w, (List.range 8).map (fun i => if i < n then ones else 0)⟩
      count (low false 3) 8191 == 7 && count (low true 7) 0 == 127 && count ⟨false, [ones, 0, 0, ones, ones, ones, ones, ones]⟩ 0 == -7)) = true := by
  decide +kernel

/-- GranaryWords: entries that are taken, removed and refused, searches that find, find nothing and are refused, and answers with and
without rotation. -/
theorem test_meets_GranaryWords :
    (let ok (i : Instr) (v : Nat) : Bool := let s := both 2 v demo; can s [i] && s.num false 2 0 == v && s.lanes i != []
     let q : Instr := .hqry (WX 3 1 2) (X3 4 0 0)
     ok (.hgwr (W 0 1 2)) 1023 && ok (.hgwr (WX 0 0 2)) 1023 && ok (.hgwr (W 0 1 2)) (1024 + 7) && ok (.hgwr (W 0 1 2)) (2048 + 7) &&
     ok (.hgwr (WX 0 0 2)) (1024 + 7) && ok (.hgwr (W 0 1 2)) (2 ^ 18) && demo.granted 0 1 && !demo.granted 0 2 &&
     ok q (1024 * 1024) && ok q (1024 + 1023) && ok q (2 * 1024 + 1023) && ok q 0 && ok q (1025 * 1024) && ok q (2 ^ 21) &&
     granQuery [] true 0 == none && (granQuery [(3, 5), (1, 5), (2, 9)] false 2).isSome &&
     granQuery [(3, 5), (1, 5), (2, 9)] true 2 == some (3, 5, some 4) && granQuery [(1023, 0), (4, 0)] true 1023 == some (1023, 0, some 0) && granQuery [(7, 1)] true 9 == some (7, 1, none)) = true := by
  decide +kernel

/-- SequenceMarks: slots in and out of the batch of a decode stream, reasons in and out of range. -/
theorem test_meets_SequenceMarks :
    (let s (a b : Nat) : State := both 2 a (both 3 b { demo with launches := [{ launch with image := image ||| 0x40 }] })
     (launch.batch == [5, 6]) && ((s 0 0).launch 3).step && can (s 9 6) [.stopt (W 6 2 3)] && can (s 9 7) [.stopt (W 6 2 3)] && can demo [.stopt (W 0 2 3)] &&
     can (s 5 16) [.sret (W 0 2 3)] && can (s 6 255) [.sret (W 0 2 3)] && can (s 6 256) [.sret (W 0 2 3)] && can (s 6 15) [.sret (W 0 2 3)] &&
     can (s 4 16) [.sret (W 0 2 3)] && !(s 5 16).bad { space := .glob, addr := (s 5 16).seqEntry 0 5 } 16 &&
     ((reg 0 2 5 (reg 0 3 16 { solo with launches := [{ launch with image := image ||| 0x40 }] })).lanes (.sret (W 0 2 3))).length == 1) = true := by
  decide +kernel

/-! The Drill stream. -/

/-- An address register, a loop level, a queue and qb of the Drill stream. -/
def areg (n v : Nat) (s : State) : State := s.updDrill (fun d => { d with a := d.a.set n (BitVec.ofNat 64 v) })
def loopAt (n count : Nat) (s : State) : State := s.updDrill (fun d => { d with loops := d.loops.set n ⟨9, BitVec.ofNat 32 count, 0⟩ })
def fullQueue (n : Nat) (s : State) : State :=
  { s with cur := { s.cur with arch := { s.cur.arch with q := s.cur.arch.q.set n ⟨0, List.replicate 8 QEnt.blank⟩ } } }
def withQb (s : State) : State := { s with cur := { s.cur with arch := { s.cur.arch with qb := ⟨0, [{ QEnt.blank with written := 7 }]⟩ } } }
def canD (s : State) (is : List Instr) : Bool := is.all s.canDrill

/-- DrillControl, DrillArithmetic: each word; branch targets at the edges of the range; a stream that has ended. -/
theorem test_meets_DrillControl_Arithmetic :
    (canD drill [.dnop (W 0 0 0), .dbra (WI 0 0 255), .dend (W 0 0 0), .aadd (W 15 0 1), .aadd (WX 0 1 15), .amul (W 1 2 3), .aaddi (WI 0 15 128),
       .aaddiWide (WI 0 1 255) (X 0xFFFFFF), .amovi (WI 15 0 127), .amoviWide (WI 0 0 0) (X 0x800000), .ashli (WI 0 1 63), .ashli (WI 0 1 127),
       .ashli (WI 0 1 128), .ashli (WI 0 1 191)] &&
     inRange (drill.launch drill.cur.lid).dentry (drill.issue.pos.pc + (W 31 63 63).off21.signExtend 64) &&
     inRange (drill.launch drill.cur.lid).dentry drill.issue.pos.pc && (codeGroup false).arch.drill.ended) = true := by decide +kernel

/-- DrillLoops: trip counts 0 and not 0 from both forms; levels at 0, 1 and 2; DWAITO above and at its limit, and with a fault. -/
theorem test_meets_DrillLoops :
    (canD drill [.dloop (W 3 0 0) (X 1), .dloop (W 0 0 0) (X 0), .dloop (WX 0 1 0) (X 0), .dnext (WI 3 0 0)] && drill.areg 1 == 0 &&
     canD (areg 1 (2 ^ 32 + 1) drill) [.dloop (WX 0 1 0) (X 0)] && canD (loopAt 3 1 drill) [.dnext (WI 3 15 0x1F)] &&
     canD (loopAt 0 2 drill) [.dnext (WI 0 1 0x12)] && inRange (drill.launch 3).dentry 0 && canD (withOp .ord 1 drill) [.dwaito (WI 3 0 0)] &&
     canD (withOp .ord 1 drill) [.dwaito (WI 3 0 1)] && canD (deferredFault .ocp drill) [.dwaito (WI 2 0 0)]) = true := by decide +kernel

/-- DrillLoads: every load and prefetch, with room, with a full queue, and with an address that faults. -/
theorem test_meets_DrillLoads :
    (let w := WI 56 2 0
     let x := XM 4 0 0
     canD drill [.dld w, .dldWide w x, .dldx w, .dldxWide w x, .dlds w, .dldsWide w x, .dldc w, .dldcWide w x, .dpref (WI 0 14 1), .dprefWide (WI 0 2 0) (XM 4 1 0)] &&
     canD (fullQueue 7 drill) [.dld (WI 63 0 0)] && ((fullQueue 7 drill).cur.arch.q.getD 7 Queue.empty).ents.length == 8 &&
     ([Space.glob, .chip, .scratch, .cluster] : List Space).all (fun sp => isOk (drill.drillTargets sp [0, 1, 2] 4 (drill.avec 2) (fun _ => 0))) &&
     isTrap 0x10 ((areg 2 (2 ^ 60) drill).drillTargets .glob [0] 4 ((areg 2 (2 ^ 60) drill).avec 2) (fun _ => 0))) = true := by decide +kernel

/-- DrillQueues: pushes and gathers with and without room and a head; copies on channels that are free, busy, halted and absent. -/
theorem test_meets_DrillQueues :
    (canD drill [.dpush (W 56 14 0), .dqbr (W 7 56 31), .dgath (W 57 1 56) (XM 4 0 0)] && drill.qbHead == none &&
     canD (fullQueue 0 drill) [.dpush (WX 56 0 0)] && canD (withQb drill) [.dqbr { W 7 56 3 with am := true }, .dgath (WX 57 1 56) (XM 0 0 0)] &&
     (withQb drill).qbHead.isSome && canD (withQb (withOp .ogt 255 drill)) [.dgath (W 57 1 56) (XM 4 0 0)] &&
     canD (withQb (withOp .ogt 254 drill)) [.dgath (W 57 1 56) (XM 4 0 0)] && (withOp .ogt 255 drill).cur.counter .ogt == 255 &&
     (let x := { ctx with chans := [0x8005] }
      let s (a k st heads : Nat) : State := areg 1 a (areg 2 k { drill with ctxs := [x], chans := [{ HwChan.idle 5 with st := st, heads := List.replicate heads (128, Init.none) }] })
      let i : Instr := .dcopy (WX 0 1 2)
      x.channel 0 == some 5 && x.channel 1 == none && canD (s 128 0 0 0) [i, .dcopy (W 0 1 2)] && canD (s 128 0 1 4) [i] && canD (s 128 0 2 4) [i] &&
      canD (s 127 0 0 0) [i] && canD (s 128 256 0 0) [i] && canD (s 128 255 0 0) [i] && ((s 128 0 2 4).chan 5).heads.length == 4)) = true := by decide +kernel

/-! Device steps: memory, engines, groups and plots. -/

/-- A resident group of three live threads that does not issue. -/
def host : State := { base with groups := [group false 3] }
/-- The group of `host` changed. -/
def withGroup (f : Group → Group) : State := { base with groups := [f (group false 3)] }
def far (a : Nat) : Target := { space := .glob, addr := a }
/-- A load of lane 0 into v4, of one part. -/
def ldRec (t : Target) (x : LSt) : LoadRec := ⟨50, 0, 0, .reg 4, 4, 0, 0, 0, [⟨t, 4, x⟩], 0, 0, []⟩
def loading (t : Target) (x : LSt) : State := withGroup (fun g => { g with loads := [ldRec t x] })
/-- A store of lane 0, of two parts. -/
def stRec (t : Target) (x y : SSt) : HoldRec :=
  ⟨50, ⟨0, 0⟩, 0, 7, 1, .store, 0, 0, [⟨0, t, 0, [1, 2, 3, 4], x⟩, ⟨0, far 256, 0, [5], y⟩], GArch.start, [], ⟨[], [], [], [], [], [], [], 0, []⟩, 0, 0⟩
def storing (t : Target) (x y : SSt) : State :=
  withGroup (fun g => { g with holds := [stRec t x y], arch := { g.arch with threads := g.arch.threads.map (fun t => if t.live then { t with hold := 50 } else t) } })

/-- HomeLoadsAndStores, loads: a part for a peer, one with a covering L1 copy, one for its home, one whose reply returns, and loads
that validate, that are sent again, that fill a queue entry and that end a gather. -/
theorem test_meets_HomeLoads :
    (let may (s : State) (t : Target) : Bool := (group false 3).gid == 1 && s.canSend (withGroup id).cur (ldRec t .unsent) ⟨t, 4, .unsent⟩ && !s.remoteOut 1 50 0
     may (loading (far (2 ^ 50)) .unsent) (far (2 ^ 50)) && isPeer (2 ^ 50) && !isPeer 252 && may (loading (far 252) .unsent) (far 252) &&
     (let s := { loading (far 252) .unsent with mem := { host.mem with l1 := [⟨0, 1, 0, 9, List.replicate 128 7, [0, 0, 0, 0], 0⟩] } }
      (s.l1Hit 0 1 0).isSome) && (host.l1Hit 0 1 0).isNone &&
     !host.loadBad (group false 3) (ldRec (far 252) .unsent) ⟨far 252, 4, .unsent⟩ && host.reachable 0 (far 252) && host.answerable 0 (far 252) &&
     (let r := ldRec (far 252) (.arrived [1, 2, 3, 4] 5 9 none)
      r.parts.all (fun p => p.st.isArrived) && validate false r.base r.parts == some 5 && r.result == ([0x04030201], none) &&
      { group false 3 with loads := [r] }.olderDone 0 50 && validate false 10 r.parts == none && r.isHld == false &&
      (let q := { r with dst := LDest.queue 2 0 }
       [q].find? (fun r => r.id == 50 && r.op == 0) == some q && [{ q with op := 50 }].filter (fun r => r.op == 50) != []))) = true := by decide +kernel

/-- HomeLoadsAndStores, stores: a part for a peer, one whose tag differs, one for each of the two memories, and parts that return before
the last and as the last. -/
theorem test_meets_HomeStores :
    (let may (s : State) (t : Target) (x : SSt) : Bool :=
       (group false 3).partMay (stRec t .unsent x) 0 ⟨0, t, 0, [1, 2, 3, 4], .unsent⟩ && !s.remoteOut 1 50 0 && !s.boarded t 4 true && !s.homeDead t &&
       !s.tierWaits t && s.reachable 0 t && s.answerable 0 t
     may (storing (far (2 ^ 50)) .unsent .unsent) (far (2 ^ 50)) .unsent && may host (far 124) .unsent && may host { space := .chip, addr := 64 } .unsent &&
     !(loading (far 252) .unsent).behind (group false 3) 50 0 (far 252) && !host.behind (group false 3) 50 0 (far 124) &&
     host.tagMismatch { far 96 with tag := some 3 } 4 == some 0 && host.tagMismatch (far 96) 4 == none && !(SSt.unsent).answered &&
     (SSt.done 1 []).answered && !(SSt.done 1 []).isFailed && (host.launch 3).failing == 0 && !(host.plot 2).rolling &&
     (List.range 32).all (fun l => !((group false 3).thread l).exiting) && ((storing (far 0) (.performed 1 [] ⟨0, none⟩) (.done 2 [])).group 1).isSome) = true := by
  decide +kernel

/-- A request of an atomic at a stage, of a core's word or of a wait-buffer entry. -/
def areq (n port : Nat) (src : RTag) : AReq := ⟨n, port, false, 252, homeMc 252, 0, 0, none, 5, 1, 0, false, 1, 0, src, 0, 0, codeLeaf, 0, none⟩
def staged (st : Stage) : State := { host with mem := { host.mem with stages := [st] } }

/-- AtomicsAndSlices: a request at its home that performs, meets bad data, or meets another tag; arrivals at each tier; a reply to split;
an operation to retire; a line to release, to fill and to evict; the last slice of a DISCARD and one before it. -/
theorem test_meets_AtomicsAndSlices :
    (let r := areq 136 0 (.core 1 50 0 [(0, 5)])
     let s := staged ⟨136, [], [r], []⟩
     (s.stage 136).outq == [r] && !s.tierWaits r.target && s.dramOpen r.target && !s.homeDead r.target && !s.bad r.target 4 && s.tagMismatch r.target 4 == none &&
     ({ s with mem := { s.mem with ecc := [(224, 3)] } } : State).bad r.target 4 && s.tagMismatch { r.target with tag := some 1 } 4 == some 0 &&
     (let a := staged ⟨127, [areq 127 7 (.entry 1 2)], [], []⟩
      ((a.stage 127).arriving.find? (fun q => q.port == 7)).isSome && (a.coreStamp (areq 127 7 (.entry 1 2))).isSome) &&
     ((staged ⟨127, [], [areq 127 7 (.entry 1 2)], []⟩).nextArrival 135 15).isSome && ((staged ⟨128, [], [areq 128 0 (.entry 1 2)], []⟩).nextArrival (136 + homeMc 252) 0).isSome &&
     (List.range 7).all (fun q => ((staged ⟨127, [areq 127 7 (.entry 1 2)], [], []⟩).arrivalAt 127 q).isNone) &&
     (List.range 15).all (fun q => ((staged ⟨127, [], [areq 127 7 (.entry 1 2)], []⟩).arrivalAt 135 q).isNone) &&
     host.pairOpen 0 (8 + homeMc 252) &&
     (let e : WbEnt := ⟨4, .core 1 50 0 [], .core 1 51 0 [], 3, 1, 1, none, none⟩
      let rp : AReply := ⟨.entry 9 4, 0, 0, 2, 7, 0, none, 252, homeMc 252, false, ⟨0, none⟩⟩
      let t := { staged ⟨9, [], [], [e]⟩ with mem := { (staged ⟨9, [], [], [e]⟩).mem with replies := [rp] } }
      (t.mem.replies.find? (fun r => match r.src with | .entry k _ => k == 9 && t.replyMay 0 r | .core _ _ _ _ => false)) == some rp &&
      ((t.stage 9).wb.find? (fun e => e.id == 4)) == some e) &&
     ([⟨7, .ord, 3, true, 0, [], [], []⟩] : List EngOp).any (fun o => o.cls == clsOf 3 && o.done) &&
     (let l : LineSt := { host.line (.glob 2) with held := [(1, 2)], tctx := 0, tid := 5 }
      let t := host.setLine l
      t.hasLine (.glob 2) && (t.line (.glob 2)).held != [] && !host.hasLine (.glob 2) && populated 256) &&
     (let d (left : List Nat) : Disc := ⟨60, 1, 0, 5, 0, left⟩
      [d [11]].find? (fun d => d.id == 60 && d.left.contains 11) == some (d [11]) && (d [3, 11]).left.erase 11 != [])) = true := by decide +kernel

/-- An accepted PLANE of the resident group, and its cluster. -/
def planeItem : MItem :=
  let q (n : Nat) : List Word := (quads.drop (4 * n)).take 4 |>.map (BitVec.ofNat 32)
  ⟨50, 1, 0, 0, 0, 0, .plane (W 4 3 0) (X3 0 0 0x800), 3, q 4, q 3, [], { space := .scratch, addr := 0 }, 0, 0, ⟨0, 0⟩, 0, 0, 0⟩
def clustered (f : Cluster → Cluster) : State := { host with clusters := [f (Cluster.start 0)] }

/-- MatrixEngines: a queued sheaf, a queued item that computes, a sheaf at its deadline and one that is being read. -/
theorem test_meets_MatrixEngines :
    (let order (c : Cluster) := sortBy (fun (a b : (Nat ⊕ Nat) × Nat × Nat) => b.2.1 < a.2.1 || (a.2.1 == b.2.1 && a.2.2 < b.2.2)) c.queued
     let free (c : Cluster) : Bool := ((List.range 4).find? (fun e => !c.busy.contains e)).isSome
     let s := clustered (fun c => { c with dispatch := [planeItem] })
     let h (st : ShState) : Sheaf := ⟨st, [planeItem], 0, 0, 3⟩
     let t (st : ShState) := clustered (fun c => { c with sheaves := c.sheaves.set 7 (h st) })
     ((order (s.cluster 0)).find? (fun q => s.itemsMay ((s.cluster 0).itemsOf q.1))) == some (.inr 0, 0, 0) && free (s.cluster 0) &&
     ((order ((t .closed).cluster 0)).find? (fun q => (t .closed).itemsMay (((t .closed).cluster 0).itemsOf q.1))) == some (.inl 7, 0, 0) &&
     s.clashB planeItem == none && s.badB planeItem (s.plotBase (group false 3)) == none && planeItem.ownRecs.all (fun r => (s.badRecs r.1 (s.plotBase (group false 3)) r.2).isNone) &&
     (s.cluster 0).arrivals == [] && ((group false 3).thread 0).susp == none && (s.launch 3).failing == 0 && (((t .opened).cluster 0).sheaves.getD 7 Sheaf.free).st == .opened &&
     (((t .opened).cluster 0).sheaves.getD 7 Sheaf.free).deadline ≤ s.sched.cycle && (((t .reading).cluster 0).sheaves.getD 7 Sheaf.free).st == .reading &&
     (match s.computeItem planeItem (s.plotBase (group false 3)) none with | .ok _ _ _ => true | .format _ => false)) = true := by decide +kernel

/-- A thread that waits at the plot barrier; one that waits on the head of queue q0, which is not reserved. -/
def parked (g : Group) : Group := g.mapThreads (fun _ t => if t.live then { t with wait := some .pbar } else t)
/-- 56 groups in the Fallow table of core 0. -/
def crowd : List Group := (List.range 56).map (fun k => { Group.idle with gid := 100 + k, place := .waiting })

/-- GroupsComeAndGo: groups that park in each way, that take a slot, that age, that are stuck with both streams, and that end. -/
theorem test_meets_GroupsComeAndGo :
    (let g := parked (group false 3)
     let s (more : List Group) : State := { base with groups := g :: more }
     let woken : Group := { Group.idle with gid := 99, place := .woken 0 false }
     g.place == .slot 0 && (s []).wantsPark g && (s []).fallow 0 == 0 && (s crowd).fallow 0 == 56 && (s crowd).wakeQueue 0 == [] &&
     (s (woken :: crowd.drop 1)).fallow 0 == 56 && (s (woken :: crowd.drop 1)).wakeQueue 0 == [woken] && (s [woken]).freeSlot 0 == some 1 &&
     (let h := { group false 1 with stalled := true, arch := (codeGroup false).arch }
      let z := { State.reset.withWord 32 0x10EA0404 with groups := [h] }
      z.stalledOf 0 == [(0, h)] && z.readyLanes h == [0]) &&
     (let z := State.reset.withWord 32 0x10EA7004
      (codeGroup false).live == [0] && z.queueStuck (codeGroup false) 0 && z.drillStuck (codeGroup false)) && !(codeGroup false).trap.handler && (handling demo).cur.trap.handler &&
     (let e := { group false 0 with arch := { (group false 0).arch with drill := { DrillSt.start with ended := true } } }
      host.mayEnd e && e.deferred == [] && !(host.plot 2).eligible && host.mayEnd { e with deferred := [(.omx, Trap.of 0x12)] }) &&
     (let c := { host with sched := { host.sched with cycle := 64 } }
      c.sched.ticked + 64 ≤ c.sched.cycle) &&
     [2, 3].eraseDups.length == 2 && !host.ras.probes.contains [2, 3]) = true := by decide +kernel

/-- PlotsMoveAndRecover: a stopped group, a plot to bring back and one to place, bad data of a load, a plot that rolls back, and
escalations to answer. -/
theorem test_meets_PlotsMoveAndRecover :
    (let g := { parked (group false 3) with stopping := true }
     ({ base with groups := [g] } : State).mayEvict g &&
     (let p := { plot with st := .saved }
      let l := { launch with callocs := [], image := BitVec.ofNat 2048 (2 ^ 96), reserved := [(0, 5 * 2 ^ 20 + 1024)] }
      let s := { base with groups := [], plots := [p], launches := [l] }
      !s.fe.stopAdmit && s.order.find? s.placeable == some (l, 0, some p) && s.reserveUnit l p == some s &&
        (s.launch l.lid).reserved.find? (fun r => r.1 == p.index) == some (0, 5 * 2 ^ 20 + 1024)) &&
     (let l := { launch with chans := [] }
      let s := dreg 0x40 1 { base with groups := [], plots := [], launches := [l] }
      s.order == [(l, 0, none)] && s.placeable (l, 0, none) && (l.reserved.find? (fun r => r.1 == 0)).isNone && s.chooseCore l 0 == some (0, 0)) &&
     (let s := { loading (far 252) .unsent with mem := { host.mem with ecc := [(224, 3)] } }
      s.badPart { group false 3 with loads := [ldRec (far 252) .unsent] } 50 == some (far 252, 4)) &&
     (let s (e : Bool) : State := { host with plots := [{ plot with eligible := e }] }
      (((s true).plot 2).eligible && !((s false).plot 2).eligible && ((s true).launch 3).lid == 3 && ((s true).plot 2).pid == 2)) &&
     (let s := { host with plots := [{ plot with rolling := true, rbcnt := 0xFFFF }] }
      s.rollMay (s.plot 2) && s.reviveRoom (s.plot 2)) &&
     (let h := { group false 3 with fp := true }
      ({ host with groups := [h] } : State).group 1 == some h && h.fp && h.place == .slot 0 && !(host.plot 2).rolling && (host.launch 3).failing == 0) &&
     (let e : Esc := ⟨Trap.of 3, ⟨0, 0⟩, .plough, false, false, 0, 3⟩
      !e.atEnd && !e.double && (group false 3).trap.kind == .plough && (group false 3).trap.pending == none && (host.ctx 0).traph != 0) &&
     (let ps : List Pending := [.victims 3 0]
      (ps.filterMap (fun p => match p with | .victims lid i => some (lid, i) | _ => none)).head? == some (3, 0))) = true := by decide +kernel

/-! Device steps: launches, contexts, copies, translations. -/

/-- A launch at the head of queue 5: admissible, of no scratchpad. -/
def queued (im : Nat) : Launch := { Launch.none with lid := 8, queue := 5, st := .fetched, image := BitVec.ofNat 2048 im }
def queueing (l : List Launch) : State := dreg (qBlock 5 + 20) 1 (dreg (qBlock 5 + 12) 1 { base with launches := l, plots := [], groups := [] })

/-- QueuesAndLaunches: slots and credits on their way; queues that run and not; a head to fetch with and without a defect; one that waits
for a counter, that is admitted, and that no module can hold; launches that are over, with and without a counter. -/
theorem test_meets_QueuesAndLaunches :
    (let c : Chan := ⟨0, 1, 2, [], [⟨1, 0, bytesOf 128 0, 1⟩], [], [3]⟩
     ({ host with launches := [{ launch with chans := [c] }] } : State).slotNext 3 0 == some ⟨1, 0, bytesOf 128 0, 1⟩ && [c][0]? == some c && c.returning != [] && ({ host with launches := [{ launch with chans := [c] }] } : State).creditOpen 3 0 && !host.inS4 && qBlock 511 == 0x13FE0 &&
     (let s := dreg 0x200 1 (queueing [])
      s.qen 5 && s.qwaiting 5 != 0 && s.fetched 5 == none && !s.fe.stopAdmit && bit (s.regN 0x200) 0 && populated (s.entryPa 5 (s.qhead 5)) &&
      populated (s.entryPa 5 (s.qhead 5) + 255) && s.eccClass (s.entryPa 5 (s.qhead 5)) 256 < 3 && (queued 0).defect 0 && !(queued 1).defect 0 &&
      (queued (1 + 0x40)).defect 0) && (dreg 0 0 { host with launches := [{ launch with queue := 7 }] }).qbusy 7 && !host.qbusy 7 &&
     (let s := queueing [queued 1]
      s.fetched 5 == some (queued 1) && s.nextHead == some 5 && !s.depArmed 5 && !s.throttles 0 && !((s.updLaunch 8 (fun _ => queued 1)).overCapacity (queued 1)) &&
      (queued 1).ndep == 0 && !(queued 1).coop) &&
     (let l := queued (1 + 1024 * 2 ^ 96)
      ((queueing [l]).updLaunch 8 (fun _ => l)).overCapacity l) &&
     (let l := queued (1 + 2 ^ 12 + 640 * 2 ^ 640 + 3 * 2 ^ 704)
      let s := { queueing [l] with mem := { base.mem with tlb := [⟨.engine 64, 0, 0, codeLeaf⟩] } }
      l.ndep == 1 && (match s.depsFrom l.ctx l.deps with | .ok (_, some a) => a == 640 | _ => false) &&
      isOk (s.checkGlobal feHolder 0 false 0 640 8 { r := true, w := false })) &&
     (let l (f : Nat) (im : Nat) : Launch := { launch with failing := f, image := BitVec.ofNat 2048 im }
      let s (x : Launch) : State := { base with launches := [x], groups := [], plots := [{ plot with st := .ended }], mem := { base.mem with tlb := [⟨.engine 64, 0, 0, codeLeaf⟩] } }
      (s (l 0 0)).launchOver (l 0 0) && (s (l 6 0)).launchOver (l 6 0) && (l 0 (640 * 2 ^ 512)).caddr == 640 && (s (l 0 (640 * 2 ^ 512))).launchOver (l 0 (640 * 2 ^ 512)) &&
      (match (s (l 0 (640 * 2 ^ 512))).completionAdd (l 0 (640 * 2 ^ 512)) 1 with | .ok (_, some _) => true | _ => false))) = true := by decide +kernel

/-- Lines of global memory that stand in L2 whole. -/
def cached (ns : List Nat) (s : State) : State :=
  { s with mem := { s.mem with lines := ns.map (fun n => { s.line (.glob n) with present := 15 }) } }

/-- ContextsWindowsStreams: entries that load and that do not; windows that are free, busy, and pending; streams that are idle, that are
not, and that stand at a boundary. -/
theorem test_meets_ContextsWindowsStreams :
    (let s (bytes : List Byte) : State := cached ([0, 1, 2, 3, 4607] : List Nat) <| dreg 8 0x10000 { State.reset with mem := { State.reset.mem with glob := Memory.empty.writeN (0x10000 + 128 * 4095) bytes } }
     ((s [1, 1]).loadContext 4095).2 && !((s [1, 0]).loadContext 4095).2 && (((s [1, 1]).setField 0x10 13 0 (4095 + 8192)).loadContext 4095).2 &&
     !((s [0x21, 1]).loadContext 4095).2 && host.field 0x40 3 0 == 0 && host.clusterBusy 0 && !State.reset.clusterBusy 127 &&
     ((State.reset.updCluster 127 (fun k => { k with winPending := some 4 })).cluster 127).winPending == some 4 &&
     !State.reset.streamIdle 63 && (dreg 0x18 (2 ^ 63) State.reset).streamIdle 63 &&
     (let z := cached ([0, 1, 63] : List Nat) (dreg 0x18 (2 ^ 63) State.reset)
      let d := Hay.desc ⟨z, z.fe.hay, false⟩ 63
      let full := dreg (qBlock 0 + 12) 16 z
      let at_ (x : Stream) : Stream := (z.updStream 63 (fun _ => x)).stream 63
      !d.1.broken && (Hay.steps d.1 none d.2).isSome && (Hay.steps d.1 (some (0, [0])) d.2).isSome && (Hay.nextStep d.1 63 [0] d.2).isSome &&
      (Hay.nextStep d.1 63 [0] ⟨full, 0, false⟩).isNone &&
      (Hay.desc ⟨{ z with mem := { z.mem with glob := Memory.empty.writeN (128 * 63) [0, 0, 0, 0x80] } }, 0, false⟩ 63).1.broken &&
      (at_ ⟨63, [some (0, []), none], none⟩).boundary == [some (0, []), none] && (at_ ⟨63, [none], some [0]⟩).owed == some [0]) &&
     !State.reset.fsplit 0 && (dreg 0 1 State.reset).fsplit 0) = true := by decide +kernel

/-- A copy channel in a state; a record in memory of four bytes from 0x100 to 0x200, at 0x80. -/
def chanAt (f : HwChan → HwChan) : State := { host with chans := [f (HwChan.idle 4095)] }
def copyImage (own : Nat) : BitVec 1024 :=
  BitVec.ofNat 1024 (own * 2 ^ 64 + 0x100 * 2 ^ 128 + 0x200 * 2 ^ 192 + 4 * 2 ^ 256 + 2 ^ 288)
def hostInit : Init := { Init.none with host := true, ctx := 4096 }
def record (st : Nat) : CopyRec := ⟨50, 0x80, copyImage 1, st, none, none, [], false⟩
/-- A record of no rows, where there is no memory. -/
def emptyRecord (st : Nat) : CopyRec := ⟨50, 2 ^ 55, BitVec.ofNat 1024 (2 ^ 64), st, none, none, [], false⟩

/-- CopyChannels: heads with each state of the channel; a halted one; records that complete and that fail, and one that copies plain
bytes. -/
theorem test_meets_CopyChannels :
    (let four : List (Nat × Init) := List.replicate 4 (128, Init.none)
     (host.chan 4095).st == 0 && ((chanAt (fun c => { c with st := 1, heads := four.drop 1 })).chan 4095).heads.length == 3 &&
     ((chanAt (fun c => { c with st := 1, heads := four })).chan 4095).heads.length == 4 &&
     ((chanAt (fun c => { c with st := 2, heads := four })).chan 4095).st == 2 && ((chanAt (fun c => { c with st := 2, held := true })).chan 4095).held &&
     (let s (r : CopyRec) := chanAt (fun c => { c with st := 1, init := hostInit, record := some r })
      let ends (st : Nat) : Bool :=
        let r := emptyRecord (if st == 1 then 0 else st)
        let c := (s r).chan 4095
        (s r).recordMay c r && r.nxt == 0 &&
        (match (s r).runRecord 4095 c r with
         | .inl (t, x, v, ts) => x == st && v == none && (match t.recordWrite ((s r).copyEnv 4095 c r) (r.addr + 8) (r.ctrlDone st) (ts + 1) with
            | .inl w => (match (w.1.counterHome ((s r).copyEnv 4095 c r) r).2 with | .ok _ => true | _ => false)
            | _ => false)
         | _ => false)
      let r := record 0
      ends 1 && ends 5 && (s r).recordMay ((s r).chan 4095) r && (s r).boundCtx 4095 == none && ((s r).chan 4095).init.context == none && r.decode == 0 &&
      r.sspace == 0 && r.dspace == 0 && r.nrows == 1 && r.caddr == 0 && r.len == 4 && r.epoch == none &&
      r.saddr % 128 + r.len ≤ 128 && r.daddr % 128 + r.len ≤ 128 && populated 0x100 && populated 0x200 &&
      (s r).eccClass 0x100 4 < 3 && !(s r).homeDead (paTarget 0x200))) = true := by decide +kernel

/-- A port of an engine, wherever the engine stands. -/
theorem enginePort_mem (e : Nat) : Config.enginePort e ∈ List.range 22 := by
  have : Config.engineChip e % 14 < 14 := Nat.mod_lt _ (by decide)
  simp only [Config.enginePort, List.mem_range]
  omega
/-- CopyChannels: from every port the record's accesses are served. -/
theorem test_meets_CopyPorts : ∀ p ∈ List.range 22, ((([0x100, 0x200, 0x88] : List Nat).all (fun a => host.portServes p (paTarget a))) && host.pairOpen p p) = true := by
  decide +kernel

/-- CopyChannels, the fetch of a record, whichever port an engine has: its link chiplet draining, failed, or in service. -/
theorem test_meets_CopyRecordFetch : ∀ n : Nat, (n = 1 ∨ n = 4 ∨ n = 0) →
    let s := dreg (0x400 + 4 * Config.enginePort 63) (16 * n) (chanAt (fun c => { c with st := 1, next := 0x80, init := hostInit }))
    s.chipState (Config.enginePort (4095 / 64)) = n ∧ (s.chan 4095).st = 1 ∧ (s.chan 4095).record = none := by
  rintro n (rfl | rfl | rfl) <;> exact ⟨by simp [State.chipState, State.field, State.regN, State.reg, dreg, State.setReg, alGet_alSet, bits], rfl, rfl⟩

/-- A read of one line, at whatever port its engine has, where that port serves the line. -/
theorem copyRead_line (s : State) (e a : Nat) (ts : Word) (hm : populated a = true) (ha : a < 2 ^ 64)
    (h : (s.portServes (Config.enginePort e) (far a) && s.pairOpen (Config.enginePort e) (Config.enginePort e) && !isPeer a && !s.bad (far a) 128 &&
      (s.tagMismatch (far a) 128).isNone) = true) :
    (copyRead ⟨e, none, [], 0, false, false⟩ 0 a false { r := true, w := false } [(0, 128)] s ts []).2.2 = .ok (s.readThird (far a) 128 ts 0 0).2.1 := by
  simp only [Bool.and_eq_true, Bool.not_eq_true', Option.isNone_iff_eq_none] at h
  obtain ⟨⟨⟨⟨h1, h2⟩, h3⟩, h4⟩, h5⟩ := h
  simp only [far, BitVec.ofNat_eq_ofNat] at h1 h4 h5
  have hm' : a % 18446744073709551616 = a := Nat.mod_eq_of_lt ha
  simp [copyRead, State.copyAt, State.copyPiece, State.overdue, State.copyPlace, Res.bind, State.engineFill, hm, hm', h1, h2, h3, h4, h5, far]
/-- A read where there is no memory. -/
theorem copyRead_away (s : State) (e a : Nat) (ts : Word) (hm : populated a = false) (ha : a < 2 ^ 64) :
    (copyRead ⟨e, none, [], 0, false, false⟩ 0 a false { r := true, w := false } [(0, 128)] s ts []).2.2 = .stop 3 (some a) := by
  have hm' : a % 18446744073709551616 = a := Nat.mod_eq_of_lt ha
  simp [copyRead, State.copyAt, State.copyPiece, State.copyPlace, Res.bind, hm, hm']
/-- The record of the fetch, read from the channel's head by the engine, whichever port it has; a head where there is no memory. -/
theorem test_meets_CopyRecordRead : ∀ own ∈ ([0, 1] : List Nat), ∀ e : Nat,
    let s : State := { host with mem := { host.mem with glob := Memory.empty.writeN 0x80 (bytesOf 128 (copyImage own).toNat) } }
    (∃ bs, (copyRead ⟨e, none, [], 0, false, false⟩ 0 0x80 false { r := true, w := false } [(0, 128)] s 0 []).2.2 = .ok bs ∧
      (⟨1, 0x80, BitVec.ofNat 1024 (ofBytes bs), 0, none, none, [], false⟩ : CopyRec).own = (own == 1)) ∧
    (copyRead ⟨e, none, [], 0, false, false⟩ 0 (2 ^ 55) false { r := true, w := false } [(0, 128)] s 0 []).2.2 = .stop 3 (some (2 ^ 55)) := by
  intro own ho e
  have key : ∀ own ∈ ([0, 1] : List Nat), ∀ p ∈ List.range 22,
      let s : State := { host with mem := { host.mem with glob := Memory.empty.writeN 0x80 (bytesOf 128 (copyImage own).toNat) } }
      (s.portServes p (far 0x80) && s.pairOpen p p && !isPeer 0x80 && !s.bad (far 0x80) 128 && (s.tagMismatch (far 0x80) 128).isNone) = true ∧
        (⟨1, 0x80, BitVec.ofNat 1024 (ofBytes (s.readThird (far 0x80) 128 0 0 0).2.1), 0, none, none, [], false⟩ : CopyRec).own = (own == 1) := by
    decide +kernel
  have k := key own ho _ (enginePort_mem e)
  exact ⟨⟨_, copyRead_line _ e _ _ (by decide +kernel) (by decide) k.1, k.2⟩, copyRead_away _ e _ _ (by decide +kernel) (by decide)⟩

/-- WalksAndShootdowns: pages that a walk finds, that fault, and that the host is asked for; replies for each; shootdowns begun, ignored
while one is in progress, and completed. -/
theorem test_meets_WalksAndShootdowns :
    (let s : State := { base with mem := { base.mem with tlb := [] } }
     let h := holdersOf 1023
     !s.mem.tlb.any (fun e => e.covers h 4095 (2 ^ 56 - 1)) &&
     (let tables : Memory := ((Memory.empty.writeN 0 (bytesOf 16 (1 + 0x10000 * 2 ^ 64))).writeN 0x10000 (bytesOf 16 (1 + 0x20000 * 2 ^ 64))).writeN
        0x20000 (bytesOf 16 codeLeaf.toNat)
      match ({ s with mem := { s.mem with glob := tables } } : State).translate h 0 (2 ^ 28 - 1) with | .leaf e => e == codeLeaf | _ => false) &&
     (match s.translate h 0 (2 ^ 56 - 1) with | .fault _ _ _ => true | _ => false) &&
     (match (dreg 0 2 s).translate h 0 (2 ^ 56 - 1) with | .miss => true | _ => false) &&
     (let k := Pending.trans (.cluster 127) 7 9
      let z : State := { s with mbox := { s.mbox with pending := [k] } }
      z.transAsked 7 9 == some (.cluster 127, k) && z.fe.shoot == none && !(0xFA : BitVec 128).getLsbD 0 && leafDefect 0xCFB 3 && codeLeaf.getLsbD 0 &&
      codeLeaf.getLsbD 1 && !leafDefect codeLeaf 2 && ([k] : List Pending).contains k) &&
     !bit (s.regN 0x38) 16 && bit ((dreg 0x38 0x10000 s).regN 0x38) 16 &&
     (let k : Shoot := ⟨none, none, 8, [], []⟩
      let z : State := { host with fe := { host.fe with shoot := some k } }
      k.walks == [] && !z.allGroups.any k.holdsGroup && !z.clusters.any k.holdsCluster)) = true := by decide +kernel

/-! Device steps: the host, the fabric, peers and repair. -/

/-- The device after boot. -/
def ready : State := dreg 0x200 0x1C1 host
def mcmd (typ : Nat) : MboxCmd := ⟨typ, 9, 0, true⟩

/-- HostCommands: records over the ring and over I3C, commands that are known and that are not, a lost event, states that may and may not
enter S4, checkpoints and restores. -/
theorem test_meets_HostCommands :
    (!host.inS4 && ([mcmd 0x50].filter (fun c => !c.i3c)).length == 0 && bit ((dreg 0x310 0x8000_0606 host).regN 0x310) 31 && !bit (host.regN 0x310) 31 &&
     (host.command (mcmd 0x50)).isSome && (host.command (mcmd 0x55)).isNone && (host.command (mcmd 0x53)) == some .ckpt &&
     (let s := dreg 0x310 0x8000_0606 { host with mbox := { host.mbox with lostNew := 3 } }
      s.mbox.lostNew != 0 && (s.regN 0x318 + 2 ^ 32 - 0) % 2 ^ 32 < 2 ^ (s.field 0x310 4 0)) &&
     host.launches.any (fun l => l.st == .admitted) && !State.reset.launches.any (fun l => l.st == .admitted) && !(List.range 512).any State.reset.qen &&
     !host.halvesOk && (dreg 0x4A0 1 host).field 0x4A0 1 0 == 1 &&
     (let s := dreg 0x4A0 1 { host with plots := [] }
      !s.moreToStop (fun _ => true) && !s.ckWaits) &&
     (let s := dreg 0x4A0 2 { host with ckpt := { Ckpt.none with launches := [launch], ended := [(0, 0, 6)] }, launches := [] }
      s.field 0x4A0 1 0 == 2 && (s.imaged 0 0) == some launch && !s.launches.any (fun l => l.queue == 0 && l.entry == 0) &&
      (match ({ s with ckpt := { s.ckpt with restore := some (0, 0, [(0, 2 ^ 21), (0x11FFFE00000, 2 ^ 21)]) } } : State).ckpt.restore with
        | some (q, e, _) => (s.imaged q e).isSome
        | none => false) &&
      ([(0, 2 ^ 21), (0x11FFFE00000, 2 ^ 21)] : List (Nat × Nat)).all (fun x => x.1 % 2 ^ 21 == 0 && x.2 % 2 ^ 21 == 0 && x.1 + x.2 ≤ 0x12000000000))) = true := by decide +kernel
/-- HostAndBoot: boot stages, whichever images ROM accepts, power states, host accesses, and register writes before and after a failed
boot. -/
theorem test_meets_HostAndBoot :
    ((dreg 0x480 1 host).chipState 8 == 0 && (dreg 0x420 0x40 host).chipState 8 == 4 &&
     State.reset.regN 0x200 % 4 == 0 && max 1 (State.reset.field 0x200 4 2) == 1 && max 1 ((dreg 0x200 12 State.reset).field 0x200 4 2) == 3 &&
     max 1 ((dreg 0x200 16 State.reset).field 0x200 4 2) == 4 && State.reset.boot.broken == [] &&
     (let s := dreg 0x208 2000 host
      s.idleFor 1 1023 && wakeTime 1 ≤ s.regN 0x208 && !s.idleFor 1 0) &&
     (let s := dreg 0x208 2000000 State.reset
      s.idleFor 2 21 && s.idleFor 3 0 && wakeTime 3 ≤ s.regN 0x208 && wakeTime 2 ≤ s.regN 0x208) &&
     ({ State.reset with boot := { State.reset.boot with asleep := [(4, 0)] } } : State).inS4 &&
     ready.hostPort 20 && ready.hostRange 0x11FFFFFFFFF 1 && !ready.hostRange 0x11FFFFFFFFF 2 && ready.hostRange 0x100 8 && !ready.hostWaits 20 0x100 8 &&
     !ready.hostDead 0x100 8 && !bit (ready.regN 0x200) 1 && bit ((dreg 0x200 2 ready).regN 0x200) 1 && !(dreg 0x200 2 ready).inS4 &&
     ((dreg 0x420 0x40 ready).hostDead 0 1 && !(dreg 0x420 0x40 ready).hostWaits 20 0 1) && (ready.ras.counters.map (·.1)).Nodup) = true := by decide +kernel

/-- ColourMap: a pair that is healthy, with a change in progress, with one colour, in its margin, re-centring, and owned by the device. -/
theorem test_meets_ColourMap :
    (let off := cmapOff 21 20
     let s := State.reset
     isPair 21 20 && !s.cmapRefused 21 20 0 false 0 && !s.cmapRefused 21 20 1 true 0 && !s.cmapRefused 21 20 2 false 19 && s.cmapRefused 21 20 2 false 31 &&
     s.colourOk 21 20 true && s.relays 21 20 == [] && s.cmapMode 21 20 == 0 && !s.fsplit 5 && (dreg 0 32 s).fsplit 5 && !s.fsplit 4 &&
     (dreg off 0x70000 s).cmapPend 21 20 && (dreg off 0x70000 s).carrierOk 21 20 && (dreg off 0x70000 s).cmapRefused 21 20 0 false 0 &&
     !(dreg off 0x20001 s).colourOk 21 20 false && (dreg off 0x20001 s).colourOk 21 20 true &&
     (let z (m : Nat) : State := dreg off m { s with ras := { s.ras with auto := [(21, 20)], margins := [(21, 20, true)], recentring := [(21, 20, true)] } }
      (z 0x30001).ras.auto.contains (21, 20) && (z 0x30001).ras.margins.contains (21, 20, true) && (z 0x30001).ras.recentring.contains (21, 20, true) &&
      (z 0x30001).offColour 21 20 true && !(z 0x30001).cmapRefused 21 20 0 false 0) && !s.ras.margins.contains (21, 20, false)) = true := by decide +kernel

/-- PeerPorts, the ports: each state of a port, mode changes proposed, answered, marked and abandoned. -/
theorem test_meets_PeerPorts :
    (let s (st : Nat) (ends : List EccEnd) (pend : Nat) : State :=
       dreg 0x200 (5 * 32) (dreg (pctl 7) (0x500 + 16 * st + 4096 * pend + 9 * 65536) { State.reset with peers := { State.reset.peers with ends := ends } })
     let e (p : Option Nat) (w : Bool) (sm : Option Nat) : EccEnd := ⟨7, p, w, sm, none, 1⟩
     ([0, 1, 2, 3, 4] : List Nat).all (fun n => (s n [] 0).portState 7 == n) && (s 4 [] 0).devid == 5 && (s 4 [] 0).chipState 21 == 0 &&
     (s 2 [] 0).field (pctl 7) 11 10 == 1 && !(s 2 [] 0).eccPend 7 && (s 2 [] 1).eccPend 7 && (s 2 [] 0).eccMode 7 == 1 &&
     (s 2 [] 0).field (pctl 7) 23 16 == 9 && (s 2 [e (some 2) false none] 1).devid ≤ 9 && ((s 2 [e (some 2) false none] 1).eccEnd 7).proposed == some 2 &&
     ((s 2 [e none true (some 2)] 1).eccEnd 7).sentSM == some 2 && ((s 2 [e none true none] 0).eccEnd 7).window && ((s 2 [] 1).eccEnd 7).sentSM == none) = true := by
  decide +kernel

/-- A request of a peer for four bytes at the edge of the inbound window. -/
def preq (k : PeerKind) (age : Nat) : PeerReq := ⟨k, BitVec.ofNat 64 (9 * 2 ^ 56 + 77), 5, 63, age, 0x1FFC, 0, [1, 2, 3, 4]⟩
def peered : State :=
  dreg 0x30800 0x1000 (dreg 0x30808 0x1000 (dreg (0x31000 + 8 * 63) (0x10000 + 9 * 256) (dreg 0x200 (5 * 32) (dreg (pctl 0) 0x520 State.reset))))

/-- PeerPorts, the accesses: requests that are for another device, outside the window, while a checkpoint runs, known, expired, and that
perform; answers, resends and failures of an access of the device. -/
theorem test_meets_PeerAccesses :
    (let r := preq .store 3500
     peered.portState 0 == 2 && !peered.inS4 && peerSpan r == 4 && r.dev == peered.devid && peered.inbound r 4 && !peered.inbound { r with pa := 0x1FFD } 4 &&
     peered.field 0x4A0 1 0 != 1 && (dreg 0x4A0 1 peered).field 0x4A0 1 0 == 1 && !peered.hostWaits 20 0x1FFC 4 && !peered.hostDead 0x1FFC 4 &&
     peered.eccClass 0x1FFC 4 < 3 && peerSpan { preq .atomic 0 with opa := 16, bytes := List.replicate 32 0 } == 16 && (preq .load 0).kind == .load &&
     (preq .store 3501).age == 3501 && ([((9 : DWord), ([] : List Byte), 0)].find? (fun x => x.1 == 9)).isSome &&
     peered.peers.table.find? (fun x => x.1 == r.id) == none &&
     (let m (b : Bool) : Remote := ⟨77, 1, 9, 0, true, 0, 0, .load, 2 ^ 50, 1, 50, 0, 0, b⟩
      let s (b : Bool) : State := { peered with groups := host.groups, peers := { peered.peers with remotes := [m b] } }
      ((s false).peers.remotes.find? (fun r => r.id == 77 && r.sent)) == some (m false) && ((s true).peers.remotes.find? (fun r => r.id == 77 && r.sent)) == some (m true) &&
      ((s false).group 1).isSome && (group false 3).holdRec 50 == none && ({ group false 3 with loads := [ldRec (far (2 ^ 50)) .unsent] }.load 50).isSome &&
      peered.peers.remotes.find? (fun r => r.id == 3) == none)) = true := by decide +kernel

/-- RepairAndChiplets: rows, counts and banks at their thresholds, and chiplets of each kind in each state. -/
theorem test_meets_RepairAndChiplets :
    (let s := State.reset
     s.chipState 19 != 4 && !s.fsplit 6 && (dreg 0 64 s).fsplit 6 && s.field 0x488 47 32 == 0x400 && (alGet ([(11, 0x400)] : List (Nat × Nat)) 11).getD 0 == 0x400 &&
     (alGet ([(11, 0x401)] : List (Nat × Nat)) 11).getD 0 == 0x401 &&
     (let z := dreg 0x310 0x8000_0606 s
      bit (z.regN 0x310) 31 && z.mbox.waiting == [] && z.mbox.lostNew == 0 && (z.regN 0x318 + 2 ^ 32 - z.regN 0x31C) % 2 ^ 32 < 2 ^ (z.field 0x310 4 0)) &&
     max 512 (s.field 0x488 15 0) == 0x1000 && (s.ras.added.filter (fun x => x.1 == 11)).length < 4096 && ([(11, 3)] : List (Nat × Nat)).contains (11, 3) &&
     (let z (port st : Nat) : State := dreg (chipctl port) (16 * st) s
      ([0, 7, 8, 19, 20, 21] : List Nat).all (fun p => ([0, 1, 2, 3, 4] : List Nat).all (fun n => (z p n).chipState p == n)) && (z 7 1).field 0x4A0 1 0 == 0 &&
      (dreg 0x4A0 3 s).field 0x4A0 1 0 == 3 && !(z 7 1).drainGoesOn 7 && (z 7 1).drainDone 7 && s.chipState 20 == 0 &&
      (let h := dreg (chipctl 0) 16 { host with ctxs := [{ ctx with savebase := 0x100000, savesize := 0x100000 }] }
       h.drainGoesOn 0) && host.launches.any (fun l => l.lid == plot.lid) && chipletOf plot.core == 0 && plot.st == .resident)) = true := by decide +kernel

/-- RepairAndChiplets, where the device has a second tier: an access that waits for its draining link chiplet, and CHIP_DRAIN of it. -/
theorem test_meets_second_tier (h : Config.isC = false) :
    (dreg 0x450 16 host).tierWaits (far 0x40000000000) = true ∧ (dreg 0x450 16 host).tierWaits (far 0x4FFFFFFFFFF) = true ∧
    State.reset.chipState 20 = 0 ∧ State.reset.chipState 21 = 0 := by
  refine ⟨?_, ?_, by decide +kernel, by decide +kernel⟩ <;>
    (simp only [State.tierWaits, State.tierIn, far, paKind, h]; decide +kernel)
/-- A record that writes into its target plot's scratchpad, of a chain that the plot started, while the plot's chiplet has its colours gated
and a link chiplet drains. -/
def heldRecord : CopyRec := { record 0 with image := copyImage 1 + BitVec.ofNat 1024 (2 * 2 ^ 75) }
def heldCopy : State :=
  let c : HwChan := { HwChan.idle 4095 with st := 1, init := { Init.none with lid := plot.lid, pid := plot.pid }, record := some heldRecord }
  { dreg 0x450 16 { host with chans := [c] } with ras := { State.reset.ras with gates := [0] } }
/-- RepairAndChiplets: a record that waits, while a link chiplet drains. -/
theorem test_meets_held_copy : (heldCopy.chan 4095).st = 1 ∧ (heldCopy.chan 4095).record = some heldRecord ∧ heldCopy.chipState 20 ≠ 0 ∧
    heldCopy.runRecord 4095 (heldCopy.chan 4095) heldRecord = .inr none := by
  have ports : ∀ p ∈ List.range 22, 8 ≤ p → heldCopy.pairOpen p 0 = false := by decide +kernel
  have shut : heldCopy.pairOpen (Config.enginePort 63) 0 = false := ports _ (enginePort_mem 63) (by simp [Config.enginePort])
  have pid : ((heldCopy.targetPlot (heldCopy.chan 4095).init heldRecord).map (·.pid)).getD 0 = plot.pid := by decide +kernel
  have init : (heldCopy.chan 4095).init.context = some 0 ∧ (heldCopy.chan 4095).init.pid = plot.pid ∧ heldRecord.leaves = [] ∧ heldRecord.late = false := by
    decide +kernel
  have env : heldCopy.copyEnv 4095 (heldCopy.chan 4095) heldRecord = ⟨63, some 0, [], plot.pid, false, false⟩ := by simp [State.copyEnv, pid, init]
  have place : heldCopy.copyPlace ⟨63, some 0, [], plot.pid, false, false⟩ 2 0 1 { r := true, w := false } = .ok { space := .scratch, addr := plot.base } := rfl
  have plotIn : heldRecord.needsPlot = true ∧ heldRecord.status = 0 := by decide +kernel
  have core : plot.base / 134217728 = 0 := by decide +kernel
  refine ⟨by decide +kernel, by decide +kernel, by decide +kernel, ?_⟩
  simp [State.runRecord, State.plotServes, State.copyPiece, State.overdue, Res.bind, env, place, plotIn, core, shut]
/-- RepairAndChiplets, where the device has a second tier: a load of a group that has not left for a draining link chiplet. -/
theorem test_meets_unperformed (h : Config.isC = false) :
    ((dreg 0x450 16 host).unperformed { group false 3 with loads := [ldRec (far 0x40000000000) .unsent] } 50).find? (fun t => (dreg 0x450 16 host).tierWaits t) =
      some (far 0x40000000000) := by
  have k := (test_meets_second_tier h).1
  have l : (dreg 0x450 16 host).unperformed { group false 3 with loads := [ldRec (far 0x40000000000) .unsent] } 50 = [far 0x40000000000] := by decide +kernel
  rw [l]
  simp [List.find?, k]
/-- Addresses of the second tier, of a device that has it: behind LC0, and behind LC1. -/
theorem second_kind (h : Config.isC = false) (pa lc : Nat) (hl : lc < 2) (h1 : 0x40000000000 + lc * 0x20000000000 ≤ pa)
    (h2 : pa < 0x50000000000 + lc * 0x20000000000) : paKind pa = .second lc := by
  have a : ¬ pa < 0x12000000000 := by omega
  obtain rfl | rfl : lc = 0 ∨ lc = 1 := by omega
  · have b : 0x40000000000 ≤ pa := by omega
    have c : pa < 0x50000000000 := by omega
    simp [paKind, h, a, b, c]
  · have b : ¬ pa < 0x50000000000 := by omega
    have c : 0x60000000000 ≤ pa := by omega
    have d : pa < 0x80000000000 := by omega
    have e : pa < 0x70000000000 := by omega
    simp [paKind, h, a, b, c, d, e]
theorem second_populated (h : Config.isC = false) (pa lc : Nat) (hl : lc < 2) (h1 : 0x40000000000 + lc * 0x20000000000 ≤ pa)
    (h2 : pa < 0x50000000000 + lc * 0x20000000000) : populated pa = true := by
  unfold populated
  rw [second_kind h pa lc hl h1 h2]
theorem second_step (n k : Nat) (hn : n = 2308) (hk : k < n) : k * 2 ^ 28 ≤ 0x9030000000 := by
  calc k * 2 ^ 28 ≤ 2307 * 2 ^ 28 := Nat.mul_le_mul_right _ (by omega)
    _ ≤ 0x9030000000 := by norm_num
theorem second_all (h : Config.isC = false) (n a lc : Nat) (hn : n = 2308) (hl : lc < 2) (ha : a = 0x40000000000 + lc * 0x20000000000) :
    (List.range n).all (fun k => populated (a + k * 2 ^ 28)) = true := by
  refine List.all_eq_true.mpr (fun k hk => ?_)
  have hk' := second_step n k hn (List.mem_range.mp hk)
  revert hk'
  generalize k * 2 ^ 28 = m
  intro hk'
  exact second_populated h (a + m) lc hl (by omega) (by omega)
theorem second_halves (h : Config.isC = false) (s : State) (a b : Nat) (ha : s.regN 0x490 = a) (hb : s.regN 0x498 = b)
    (h1 : a = 0x40000000000) (h2 : b = 0x60000000000) : s.halvesOk = true := by
  have k1 := second_kind h a 0 (by decide) (by omega) (by omega)
  have k2 := second_kind h (a + 577 * 2 ^ 30 - 1) 0 (by decide) (by omega) (by omega)
  have k3 := second_kind h b 1 (by decide) (by omega) (by omega)
  have k4 := second_kind h (b + 577 * 2 ^ 30 - 1) 1 (by decide) (by omega) (by omega)
  have m1 : a % 2 ^ 30 = 0 := by omega
  have m2 : b % 2 ^ 30 = 0 := by omega
  have m3 : a ≠ 0 := by omega
  unfold State.halvesOk
  rw [ha, hb]
  simp only [k1, k2, k3, k4]
  have e1 := second_all h 2308 a 0 rfl (by decide) (by omega)
  have e2 := second_all h 2308 b 1 rfl (by decide) (by omega)
  revert e1 e2
  generalize (List.range 2308).all (fun k => populated (a + k * 2 ^ 28)) = x
  generalize (List.range 2308).all (fun k => populated (b + k * 2 ^ 28)) = y
  rintro rfl rfl
  have q1 : (a % 2 ^ 30 == 0) = true := beq_iff_eq.mpr m1
  have q2 : (b % 2 ^ 30 == 0) = true := beq_iff_eq.mpr m2
  have q3 : (a != 0) = true := bne_iff_ne.mpr m3
  have q4 : decide (a + 577 * 2 ^ 30 ≤ b) = true := decide_eq_true (by omega)
  simp only [q1, q2, q3, q4, Bool.and_true, Bool.true_or, beq_self_eq_true]
/-- HostAndBoot, CHECKPOINT: a device with a second tier, the halves of whose region lie behind its two link chiplets, takes the
command. -/
theorem test_meets_checkpoint (h : Config.isC = false) :
    let s := dreg 0x490 0x40000000000 (dreg 0x498 0x60000000000 State.reset)
    s.halvesOk = true ∧ s.ckBusy = false ∧ (List.range 22).any (fun p => s.chipState p == 1 || s.chipState p == 3) = false :=
  ⟨second_halves h _ _ _ (by decide +kernel) (by decide +kernel) rfl rfl, by decide +kernel, by decide +kernel⟩

/-- RoundingAndNans and Conversions: numbers that round within the range, above it, and below the least normal; operands of each class;
conversions to eight bits of each class, and integers at and beyond each end. -/
theorem test_meets_number_classes :
    (let u := Fmt.f16.unpack
     ([u 0x3C00 == .fin false 1024 (-10), u 0x7C00 == .inf false, u 0xFC00 == .inf true, (u 0x7E00).isNan, !(u 0x7E00).isSig, (u 0x7C01).isSig,
       u 0x8000 == .fin true 0 (-24), expOf (roundTo 0 false 65504 0 5 false).1 5 ≤ (2 ^ 5 : Int) - 2 - Fmt.f16.bias, (2 ^ 5 : Int) - 2 - Fmt.f16.bias < expOf (roundTo 0 false 65535 0 5 false).1 5,
       expOf (roundTo 0 false 1 (-30) (-24) false).1 (-24) ≤ 15, (roundTo 0 false 1 (-30) (-24) false).2, (-30 : Int) < -24,
       Fmt.e4m3.unpack 0x7F == .nan false false, Fmt.e5m2.unpack 0x7C == .inf false, Fmt.f32.unpack 0xFF800000 == .inf true,
       -- beyond 448, and up to it
       decide (448 * 2 ^ 16 < (roundTo 0 false 466 0 5 false).1 * 2 ^ 21), !decide (448 * 2 ^ 16 < (roundTo 0 false 464 0 5 false).1 * 2 ^ 21),
       Fmt.f32.unpack 0x4F000000 == .fin false 0x800000 8, decide (((roundTo 0 false 0x800000 8 0 false).1 : Int) > 2 ^ 31 - 1),
       decide (-((roundTo 0 true 0x800000 8 0 false).1 : Int) = -(2 ^ 31)), decide (-((roundTo 0 true 0x800001 8 0 false).1 : Int) < -(2 ^ 31))] : List Bool).all id) =
      true := by decide +kernel
/-- EnteringAWord, queues: a word with one field that names a queue, popping and peeking; the entry that a lane reads, at its head and given
back; a chain whose wait executes again; pushes of the first lane of an entry and of another. -/
theorem test_meets_queue_words :
    (let ent : QEnt := { QEnt.blank with vals := List.replicate 32 5, filled := true, stamp := 3 }
     let filled : State := { demo with cur := { demo.cur with arch := { demo.cur.arch with q := demo.cur.arch.q.set 2 ⟨0, [ent]⟩ } } }
     let given : State := { filled with cur := filled.cur.updThread 0 (fun t => { t with kept := [(2, ent)] }) }
     let again : State := { filled with cur := filled.cur.updThread 0 (fun t => { t with redo := some (filled.issue.chainPos, ⟨5, 0⟩, WSrc.none) }) }
     let pop : Instr := .iadd (W 3 58 1)
     let peek : Instr := .iadd { W 3 58 1 with am := true }
     let only (i : Instr) (m : Bool) : Bool := ((Instr.fields i).filter (fun y => y.queue.isSome)).map (fun y => (y.queue, y.m)) == [(some 2, m)]
     let push (g : Group) (l : Nat) : Bool := g.arch.qb.base ≤ (g.thread l).qbw && l < g.arch.threads.length
     ([only pop false, only peek true, can filled [pop, peek], (filled.lanes pop).contains 0, (filled.cur.thread 0).kept == [],
       ((given.snap.thread 0).kept.filter (fun e => e.1 == 2)).length == 1, can given [pop], given.snap.head 2 0 == some ent,
       ((again.cur.thread 0).redoAt again.issue.chainPos).isSome, ((filled.cur.thread 0).redoAt filled.issue.chainPos).isNone,
       filled.snap.head 2 0 == some ent, push demo.cur 0, (demo.cur.pushQb 0 5).arch.qb.ents.length == 1, push (demo.cur.pushQb 0 5) 1,
       (let d := deferring demo; d.mayIssue (.yield (W 0 0 0)) && d.mayIssue (.csrr (WI 3 0 0x13)) && d.lanes (.yield (W 0 0 0)) != [])] : List Bool).all id) = true := by
  decide +kernel

/-- YieldExchanges, WaitOnMemory, ScansAndReductions: a home that can be reached and answer; a WAITC that a notice has told; a prefix of
the tree; barriers whose threads have all come, and not. -/
theorem test_meets_waits_and_trees :
    (let nt : Notice := ⟨1, 640, 0x80, 3⟩
     let told : State := { demo with cur := demo.cur.updThread 0 (fun th => { th with told := some (demo.issue.chainPos, nt) }) }
     let sync (m : Word) (rs : List MRec) (s : State) : State := { s with cur := { s.cur.mapThreads (fun l t => if m.getLsbD l then { t with wait := some .msync } else t) with
       arch := { (s.cur.mapThreads (fun l t => if m.getLsbD l then { t with wait := some .msync } else t)).arch with msync := rs } } }
     let whole (g : Group) (r : MRec) : Bool := r.arrived ||| (r.mask &&& ~~~g.liveMask) == r.mask
     let at_ (n : Nat) : State := { solo with cur := solo.cur.mapThreads (fun l t => if t.live && l < n then { t with wait := some (.sbar 0 1) } else t) }
     ([demo.portServes 0 (far 0), demo.portServes (chipletOf demo.cur.core) { space := .chip, addr := 8 }, told.noticeOf 0 640 == some nt, demo.noticeOf 0 640 == none,
       (0 < 2) && 2 ∣ 6 && decide (6 + 2 ^ 0 < 2 ^ 5),
       whole (sync 3 [⟨3, 3⟩] demo).cur ⟨3, 3⟩, !whole (sync 1 [⟨3, 1⟩] demo).cur ⟨3, 1⟩, (sync 1 [⟨3, 1⟩] demo).cur.arch.msync == [⟨3, 1⟩],
       ((3 : Word) &&& 4 == 0), (demo.launch 3).setPlots 0 == [0], (solo.launch 3).bar 0 == ⟨0, 0, [], 0⟩,
       (at_ 32).allGroups.all (fun g => g.arch.threads.length == 32 && g.arch.threads.all (fun t => !t.live || t.atSbar 0)),
       (at_ 1).allGroups.any (fun g => g.arch.threads.any (fun t => t.live && !t.atSbar 0)), ((at_ 32).allGroups.map (·.gid)) == [1],
       (at_ 32).cur.sbarCount 0 == ((at_ 32).launch 3 |>.bar 0).gens, solo.cur.place != .gone] : List Bool).all id) = true := by decide +kernel
/-- BarrierObjects, one lane: objects that a lane's word changes and that it faults on; a lane of KBWAIT that waits and one that leaves; a
waiting thread whose object has moved on, and one whose object has not. -/
theorem test_meets_barrier_object_lanes :
    (let at_ (gen : Nat) (valid : Bool) (s : State) : State :=
       { s with mem := { s.mem with scratch := s.mem.scratch.writeN (s.plotBase s.cur) (bytesOf 16 (⟨gen, valid, false, 0, 0, 2, 2, 0, 0, 0⟩ : KObj).num) } }
     let obj (s : State) : KObj := KObj.of (s.mem.scratch.num (s.plotBase s.cur) 16)
     let w := W 8 2 4
     let acts (s : State) (op : Nat) : Bool := ((obj s).act op w.x (s.snap.src w.b 0).toNat).isSome
     let waits (s : State) : Bool := (obj s).valid && !(obj s).dead && (obj s).gen == (s.snap.src w.b 0).toNat
     let waiting (s : State) : State := { s with cur := s.cur.updThread 0 (fun t => { t with wait := some (.kb 0 3 8) }) }
     let leaves (s : State) : Bool := ((waiting s).cur.thread 0).wait == some (.kb 0 3 8) && ((obj s).dead || (obj s).gen != 3)
     ([acts (at_ 0 true solo) 1, acts (at_ 0 true solo) 3, acts (at_ 0 true solo) 0, acts solo 0, !acts solo 1, !acts solo 3, waits (at_ 0 true solo),
       !waits (at_ 1 true solo), !waits (at_ 0 false solo), leaves (at_ 4 true solo), !leaves (at_ 3 true solo), !solo.bad { space := .scratch, addr := 0 } 16,
       solo.cur.place != .saved, solo.cur.arch.threads.length == 32, (solo.cur.thread 0).v.length == 56,
       !solo.boarded { space := .scratch, addr := 0 } 16 true] : List Bool).all id) = true := by decide +kernel

/-- DataflowChannels, SequenceMarks, and the prefetches: a channel whose consumer has ended, and one whose producers have with nothing left;
a descriptor with a reserved bit; homes that a mark reaches; the line of a prefetch that can be reached. -/
theorem test_meets_channels_marks_prefetches :
    (let past (c : Chan) (index : Nat) : State := { demo with
       launches := [{ launch with chans := [c] }], plots := [plot, { plot with pid := 9, index := index, st := .ended }] }
     let a := past ⟨0, 1, 2, [3], [], [], []⟩ 1
     let b := past ⟨1, 0, 1, [], [], [], []⟩ 1
     let ended (s : State) (i : Nat) : Bool := s.plots.any (fun q => q.lid == 3 && q.index == i && q.st == .ended)
     let step_ : State := { solo with launches := [{ launch with image := image ||| 0x40 }] }
     let broken : State := { step_ with mem := { step_.mem with glob := Memory.empty.writeN 0 [0, 0, 0, 0x80] } }
     let goes (s : State) (ea : DWord) : Bool := match s.checkGlobal (holdersOf s.cur.core) s.cur.ctx s.inHandler 0 ea 1 { r := true, w := false } with
       | .ok [(t, _)] => s.portServes (chipletOf s.cur.core) (x4Line t)
       | .wait _ => false
       | _ => true
     let one : State := drill.issueState { group true 3 with width := 1 } true 0 ⟨0, 0⟩
     ([ended a 1, can a [.send (W 0 2 0)], can b [.recv (W 8 0 0)], isTrap 0x0B (a.sendState a.cur 0),
       broken.streamBroken (broken.launch 3).hstream, !step_.streamBroken (step_.launch 3).hstream, (step_.launch 3).step,
       step_.portServes 0 { space := .glob, addr := step_.seqEntry (step_.launch 3).hstream 5 }, !step_.bad { space := .glob, addr := step_.seqEntry (step_.launch 3).hstream 5 } 16,
       can solo [.pref (WI 0 2 0)], solo.lanes (.pref (WI 0 2 0)) == [0], goes solo 0, goes solo (BitVec.ofNat 64 (2 ^ 60)), one.cur.drillLanes == [0],
       canD one [.dpref (WI 0 2 1)], goes one 0] : List Bool).all id) = true := by decide +kernel
/-- HomeLoadsAndStores, replies: a woken wait that is reached and one that is not; a load that an L1 copy serves, and one behind nothing;
replies that come back, a load that validates at its thread's point and one that is sent again; a load of the Drill stream and a gather. -/
theorem test_meets_HomeReplies :
    (let wait (cmp : DWord) : AddrWait := ⟨far 252, 0, true, true, 0, cmp, 8, 6, 0, true, none⟩
     let woken (cmp : DWord) : State := withGroup (fun g => g.updThread 0 (fun t => { t with wait := some (.addr (wait cmp)) }))
     let g0 (s : State) : Group := (s.group 1).getD Group.idle
     let r (x : LSt) : LoadRec := ldRec (far 252) x
     let arrived (e : Word) : LSt := .arrived [1, 2, 3, 4] 5 e none
     let sentL : State := loading (far 252) (.sent [1, 2, 3, 4] 5 9 none ⟨7, none⟩)
     let copy (s : State) : State := { s with mem := { s.mem with l1 := [⟨0, 1, 0, 9, List.replicate 128 7, [0, 0, 0, 0], 0⟩] } }
     let lead (op : Nat) : Group := { group true 3 with dloads := [{ r (arrived 9) with dst := .queue 2 0, op := op }] }
     ([(woken 5).reloadMay (g0 (woken 5)) 0, (woken 0).reloadMay (g0 (woken 0)) 0, (woken 5).tagMismatch (far 252) 8 == none, (5 : DWord).toNat > 0,
       (copy (loading (far 252) .unsent)).l1Serves (g0 (loading (far 252) .unsent)) (r .unsent) ⟨far 252, 4, .unsent⟩,
       !(loading (far 252) .unsent).behind (g0 (loading (far 252) .unsent)) 50 0 (far 252),
       sentL.answersVia 0 (far 252) none, !sentL.dataBehind 0 (far 252) ⟨7, none⟩, (g0 sentL).place != .saved,
       (g0 sentL).holds == [], ((g0 sentL).thread 0).pts == 0, validate false 0 (r (arrived 9)).parts == some 5, validate false 10 (r (arrived 9)).parts == none,
       (g0 sentL).olderDone 0 50, !(g0 sentL).isDload 50, (lead 0).dloads.find? (fun r => r.id == 50 && r.op == 0) != none,
       (lead 60).dloads.filter (fun r => r.op == 60) != [], (lead 0).arch.drill.dts == 0] : List Bool).all id) = true := by decide +kernel

/-- HomeLoadsAndStores, stores: tags, scratchpad, a hypervector's line and a head for a copy channel that may perform; stamps that come back
before the last of a word and as the last, for lanes that leave then and that do not. -/
theorem test_meets_HomeStoreKinds :
    (let hr (k : SKind) (t : Target) (x y : SSt) : HoldRec := { stRec t x y with kind := k }
     let st (k : SKind) (t : Target) (x y : SSt) : State := withGroup (fun g => { g with holds := [hr k t x y], arch := { g.arch with
       threads := g.arch.threads.map (fun t => if t.live then { t with hold := 50 } else t) } })
     let g0 (s : State) : Group := (s.group 1).getD Group.idle
     let may (k : SKind) (t : Target) : Bool := let s := st k t .unsent .unsent
       (g0 s).partMay (hr k t .unsent .unsent) 0 ⟨0, t, 0, [1, 2, 3, 4], .unsent⟩ && !s.remoteOut 1 50 0 && !s.boarded t 4 true && !s.homeDead t && !s.tierWaits t &&
         s.reachable 0 t && !s.behind (g0 s) 50 0 t && (s.tagMismatch t 4).isNone
     let quiet (s : State) : Bool := s.allGroups.all (fun x => x.arch.threads.all (fun t => t.wait.isNone && t.susp.isNone))
     let back (y : SSt) : State := st .store (far 124) (.performed 1 [] ⟨7, none⟩) y
     let comes (s : State) : Bool := s.answersVia 0 (far 124) none && !s.stampBehind 0 (far 124) ⟨7, none⟩
     let t1 : Target := { space := .chan, addr := 32 }
     ([may .store (far 124), may .tagset (far 96), may .hst (far 128), may .store { space := .scratch, addr := 64 }, may .store { space := .chip, addr := 64 }, may .store t1,
       quiet (st .store (far 124) .unsent .unsent), (host.chan 1).st == 0, ofBytes [0x80, 0, 0, 0] == 128,
       comes (back .unsent), comes (back (.done 2 [])), !(SSt.unsent).answered, ((g0 (back .unsent)).thread 1).hold == 50, (stRec (far 124) .unsent .unsent).held.late == [],
       isPeer 124 == false, (far 124).tag == none, (stRec (far 124) .unsent .unsent).set.getLsbD 1,
       (g0 (back .unsent)).esc.isNone && !(g0 (back .unsent)).trap.handler && (host.ctx 0).traph != 0 && !host.fsplit 2] : List Bool).all id) = true := by
  decide +kernel
/-- AtomicsAndSlices: a request that joins the last of its kind, and one for which the stage has no entry left; a line that a load in flight
has to have, with and without a tensor; lines to evict; a slice of a DISCARD that can be reached; requests of which none waits before. -/
theorem test_meets_joins_and_lines :
    (let q := areq 9 0 (.core 1 50 0 [(0, 5)])
     let other : AReq := { q with addr := 256 }
     let st (n : Nat) : Stage := ⟨9, [], [q, other], List.replicate n ⟨4, .core 1 50 0 [], .core 1 51 0 [], 3, 1, 1, none, none⟩⟩
     let e1 : BitVec 128 := codeLeaf ||| BitVec.ofNat 128 (5 * 2 ^ 32)
     let lacks (e : BitVec 128) : State := loading { far 252 with leaf := e } .unsent
     let l : LineSt := host.line (.glob 2)
     let two (a b : Bool) : State := host.setLine { l with first := a } |>.setLine { host.line (.glob 26) with first := b }
     let d : Disc := ⟨60, 1, 0, 5, 0, [11]⟩
     let disc : State := { host with mem := { host.mem with discs := [d] } }
     let mid := staged ⟨127, [], [areq 127 7 (.entry 1 2)], []⟩
     ([combinable q q, !combinable other q, (st 0).wb.length < 64, 64 ≤ (st 64).wb.length, q.opa != 9,
       ((lacks codeLeaf).fillFor 1).isSome, ((lacks e1).fillFor 1).isSome, !(lacks e1).hasLine (.glob 1), leafTid e1 == 5 && leafW e1, leafTid codeLeaf == 0,
       (two true false).hasLine (.glob 2), ((two true false).line (.glob 2)).first, !((two false false).line (.glob 2)).first,
       (two false false).mem.lines.all (fun l => !l.first), disc.mem.discs.find? (fun d => d.id == 60 && d.left.contains 11) == some d, disc.mem.monitors == [],
       disc.pairOpen 0 19 && (List.range 8).all (fun lane => disc.returnOpen (disc.viaOf 0 19) lane 19 0),
       !mid.accessesBefore 7 0 (areq 127 7 (.entry 1 2)), (mid.nextArrival 135 15).isSome] : List Bool).all id) = true := by
  decide +kernel
/-- MatrixEngines, values: sums of terms that are nothing, exact, and cut off on either side of 0; an MMA that computes, its rows read; a
block that fits its planes, one that needs a further exponent, and one of a NaN; PLANE and UNPLANE of one row. -/
theorem test_meets_matrix_values :
    (let lo (ts : List Term) : Int := (ts.foldl (fun m t => max m (t.2 + (t.1.natAbs.log2 : Int))) (-10000)) - 117
     let exact (ts : List Term) : Bool := ts.all (fun t => decide (lo ts ≤ t.2) || decide ((2 ^ (lo ts - t.2).toNat : Int) ∣ t.1))
     let wh (ts : List Term) : Int := (ts.map (fun t => if lo ts ≤ t.2 then t.1 * 2 ^ (t.2 - lo ts).toNat else t.1 / 2 ^ (lo ts - t.2).toNat)).sum
     let cut (a : Int) : List Term := [(a, 0), (1, -200)]
     let q (n : Nat) : List Word := (quads.drop (4 * n)).take 4 |>.map (BitVec.ofNat 32)
     let m : MItem := { planeItem with id := 60, word := .mma (W 2 0 1) (X 0), qd := q 2, qa := q 0, qb := q 1 }
     let base := host.plotBase (group false 3)
     let vs (l : List Nat) : List FVal := l.map Fmt.f32.unpack
     let fits (p : Nat) (ex : Int) (l : List Nat) : Bool := (vs l).all (fun v => match v with
       | .fin s a e => (let r : Int := (roundTo 0 s a e ex false).1; let i := if s then -r else r; decide (-(2 ^ (p - 1)) ≤ i) && decide (i ≤ 2 ^ (p - 1) - 1))
       | _ => true)
     let plane := Quad.of (q 4)
     let row : Quad := { Quad.of (q 3) with rows := 1 }
     let rd : Rd := fun _ n => List.replicate n 0
     ([exact [(3, -1), (1, 30)], 0 ≤ wh [(3, -1), (1, 30)], exact [(-3, -1)], !exact (cut 1), 0 ≤ wh (cut 1), !exact (cut (-1)), wh (cut (-1)) < 0,
       (Quad.of m.qd).rows == (Quad.of m.qa).rows, ((host.rowsB m base).map (·.length)) == some 32, 1 ≤ (Quad.of m.qa).p, (Quad.of m.qa).kind == 0,
       (match host.computeItem m base (host.rowsB m base) with | .ok ws _ _ => ws.length == 1 | .format _ => false),
       fits 4 0 [0x40A00000, 0xBF400000], !fits 4 0 [0x40F33333, 0x40400000], expOf 5 0 == 2, (Fmt.f32.unpack 0x7FC00000).isNan,
       ((planeAll 8 1 row plane rd).map (·.length)) != none, ((planeAll 11 1 row { plane with p := 4 } rd).map (·.length)) != none,
       ((unplaneAll 8 1 0 false plane row rd).map (·.length)) == some 1] : List Bool).all id) = true := by decide +kernel
/-- MatrixEngines, a sheaf that has been read: one member, which computes on B and passes. -/
theorem test_meets_sheaf_members :
    (let q (n : Nat) : List Word := (quads.drop (4 * n)).take 4 |>.map (BitVec.ofNat 32)
     let m : MItem := { planeItem with id := 60, word := .mma (WX 2 0 1) (X 0), qd := q 2, qa := q 0, qb := q 1 }
     let s := clustered (fun c => { c with sheaves := c.sheaves.set 7 ⟨.reading, [m], 0, 0, 3⟩ })
     let base := s.plotBase (group false 3)
     ([(((s.cluster 0).sheaves.getD 7 Sheaf.free).members) == [m], (group false 3).counter .omx + 1 ≤ 255, s.badB m base == none, s.clashB m == none,
       m.ownRecs.all (fun r => (s.badRecs r.1 base r.2).isNone), (s.launch 3).failing == 0,
       s.allGroups.all (fun x => x.arch.threads.all (fun t => t.wait.isNone && t.susp.isNone)),
       (match s.computeItem m base (s.rowsB m base) with | .ok _ _ _ => true | .format _ => false)] : List Bool).all id) = true := by decide +kernel
/-- GroupsComeAndGo and PlotsMoveAndRecover: a stuck group without holds and with its handler set; a rollback of a resident plot and of a
saved one; victims that the host may name, with and without space in their context's pool. -/
theorem test_meets_rollbacks_and_victims :
    (let pool (n : Nat) (s : State) : State := { s with ctxs := [{ ctx with savebase := 0x100000, savesize := n }] }
     let hi : Launch := { launch with lid := 9, prio := 9 }
     let s (n : Nat) : State := pool n { host with launches := [launch, hi], mbox := { host.mbox with pending := [.victims 9 0] } }
     let rolling (st : PlotSt) : State := { host with
       plots := [{ plot with rolling := true, st := st }]
       groups := [{ group false 3 with shadow := some (group false 3).arch, place := if st == .saved then .saved else .slot 0 }] }
     let stuck := codeGroup false
     ([stuck.dloads == [] && stuck.holds == [] && stuck.place != .saved, ((trapSt (fun t => { t with handler := true, hset := 7 }) demo).cur.trap.hset) == 7,
       (s 0x100000).evictable plot, (s 0).evictable plot, (s 0).victimUnit plot == [plot], ((s 0).launch 3).prio < ((s 0).launch 9).prio,
       (State.stopPlots [plot] (s 0)).isNone, (State.stopPlots [plot] (s 0x100000)).isSome,
       ([2].map (fun pid => (s 0).plots.find? (fun p => p.pid == pid))) == [some plot],
       (rolling .resident).rollMay ((rolling .resident).plot 2) && (rolling .resident).reviveRoom ((rolling .resident).plot 2),
       (rolling .saved).rollMay ((rolling .saved).plot 2), ((rolling .saved).plot 2).st == .saved, (rolling .resident).groups.all (fun g => g.shadow.isSome),
       (host.feServes (host.plot 2).savePa (host.plot 2).saveLen), !(rolling .resident).issue.active, (host.plot 2).pid == 2, (host.launch 3).lid == 3,
       host.launches.any (fun l => l.lid == 3), plot.alloc == 1] : List Bool).all id) = true := by decide +kernel
/-- QueuesAndLaunches: a cancelled queue of two entries; entries where there is no memory and in bad memory; a completion whose add is made,
and one that cannot be. -/
theorem test_meets_queue_entries :
    (let two : State := dreg (qBlock 5 + 20) 1 (dreg (qBlock 5 + 12) 2 { base with launches := [], plots := [], groups := [] })
     let away : State := dreg (qBlock 5) (2 ^ 55) two
     let bad : State := { two with mem := { two.mem with ecc := [(0, 3)] } }
     let l : Launch := { launch with image := BitVec.ofNat 2048 (640 * 2 ^ 512) }
     let s (pages : List TlbEnt) : State := { base with launches := [l], groups := [], plots := [{ plot with st := .ended }], mem := { base.mem with tlb := pages } }
     ([two.cancelServes 5, min (two.qwaiting 5) (two.qsize 5) == 2, two.feServes (two.entryPa 5 0) 256, two.feServes (two.entryPa 5 0) 4, !bit (two.regN 0x200) 1,
       !populated (away.entryPa 5 (away.qhead 5)), 3 ≤ bad.eccClass (bad.entryPa 5 (bad.qhead 5)) 256, populated (two.entryPa 5 0), !two.homeDead (paTarget (two.entryPa 5 0)),
       (match (s [⟨.engine 64, 0, 0, codeLeaf⟩]).completionAdd l 1 with | .ok (_, some _) => true | _ => false),
       (match (s []).completionAdd l 1 with | .ok (_, none) => true | _ => false), (s []).launchOver l,
       (s []).feServes ((s []).entryPa l.queue l.entry) 4] : List Bool).all id) = true := by decide +kernel
/-- ContextsWindowsStreams, the phases of a boundary: slots that grow and that have retired, with and without a counter; slots that need no
page, get one and wait for one; requests that are not there, that are bad, that find no slot, and that are admitted; entries of a stream that
is off, of a full ring and of one with room. The pieces of memory that a phase names lie apart. -/
theorem test_meets_Hayward_phases :
    (let d : HDesc := ⟨0, 0, 0, 2, 2, 1, 4, 0x1000, 0x2000, 0x2080, 0x2084, 0x3000, 2, 2, 5, 0x4000, 0x4200, false⟩
     let z : State := cached ([0, 32, 33, 64, 65, 96, 97, 128, 129, 132, 160, 256, 257] : List Nat) (dreg 0x18 1 (dreg (qBlock 0) 0x8000 State.reset))
     let mem (ws : List (Nat × Nat × Nat)) : Hay := ⟨{ z with mem := { z.mem with glob := ws.foldl (fun m w => m.writeN w.1 (bytesOf w.2.1 w.2.2)) Memory.empty } }, 0, false⟩
     let clear (zs : List (Nat × Nat)) : Bool := (zs.mapIdx (fun i r => (i, r))).all (fun r => (zs.mapIdx (fun i q => (i, q))).all (fun q =>
       q.1 ≤ r.1 || r.2.1 + r.2.2 ≤ q.2.1 || q.2.1 + q.2.2 ≤ r.2.1)) && zs.all (fun q => !z.homeDead (paTarget q.1))
     let free (n : Nat) : List (Nat × Nat × Nat) := [(0x2084, 4, n)]
     let seq (st len pages : Nat) : List (Nat × Nat × Nat) := [(0x1000, 4, st), (0x1004, 4, len), (0x1034, 4, pages)]
     let req (c len total : Nat) : List (Nat × Nat × Nat) := [(0x3040, 4, c), (0x3044, 4, len), (0x3048, 4, total)]
     let held (h : Option Hay) : Bool := match h with | some k => k.held | none => true
     let admits (ws : List (Nat × Nat × Nat)) (ns : List Nat) : Bool := match Hay.admitFrom d 3 5 [] (mem ws) with | some r => !r.2.held && r.1 == ns | none => false
     let full : Hay := ⟨dreg (qBlock 0 + 12) 16 z, 0, false⟩
     ([clear [(44, 4), (0x3040, 64), (0x1000, 256), (0x2080, 4), (0x2084, 4), (0x2000, 32)], clear [(0x4200, 8), (0x4000, 256), (0x8000, 256)],
       clear [(0x1000, 128), (0x2084, 4), (0x2000, 32), (0x5000, 8)],
       !(Hay.grow d (mem (seq 1 7 2)) 0).held, !(Hay.grow d (mem (seq 0x101 7 2)) 0).held, !(Hay.retire d (mem (seq 1 7 2)) 0).held,
       !(Hay.retire d (mem (seq 0x101 7 2)) 0).held, !(Hay.retire d (mem (seq 0x101 7 2 ++ [(0x1078, 8, 0x5000)])) 0).held,
       !held (Hay.needPage d (mem (seq 1 7 2)) 0), !held (Hay.needPage d (mem (seq 1 8 2)) 0), !held (Hay.needPage d (mem (seq 1 8 2 ++ free 1)) 0),
       admits [] [], admits (req 1 7 65) [], admits (req 1 7 16) [], admits (req 1 7 16 ++ free 2 ++ [(0x2008, 8, 2 ^ 32)]) [0],
       admits (req 1 7 16 ++ free 2 ++ [(0x1000, 4, 1), (0x1080, 4, 1), (0x2008, 8, 2 ^ 32)]) [], !(Hay.going d (mem (seq 1 7 2)) [0, 1]).2.held,
       (Hay.nextStep d 0 [] (mem [])).isSome, (Hay.nextStep d 1 [0] (mem [])).isSome, (Hay.nextStep d 0 [0] full).isNone, !held (Hay.nextStep d 0 [0] (mem [])),
       State.reset.contextServes 4095, !bit (State.reset.regN 0x200) 1, z.streamIdle 0] : List Bool).all id) = true := by decide +kernel
/-- ColourMap: changes that complete with a heater in its margin, and with none; heaters that ride the other colour at once. -/
theorem test_meets_margins :
    (let off := cmapOff 21 20
     let z (m : Nat) (ms : List (Nat × Nat × Bool)) : State := dreg off m { State.reset with ras := { State.reset.ras with margins := ms } }
     ([(z 0x70000 []).cmapPend 21 20, (z 0x70000 []).carrierOk 21 20, (z 0x70000 [(21, 20, true)]).cmapPend 21 20, (z 0x70000 [(21, 20, true)]).cmapMode 21 20 == 0,
       !(z 0x70000 [(21, 20, true)]).fsplit 4, !(z 0x70000 [(21, 20, true)]).gated 21, (z 0x70000 [(21, 20, true)]).relays 21 20 == [],
       (z 0x70000 [(21, 20, true)]).ras.recentring == [], !State.reset.cmapRefused 21 20 1 true 0, State.reset.cmapMode 21 20 == 0,
       (z 0x70000 []).cmapRefused 21 20 1 true 0] : List Bool).all id) = true := by decide +kernel
/-- HostAndBoot: writes that do not wait, at the edges of the register file; a device that a failed boot has left with its mailbox alone; a
list of bad sectors; a stage of which ROM accepts the image or not. -/
theorem test_meets_registers :
    (let poisoned : State := { ready with mem := { ready.mem with poison := [5, 7] } }
     ([!ready.writeWaits 0 1, !ready.writeWaits 0xFFFFFC 0, !ready.writeWaits 0x10 (2 ^ 12 + 5), !ready.writeWaits (0x10000 + 20) 2, !bit (ready.regN 0x310) 31,
       bit ((dreg 0x200 2 ready).regN 0x200) 1, poisoned.mem.poison.length == 2, poisoned.mem.poison[1]? == some 7, !ready.hostLate 0x100 8, ready.hostRange 0x100 8,
       bit 65 6, !bit 63 6] : List Bool).all id) = true := by decide +kernel
/-- PeerPorts, the device's own accesses: one that is routed and sent, one that no port takes, one that waits for its port; times that have
passed. -/
theorem test_meets_remotes :
    (let m (sent busy : Bool) (rid : Nat) (kind : PeerKind) : Remote := ⟨77, 1, 9, 0, sent, 0, 0, kind, 2 ^ 50, 1, rid, 0, 0, busy⟩
     let s (x : Remote) (cycle : Nat) : State := 
       { peered with groups := host.groups, sched := { peered.sched with cycle := cycle }, peers := { peered.peers with remotes := [x], table := [(9, [], 0)] } }
     let routed : State := dreg (0x31000 + 8 * 1) (1 + 9 * 256) peered
     let load : Group := { group false 3 with loads := [ldRec (far (2 ^ 50)) .unsent] }
     let training : State := dreg (pctl 0) 0x510 (s (m false false 50 .store) 0)
     let find (t : State) (sent : Bool) : Bool := (t.peers.remotes.find? (fun r => r.id == 77 && r.sent)).isSome == sent
     ([find (s (m true false 50 .load) 0) true, find (s (m false false 50 .load) 0) false, (s (m true false 50 .load) 0).portState 0 == 2,
       (routed.peerRoute 1 (2 ^ 50)).isSome, routed.devid != 0, routed.field (0x31000 + 8) 7 0 == 1, (peered.peerRoute 5 0).isNone,
       (training.portState 0) == 1, training.peers.remotes.all (fun r => !r.sent), ((s (m true false 50 .load) 0).peers.remotes.map (·.id)).Nodup,
       0 + 2000 * 0 + 1000000 ≤ (s (m true false 50 .load) 1000000).sched.cycle, 0 + 100000000 ≤ (s (m true true 50 .load) 100000000).sched.cycle,
       (s (m true false 50 .load) 8000000).peers.table.any (fun x => x.1 == 9 && decide (x.2.2 + 8000000 ≤ 8000000)),
       (load.load 50).isSome, (load.holdRec 50).isNone, (m true false 50 .load).rid != 0, peered.field 0x4A0 1 0 == 0] : List Bool).all id) = true := by decide +kernel
/-- RepairAndChiplets: rows one activation below their limit and at it, an alert to take, and what may be drained and reset. -/
theorem test_meets_alerts :
    (let s (n : Nat) : State := { State.reset with ras := { State.reset.ras with acts := [((homeMc 0x100, Config.rowOf 0x100), n)], raised := [(11, 3)] } }
     ([max 512 ((s 0).field 0x488 15 0) == 4096, (s 0).ras.raised.contains (11, 3), (s 0).chipState 20 == 0 && (s 0).chipState 21 == 0,
       (dreg (chipctl 0) 32 (s 0)).chipState 0 == 2, (dreg 0x4A0 1 (s 0)).field 0x4A0 1 0 == 1, (host.launches.any (fun l => l.lid == 3)),
       (host.plots.any (fun p => p.pid == 2)), !bit ((s 0).regN 0x200) 1] : List Bool).all id) = true := by decide +kernel

/-! The words that the spec writes out as examples. -/

/-- Example words of the Plough stream, with the fields that the spec gives them (the worked examples and entries of 05 to 16). -/
theorem test_example_plough_0 : ([
    (0x904182E8, none, .iadd ⟨true, 2, 3, 1, false, 58, false, false⟩),
    (0x2AE20B18, none, .fmul ⟨false, 7, 4, 5, true, 6, false, false⟩),
    (0x52E39010, none, .lds ⟨false, 7, 7, 8, false, 4, false, false⟩),
    (0x2BE48208, some 0xFF0D4000, .ffma ⟨false, 7, 9, 1, false, 2, false, false⟩ ⟨true, 0x0D4000⟩),
    (0x06E00000, none, .exit ⟨false, 7, 0, 0, false, 0, false, false⟩),
    (0x1EE0840C, some 0x7F000012, .icmp ⟨false, 7, 1, 2, false, 3, false, false⟩ ⟨false, 0x000012⟩),
    (0x26E38600, some 0x7F000908, .bfx ⟨false, 7, 7, 3, false, 0, false, false⟩ ⟨false, 0x000908⟩),
    (0x58E60840, some 0x7F840000, .ldWide ⟨false, 7, 12, 4, false, 16, false, false⟩ ⟨false, 0x840000⟩),
    (0x59E488FF, some 0x7F23FFFF, .stWide ⟨false, 7, 9, 4, false, 63, true, true⟩ ⟨false, 0x23FFFF⟩),
    (0x60E4881C, some 0x7F000000, .atom ⟨false, 7, 9, 4, false, 7, false, false⟩ ⟨false, 0x000000⟩),
    (0x66E00003, none, .waito ⟨false, 7, 0, 0, false, 0, true, true⟩),
    (0x64E48800, some 0x7F040001, .waita ⟨false, 7, 9, 4, false, 0, false, false⟩ ⟨false, 0x040001⟩),
    (0x6BE30410, none, .kbarr ⟨false, 7, 6, 2, false, 4, false, false⟩),
    (0x6CE38418, none, .kbwait ⟨false, 7, 7, 2, false, 6, false, false⟩),
    (0x70E20A00, some 0x7F000A01, .plane ⟨false, 7, 4, 5, false, 0, false, false⟩ ⟨false, 0x000A01⟩),
    (0x72E1020D, some 0x7F400315, .mma ⟨false, 7, 2, 1, false, 3, false, true⟩ ⟨false, 0x400315⟩),
    (0x73E48401, none, .nanr ⟨false, 7, 9, 2, false, 0, false, true⟩),
    (0x5EE10801, none, .hld ⟨false, 7, 2, 4, false, 0, false, true⟩),
    (0x76E09000, none, .hseed ⟨false, 7, 1, 8, false, 0, false, false⟩),
    (0x77E00204, none, .hbund ⟨false, 7, 0, 1, false, 1, false, false⟩)] : List (Word × Option Word × Instr)).all
    (fun e => e.2.2.wf && decodePlough e.1 e.2.1 == .ok (e.2.2, if e.2.1.isSome then 2 else 1)) = true := by decide +kernel

/-- Example words of the Plough stream, with the fields that the spec gives them (the worked examples and entries of 05 to 16). -/
theorem test_example_plough_20 : ([
    (0x79E30208, none, .hdist ⟨false, 7, 6, 1, false, 2, false, false⟩),
    (0x7AE00618, none, .hgwr ⟨false, 7, 0, 3, false, 6, false, false⟩),
    (0x7BE20609, some 0x7F140000, .hqry ⟨false, 7, 4, 3, false, 2, false, true⟩ ⟨false, 0x140000⟩),
    (0x1DE50000, some 0x7F3F8000, .moviWide ⟨false, 7, 10, 0, false, 0, false, false⟩ ⟨false, 0x3F8000⟩),
    (0x0DE18003, none, .csrr ⟨false, 7, 3, 0, false, 0, true, true⟩),
    (0x19E6060D, none, .shli ⟨false, 7, 12, 3, false, 3, false, true⟩),
    (0x10E20831, none, .iadd ⟨false, 7, 4, 4, false, 12, false, true⟩),
    (0x013FFFFF, none, .bra ⟨false, 1, 63, 63, true, 63, true, true⟩),
    (0x43E59034, none, .shfl ⟨false, 7, 11, 8, false, 13, false, false⟩),
    (0x69E01C00, none, .msync ⟨false, 7, 0, 14, false, 0, false, false⟩),
    (0x39E8A000, none, .rsq ⟨false, 7, 17, 16, false, 0, false, false⟩),
    (0x1FE88044, some 0x7F0C0000, .sel ⟨false, 7, 17, 0, false, 17, false, false⟩ ⟨false, 0x0C0000⟩),
    (0x0FE18401, none, .qent ⟨false, 7, 3, 2, false, 0, false, true⟩),
    (0x1CEDB400, some 0x7F000002, .bitc ⟨false, 7, 27, 26, false, 0, false, false⟩ ⟨false, 0x000002⟩),
    (0x7C81B60C, none, .stopt ⟨false, 4, 3, 27, false, 3, false, false⟩),
    (0x7DE00614, none, .sret ⟨false, 7, 0, 3, false, 5, false, false⟩),
    (0x51FB6A00, some 0x7F600000, .stpWide ⟨false, 7, 54, 53, false, 0, false, false⟩ ⟨false, 0x600000⟩),
    (0x05E06C00, none, .ret ⟨false, 7, 0, 54, false, 0, false, false⟩)] : List (Word × Option Word × Instr)).all
    (fun e => e.2.2.wf && decodePlough e.1 e.2.1 == .ok (e.2.2, if e.2.1.isSome then 2 else 1)) = true := by decide +kernel

/-- Example words of the Drill stream, with the fields that the spec gives them (the worked examples and entries of 05 to 16). -/
theorem test_example_drill_0 : ([
    (0x14FD0CE0, some 0x7F800000, .dgath ⟨false, 7, 58, 6, false, 56, false, false⟩ ⟨false, 0x800000⟩),
    (0x16E3F00C, none, .dqbr ⟨false, 7, 7, 56, false, 3, false, false⟩),
    (0x0AE18004, none, .amovi ⟨false, 7, 3, 0, false, 1, false, false⟩),
    (0x03E08000, some 0x7F000002, .dloop ⟨false, 7, 1, 0, false, 0, false, false⟩ ⟨false, 0x000002⟩),
    (0x10FC8400, some 0x7F800000, .dldWide ⟨false, 7, 57, 2, false, 0, false, false⟩ ⟨false, 0x800000⟩),
    (0x04E00414, none, .dnext ⟨false, 7, 0, 2, false, 5, false, false⟩),
    (0x02E00000, none, .dend ⟨false, 7, 0, 0, false, 0, false, false⟩),
    (0x17E00815, none, .dcopy ⟨false, 7, 0, 4, false, 5, false, true⟩),
    (0x15FC0001, none, .dpush ⟨false, 7, 56, 0, false, 0, false, true⟩)] : List (Word × Option Word × Instr)).all
    (fun e => e.2.2.wf && decodeDrill e.1 e.2.1 == .ok (e.2.2, if e.2.1.isSome then 2 else 1)) = true := by decide +kernel

/-! Worked examples. -/

/-- 02, four lines: memory chiplet, pseudo-channel and address-hash lane; 14: the line at 0x0040_0700. -/
theorem test_four_lines : ([0x400000, 0x400080, 0x400100, 0x400800] : List Nat).map (fun a => (homeMc a, pseudoChannel a, hashLane a)) =
    [(0, 22, 0), (0, 22, 1), (1, 22, 2), (4, 21, 2)] ∧ homeMc 0x400700 = 7 ∧ hashLane 0x400700 = 7 := by decide +kernel
/-- 03, crossing the wrap: steps 1 and 2, and the stale stamp of line y. -/
theorem test_crossing_the_wrap : tmax 0xFFFFFFF6 (0xFFFFFFF9 + 10) = 0x00000003 ∧ tmax 0xFFFFFFFA 0x00000004 = 0x00000004 ∧
    unstale 0x80000100 0x3FFF0000 = 0x40000100 := by decide +kernel
/-- The register that lane `l` holds after a word that completes. -/
def gives (o : Host.Outcome State Fault Refusal) (l n v : Nat) : Bool :=
  next o (fun t => ((t.cur.thread l).getV n).val == BitVec.ofNat 32 v)
/-- 07, narrowing to E4M3 with saturation: v8 becomes 0x017F_AA7E, and UF and NX are set. -/
theorem test_fcvt_e4m3 :
    (let o := exec (.fcvt (WX 8 2 4) (X 0xD8)) (reg 0 2 0x43FA0000 (reg 0 3 0xBE99999A (reg 0 4 0x7FC00000 (reg 0 5 0x3A83126F solo))))
     gives o 0 8 0x017FAA7E && next o (fun t => t.cur.arch.fpmode == 0x1800)) = true := by decide +kernel
/-- 07, exact-total saturation: the total, the clamp, and the total modulo 2^32. -/
theorem test_idp4_total :
    (let s (v2 : Nat) : State := reg 0 2 v2 (reg 0 3 0x7F7F7F7F (reg 0 4 0x7FFFFFF0 solo))
     gives (exec (.idp4 (WX 10 2 3) (X 0x100003)) (s 0x80807F7F)) 0 10 0x7FFFFEF2 &&
     gives (exec (.idp4 (WX 10 2 3) (X 0x100003)) (s 0x7F7F7F7F)) 0 10 0x7FFFFFFF &&
     gives (exec (.idp4 (W 10 2 3) (X 0x100003)) (s 0x7F7F7F7F)) 0 10 0x8000FBF4) = true := by decide +kernel
/-- 06, SCAN.fadd in two tiles: eight lanes in tiles of four, lane 6 guarded off. -/
theorem test_scan_fadd :
    (let g := group false 8
     let s0 := base.issueState { g with arch := { g.arch with part := 2 } } false 255 ⟨0, 0⟩
     let vals : List Nat := [0x4B800000, 0x3F800000, 0x3F800000, 0xCB800000, 0x40A00000, 0x40E00000, 0x42C80000, 0x3F800000]
     let s := (List.range 8).foldl (fun s l => if l == 6 then s else predOn l 3 s) ((vals.mapIdx (fun l v => (l, v))).foldl (fun s p => reg p.1 2 p.2 s) s0)
     let w (d : Nat) : PW := { W d 2 0 with g := 3 }
     let all (o : Host.Outcome State Fault Refusal) (d : Nat) (l : List Nat) : Bool := (l.mapIdx (fun i v => gives o i d v)).all id
     let o := exec (.scan (w 4) (X 8)) s
     all o 4 [0x4B800000, 0x4B800000, 0x4B800000, 0x3F800000, 0x40A00000, 0x41400000, 0, 0x41500000] &&
     next o (fun t => t.cur.arch.fpmode == 0x1000) &&
     all (exec (.scan (w 6) (X 0x18)) s) 6 [0x80000000, 0x4B800000, 0x4B800000, 0x4B800000, 0x80000000, 0x40A00000, 0, 0x41400000] &&
     all (exec (.red (w 5) (X 8)) s) 5 [0x3F800000, 0x3F800000, 0x3F800000, 0x3F800000, 0x41500000, 0x41500000, 0, 0x41500000]) = true := by
  decide +kernel
/-- 04, one X4 block: elements −6 and 6, plane integers −3 and 3, block exponent 1; four planes are too few for type 1. -/
theorem test_x4_block :
    (let line : List Byte := (((List.replicate 128 0).set 0 0x3B).set 120 0x64).set 125 0xFE
     (List.range 2).map (fun k => x4ToF32 (x4Elem line 0 k)) == [0xC0C00000, 0x40C00000] &&
     (match x4Blocks 5 1 line with
      | some [b] => b.1.take 2 == [-3, 3] && b.2.1 == 1
      | _ => false) && (x4Blocks 4 1 line).isNone) = true := by decide +kernel
/-- 04, two FP32 blocks with four planes: A keeps E = 0, and B needs E = 1. -/
theorem test_fp_blocks :
    (let blk (l : List Nat) : PBlock := toBfp 4 false ((l ++ List.replicate (48 - l.length) 0).map Fmt.f32.unpack)
     let a := blk [0x40A00000, 0xBF400000, 0x3DCCCCCD, 0x3F800000]
     let b := blk [0x40F33333, 0x40400000]
     a.1.take 4 == [5, -1, 0, 1] && a.2.1 == 0 && b.1.take 2 == [4, 2] && b.2.1 == 1) = true := by decide +kernel
/-- 04, one rounding: 1.5 + 2^30 − 2^30 is 1.5. -/
theorem test_one_rounding : mmaRound false [(1, 30), (-1, 30), (3, -1)] = 0x3FC00000 := by decide +kernel

/-! A word of every opcode, with fields written out bit by bit from the layouts of 05 R122 and R123. -/

theorem test_decode_plough_00 : ([
    (0x80A2ACA5, none, .nop ⟨true, 5, 5, 22, false, 41, false, true⟩),
    (0x81C747C1, none, .bra ⟨true, 6, 14, 35, true, 48, false, true⟩),
    (0x82EBE0DF, none, .call ⟨true, 7, 23, 48, false, 55, true, true⟩),
    (0x83107BFB, none, .jmpi ⟨true, 0, 32, 61, true, 62, true, true⟩),
    (0x84349414, none, .calli ⟨true, 1, 41, 10, false, 5, false, false⟩),
    (0x85592F30, none, .ret ⟨true, 2, 50, 23, true, 12, false, false⟩),
    (0x867DC84E, none, .exit ⟨true, 3, 59, 36, false, 19, true, false⟩),
    (0x8782636A, none, .yield ⟨true, 4, 4, 49, true, 26, true, false⟩)] : List (Word × Option Word × Instr)).all
    (fun e => decodePlough e.1 e.2.1 == .ok (e.2.2, if e.2.1.isSome then 2 else 1)) = true := by decide +kernel
theorem test_decode_plough_08 : ([
    (0x88A2ACA5, none, .trap ⟨true, 5, 5, 22, false, 41, false, true⟩),
    (0x89C747C1, none, .eret ⟨true, 6, 14, 35, true, 48, false, true⟩),
    (0x8AEBE0DF, none, .cinit ⟨true, 7, 23, 48, false, 55, true, true⟩),
    (0x8B107BFB, none, .csign ⟨true, 0, 32, 61, true, 62, true, true⟩),
    (0x8C349414, none, .cwait ⟨true, 1, 41, 10, false, 5, false, false⟩),
    (0x8D592F30, none, .csrr ⟨true, 2, 50, 23, true, 12, false, false⟩),
    (0x8E7DC84E, none, .csrw ⟨true, 3, 59, 36, false, 19, true, false⟩),
    (0x8F82636A, none, .qent ⟨true, 4, 4, 49, true, 26, true, false⟩)] : List (Word × Option Word × Instr)).all
    (fun e => decodePlough e.1 e.2.1 == .ok (e.2.2, if e.2.1.isSome then 2 else 1)) = true := by decide +kernel
theorem test_decode_plough_10 : ([
    (0x90A2ACA5, none, .iadd ⟨true, 5, 5, 22, false, 41, false, true⟩),
    (0x91C747C1, none, .isub ⟨true, 6, 14, 35, true, 48, false, true⟩),
    (0x92EBE0DF, none, .imul ⟨true, 7, 23, 48, false, 55, true, true⟩),
    (0x93107BFB, none, .imulh ⟨true, 0, 32, 61, true, 62, true, true⟩),
    (0x14349414, some 0xFFDEA075, .imad ⟨false, 1, 41, 10, false, 5, false, false⟩ ⟨true, 0xDEA075⟩),
    (0x95592F30, none, .imin ⟨true, 2, 50, 23, true, 12, false, false⟩),
    (0x967DC84E, none, .imax ⟨true, 3, 59, 36, false, 19, true, false⟩),
    (0x1782636A, some 0xFF11D3A8, .xmov ⟨false, 4, 4, 49, true, 26, true, false⟩ ⟨true, 0x11D3A8⟩)] : List (Word × Option Word × Instr)).all
    (fun e => decodePlough e.1 e.2.1 == .ok (e.2.2, if e.2.1.isSome then 2 else 1)) = true := by decide +kernel
theorem test_decode_plough_18 : ([
    (0x98A2ACA5, none, .iaddi ⟨true, 5, 5, 22, false, 41, false, true⟩),
    (0x18C747C1, some 0xFFAB6D42, .iaddiWide ⟨false, 6, 14, 35, true, 48, false, true⟩ ⟨true, 0xAB6D42⟩),
    (0x99EBE0DF, none, .shli ⟨true, 7, 23, 48, false, 55, true, true⟩),
    (0x9A107BFB, none, .shri ⟨true, 0, 32, 61, true, 62, true, true⟩),
    (0x9B349414, none, .sari ⟨true, 1, 41, 10, false, 5, false, false⟩),
    (0x1C592F30, some 0xFFEFB186, .bitc ⟨false, 2, 50, 23, true, 12, false, false⟩ ⟨true, 0xEFB186⟩),
    (0x9D7DC84E, none, .movi ⟨true, 3, 59, 36, false, 19, true, false⟩),
    (0x1D82636A, some 0xFF11D3A8, .moviWide ⟨false, 4, 4, 49, true, 26, true, false⟩ ⟨true, 0x11D3A8⟩),
    (0x1EA6FC85, some 0xFF22E4B9, .icmp ⟨false, 5, 13, 62, false, 33, false, true⟩ ⟨true, 0x22E4B9⟩),
    (0x1FCB17A1, some 0xFF33F5CA, .sel ⟨false, 6, 22, 11, true, 40, false, true⟩ ⟨true, 0x33F5CA⟩)] : List (Word × Option Word × Instr)).all
    (fun e => decodePlough e.1 e.2.1 == .ok (e.2.2, if e.2.1.isSome then 2 else 1)) = true := by decide +kernel
theorem test_decode_plough_20 : ([
    (0xA0A2ACA5, none, .and ⟨true, 5, 5, 22, false, 41, false, true⟩),
    (0xA1C747C1, none, .or ⟨true, 6, 14, 35, true, 48, false, true⟩),
    (0xA2EBE0DF, none, .xor ⟨true, 7, 23, 48, false, 55, true, true⟩),
    (0xA3107BFB, none, .shl ⟨true, 0, 32, 61, true, 62, true, true⟩),
    (0xA4349414, none, .shr ⟨true, 1, 41, 10, false, 5, false, false⟩),
    (0xA5592F30, none, .sar ⟨true, 2, 50, 23, true, 12, false, false⟩),
    (0x267DC84E, some 0xFF00C297, .bfx ⟨false, 3, 59, 36, false, 19, true, false⟩ ⟨true, 0x00C297⟩),
    (0x2782636A, some 0xFF11D3A8, .bfi ⟨false, 4, 4, 49, true, 26, true, false⟩ ⟨true, 0x11D3A8⟩)] : List (Word × Option Word × Instr)).all
    (fun e => decodePlough e.1 e.2.1 == .ok (e.2.2, if e.2.1.isSome then 2 else 1)) = true := by decide +kernel
theorem test_decode_plough_28 : ([
    (0xA8A2ACA5, none, .fadd ⟨true, 5, 5, 22, false, 41, false, true⟩),
    (0x28C747C1, some 0xFFAB6D42, .faddWide ⟨false, 6, 14, 35, true, 48, false, true⟩ ⟨true, 0xAB6D42⟩),
    (0xA9EBE0DF, none, .fsub ⟨true, 7, 23, 48, false, 55, true, true⟩),
    (0x29107BFB, some 0xFFCD8F64, .fsubWide ⟨false, 0, 32, 61, true, 62, true, true⟩ ⟨true, 0xCD8F64⟩),
    (0xAA349414, none, .fmul ⟨true, 1, 41, 10, false, 5, false, false⟩),
    (0x2A592F30, some 0xFFEFB186, .fmulWide ⟨false, 2, 50, 23, true, 12, false, false⟩ ⟨true, 0xEFB186⟩),
    (0x2B7DC84E, some 0xFF00C297, .ffma ⟨false, 3, 59, 36, false, 19, true, false⟩ ⟨true, 0x00C297⟩),
    (0xAC82636A, none, .fmin ⟨true, 4, 4, 49, true, 26, true, false⟩),
    (0xADA6FC85, none, .fmax ⟨true, 5, 13, 62, false, 33, false, true⟩),
    (0x2ECB17A1, some 0xFF33F5CA, .fcmp ⟨false, 6, 22, 11, true, 40, false, true⟩ ⟨true, 0x33F5CA⟩),
    (0x2FEFB0BF, some 0xFF4506DB, .fsgn ⟨false, 7, 31, 24, false, 47, true, true⟩ ⟨true, 0x4506DB⟩)] : List (Word × Option Word × Instr)).all
    (fun e => decodePlough e.1 e.2.1 == .ok (e.2.2, if e.2.1.isSome then 2 else 1)) = true := by decide +kernel
theorem test_decode_plough_30 : ([
    (0xB0A2ACA5, none, .hadd ⟨true, 5, 5, 22, false, 41, false, true⟩),
    (0x30C747C1, some 0xFFAB6D42, .haddWide ⟨false, 6, 14, 35, true, 48, false, true⟩ ⟨true, 0xAB6D42⟩),
    (0xB1EBE0DF, none, .hsub ⟨true, 7, 23, 48, false, 55, true, true⟩),
    (0x31107BFB, some 0xFFCD8F64, .hsubWide ⟨false, 0, 32, 61, true, 62, true, true⟩ ⟨true, 0xCD8F64⟩),
    (0xB2349414, none, .hmul ⟨true, 1, 41, 10, false, 5, false, false⟩),
    (0x32592F30, some 0xFFEFB186, .hmulWide ⟨false, 2, 50, 23, true, 12, false, false⟩ ⟨true, 0xEFB186⟩),
    (0x337DC84E, some 0xFF00C297, .hfma ⟨false, 3, 59, 36, false, 19, true, false⟩ ⟨true, 0x00C297⟩),
    (0xB482636A, none, .hmin ⟨true, 4, 4, 49, true, 26, true, false⟩),
    (0xB5A6FC85, none, .hmax ⟨true, 5, 13, 62, false, 33, false, true⟩),
    (0x36CB17A1, some 0xFF33F5CA, .fcvt ⟨false, 6, 22, 11, true, 40, false, true⟩ ⟨true, 0x33F5CA⟩),
    (0x37EFB0BF, some 0xFF4506DB, .icvt ⟨false, 7, 31, 24, false, 47, true, true⟩ ⟨true, 0x4506DB⟩)] : List (Word × Option Word × Instr)).all
    (fun e => decodePlough e.1 e.2.1 == .ok (e.2.2, if e.2.1.isSome then 2 else 1)) = true := by decide +kernel
theorem test_decode_plough_38 : ([
    (0xB8A2ACA5, none, .rcp ⟨true, 5, 5, 22, false, 41, false, true⟩),
    (0x38C747C1, some 0xFFAB6D42, .rcpWide ⟨false, 6, 14, 35, true, 48, false, true⟩ ⟨true, 0xAB6D42⟩),
    (0xB9EBE0DF, none, .rsq ⟨true, 7, 23, 48, false, 55, true, true⟩),
    (0x39107BFB, some 0xFFCD8F64, .rsqWide ⟨false, 0, 32, 61, true, 62, true, true⟩ ⟨true, 0xCD8F64⟩),
    (0xBA349414, none, .sqrt ⟨true, 1, 41, 10, false, 5, false, false⟩),
    (0x3A592F30, some 0xFFEFB186, .sqrtWide ⟨false, 2, 50, 23, true, 12, false, false⟩ ⟨true, 0xEFB186⟩),
    (0xBB7DC84E, none, .ex2 ⟨true, 3, 59, 36, false, 19, true, false⟩),
    (0x3B82636A, some 0xFF11D3A8, .ex2Wide ⟨false, 4, 4, 49, true, 26, true, false⟩ ⟨true, 0x11D3A8⟩),
    (0xBCA6FC85, none, .lg2 ⟨true, 5, 13, 62, false, 33, false, true⟩),
    (0x3CCB17A1, some 0xFF33F5CA, .lg2Wide ⟨false, 6, 22, 11, true, 40, false, true⟩ ⟨true, 0x33F5CA⟩),
    (0xBDEFB0BF, none, .sinp ⟨true, 7, 31, 24, false, 47, true, true⟩),
    (0x3D144BDB, some 0xFF5617EC, .sinpWide ⟨false, 0, 40, 37, true, 54, true, true⟩ ⟨true, 0x5617EC⟩),
    (0xBE38E4F4, none, .cosp ⟨true, 1, 49, 50, false, 61, false, false⟩),
    (0x3E5D7F10, some 0xFF783A0E, .cospWide ⟨false, 2, 58, 63, true, 4, false, false⟩ ⟨true, 0x783A0E⟩),
    (0xBF61982E, none, .tanh ⟨true, 3, 3, 12, false, 11, true, false⟩),
    (0x3F86334A, some 0xFF9A5C30, .tanhWide ⟨false, 4, 12, 25, true, 18, true, false⟩ ⟨true, 0x9A5C30⟩)] : List (Word × Option Word × Instr)).all
    (fun e => decodePlough e.1 e.2.1 == .ok (e.2.2, if e.2.1.isSome then 2 else 1)) = true := by decide +kernel
theorem test_decode_plough_40 : ([
    (0xC0A2ACA5, none, .vany ⟨true, 5, 5, 22, false, 41, false, true⟩),
    (0xC1C747C1, none, .vall ⟨true, 6, 14, 35, true, 48, false, true⟩),
    (0xC2EBE0DF, none, .vbal ⟨true, 7, 23, 48, false, 55, true, true⟩),
    (0xC3107BFB, none, .shfl ⟨true, 0, 32, 61, true, 62, true, true⟩),
    (0xC4349414, none, .shup ⟨true, 1, 41, 10, false, 5, false, false⟩),
    (0xC5592F30, none, .shdn ⟨true, 2, 50, 23, true, 12, false, false⟩),
    (0xC67DC84E, none, .shxr ⟨true, 3, 59, 36, false, 19, true, false⟩),
    (0x4782636A, some 0xFF11D3A8, .scan ⟨false, 4, 4, 49, true, 26, true, false⟩ ⟨true, 0x11D3A8⟩)] : List (Word × Option Word × Instr)).all
    (fun e => decodePlough e.1 e.2.1 == .ok (e.2.2, if e.2.1.isSome then 2 else 1)) = true := by decide +kernel
theorem test_decode_plough_48 : ([
    (0x48A2ACA5, some 0xFF9A5C31, .red ⟨false, 5, 5, 22, false, 41, false, true⟩ ⟨true, 0x9A5C31⟩),
    (0xC9C747C1, none, .matchv ⟨true, 6, 14, 35, true, 48, false, true⟩),
    (0xCAEBE0DF, none, .elect ⟨true, 7, 23, 48, false, 55, true, true⟩),
    (0x4B107BFB, some 0xFFCD8F64, .idp4 ⟨false, 0, 32, 61, true, 62, true, true⟩ ⟨true, 0xCD8F64⟩),
    (0x4C349414, some 0xFFDEA075, .idp8 ⟨false, 1, 41, 10, false, 5, false, false⟩ ⟨true, 0xDEA075⟩)] : List (Word × Option Word × Instr)).all
    (fun e => decodePlough e.1 e.2.1 == .ok (e.2.2, if e.2.1.isSome then 2 else 1)) = true := by decide +kernel
theorem test_decode_plough_50 : ([
    (0xD0A2ACA5, none, .ldp ⟨true, 5, 5, 22, false, 41, false, true⟩),
    (0x50C747C1, some 0xFFAB6D42, .ldpWide ⟨false, 6, 14, 35, true, 48, false, true⟩ ⟨true, 0xAB6D42⟩),
    (0xD1EBE0DF, none, .stp ⟨true, 7, 23, 48, false, 55, true, true⟩),
    (0x51107BFB, some 0xFFCD8F64, .stpWide ⟨false, 0, 32, 61, true, 62, true, true⟩ ⟨true, 0xCD8F64⟩),
    (0xD2349414, none, .lds ⟨true, 1, 41, 10, false, 5, false, false⟩),
    (0x52592F30, some 0xFFEFB186, .ldsWide ⟨false, 2, 50, 23, true, 12, false, false⟩ ⟨true, 0xEFB186⟩),
    (0xD37DC84E, none, .sts ⟨true, 3, 59, 36, false, 19, true, false⟩),
    (0x5382636A, some 0xFF11D3A8, .stsWide ⟨false, 4, 4, 49, true, 26, true, false⟩ ⟨true, 0x11D3A8⟩),
    (0xD4A6FC85, none, .ldc ⟨true, 5, 13, 62, false, 33, false, true⟩),
    (0x54CB17A1, some 0xFF33F5CA, .ldcWide ⟨false, 6, 22, 11, true, 40, false, true⟩ ⟨true, 0x33F5CA⟩),
    (0xD5EFB0BF, none, .stc ⟨true, 7, 31, 24, false, 47, true, true⟩),
    (0x55144BDB, some 0xFF5617EC, .stcWide ⟨false, 0, 40, 37, true, 54, true, true⟩ ⟨true, 0x5617EC⟩),
    (0xD638E4F4, none, .ldx ⟨true, 1, 49, 50, false, 61, false, false⟩),
    (0x565D7F10, some 0xFF783A0E, .ldxWide ⟨false, 2, 58, 63, true, 4, false, false⟩ ⟨true, 0x783A0E⟩),
    (0xD761982E, none, .stx ⟨true, 3, 3, 12, false, 11, true, false⟩),
    (0x5786334A, some 0xFF9A5C30, .stxWide ⟨false, 4, 12, 25, true, 18, true, false⟩ ⟨true, 0x9A5C30⟩)] : List (Word × Option Word × Instr)).all
    (fun e => decodePlough e.1 e.2.1 == .ok (e.2.2, if e.2.1.isSome then 2 else 1)) = true := by decide +kernel
theorem test_decode_plough_58 : ([
    (0xD8A2ACA5, none, .ld ⟨true, 5, 5, 22, false, 41, false, true⟩),
    (0x58C747C1, some 0xFFAB6D42, .ldWide ⟨false, 6, 14, 35, true, 48, false, true⟩ ⟨true, 0xAB6D42⟩),
    (0xD9EBE0DF, none, .st ⟨true, 7, 23, 48, false, 55, true, true⟩),
    (0x59107BFB, some 0xFFCD8F64, .stWide ⟨false, 0, 32, 61, true, 62, true, true⟩ ⟨true, 0xCD8F64⟩),
    (0xDA349414, none, .pref ⟨true, 1, 41, 10, false, 5, false, false⟩),
    (0x5A592F30, some 0xFFEFB186, .prefWide ⟨false, 2, 50, 23, true, 12, false, false⟩ ⟨true, 0xEFB186⟩),
    (0xDB7DC84E, none, .discard ⟨true, 3, 59, 36, false, 19, true, false⟩),
    (0xDC82636A, none, .tagset ⟨true, 4, 4, 49, true, 26, true, false⟩),
    (0x5CA6FC85, some 0xFF22E4B9, .tagsetWide ⟨false, 5, 13, 62, false, 33, false, true⟩ ⟨true, 0x22E4B9⟩),
    (0x5DCB17A1, some 0xFF33F5CA, .redm ⟨false, 6, 22, 11, true, 40, false, true⟩ ⟨true, 0x33F5CA⟩),
    (0xDEEFB0BF, none, .hld ⟨true, 7, 31, 24, false, 47, true, true⟩),
    (0x5E144BDB, some 0xFF5617EC, .hldWide ⟨false, 0, 40, 37, true, 54, true, true⟩ ⟨true, 0x5617EC⟩),
    (0xDF38E4F4, none, .hst ⟨true, 1, 49, 50, false, 61, false, false⟩),
    (0x5F5D7F10, some 0xFF783A0E, .hstWide ⟨false, 2, 58, 63, true, 4, false, false⟩ ⟨true, 0x783A0E⟩)] : List (Word × Option Word × Instr)).all
    (fun e => decodePlough e.1 e.2.1 == .ok (e.2.2, if e.2.1.isSome then 2 else 1)) = true := by decide +kernel
theorem test_decode_plough_60 : ([
    (0x60A2ACA5, some 0xFF9A5C31, .atom ⟨false, 5, 5, 22, false, 41, false, true⟩ ⟨true, 0x9A5C31⟩),
    (0x61C747C1, some 0xFFAB6D42, .atomx ⟨false, 6, 14, 35, true, 48, false, true⟩ ⟨true, 0xAB6D42⟩),
    (0x62EBE0DF, some 0xFFBC7E53, .cas ⟨false, 7, 23, 48, false, 55, true, true⟩ ⟨true, 0xBC7E53⟩),
    (0x63107BFB, some 0xFFCD8F64, .casx ⟨false, 0, 32, 61, true, 62, true, true⟩ ⟨true, 0xCD8F64⟩),
    (0x64349414, some 0xFFDEA075, .waita ⟨false, 1, 41, 10, false, 5, false, false⟩ ⟨true, 0xDEA075⟩),
    (0x65592F30, some 0xFFEFB186, .waitc ⟨false, 2, 50, 23, true, 12, false, false⟩ ⟨true, 0xEFB186⟩),
    (0xE67DC84E, none, .waito ⟨true, 3, 59, 36, false, 19, true, false⟩),
    (0xE782636A, none, .sbar ⟨true, 4, 4, 49, true, 26, true, false⟩)] : List (Word × Option Word × Instr)).all
    (fun e => decodePlough e.1 e.2.1 == .ok (e.2.2, if e.2.1.isSome then 2 else 1)) = true := by decide +kernel
theorem test_decode_plough_68 : ([
    (0xE8A2ACA5, none, .pbar ⟨true, 5, 5, 22, false, 41, false, true⟩),
    (0xE9C747C1, none, .msync ⟨true, 6, 14, 35, true, 48, false, true⟩),
    (0xEAEBE0DF, none, .kbinit ⟨true, 7, 23, 48, false, 55, true, true⟩),
    (0xEB107BFB, none, .kbarr ⟨true, 0, 32, 61, true, 62, true, true⟩),
    (0xEC349414, none, .kbwait ⟨true, 1, 41, 10, false, 5, false, false⟩),
    (0xED592F30, none, .kbinv ⟨true, 2, 50, 23, true, 12, false, false⟩),
    (0xEE7DC84E, none, .send ⟨true, 3, 59, 36, false, 19, true, false⟩),
    (0xEF82636A, none, .recv ⟨true, 4, 4, 49, true, 26, true, false⟩)] : List (Word × Option Word × Instr)).all
    (fun e => decodePlough e.1 e.2.1 == .ok (e.2.2, if e.2.1.isSome then 2 else 1)) = true := by decide +kernel
theorem test_decode_plough_70 : ([
    (0x70A2ACA5, some 0xFF9A5C31, .plane ⟨false, 5, 5, 22, false, 41, false, true⟩ ⟨true, 0x9A5C31⟩),
    (0x71C747C1, some 0xFFAB6D42, .unplane ⟨false, 6, 14, 35, true, 48, false, true⟩ ⟨true, 0xAB6D42⟩),
    (0x72EBE0DF, some 0xFFBC7E53, .mma ⟨false, 7, 23, 48, false, 55, true, true⟩ ⟨true, 0xBC7E53⟩),
    (0xF3107BFB, none, .nanr ⟨true, 0, 32, 61, true, 62, true, true⟩),
    (0xF4349414, none, .hbind ⟨true, 1, 41, 10, false, 5, false, false⟩),
    (0xF5592F30, none, .hperm ⟨true, 2, 50, 23, true, 12, false, false⟩),
    (0xF67DC84E, none, .hseed ⟨true, 3, 59, 36, false, 19, true, false⟩),
    (0xF782636A, none, .hbund ⟨true, 4, 4, 49, true, 26, true, false⟩)] : List (Word × Option Word × Instr)).all
    (fun e => decodePlough e.1 e.2.1 == .ok (e.2.2, if e.2.1.isSome then 2 else 1)) = true := by decide +kernel
theorem test_decode_plough_78 : ([
    (0xF8A2ACA5, none, .hthr ⟨true, 5, 5, 22, false, 41, false, true⟩),
    (0xF9C747C1, none, .hdist ⟨true, 6, 14, 35, true, 48, false, true⟩),
    (0xFAEBE0DF, none, .hgwr ⟨true, 7, 23, 48, false, 55, true, true⟩),
    (0x7B107BFB, some 0xFFCD8F64, .hqry ⟨false, 0, 32, 61, true, 62, true, true⟩ ⟨true, 0xCD8F64⟩),
    (0xFC349414, none, .stopt ⟨true, 1, 41, 10, false, 5, false, false⟩),
    (0xFD592F30, none, .sret ⟨true, 2, 50, 23, true, 12, false, false⟩)] : List (Word × Option Word × Instr)).all
    (fun e => decodePlough e.1 e.2.1 == .ok (e.2.2, if e.2.1.isSome then 2 else 1)) = true := by decide +kernel
theorem test_decode_drill_00 : ([
    (0x80A2ACA5, none, .dnop ⟨true, 5, 5, 22, false, 41, false, true⟩),
    (0x81C747C1, none, .dbra ⟨true, 6, 14, 35, true, 48, false, true⟩),
    (0x82EBE0DF, none, .dend ⟨true, 7, 23, 48, false, 55, true, true⟩),
    (0x03107BFB, some 0xFFCD8F64, .dloop ⟨false, 0, 32, 61, true, 62, true, true⟩ ⟨true, 0xCD8F64⟩),
    (0x84349414, none, .dnext ⟨true, 1, 41, 10, false, 5, false, false⟩),
    (0x85592F30, none, .dwaito ⟨true, 2, 50, 23, true, 12, false, false⟩)] : List (Word × Option Word × Instr)).all
    (fun e => decodeDrill e.1 e.2.1 == .ok (e.2.2, if e.2.1.isSome then 2 else 1)) = true := by decide +kernel
theorem test_decode_drill_08 : ([
    (0x887DC84E, none, .aadd ⟨true, 3, 59, 36, false, 19, true, false⟩),
    (0x8982636A, none, .aaddi ⟨true, 4, 4, 49, true, 26, true, false⟩),
    (0x09A6FC85, some 0xFF22E4B9, .aaddiWide ⟨false, 5, 13, 62, false, 33, false, true⟩ ⟨true, 0x22E4B9⟩),
    (0x8ACB17A1, none, .amovi ⟨true, 6, 22, 11, true, 40, false, true⟩),
    (0x0AEFB0BF, some 0xFF4506DB, .amoviWide ⟨false, 7, 31, 24, false, 47, true, true⟩ ⟨true, 0x4506DB⟩),
    (0x8B144BDB, none, .ashli ⟨true, 0, 40, 37, true, 54, true, true⟩),
    (0x8C38E4F4, none, .amul ⟨true, 1, 49, 50, false, 61, false, false⟩)] : List (Word × Option Word × Instr)).all
    (fun e => decodeDrill e.1 e.2.1 == .ok (e.2.2, if e.2.1.isSome then 2 else 1)) = true := by decide +kernel
theorem test_decode_drill_10 : ([
    (0x905D7F10, none, .dld ⟨true, 2, 58, 63, true, 4, false, false⟩),
    (0x1061982E, some 0xFF894B1F, .dldWide ⟨false, 3, 3, 12, false, 11, true, false⟩ ⟨true, 0x894B1F⟩),
    (0x9186334A, none, .dldx ⟨true, 4, 12, 25, true, 18, true, false⟩),
    (0x11AACC65, some 0xFFAB6D41, .dldxWide ⟨false, 5, 21, 38, false, 25, false, true⟩ ⟨true, 0xAB6D41⟩),
    (0x92CF6781, none, .dlds ⟨true, 6, 30, 51, true, 32, false, true⟩),
    (0x12F3809F, some 0xFFCD8F63, .dldsWide ⟨false, 7, 39, 0, false, 39, true, true⟩ ⟨true, 0xCD8F63⟩),
    (0x93181BBB, none, .dldc ⟨true, 0, 48, 13, true, 46, true, true⟩),
    (0x133CB4D4, some 0xFFEFB185, .dldcWide ⟨false, 1, 57, 26, false, 53, false, false⟩ ⟨true, 0xEFB185⟩),
    (0x14414FF0, some 0xFF00C296, .dgath ⟨false, 2, 2, 39, true, 60, false, false⟩ ⟨true, 0x00C296⟩),
    (0x9565E80E, none, .dpush ⟨true, 3, 11, 52, false, 3, true, false⟩),
    (0x968A032A, none, .dqbr ⟨true, 4, 20, 1, true, 10, true, false⟩),
    (0x97AE9C45, none, .dcopy ⟨true, 5, 29, 14, false, 17, false, true⟩)] : List (Word × Option Word × Instr)).all
    (fun e => decodeDrill e.1 e.2.1 == .ok (e.2.2, if e.2.1.isSome then 2 else 1)) = true := by decide +kernel
theorem test_decode_drill_18 : ([
    (0x98D33761, none, .dpref ⟨true, 6, 38, 27, true, 24, false, true⟩),
    (0x18F7D07F, some 0xFF5617EB, .dprefWide ⟨false, 7, 47, 40, false, 31, true, true⟩ ⟨true, 0x5617EB⟩)] : List (Word × Option Word × Instr)).all
    (fun e => decodeDrill e.1 e.2.1 == .ok (e.2.2, if e.2.1.isSome then 2 else 1)) = true := by decide +kernel
/-- The opcodes that the maps leave unassigned. -/
theorem test_decode_unassigned : ([0x4D, 0x4E, 0x4F, 0x7E] : List Nat).all
    (fun op => decodePlough (BitVec.ofNat 32 (op * 2 ^ 24 + 0xE00000)) none == .error .unassigned) = true := by decide +kernel
theorem test_decode_unassigned_drill : ((List.range 127).filter (fun op =>
    decodeDrill (BitVec.ofNat 32 (op * 2 ^ 24 + 0xE00000)) (some 0x7F000000) != .error .unassigned)) = [0x00, 0x01, 0x02, 0x03, 0x04, 0x05, 0x08, 0x09, 0x0A, 0x0B, 0x0C, 0x10, 0x11, 0x12, 0x13, 0x14, 0x15, 0x16, 0x17, 0x18] := by decide +kernel

end Sys2Proof.Tests
end

section
/-! SUPPORT. The words of the Drill stream: the fields of a word are read back from it (05 R121, R123), the Drill map decodes it (05 R140),
and its check is that of its fields (10 R217). -/

namespace Sys2Proof

/-! Fields and words. -/

@[simp] theorem PW.ofWord_toWord (w : PW) (op : BitVec 7) : PW.ofWord (w.toWord op) = w := by
  simp (disch := decide) only [PW.ofWord, PW.toWord, BitVec.extractLsb'_append_eq_of_le, BitVec.extractLsb'_append_eq_of_add_le,
    BitVec.extractLsb'_eq_self, BitVec.getLsbD_append, BitVec.getLsbD_ofBool, Nat.reduceSub, Nat.reduceLT, if_true, if_false, decide_true,
    Bool.true_and]
@[simp] theorem PX.ofWord_toWord (x : PX) : PX.ofWord x.toWord = x := by
  simp (disch := decide) only [PX.ofWord, PX.toWord, BitVec.extractLsb'_append_eq_of_add_le, BitVec.extractLsb'_eq_self,
    BitVec.getLsbD_append, BitVec.getLsbD_ofBool, Nat.reduceSub, Nat.reduceLT, if_false, decide_true, Bool.true_and]
@[simp] theorem opOf_toWord (w : PW) (op : BitVec 7) : opOf (w.toWord op) = op.toNat := by
  simp (disch := decide) only [opOf, PW.toWord, BitVec.extractLsb'_append_eq_of_le, BitVec.extractLsb'_append_eq_of_add_le,
    BitVec.extractLsb'_eq_self, Nat.reduceSub]
@[simp] theorem isExt_toWord (x : PX) : isExt x.toWord = true := by
  simp (disch := decide) only [isExt, opOf, PX.toWord, BitVec.extractLsb'_append_eq_of_le, BitVec.extractLsb'_append_eq_of_add_le,
    BitVec.extractLsb'_eq_self, Nat.reduceSub]
  rfl

/-- The words of one opcode name their fields. -/
theorem PW.toWord_inj {v w : PW} {op : BitVec 7} : v.toWord op = w.toWord op ↔ v = w :=
  ⟨fun h => by rw [← PW.ofWord_toWord v op, h, PW.ofWord_toWord], fun h => h ▸ rfl⟩

/-! The Drill map. -/

section
variable {op : BitVec 7} {f : PW → Instr} {g : PW → PX → Instr}

/-- No opcode with a cell of the Drill map is that of an extension. -/
theorem not_isExt_of_drillMap (w : PW) (h : mapCell drillMap op.toNat ≠ .none) : isExt (w.toWord op) = false := by
  rw [isExt, opOf_toWord, beq_eq_false_iff_ne]
  intro hop
  exact h (by rw [hop]; rfl)
theorem decodeDrill_word (h : mapCell drillMap op.toNat = .word f) (w : PW) (next : Option Word) :
    decodeDrill (w.toWord op) next = .ok (f w, 1) := by
  simp [decodeDrill, decodeIn, not_isExt_of_drillMap w (by rw [h]; nofun), h]
theorem decodeDrill_narrow (h : mapCell drillMap op.toNat = .both f g) (w : PW) : decodeDrill (w.toWord op) none = .ok (f w, 1) := by
  simp [decodeDrill, decodeIn, not_isExt_of_drillMap w (by rw [h]; nofun), h]
theorem decodeDrill_wide (h : mapCell drillMap op.toNat = .both f g) (w : PW) (x : PX) :
    decodeDrill (w.toWord op) (some x.toWord) = .ok (g w x, 2) := by
  simp [decodeDrill, decodeIn, Option.filter, not_isExt_of_drillMap w (by rw [h]; nofun), h]

end

/-! The check of a word. -/

/-- The check of a Drill word: C is 0, G is 7, its fields are of their classes, and X is 0 where it means nothing. -/
theorem fD_wordOk (w : PW) (d a b : FC) (x ok : Bool) (vc : BitVec 6) (cm : Bool) :
    (fD w d a b x ok).wordOk w vc cm =
      (ok && !w.c && w.g == 7 && d.ok w.d false && a.ok w.a w.am && b.ok w.b w.bm && (x || !w.x)) := by
  simp [fD, Info.wordOk, FC.ok]

/-- The check of a word with an address register as destination and as first source (10 R220). -/
theorem fD_areg_wordOk (w : PW) (b : FC) (x ok : Bool) (vc : BitVec 6) (cm : Bool) :
    (fD w .areg .areg b x ok).wordOk w vc cm =
      (!w.c && w.g == 7 && w.d.toNat < 16 && w.a.toNat < 16 && !w.am && b.ok w.b w.bm && (x || !w.x) && ok) := by
  rw [fD_wordOk]
  simp only [FC.ok, Bool.not_false, Bool.and_true]
  ac_rfl
/-- The check of a word with an address register as destination and no source but an immediate (10 R220). -/
theorem fD_areg_zero_wordOk (w : PW) (ok : Bool) (vc : BitVec 6) (cm : Bool) :
    (fD w .areg .zero .imm true ok).wordOk w vc cm =
      (!w.c && w.g == 7 && w.d.toNat < 16 && w.a.toNat < 16 && !w.am && w.a == 0 && ok) := by
  have ha : (w.a.toNat == 0) = (decide (w.a.toNat < 16) && w.a == 0) := by
    rw [Bool.eq_iff_iff]
    simp +contextual [← BitVec.toNat_inj]
  rw [fD_wordOk]
  simp only [FC.ok, ha, Bool.not_false, Bool.and_true, Bool.true_or]
  ac_rfl

/-- The fields of a Drill word whose body is 0 (10 R221). -/
def PW.bare : PW := ⟨false, 7, 0, 0, false, 0, false, false⟩

/-- A Drill word that uses none of its fields is legal with body 0 alone. -/
theorem fD_zero_wordOk_iff (w : PW) : (fD w .zero .zero .zero false true).wordOk w 0 false = true ↔ w = PW.bare := by
  obtain ⟨c, g, d, a, am, b, bm, x⟩ := w
  simp [fD_wordOk, FC.ok, PW.bare, ← BitVec.toNat_inj, and_assoc]

end Sys2Proof
end

section
/-! SUPPORT. What a word of the Drill stream that can issue does: it executes its body from the state in which the stream stands after
it, within the limits of 17 R329. -/

namespace Sys2Proof.Machine
open Sys2Proof

/-! Positions and numbers. -/

theorem pc52_eq (x : DWord) : pc52 x = (x.setWidth 52).setWidth 64 := by
  apply BitVec.eq_of_toNat_eq
  have h : (0xFFFFFFFFFFFFF : DWord).toNat = 2 ^ 52 - 1 := rfl
  rw [pc52, BitVec.toNat_and, h, Nat.and_two_pow_sub_one_eq_mod, BitVec.toNat_setWidth, BitVec.toNat_setWidth]
  omega
theorem shiftLeft_eq_mul (v : DWord) (n : Nat) : v <<< n = BitVec.ofNat 64 (v.toNat * 2 ^ n) := by
  apply BitVec.eq_of_toNat_eq
  rw [BitVec.toNat_shiftLeft, Nat.shiftLeft_eq, BitVec.toNat_ofNat]
theorem ushiftRight_eq_div (v : DWord) (n : Nat) : v >>> n = BitVec.ofNat 64 (v.toNat / 2 ^ n) := by
  apply BitVec.eq_of_toNat_eq
  rw [BitVec.toNat_ushiftRight, Nat.shiftRight_eq_div_pow, BitVec.toNat_ofNat,
    Nat.mod_eq_of_lt (Nat.lt_of_le_of_lt (Nat.div_le_self _ _) v.isLt)]
theorem sshiftRight_eq_div (v : DWord) (n : Nat) : v.sshiftRight n = BitVec.ofInt 64 (v.toInt / 2 ^ n) := by
  rw [BitVec.sshiftRight, Int.shiftRight_eq_div_pow]
  norm_cast

/-! The frame of a Drill word. -/

/-- A Drill word that can issue is executed by its body, within the limits of 17 R329. -/
theorem runDrill_of_canDrill {i : Instr} {s : State} (body : State → Res State) (h : s.canDrill i = true) :
    runDrill i s body = .next (s.finishWord i ((body (s.drillEntry i)).bind fun t =>
      if inRange (s.launch s.cur.lid).dentry t.cur.arch.drill.pos.pc then .ok t else .trap (Trap.of 0x20))) := by
  simp only [State.canDrill, Bool.and_eq_true, Bool.not_eq_true'] at h
  obtain ⟨⟨⟨hactive, hdrill⟩, hlegal⟩, -⟩ := h
  simp only [runDrill, hactive, hdrill, Bool.and_self, if_true, State.drillRes, hlegal, Bool.false_eq_true, if_false, State.drillEntry]
theorem State.inRange_of_canDrill {s : State} {i : Instr} (h : s.canDrill i = true) :
    inRange (s.launch s.cur.lid).dentry (s.issue.pos.after i.width).pc = true := by
  simp only [State.canDrill, Bool.and_eq_true] at h
  exact h.2
/-- A Drill word whose body changes the stream's own state and nothing else, and leaves the stream within the limits. -/
theorem runDrill_updDrill {i : Instr} {s : State} {body : State → Res State} {f : DrillSt → DrillSt} (h : s.canDrill i = true)
    (hbody : body (s.drillEntry i) = .ok (s.updDrill f))
    (hpos : inRange (s.launch s.cur.lid).dentry (f s.cur.arch.drill).pos.pc = true) :
    runDrill i s body = .next (s.issued i (s.updDrill f)) := by
  have hpos' : inRange (s.launch s.cur.lid).dentry (s.updDrill f).cur.arch.drill.pos.pc = true := hpos
  rw [runDrill_of_canDrill body h, hbody]
  simp only [Res.bind, hpos', if_true, State.finishWord, State.issued]
/-- A word of address arithmetic writes its destination register, and the stream stands after it. -/
theorem drills_areg {i : Instr} {w : PW} {val f : State → DWord} (hx : ∀ s, exec i s = runAreg i s w val)
    (hval : ∀ s : State, val (s.drillEntry i) = f s) : Drills i (fun s d => { d with a := d.a.set w.d.toNat (f s) }) := by
  intro s h
  rw [hx, runAreg]
  exact runDrill_updDrill h (by rw [hval]; rfl) (State.inRange_of_canDrill h)

end Sys2Proof.Machine
end

section
/-! The statements about the Drill stream's control words and its address arithmetic (10 R220, R221). -/

namespace Sys2Proof.Machine
open Sys2Proof

/-- Settles O42: DNOP and DEND are legal with body 0 alone, and each control word changes the stream's own state as its body has it. -/
theorem drillControl : Obligations.DrillControl := by
  refine ⟨fun w => (fD_zero_wordOk_iff w).trans (PW.toWord_inj (w := PW.bare)).symm,
    fun w => (fD_zero_wordOk_iff w).trans (PW.toWord_inj (w := PW.bare)).symm,
    fun w => ⟨decodeDrill_word rfl w none, decodeDrill_word rfl w none, decodeDrill_word rfl w none⟩, fun w => ⟨?_, ?_, ?_, ?_⟩⟩
  · intro s h
    exact runDrill_updDrill h rfl (State.inRange_of_canDrill h)
  · intro s target h htarget
    refine runDrill_updDrill h ?_ htarget
    simp only [branchTarget, pc52_eq]
    rfl
  · intro s h hpos
    exact runDrill_updDrill h rfl hpos
  · intro s g hended
    simp [State.drillMay, hended]

/-- Settles O43: each word of address arithmetic writes what 10 R220 has it write, by its decoding, its check and its body. -/
theorem drillArithmetic : Obligations.DrillArithmetic := by
  intro w x da imm n writes
  refine ⟨decodeDrill_word rfl w none, decodeDrill_word rfl w none, decodeDrill_narrow rfl w, decodeDrill_wide rfl w x,
    decodeDrill_narrow rfl w, decodeDrill_wide rfl w x, decodeDrill_word rfl w none,
    (fD_areg_wordOk ..).trans ?_, (fD_areg_wordOk ..).trans ?_, (fD_areg_wordOk ..).trans ?_, (fD_areg_wordOk ..).trans ?_,
    (fD_areg_zero_wordOk ..).trans ?_, (fD_areg_zero_wordOk ..).trans ?_, (fD_areg_wordOk ..).trans ?_,
    drills_areg (fun _ => rfl) fun _ => rfl, drills_areg (fun _ => rfl) fun _ => rfl, drills_areg (fun _ => rfl) fun _ => rfl,
    drills_areg (fun _ => rfl) fun _ => rfl, drills_areg (fun _ => rfl) fun _ => rfl, drills_areg (fun _ => rfl) fun _ => rfl,
    drills_areg (fun _ => rfl) fun s => ?_⟩
  · simp [da, FC.ok, Bool.and_assoc]
  · simp [da, FC.ok, Bool.and_assoc]
  · simp [da, FC.ok]
  · simp [da, FC.ok]
  · simp [da]
  · simp [da]
  · have himm : decide (w.imm8.toNat < 192) = (w.imm8.toNat / 64 != 3) := by
      have := w.imm8.isLt
      rw [Bool.eq_iff_iff, decide_eq_true_iff, bne_iff_ne]
      omega
    simp [da, FC.ok, himm]
  · dsimp only
    generalize w.imm8.toNat / 64 = kind
    match kind with
    | 0 => exact shiftLeft_eq_mul _ _
    | 1 => exact ushiftRight_eq_div _ _
    | _ + 2 => exact sshiftRight_eq_div _ _

end Sys2Proof.Machine
end

section
/-! SUPPORT. The words of the Plough stream: the Plough map decodes a word of one opcode (05 R139), and the check of a format A word is
that of its fields (05 R121, R138). -/

namespace Sys2Proof

section
variable {op : BitVec 7} {f : PW → Instr}

/-- No opcode with a cell of the Plough map is that of an extension. -/
theorem not_isExt_of_ploughMap (w : PW) (h : mapCell ploughMap op.toNat ≠ .none) : isExt (w.toWord op) = false := by
  rw [isExt, opOf_toWord, beq_eq_false_iff_ne]
  intro hop
  exact h (by rw [hop]; rfl)
theorem decodePlough_word (h : mapCell ploughMap op.toNat = .word f) (w : PW) (next : Option Word) :
    decodePlough (w.toWord op) next = .ok (f w, 1) := by
  simp [decodePlough, decodeIn, not_isExt_of_ploughMap w (by rw [h]; nofun), h]

end

/-- The check of a format A word: its fields are of their classes, and X is 0 where it means nothing. -/
theorem fA_wordOk (p : Pipe) (d a b : FC) (x ok : Bool) (w : PW) :
    (fA p d a b x ok).wordOk w 0 false = (ok && d.ok w.d false && a.ok w.a w.am && b.ok w.b w.bm && (x || !w.x)) := by
  simp [fA, Info.wordOk, FC.ok]

end Sys2Proof
end

section
/-! SUPPORT. Whole-vector words (12 R267), and the number of one bits by halves. -/

namespace Sys2Proof.Machine
open Sys2Proof

/-- A whole-vector word that succeeds changes the group's state outside threads and the trap state once, when a lane is active, and not
at all otherwise. -/
theorem archWord_of_runHyper {i : Instr} {s : State} {body : GArch → Nat → List Nat → State → Res State} {f : GArch → GArch}
    (h : s.canIssue i = true) (hframe : ∀ a, f a = { f a with threads := a.threads, trap := a.trap })
    (hthreads : ∀ (a : GArch) (ts : List Thread), f { a with threads := ts } = { f a with threads := ts })
    (hbody : s.lanes i ≠ [] → ∀ E : State,
      body s.snap (lowestOf (s.lanes i)) (s.lanes i) E = .ok { E with cur := { E.cur with arch := f E.cur.arch } }) :
    ∃ t, runHyper i s body = .next t ∧ ArchWord s t i (s.onward i) (fun a => if s.lanes i = [] then a else f a) := by
  have hword : ∀ E : State, (if (s.lanes i).isEmpty then Res.ok E else body s.snap (lowestOf (s.lanes i)) (s.lanes i) E) =
      .ok { E with cur := { E.cur with arch := if s.lanes i = [] then E.cur.arch else f E.cur.arch } } := by
    intro E
    by_cases hlanes : s.lanes i = []
    · simp only [hlanes, List.isEmpty_nil, if_true]
    · simp only [List.isEmpty_iff, hlanes, if_false, hbody hlanes]
  refine archWord_of h (fun a => ?_) (fun a ts => ?_) (fun E hE => Res.ok.inj (hE.symm.trans (hword _))) ⟨_, hword _⟩
  · dsimp only
    split
    · rfl
    · exact hframe a
  · dsimp only
    split
    · rfl
    · exact hthreads a ts

/-- Counting by halves counts the one bits of a number of 2^k bits. -/
theorem popcount2_eq_countP (k x : Nat) (h : x < 2 ^ 2 ^ k) : popcount2 k x = (List.range (2 ^ k)).countP x.testBit := by
  induction k generalizing x with
  | zero =>
    have hx : x < 2 := h
    interval_cases x <;> rfl
  | succ k ih =>
    have hpow : 2 ^ (k + 1) = 2 ^ k + 2 ^ k := by omega
    rw [popcount2]
    split
    next hx =>
      rw [beq_iff_eq.mp hx]
      exact (List.countP_eq_zero.mpr (by simp)).symm
    next =>
      have hhigh : x / 2 ^ 2 ^ k < 2 ^ 2 ^ k := Nat.div_lt_of_lt_mul (by rwa [← Nat.pow_add, ← hpow])
      rw [ih _ (Nat.mod_lt _ (Nat.two_pow_pos _)), ih _ hhigh, hpow, List.range_add, List.countP_append, List.countP_map]
      congr 1
      · exact List.countP_congr fun b hb => by simp [Nat.testBit_mod_two_pow, List.mem_range.mp hb]
      · exact List.countP_congr fun b _ => by simp [Nat.testBit_div_two_pow, Nat.add_comm]

theorem popcount2_toNat (k : Nat) (v : BitVec (2 ^ k)) : popcount2 k v.toNat = (List.range (2 ^ k)).countP v.getLsbD :=
  popcount2_eq_countP k v.toNat v.isLt

end Sys2Proof.Machine
end

section
/-! The statement about the hypervector distance (12 R278). -/

namespace Sys2Proof.Machine
open Sys2Proof

theorem hdist_wf_iff (w : PW) : (Instr.hdist w).wf = true ↔
    w.d.toNat < 32 ∧ w.a.toNat < 16 ∧ w.b.toNat < 16 ∧ w.am = false ∧ w.bm = false ∧ w.x = false := by
  have hwf : (Instr.hdist w).wf = (fA .mx .scal .hyp .hyp).wordOk w 0 false := rfl
  rw [hwf, fA_wordOk]
  simp only [FC.ok, Bool.and_eq_true, decide_eq_true_iff, Bool.not_eq_true', Bool.not_false, Bool.true_and, Bool.false_or, and_true]
  tauto
/-- HDIST sets its scalar once, to the bits of the exclusive-or counted one by one. -/
theorem exec_hdist (w : PW) (s : State) : exec (.hdist w) s = runHyper (.hdist w) s (fun a _ _ s =>
    .ok (s.writeScalar w.d.toNat (BitVec.ofNat 32 ((List.range 8192).countP (fun b => (a.hyp w.a ^^^ a.hyp w.b).getLsbD b))))) := by
  have hcount : ∀ v : HVec, popcount2 13 v.toNat = (List.range 8192).countP v.getLsbD := popcount2_toNat 13
  simp only [← hcount]
  rfl

/-- Settles O38: the bits of the exclusive-or, of which there are 8192, are counted by halves, and the scalar is all that the word
sets. -/
theorem hypervectorDistance : Obligations.HypervectorDistance :=
  ⟨hdist_wf_iff, fun w => decodePlough_word rfl w none, fun w =>
    ⟨fun _ => List.countP_le_length.trans_eq List.length_range,
      fun s h => exec_hdist w s ▸ archWord_of_runHyper h (fun _ => rfl) (fun _ _ => rfl) fun _ _ => rfl⟩⟩

end Sys2Proof.Machine
end
